-- ==== Sys2Proof/Word.lean ====
section
/-! DEFINITION. The word types of the Olieth D4 and their plainest arithmetic (00 R3, R8). -/

namespace Sys2Proof

/-- One byte of memory. -/
abbrev Byte := BitVec 8
/-- A 32-bit lane register (11 R268). -/
abbrev W32 := BitVec 32
/-- A 64-bit word: addresses, qwords of records. -/
abbrev W64 := BitVec 64
/-- The mask words of a troop, lane `l` at bit `l` (02 R26); the summary word is computed from them. -/
abbrev Mask := BitVec 1024

/-- `bits(v, hi, lo)` of 00 R8 for a natural number: the field of `n` bits from bit `lo`. -/
def fld (v lo n : Nat) : Nat := v / 2 ^ lo % 2 ^ n

/-- `wrapu(n, x)` of 00 R8. -/
def wrapu (n : Nat) (x : Int) : Nat := (x % (2 ^ n : Int)).toNat

/-- `wrap(n, x)` of 00 R8. -/
def wrap (n : Nat) (x : Int) : Int :=
  let u : Int := x % (2 ^ n : Int)
  if 2 * u < (2 ^ n : Int) then u else u - (2 ^ n : Int)

/-- `sat(n, x)` of 00 R8. -/
def sat (n : Nat) (x : Int) : Int := max (-(2 ^ (n - 1) : Int)) (min x ((2 ^ (n - 1) : Int) - 1))

/-- `satu(n, x)` of 00 R8. -/
def satu (n : Nat) (x : Int) : Int := max 0 (min x ((2 ^ n : Int) - 1))

end Sys2Proof
end

