-- ==== Sys2Proof/Syntax.lean ====
section
/-! DEFINITION. The instructions and steps of the Olieth D4: one constructor of `Instr` for each row of the opcode table, and the operand forms they use (06 to 12, 14, 18, 95). -/

namespace Sys2Proof

/-- The type codes of 06 R135. -/
inductive Ty where
  | void | b1 | i8 | i16 | i32 | i64 | w8 | w16 | w32 | w64
  | f16 | bf16 | f32 | f64 | addr | x2f16 | x2bf16
  | dxb4 | dxb6 | dxb8 | dxb12 | dxb16
  | pl1 | pl2 | pl4 | pl8 | pl16
  | acc | rhandle | barref | trec
  deriving DecidableEq, Repr

/-- Rounding modes (03 R59). -/
inductive Rm where
  | ne | tz | up | dn
  deriving DecidableEq, Repr

/-- Order codes (05 R105). -/
inductive Ord where
  | rlx | acq | rel | ar | sc
  deriving DecidableEq, Repr

/-- Scope codes (05 R105). -/
inductive Scope where
  | troop | camp | die | pkg | dom | sys
  deriving DecidableEq, Repr

/-- Integer conditions (07 R160). -/
inductive Cc where
  | eq | ne | lt | le | gt | ge
  deriving DecidableEq, Repr

/-- Float conditions (07 R165). -/
inductive Fcc where
  | eq | ne | lt | le | gt | ge | ord | uno | ueq | one | ult | ule | ugt | uge
  deriving DecidableEq, Repr

/-- Modes of `shfl` (07 R173). -/
inductive ShMode where
  | pick | slide | wheel | flip
  deriving DecidableEq, Repr

/-- Operations of `vote` (07 R173). -/
inductive VoteOp where
  | any | all | uni
  deriving DecidableEq, Repr

/-- Operations of `redux` and `scan` (07 R173). -/
inductive RedOp where
  | add | min | max | and | or | xor | fadd | fmin | fmax
  deriving DecidableEq, Repr

/-- Operations of `atom` (08 R183); `fadd` carries its rounding mode. -/
inductive AtomOp where
  | add | min | max | and | or | xor | xchg | cas | fadd (rm : Rm)
  deriving DecidableEq, Repr

/-- Matrix operand formats (09 R221). -/
inductive MFmt where
  | dxb4 | dxb6 | dxb8 | dxb12 | dxb16 | pl1 | pl2 | pl4 | pl8 | pl16
  deriving DecidableEq, Repr

/-- Variants of `tcopy` (09 R211). -/
inductive TVar where
  | load | planes | store
  deriving DecidableEq, Repr

/-- Sections a symbol word names (06 R140). -/
inductive Sec where
  | data | const | tensor
  deriving DecidableEq, Repr

/-- Architected registers that `sys.rd` reads (08 R202). -/
inductive SysReg where
  | laneid | width | troopid | campid | regionid | diekind | stamp | rope
  | xpc | xcause | xstat | xaddr | xmaskSum | stubv | opreq | xmask (j : Fin 32)
  deriving DecidableEq, Repr

/-- A value number of a function (06 R132). -/
abbrev Val := Nat

/-- A branch edge: target block and argument values (06 R140, 08 R195). -/
structure Edge where
  blk : Nat
  args : List Val
  deriving DecidableEq, Repr

/-- A stream specification (06 R143): element type, direction, stride and extent pairs. -/
structure StreamSpec where
  ety : Ty
  out : Bool
  pairs : List (W32 × W32)
  deriving DecidableEq, Repr

/-- The address form of the memory instructions: order, scope, optional offset word, address value (08 R179). -/
structure MemOpnd where
  ord : Ord
  sc : Scope
  off : Option W32
  a : Val
  deriving DecidableEq, Repr

/-- The fields of a native bundle header (11 R265). -/
structure Hdr where
  st : Bool
  tm : BitVec 6
  pm : BitVec 8
  op : BitVec 3
  oe : Bool
  lc : BitVec 2
  pp : Bool
  deriving DecidableEq, Repr

/-- The fields of an A, M, X or C syllable without its BASE (11 R267). -/
structure NOp where
  st : Bool
  q : Bool
  gd : BitVec 4
  dst : BitVec 7
  sa : BitVec 7
  sb : BitVec 7
  deriving DecidableEq, Repr

/-- The fields of a P syllable without its port enables (11 R277). -/
structure POp where
  st : Bool
  rb : BitVec 4
  rr : BitVec 5
  wb : BitVec 4
  wr : BitVec 5
  co : BitVec 2
  kq : BitVec 5
  gd : BitVec 4
  deriving DecidableEq, Repr

/-- A core by die, cluster and core number (01 R14). -/
structure CoreId where
  die : Nat
  cl : Nat
  core : Nat
  deriving DecidableEq, Repr

/-- A camp by launch serial number and camp index. -/
structure CampRef where
  lid : Nat
  camp : Nat
  deriving DecidableEq, Repr

/-- A troop by camp and MEMBER (02 R24). -/
structure TroopRef where
  camp : CampRef
  mem : Nat
  deriving DecidableEq, Repr

/-- A split by troop and split number. -/
structure SplitRef where
  tr : TroopRef
  sid : Nat
  deriving DecidableEq, Repr

/-- A command of the configuration path as read from its ring (14 R356); `rsv` says that a reserved field was non-zero. -/
structure Cmd where
  master : Nat
  tag : BitVec 16
  code : BitVec 8
  rsv : Bool
  a0 : W64
  a1 : W64
  a2 : W64
  a3 : W64
  a4 : W64
  a5 : W64
  a6 : W64
  deriving DecidableEq, Repr

/-- The kinds of an access by a peer or a host: `amo` names the atomic, its operand type and rounding. -/
inductive AccKind where
  | load
  | store (data : List Byte)
  | amo (op : AtomOp) (ty : Ty) (v n : W64)
  | bar (expect : Nat)
  deriving DecidableEq, Repr

/-- What the last message of a remote copy carries beside its bytes: the integrity value V where the copy
asks for one (09 R214) and the initiator's SEEN (05 R114). -/
structure LandTail where
  ck : Option W32
  seen : W64
  deriving DecidableEq, Repr

/-- Where a remote landing goes: a window address, or scratchpad of a camp named by region and camp (09 R218). -/
inductive LandTo where
  | window (wa : W64)
  | scratch (region camp : Nat) (off : Nat)
  deriving DecidableEq, Repr

/-- What a peer answers to a request (19 R428): data, a refusal, or that the barrier word is not valid. -/
inductive PeerAns where
  | ack (data : List Byte)
  | badWord
  | nack (reason : Nat)
  deriving DecidableEq, Repr

/-- Registers of the control page and the configuration path without behaviour of their own (14 R353, R355). -/
inductive HostReg where
  | htgt | crbase | cpbase
  deriving DecidableEq, Repr

/-- Apertures of a host master, and its register window (14 R352). -/
inductive Aperture where
  | tenant | physical | window
  deriving DecidableEq, Repr

/-- The site of an uncorrectable error (21 R465), one constructor per structure code. -/
inductive ErrSite where
  | lane (t : TroopRef) (l : Nat)
  | splitRec (s : SplitRef)
  | scratch (c : CampRef)
  | accStore (c : CampRef)
  | resStore (c : CampRef) (num tile : Nat)
  | cacheLine (core : CoreId)
  | swapBank (core : CoreId) (bank : Fin 2)
  | dieCtl (die : Nat)
  | llc (line : Nat) (dirty : Bool)
  | directory
  | memLine (line : Nat)
  | tcCode (page : Nat)
  | tcTable (page : Nat)
  | saveArea (c : CampRef)
  | corrected (die : Nat) (code : Nat)
  | residue (c : CampRef) (second : Bool)
  deriving DecidableEq, Repr

/-- One firmware stage presented to the boot ROM (14 R362): its image and whether both signatures verify. -/
structure Stage where
  image : List Byte
  sigs : List Byte
  deriving DecidableEq, Repr

/-- The instructions and steps of the machine, one constructor for each row of the opcode table. -/
inductive Instr where
  -- structure and control (08 R195 to R200)
  | br (e : Edge)
  | cbr (c : Val) (e1 e0 : Edge)
  | switch (ty : Ty) (v : Val) (dflt : Edge) (cases : List (W32 × Edge))
  | brx (i : Val) (es : List Edge)
  | call (f : Nat) (args : List Val)
  | ret (vs : List Val)
  | exit
  | trap (code : Byte)
  | brk
  -- constants and integers (07 R156 to R160)
  | const (ty : Ty) (v : W64)
  | constSymbol (ty : Ty) (sec : Sec) (off : BitVec 30)
  | add (ty : Ty) (a b : Val)
  | sub (ty : Ty) (a b : Val)
  | mul (ty : Ty) (a b : Val)
  | mulhi (ty : Ty) (a b : Val)
  | mad (ty : Ty) (a b c : Val)
  | div (ty : Ty) (a b : Val)
  | rem (ty : Ty) (a b : Val)
  | neg (ty : Ty) (a : Val)
  | abs (ty : Ty) (a : Val)
  | min (ty : Ty) (a b : Val)
  | max (ty : Ty) (a b : Val)
  | addsat (ty : Ty) (a b : Val)
  | subsat (ty : Ty) (a b : Val)
  | and (ty : Ty) (a b : Val)
  | or (ty : Ty) (a b : Val)
  | xor (ty : Ty) (a b : Val)
  | not (ty : Ty) (a : Val)
  | shl (ty : Ty) (a s : Val)
  | shr (ty : Ty) (a s : Val)
  | rotl (ty : Ty) (a s : Val)
  | popc (ty : Ty) (a : Val)
  | clz (ty : Ty) (a : Val)
  | ctz (ty : Ty) (a : Val)
  | brev (ty : Ty) (a : Val)
  | bfx (ty : Ty) (a p l : Val)
  | bfi (ty : Ty) (a b p l : Val)
  | cmp (ty : Ty) (cc : Cc) (a b : Val)
  | sel (ty : Ty) (c a b : Val)
  -- floating point (07 R161 to R167)
  | fadd (ty : Ty) (rm : Rm) (a b : Val)
  | fsub (ty : Ty) (rm : Rm) (a b : Val)
  | fmul (ty : Ty) (rm : Rm) (a b : Val)
  | fma (ty : Ty) (rm : Rm) (a b c : Val)
  | fdiv (ty : Ty) (rm : Rm) (a b : Val)
  | fsqrt (ty : Ty) (rm : Rm) (a : Val)
  | frsq (ty : Ty) (rm : Rm) (a : Val)
  | frcp (ty : Ty) (rm : Rm) (a : Val)
  | fexp2 (ty : Ty) (a : Val)
  | flog2 (ty : Ty) (a : Val)
  | fsin (ty : Ty) (a : Val)
  | fcos (ty : Ty) (a : Val)
  | ftanh (ty : Ty) (a : Val)
  | fmin (ty : Ty) (a b : Val)
  | fmax (ty : Ty) (a b : Val)
  | fabs (ty : Ty) (a : Val)
  | fneg (ty : Ty) (a : Val)
  | fcmp (ty : Ty) (cc : Fcc) (a b : Val)
  | fclass (ty : Ty) (a : Val)
  | fround (ty : Ty) (rm : Rm) (a : Val)
  | fcopysign (ty : Ty) (a b : Val)
  -- conversions (07 R168 to R172)
  | cvt (ty : Ty) (sat : Bool) (rm : Rm) (a : Val)
  | bitcast (ty : Ty) (a : Val)
  | pack (ty : Ty) (lo hi : Val)
  | unpack (ty : Ty) (a : Val)
  | dxbPackElem (ty : Ty) (x : Val)
  | dxbPackScale (ty : Ty) (hi : Bool) (x old : Val)
  | dxbUnpack (ty : Ty) (rm : Rm) (hi : Bool) (e sc : Val)
  -- lane operations (07 R173 to R177); `seg` is the field SX[3:0] of shfl
  | shfl (ty : Ty) (mode : ShMode) (seg : Nat) (v d : Val)
  | vote (op : VoteOp) (c : Val)
  | ballot (word : Fin 32) (c : Val)
  | redux (ty : Ty) (op : RedOp) (rm : Rm) (v : Val)
  | scan (ty : Ty) (op : RedOp) (rm : Rm) (excl : Bool) (v : Val)
  | rand (wide : Bool) (seed : Val)
  -- memory (08 R179 to R187); `n` is SUB, log2 of the element count
  | ld (ty : Ty) (m : MemOpnd)
  | st (ty : Ty) (m : MemOpnd) (v : Val)
  | ldv (ty : Ty) (n : Nat) (m : MemOpnd)
  | stv (ty : Ty) (n : Nat) (m : MemOpnd) (vs : List Val)
  | atom (ty : Ty) (op : AtomOp) (m : MemOpnd) (v : Val) (new : Option Val)
  | fence (ord : Ord) (sc : Scope)
  | prefetch (llc : Bool) (a : Val)
  | tier (cap : Bool) (a len : Val)
  -- synchronisation (08 R188 to R194)
  | barInit (sc : Scope) (b e : Val)
  | barArrive (b : Val) (n : Option Val)
  | barWait (b : Val) (ph : Option Val)
  | barTry (b ph : Val)
  | barSync (b : Val) (n : Option Val)
  | stepSync (b : Val) (n : Option Val)
  -- copy engine (09 R210 to R220); `st` says that TY = 9
  | copy (st : Bool) (sc : Scope) (dst src len : Val) (bw cv want : Option Val)
  | tcopy (var : TVar) (st : Bool) (sc : Scope) (sp tr : Val) (os : List Val) (bw cv want : Option Val)
  | copyRemote (st : Bool) (sc : Scope) (dst src len : Val) (loc bw cv want : Option Val)
  -- matrix (09 R221 to R229); `t` is the number of operand tiles minus one
  | accInit (slot : Fin 8) (ceil : Fin 16) (e : Val)
  | mma (fa fb : MFmt) (t : Fin 4) (a pa pb : Val)
  | mmaRes (fa fb : MFmt) (t : Fin 4) (a pa h j : Val)
  | accNorm (a : Val)
  | accRd (ty : Ty) (rm : Rm) (a row col : Val)
  | accRdWord (hi : Bool) (a row col : Val)
  | accWr (ty : Ty) (rm : Rm) (a row col v : Val)
  | accWrWord (hi : Bool) (a row col v : Val)
  | ropeForm (mem : Val)
  | ropeFree
  -- residencies (09 R230 to R237)
  | resPitch (sc : Scope) (tr i0 i1 tk tn num : Val)
  | resPitchAttach (num : Val)
  | resPitchRefill (num : Val)
  | resStrike (byNum : Bool) (x : Val)
  | resPin (byNum : Bool) (x : Val)
  | resUnpin (byNum : Bool) (x : Val)
  | resQuery (byNum : Bool) (x : Val)
  -- stream loops (06 R142 to R145)
  | sloop (t : Val) (specs : List StreamSpec) (bases inits : List Val)
  | sget (ty : Ty) (k : Nat)
  | sput (ty : Ty) (k : Nat) (v : Val)
  | sloopEnd (vs : List Val)
  -- system (08 R201 to R209)
  | sysRd (r : SysReg)
  | sysWrXstat (v : Val)
  | sysWrStubv (v : Val)
  | stamp
  | stampSc
  | yield
  | xretRetry
  | xretNext
  | tlbInv (pkg : Bool) (a len : Val)
  | opReq (p : Val)
  -- native form (11, 12)
  | header (h : Hdr)
  | natIadd (n : NOp)
  | natIsub (n : NOp)
  | natImul (n : NOp)
  | natImad (n : NOp)
  | natAnd (n : NOp)
  | natOr (n : NOp)
  | natXor (n : NOp)
  | natShl (n : NOp)
  | natShr (n : NOp)
  | natSar (n : NOp)
  | natMin (n : NOp)
  | natMax (n : NOp)
  | natSel (n : NOp)
  | natIcmp (n : NOp)
  | natFadd (n : NOp)
  | natFmul (n : NOp)
  | natFma (n : NOp)
  | natFmad (n : NOp)
  | natFcmp (n : NOp)
  | natFmin (n : NOp)
  | natFmax (n : NOp)
  | natCvt (n : NOp)
  | natMov (n : NOp)
  | natMovi (n : NOp)
  | natSfu (n : NOp)
  | natLane (n : NOp)
  | natLds (n : NOp)
  | natSts (n : NOp)
  | natLdg (n : NOp)
  | natStg (n : NOp)
  | natAtg (n : NOp)
  | natLdp (n : NOp)
  | natStp (n : NOp)
  | natPrf (n : NOp)
  | natFnc (n : NOp)
  | natMma (n : NOp)
  | natMmar (n : NOp)
  | natAccn (n : NOp)
  | natTcopy (n : NOp)
  | natCopy (n : NOp)
  | ovl (n : NOp)
  | natRpitch (n : NOp)
  | natRstrike (n : NOp)
  | natAcci (n : NOp)
  | natBr (n : NOp)
  | natBrc (n : NOp)
  | brsw (n : NOp)
  | natCall (n : NOp)
  | natRet (n : NOp)
  | ifence (n : NOp)
  | join (n : NOp)
  | natExit (n : NOp)
  | natTrap (n : NOp)
  | bwait (n : NOp)
  | barr (n : NOp)
  | srd (n : NOp)
  | natYield (n : NOp)
  | point (n : NOp)
  | sadd (n : NOp)
  | smov (n : NOp)
  | scmp (n : NOp)
  | prd (p : POp)
  | pwr (p : POp)
  | prdPwr (p : POp)
  -- commands of the configuration path (14 R358)
  | reservedCommand (c : Cmd)
  | moduleLoad (c : Cmd)
  | moduleUnload (c : Cmd)
  | queueWrite (c : Cmd)
  | queueRead (c : Cmd)
  | tenantBind (c : Cmd)
  | tenantUnbind (c : Cmd)
  | regionSuspend (c : Cmd)
  | regionResume (c : Cmd)
  | packRequest (c : Cmd)
  | setRunLimit (c : Cmd)
  | setHold (c : Cmd)
  | exportWrite (c : Cmd)
  | setPackageNumber (c : Cmd)
  | keyInstall (c : Cmd)
  | routeWrite (c : Cmd)
  | setPeerTimeout (c : Cmd)
  | setPoolSize (c : Cmd)
  | supervisorKey (c : Cmd)
  | domainAlign (c : Cmd)
  | setTier (c : Cmd)
  | subscribe (c : Cmd)
  | rackCap (c : Cmd)
  | emberEnter (c : Cmd)
  | emberExit (c : Cmd)
  | attest (c : Cmd)
  | debugChallenge (c : Cmd)
  | debugToken (c : Cmd)
  | attach (c : Cmd)
  | detach (c : Cmd)
  | stop (c : Cmd)
  | resume (c : Cmd)
  | step (c : Cmd)
  | bkptSet (c : Cmd)
  | bkptClear (c : Cmd)
  | toPoint (c : Cmd)
  | read (c : Cmd)
  | write (c : Cmd)
  | splits (c : Cmd)
  | poolAdd (c : Cmd)
  | poolDeny (c : Cmd)
  | unfence (c : Cmd)
  | finjWrite (c : Cmd)
  | finjRead (c : Cmd)
  | errorCounts (c : Cmd)
  | reservedMap (c : Cmd)
  | fencecmd (c : Cmd)
  -- internal steps that the machine takes by itself (95)
  | resultLanding (s : SplitRef)
  | loadResponse (s : SplitRef) (q : Fin 8) (i : Nat)
  | matrixRowLanding (s : SplitRef)
  | storeCommit (n : Nat)
  | granuleLanding (c : CampRef) (cmd g : Nat)
  | barrierWaitEnd (s : SplitRef)
  | rendezvousMatch (c : CampRef) (rope : Nat)
  | ropeFormed (c : CampRef) (mem : BitVec 32)
  | commandComplete (c : CampRef) (cmd : Nat)
  | residencyTileFill (c : CampRef) (num tile : Nat)
  | agingStep (k : CoreId)
  | troopEnd (t : TroopRef)
  | launchCompletion (lid : Nat)
  | notify (m q : Nat) (v : W32)
  | recordAdmission (q : Nat)
  | waitFlagReload (q : Nat)
  | campTakeoff (c : CampRef)
  | packComplete (c : CampRef)
  | translationRequest (s : SplitRef)
  | translate (claim : Nat)
  | translationSwitch (s : SplitRef)
  | stubService (s : SplitRef)
  | overlayComplete (k : CoreId) (bank : Fin 2)
  | trapEntry (s : SplitRef)
  -- internal steps and host, board and link steps that arrive from outside (95)
  | campPlacement (c : CampRef) (k : CoreId) (scr : List (Nat × Byte))
  | periodBoundary
  | nativeImageRestore (c : CampRef) (k : CoreId)
  | packRestore (c : CampRef) (k : CoreId) (foreign : Option (List Byte))
  | softError (e : ErrSite)
  | thermal (die : Nat)
  | hang (die : Nat)
  | migration (root va dst : Nat)
  | migrationDone (n : Nat)
  | placewait (lid : Nat)
  | shed (c : CampRef)
  | opRelockEnd (k : CoreId)
  | opMoveComplete (k : CoreId)
  | opceilUpdate (power : Nat) (temps : List Nat)
  | chargeWindow (energy : List (CoreId × Nat))
  | subscriptionSample (kind src : Nat) (v : Int)
  | coreGate (k : CoreId)
  | corePowerOffDone (k : CoreId)
  | arbiterRound (die : Nat)
  | leaseExpiry
  | clm (m : Nat)
  | rls (m : Nat)
  | hoff (m : Nat)
  | acpt (m : Nat)
  | handoverLapse
  | ownerVacate
  | crcfg (m : Nat) (v : W32)
  | crdb (m : Nat) (v : W32)
  | registerWrite (m : Nat) (r : HostReg) (v : W64)
  | hostAccess (m : Nat) (ap : Aperture) (a : W64) (n : Nat) (k : AccKind)
  | inboundPeerAccess (src : Nat) (wa : W64) (n : Nat) (k : AccKind) (seen : W64)
  | inboundLanding (src : Nat) (dst : LandTo) (data : List Byte) (bw : Option W64) (tail : LandTail)
  | peerResponse (id : Nat) (a : PeerAns) (seen : W64)
  | peerTimeout (id : Nat)
  | flitReceive (port : Nat) (flit : List Byte)
  | replayRequest (port : Nat) (seq : BitVec 12)
  | linkRetrainDone (port : Nat) (ok : Bool)
  | linkRateRaise (port : Nat)
  | linkLoss (port : Nat)
  | linkTrainAttempt (port : Nat) (ok : Bool)
  | guylineLinkLoss (m : Nat)
  | packageReset (stages : List Stage)
  | brownOut
  | powerGood
  | supplyLoss (mem : List (Nat × Byte))
  | relock (k : CoreId)
  | hostMemoryTimeout (id : Nat)
  deriving DecidableEq, Repr

end Sys2Proof
end

