-- ==== Sys2Proof/WellFormed.lean ====
section
/-! DEFINITION. Which instructions can be written: operand types of the classes of 07 R154, field ranges of the encoding tables, limits of 06 R130. -/

namespace Sys2Proof

/-- Class I of 07: i8 to w64. -/
def Ty.isI : Ty → Bool
  | .i8 | .i16 | .i32 | .i64 | .w8 | .w16 | .w32 | .w64 => true
  | _ => false

/-- Class S of 07: the signed integers. -/
def Ty.isS : Ty → Bool
  | .i8 | .i16 | .i32 | .i64 => true
  | _ => false

/-- Class L of 07. -/
def Ty.isL (t : Ty) : Bool := t == .b1 || t.isI

/-- Class F of 07. -/
def Ty.isF : Ty → Bool
  | .f16 | .bf16 | .f32 | .f64 => true
  | _ => false

/-- Class P of 07. -/
def Ty.isP : Ty → Bool
  | .x2f16 | .x2bf16 => true
  | _ => false

/-- Class H of 07, or P. -/
def Ty.isHP (t : Ty) : Bool := (t.isF && t != .f64) || t.isP

/-- Class D of 07. -/
def Ty.isD : Ty → Bool
  | .dxb4 | .dxb6 | .dxb8 | .dxb12 | .dxb16 => true
  | _ => false

/-- Types that `ld`, `st` and their kin move (08 R181). -/
def Ty.isMem (t : Ty) : Bool :=
  t.isI || t.isF || t.isP || t == .addr || t == .barref || t == .trec

/-- Class V of 07: every value type except acc and rhandle. -/
def Ty.isV (t : Ty) : Bool := t == .b1 || t.isMem || t.isD

/-- Types of 32 and 64 bits that the integer atomics accept (08 R183). -/
def Ty.isAtom : Ty → Bool
  | .i32 | .i64 | .w32 | .w64 => true
  | _ => false

/-- Types that `atom` accepts for an operation (08 R183). -/
def atomTy (op : AtomOp) (t : Ty) : Bool :=
  match op with
  | .add | .min | .max | .and | .or | .xor => t.isAtom
  | .xchg => t.isAtom || t == .f32 || t == .f64 || t == .addr || t.isP || t == .barref || t == .trec
  | .cas => t.isAtom || t == .addr || t == .barref || t == .trec
  | .fadd _ => t.isF || t.isP

/-- A value number that an operand can name (06 R138). -/
def okVal (v : Val) : Bool := v < 2 ^ 20 - 1

/-- An edge whose block and count fit its word (06 R140). -/
def okEdge (e : Edge) : Bool := e.blk < 2 ^ 16 && e.args.length < 256 && e.args.all okVal

/-- Loads accept .rlx, .acq and .sc (05 R105). -/
def okLdOrd (o : Ord) : Bool := o == .rlx || o == .acq || o == .sc

/-- Stores accept .rlx, .rel and .sc (05 R105). -/
def okStOrd (o : Ord) : Bool := o == .rlx || o == .rel || o == .sc

/-- An element type of a stream (06 R143). -/
def okStreamTy (t : Ty) : Bool := t.isI || t.isF || t.isP || t == .addr

/-- A stream specification (06 R143). -/
def StreamSpec.ok (s : StreamSpec) : Bool :=
  okStreamTy s.ety && 1 ≤ s.pairs.length && s.pairs.length ≤ 3 && s.pairs.all fun p => p.2 != 0

/-- The immediate form of 06 R140, as the value it stands for: it fits the type. -/
def okImm (t : Ty) (v : W64) : Bool :=
  match t with
  | .b1 => v.toNat < 2
  | .i8 | .w8 => v.toNat < 2 ^ 8
  | .i16 | .w16 | .f16 | .bf16 => v.toNat < 2 ^ 16
  | .i32 | .w32 | .f32 | .x2f16 | .x2bf16 => v.toNat < 2 ^ 32
  | .dxb4 => v.toNat < 2 ^ 4
  | .dxb6 => v.toNat < 2 ^ 6
  | .dxb8 => v.toNat < 2 ^ 8
  | .dxb12 => v.toNat < 2 ^ 12
  | .dxb16 => v.toNat < 2 ^ 16
  | _ => true

/-- A case word of `switch`: an immediate of its type (08 R195). -/
def okCase (t : Ty) (w : W32) : Bool :=
  match t with
  | .i8 => -128 ≤ w.toInt && w.toInt < 128
  | .i16 => -32768 ≤ w.toInt && w.toInt < 32768
  | .w8 => w.toNat < 256
  | .w16 => w.toNat < 65536
  | _ => true

/-- Optional operands. -/
def okOpt (v : Option Val) : Bool := v.all okVal

/-- Whether an optional operand is present, as a number. -/
def optN (v : Option Val) : Nat := if v.isSome then 1 else 0

/-- Well-formed instructions. -/
def Instr.wf : Instr → Bool
  | .br e => okEdge e
  | .cbr c e1 e0 => okVal c && okEdge e1 && okEdge e0 && e1.args.length + e0.args.length < 255
  | .switch ty v d cs =>
      (ty.isI && ty != .i64 && ty != .w64) && okVal v && okEdge d && cs.length < 256 &&
      cs.all (fun c => okCase ty c.1 && okEdge c.2) &&
      d.args.length + (cs.map fun c => c.2.args.length).sum < 255
  | .brx i es => okVal i && 1 ≤ es.length && es.length < 256 && es.all okEdge &&
      (es.map fun e => e.args.length).sum < 255
  | .call f args => f < 2 ^ 16 && args.length < 256 && args.all okVal
  | .ret vs => vs.length < 16 && vs.all okVal
  | .exit | .brk | .trap _ => true
  | .const ty v => ty.isV && okImm ty v
  | .constSymbol ty _ _ => ty == .addr || ty == .barref || ty == .trec
  | .add ty a b | .sub ty a b => (ty.isI || ty == .addr) && okVal a && okVal b
  | .mul ty a b | .mulhi ty a b | .div ty a b | .rem ty a b | .min ty a b | .max ty a b
  | .addsat ty a b | .subsat ty a b | .shl ty a b | .shr ty a b | .rotl ty a b => ty.isI && okVal a && okVal b
  | .and ty a b | .or ty a b | .xor ty a b => ty.isL && okVal a && okVal b
  | .mad ty a b c | .bfx ty a b c => ty.isI && okVal a && okVal b && okVal c
  | .neg ty a | .popc ty a | .clz ty a | .ctz ty a | .brev ty a => ty.isI && okVal a
  | .abs ty a => ty.isS && okVal a
  | .not ty a => ty.isL && okVal a
  | .bfi ty a b p l => ty.isI && okVal a && okVal b && okVal p && okVal l
  | .cmp ty cc a b => (ty.isI || ty == .addr || (ty == .b1 && (cc == .eq || cc == .ne))) && okVal a && okVal b
  | .sel ty c a b => ty.isV && okVal c && okVal a && okVal b
  | .fadd ty _ a b | .fsub ty _ a b | .fmul ty _ a b | .fdiv ty _ a b
  | .fmin ty a b | .fmax ty a b | .fcopysign ty a b => (ty.isF || ty.isP) && okVal a && okVal b
  | .fma ty _ a b c => (ty.isF || ty.isP) && okVal a && okVal b && okVal c
  | .fsqrt ty _ a | .frsq ty _ a | .frcp ty _ a | .fabs ty a | .fneg ty a | .fround ty _ a =>
      (ty.isF || ty.isP) && okVal a
  | .fexp2 ty a | .flog2 ty a | .fsin ty a | .fcos ty a | .ftanh ty a => ty.isHP && okVal a
  | .fcmp ty _ a b => ty.isF && okVal a && okVal b
  | .fclass ty a => ty.isF && okVal a
  | .cvt ty s _ a => (ty.isL || ty.isF || ty.isP) && (!s || ty.isI) && okVal a
  | .bitcast ty a => ty.isMem && okVal a
  | .pack ty a b => (ty.isP || ty == .w32 || ty == .w64) && okVal a && okVal b
  | .unpack ty a => (ty.isP || ty == .w32 || ty == .w64) && okVal a
  | .dxbPackElem ty x => ty.isD && okVal x
  | .dxbPackScale ty _ x o => ty.isD && okVal x && okVal o
  | .dxbUnpack ty _ _ e s => ty.isF && okVal e && okVal s
  | .shfl ty _ seg v d => ty.isV && seg ≤ 10 && okVal v && okVal d
  | .vote _ c | .ballot _ c => okVal c
  | .redux ty op rm v | .scan ty op rm _ v =>
      okVal v && (match op with
        | .add | .min | .max | .and | .or | .xor => ty.isI && rm == .ne
        | .fadd => ty.isF || ty.isP
        | .fmin | .fmax => (ty.isF || ty.isP) && rm == .ne)
  | .rand _ s => okVal s
  | .ld ty m => ty.isMem && okLdOrd m.ord && okVal m.a
  | .st ty m v => ty.isMem && okStOrd m.ord && okVal m.a && okVal v
  | .ldv ty n m => ty.isMem && 1 ≤ n && n ≤ 4 && okLdOrd m.ord && okVal m.a
  | .stv ty n m vs => ty.isMem && 1 ≤ n && n ≤ 4 && okStOrd m.ord && okVal m.a && vs.length == 2 ^ n && vs.all okVal
  | .atom ty op m v new => atomTy op ty && okVal m.a && okVal v && okOpt new && (new.isSome == (op == .cas))
  | .fence o _ => o != .rlx
  | .prefetch _ a => okVal a
  | .tier _ a l => okVal a && okVal l
  | .barInit _ b e => okVal b && okVal e
  | .barArrive b n | .barWait b n | .barSync b n | .stepSync b n => okVal b && okOpt n
  | .barTry b p => okVal b && okVal p
  | .copy s _ a b l bw cv w => okVal a && okVal b && okVal l && okOpt bw && okOpt cv && okOpt w &&
      (!cv.isSome || s) && (!w.isSome || cv.isSome)
  | .tcopy _ s _ a b os bw cv w => okVal a && okVal b && 1 ≤ os.length && os.length ≤ 5 && os.all okVal &&
      okOpt bw && okOpt cv && okOpt w && (!cv.isSome || s) && (!w.isSome || cv.isSome)
  | .copyRemote s _ a b l loc bw cv w => okVal a && okVal b && okVal l && okOpt loc && okOpt bw && okOpt cv &&
      okOpt w && (!cv.isSome || s) && (!w.isSome || cv.isSome)
  | .accInit _ _ e => okVal e
  | .mma _ _ _ a b c => okVal a && okVal b && okVal c
  | .mmaRes _ _ _ a b h j => okVal a && okVal b && okVal h && okVal j
  | .accNorm a => okVal a
  | .accRd ty _ a r c => (ty == .i32 || ty == .i64 || ty.isF) && okVal a && okVal r && okVal c
  | .accRdWord _ a r c => okVal a && okVal r && okVal c
  | .accWr ty _ a r c v => ty.isF && okVal a && okVal r && okVal c && okVal v
  | .accWrWord _ a r c v => okVal a && okVal r && okVal c && okVal v
  | .ropeForm m => okVal m
  | .ropeFree => true
  | .resPitch _ a b c d e f => okVal a && okVal b && okVal c && okVal d && okVal e && okVal f
  | .resPitchAttach n | .resPitchRefill n => okVal n
  | .resStrike _ x | .resPin _ x | .resUnpin _ x | .resQuery _ x => okVal x
  | .sloop t sp bs is => okVal t && 1 ≤ sp.length && sp.length ≤ 8 && bs.length == sp.length && is.length ≤ 8 &&
      sp.all StreamSpec.ok && bs.all okVal && is.all okVal
  | .sget ty k => okStreamTy ty && k < 8
  | .sput ty k v => okStreamTy ty && k < 8 && okVal v
  | .sloopEnd vs => vs.length ≤ 8 && vs.all okVal
  | .sysRd _ | .stamp | .stampSc | .yield | .xretRetry | .xretNext => true
  | .sysWrXstat v | .sysWrStubv v | .opReq v => okVal v
  | .tlbInv _ a l => okVal a && okVal l
  | .header h => h.lc != 3
  | .clm m | .rls m | .hoff m | .acpt m | .crcfg m _ | .crdb m _ | .registerWrite m _ _ | .guylineLinkLoss m => m < 4
  | .notify m q _ => m < 4 && q < 4096
  | _ => true

end Sys2Proof
end

