-- ==== Sys2Proof/Decode.lean ====
section
/-! DEFINITION. Decoding of portable instruction words (06 R137 to R148), native syllables (11 R265 to R279) and configuration-path commands (14 R356), total and rejecting by name; and the encoders of the same tables. Words are natural numbers below 2^32. -/

namespace Sys2Proof

/-- Why an instruction's words are rejected: the verifier reasons of 17 R382 that one instruction can show, and an end of the words inside it. -/
inductive DecErr where
  | opcode | fields | osize | extword | type | stream
  /-- a branch whose operand count differs from what its edge words give (08 R195) -/
  | branchCount
  | truncated
  deriving DecidableEq, Repr

/-- Type codes of 06 R135. -/
def Ty.code : Ty → Nat
  | .void => 0 | .b1 => 1 | .i8 => 2 | .i16 => 3 | .i32 => 4 | .i64 => 5 | .w8 => 6 | .w16 => 7 | .w32 => 8 | .w64 => 9
  | .f16 => 10 | .bf16 => 11 | .f32 => 12 | .f64 => 13 | .addr => 14 | .x2f16 => 15 | .x2bf16 => 16
  | .dxb4 => 20 | .dxb6 => 21 | .dxb8 => 22 | .dxb12 => 23 | .dxb16 => 24
  | .pl1 => 25 | .pl2 => 26 | .pl4 => 27 | .pl8 => 28 | .pl16 => 29
  | .acc => 32 | .rhandle => 34 | .barref => 35 | .trec => 36

/-- The type of a code; none for a reserved one. -/
def Ty.ofCode : Nat → Option Ty
  | 0 => some .void | 1 => some .b1 | 2 => some .i8 | 3 => some .i16 | 4 => some .i32 | 5 => some .i64
  | 6 => some .w8 | 7 => some .w16 | 8 => some .w32 | 9 => some .w64 | 10 => some .f16 | 11 => some .bf16
  | 12 => some .f32 | 13 => some .f64 | 14 => some .addr | 15 => some .x2f16 | 16 => some .x2bf16
  | 20 => some .dxb4 | 21 => some .dxb6 | 22 => some .dxb8 | 23 => some .dxb12 | 24 => some .dxb16
  | 25 => some .pl1 | 26 => some .pl2 | 27 => some .pl4 | 28 => some .pl8 | 29 => some .pl16
  | 32 => some .acc | 34 => some .rhandle | 35 => some .barref | 36 => some .trec
  | _ => none

/-- Width in bits of a lane value (06 R135); 0 for the types without one. -/
def Ty.width : Ty → Nat
  | .b1 => 1 | .i8 | .w8 => 8 | .i16 | .w16 | .f16 | .bf16 => 16
  | .i32 | .w32 | .f32 | .x2f16 | .x2bf16 => 32
  | .i64 | .w64 | .f64 | .addr | .barref | .trec => 64
  | .dxb4 => 4 | .dxb6 => 6 | .dxb8 => 8 | .dxb12 => 12 | .dxb16 => 16
  | .pl1 => 1 | .pl2 => 2 | .pl4 => 4 | .pl8 => 8 | .pl16 => 16
  | .void | .acc | .rhandle => 0

/-- Rounding codes of 03 R59. -/
def Rm.code : Rm → Nat
  | .ne => 0 | .tz => 1 | .up => 2 | .dn => 3

def Rm.ofCode : Nat → Rm
  | 1 => .tz | 2 => .up | 3 => .dn | _ => .ne

/-- Order codes of 05 R105. -/
def Ord.code : Ord → Nat
  | .rlx => 0 | .acq => 1 | .rel => 2 | .ar => 3 | .sc => 4

def Ord.ofCode : Nat → Option Ord
  | 0 => some .rlx | 1 => some .acq | 2 => some .rel | 3 => some .ar | 4 => some .sc | _ => none

/-- Scope codes of 05 R105. -/
def Scope.code : Scope → Nat
  | .troop => 0 | .camp => 1 | .die => 2 | .pkg => 3 | .dom => 4 | .sys => 5

def Scope.ofCode : Nat → Option Scope
  | 0 => some .troop | 1 => some .camp | 2 => some .die | 3 => some .pkg | 4 => some .dom | 5 => some .sys | _ => none

def Cc.code : Cc → Nat
  | .eq => 0 | .ne => 1 | .lt => 2 | .le => 3 | .gt => 4 | .ge => 5

def Cc.ofCode : Nat → Option Cc
  | 0 => some .eq | 1 => some .ne | 2 => some .lt | 3 => some .le | 4 => some .gt | 5 => some .ge | _ => none

def Fcc.code : Fcc → Nat
  | .eq => 0 | .ne => 1 | .lt => 2 | .le => 3 | .gt => 4 | .ge => 5 | .ord => 6 | .uno => 7
  | .ueq => 8 | .one => 9 | .ult => 10 | .ule => 11 | .ugt => 12 | .uge => 13

def Fcc.ofCode : Nat → Option Fcc
  | 0 => some .eq | 1 => some .ne | 2 => some .lt | 3 => some .le | 4 => some .gt | 5 => some .ge | 6 => some .ord
  | 7 => some .uno | 8 => some .ueq | 9 => some .one | 10 => some .ult | 11 => some .ule | 12 => some .ugt
  | 13 => some .uge | _ => none

def ShMode.code : ShMode → Nat
  | .pick => 0 | .slide => 1 | .wheel => 2 | .flip => 3

def ShMode.ofCode : Nat → ShMode
  | 0 => .pick | 1 => .slide | 2 => .wheel | _ => .flip

def VoteOp.code : VoteOp → Nat
  | .any => 0 | .all => 1 | .uni => 2

def VoteOp.ofCode : Nat → VoteOp
  | 0 => .any | 1 => .all | _ => .uni

def RedOp.code : RedOp → Nat
  | .add => 0 | .min => 1 | .max => 2 | .and => 3 | .or => 4 | .xor => 5 | .fadd => 8 | .fmin => 9 | .fmax => 10

def RedOp.ofCode : Nat → Option RedOp
  | 0 => some .add | 1 => some .min | 2 => some .max | 3 => some .and | 4 => some .or | 5 => some .xor
  | 8 => some .fadd | 9 => some .fmin | 10 => some .fmax | _ => none

def AtomOp.code : AtomOp → Nat
  | .add => 0 | .min => 1 | .max => 2 | .and => 3 | .or => 4 | .xor => 5 | .xchg => 6 | .cas => 7
  | .fadd r => 8 + r.code

def AtomOp.ofCode : Nat → Option AtomOp
  | 0 => some .add | 1 => some .min | 2 => some .max | 3 => some .and | 4 => some .or | 5 => some .xor
  | 6 => some .xchg | 7 => some .cas | 8 => some (.fadd .ne) | 9 => some (.fadd .tz) | 10 => some (.fadd .up)
  | 11 => some (.fadd .dn) | _ => none

def MFmt.code : MFmt → Nat
  | .dxb4 => 0 | .dxb6 => 1 | .dxb8 => 2 | .dxb12 => 3 | .dxb16 => 4
  | .pl1 => 5 | .pl2 => 6 | .pl4 => 7 | .pl8 => 8 | .pl16 => 9

def MFmt.ofCode : Nat → Option MFmt
  | 0 => some .dxb4 | 1 => some .dxb6 | 2 => some .dxb8 | 3 => some .dxb12 | 4 => some .dxb16
  | 5 => some .pl1 | 6 => some .pl2 | 7 => some .pl4 | 8 => some .pl8 | 9 => some .pl16 | _ => none

def TVar.code : TVar → Nat
  | .load => 0 | .planes => 1 | .store => 2

def TVar.ofCode : Nat → Option TVar
  | 0 => some .load | 1 => some .planes | 2 => some .store | _ => none

def Sec.code : Sec → Nat
  | .data => 1 | .const => 2 | .tensor => 3

def Sec.ofCode : Nat → Option Sec
  | 1 => some .data | 2 => some .const | 3 => some .tensor | _ => none

/-- Register numbers of 08 R202. -/
def SysReg.code : SysReg → Nat
  | .laneid => 0 | .width => 1 | .troopid => 2 | .campid => 3 | .regionid => 4 | .diekind => 5 | .stamp => 6 | .rope => 7
  | .xpc => 8 | .xcause => 9 | .xstat => 10 | .xaddr => 11 | .xmaskSum => 12 | .stubv => 13 | .opreq => 14
  | .xmask j => 32 + j.val

def SysReg.ofCode (n : Nat) : Option SysReg :=
  match n with
  | 0 => some .laneid | 1 => some .width | 2 => some .troopid | 3 => some .campid | 4 => some .regionid
  | 5 => some .diekind | 6 => some .stamp | 7 => some .rope | 8 => some .xpc | 9 => some .xcause | 10 => some .xstat
  | 11 => some .xaddr | 12 => some .xmaskSum | 13 => some .stubv | 14 => some .opreq
  | _ => if 32 ≤ n ∧ n < 64 then some (.xmask (Fin.ofNat 32 (n - 32))) else none

/-- The type of a register (08 R202): w64 for STAMP, XPC, XADDR and STUBV. -/
def SysReg.ty : SysReg → Ty
  | .stamp | .xpc | .xaddr | .stubv => .w64
  | _ => .w32

/-! ### Portable instructions -/

/-- The parts of a portable instruction (06 R137 to R140): fields, operand numbers, extension words. -/
structure Parts where
  op : Nat
  ty : Nat
  md : Nat
  sx : Nat
  ops : List Nat
  ext : List Nat
  deriving DecidableEq, Repr

/-- The immediate words of a value (06 R140). -/
def immWords (ty : Ty) (v : W64) : List Nat :=
  match ty with
  | .i8 => [((v.truncate 8).signExtend 32).toNat]
  | .i16 => [((v.truncate 16).signExtend 32).toNat]
  | .i64 | .w64 | .f64 | .addr | .barref | .trec => [v.toNat % 2 ^ 32, v.toNat / 2 ^ 32]
  | _ => [v.toNat % 2 ^ 32]

/-- The value of immediate words; none when the pattern is not the one of 06 R140. -/
def immVal (ty : Ty) (ws : List Nat) : Option W64 :=
  match ty, ws with
  | .i64, [a, b] | .w64, [a, b] | .f64, [a, b] | .addr, [a, b] | .barref, [a, b] | .trec, [a, b] =>
      some (BitVec.ofNat 64 (a + b * 2 ^ 32))
  | .i8, [a] => let x := BitVec.ofNat 8 a
      if (x.signExtend 32).toNat = a then some (x.setWidth 64) else none
  | .i16, [a] => let x := BitVec.ofNat 16 a
      if (x.signExtend 32).toNat = a then some (x.setWidth 64) else none
  | t, [a] => if a < 2 ^ t.width then some (BitVec.ofNat 64 a) else none
  | _, _ => none

/-- An edge word (06 R140). -/
def edgeWord (e : Edge) : Nat := e.blk * 2 ^ 16 + e.args.length * 2 ^ 8

/-- Words of a stream specification (06 R143). -/
def specWords (s : StreamSpec) : List Nat :=
  (s.pairs.length * 2 ^ 8 + (if s.out then 2 ^ 7 else 0) + s.ety.code) ::
    s.pairs.flatMap fun p => [p.1.toNat, p.2.toNat]

/-- The list of an optional operand. -/
def optL (v : Option Val) : List Nat := v.toList

def boolN (b : Bool) : Nat := if b then 1 else 0

/-- SX of the memory group (08 R179). -/
def memSx (sub : Nat) (m : MemOpnd) : Nat := sub * 16 + boolN m.off.isSome * 8 + m.sc.code

/-- The offset word of the memory group. -/
def memExt (m : MemOpnd) : List Nat := (m.off.map BitVec.toNat).toList

/-- MD and the optional operands of the command group (09 R211). -/
def ckMd (cv want : Option Val) : Nat := optN want * 2 + optN cv

def stTy (st : Bool) : Nat := if st then 9 else 0

/-- The parts of an instruction; none for the rows that no portable word encodes. -/
def Instr.parts : Instr → Option Parts
  | .br e => some ⟨0x01, 0, 0, 0, e.args, [edgeWord e]⟩
  | .cbr c e1 e0 => some ⟨0x02, 0, 0, 0, c :: (e1.args ++ e0.args), [edgeWord e1, edgeWord e0]⟩
  | .switch ty v d cs => some ⟨0x03, ty.code, 0, cs.length, v :: (d.args ++ cs.flatMap fun c => c.2.args),
      cs.map (fun c => c.1.toNat) ++ edgeWord d :: cs.map fun c => edgeWord c.2⟩
  | .brx i es => some ⟨0x04, 0, 0, es.length, i :: es.flatMap Edge.args, es.map edgeWord⟩
  | .call f args => some ⟨0x05, 0, 0, 0, args, [f]⟩
  | .ret vs => some ⟨0x06, 0, 0, 0, vs, []⟩
  | .exit => some ⟨0x07, 0, 0, 0, [], []⟩
  | .trap c => some ⟨0x08, 0, 0, c.toNat, [], []⟩
  | .brk => some ⟨0x09, 0, 0, 0, [], []⟩
  | .const ty v => some ⟨0x10, ty.code, 0, 0, [], immWords ty v⟩
  | .constSymbol ty s off => some ⟨0x10, ty.code, 0, 1, [], [s.code * 2 ^ 30 + off.toNat]⟩
  | .add ty a b => some ⟨0x11, ty.code, 0, 0, [a, b], []⟩
  | .sub ty a b => some ⟨0x12, ty.code, 0, 0, [a, b], []⟩
  | .mul ty a b => some ⟨0x13, ty.code, 0, 0, [a, b], []⟩
  | .mulhi ty a b => some ⟨0x14, ty.code, 0, 0, [a, b], []⟩
  | .mad ty a b c => some ⟨0x15, ty.code, 0, 0, [a, b, c], []⟩
  | .div ty a b => some ⟨0x16, ty.code, 0, 0, [a, b], []⟩
  | .rem ty a b => some ⟨0x17, ty.code, 0, 0, [a, b], []⟩
  | .neg ty a => some ⟨0x18, ty.code, 0, 0, [a], []⟩
  | .abs ty a => some ⟨0x19, ty.code, 0, 0, [a], []⟩
  | .min ty a b => some ⟨0x1A, ty.code, 0, 0, [a, b], []⟩
  | .max ty a b => some ⟨0x1B, ty.code, 0, 0, [a, b], []⟩
  | .addsat ty a b => some ⟨0x1C, ty.code, 0, 0, [a, b], []⟩
  | .subsat ty a b => some ⟨0x1D, ty.code, 0, 0, [a, b], []⟩
  | .and ty a b => some ⟨0x1E, ty.code, 0, 0, [a, b], []⟩
  | .or ty a b => some ⟨0x1F, ty.code, 0, 0, [a, b], []⟩
  | .xor ty a b => some ⟨0x20, ty.code, 0, 0, [a, b], []⟩
  | .not ty a => some ⟨0x21, ty.code, 0, 0, [a], []⟩
  | .shl ty a s => some ⟨0x22, ty.code, 0, 0, [a, s], []⟩
  | .shr ty a s => some ⟨0x23, ty.code, 0, 0, [a, s], []⟩
  | .rotl ty a s => some ⟨0x24, ty.code, 0, 0, [a, s], []⟩
  | .popc ty a => some ⟨0x25, ty.code, 0, 0, [a], []⟩
  | .clz ty a => some ⟨0x26, ty.code, 0, 0, [a], []⟩
  | .ctz ty a => some ⟨0x27, ty.code, 0, 0, [a], []⟩
  | .brev ty a => some ⟨0x28, ty.code, 0, 0, [a], []⟩
  | .bfx ty a p l => some ⟨0x29, ty.code, 0, 0, [a, p, l], []⟩
  | .bfi ty a b p l => some ⟨0x2A, ty.code, 0, 0, [a, b, p, l], []⟩
  | .cmp ty cc a b => some ⟨0x2B, ty.code, cc.code, 0, [a, b], []⟩
  | .sel ty c a b => some ⟨0x2C, ty.code, 0, 0, [c, a, b], []⟩
  | .fadd ty rm a b => some ⟨0x40, ty.code, rm.code, 0, [a, b], []⟩
  | .fsub ty rm a b => some ⟨0x41, ty.code, rm.code, 0, [a, b], []⟩
  | .fmul ty rm a b => some ⟨0x42, ty.code, rm.code, 0, [a, b], []⟩
  | .fma ty rm a b c => some ⟨0x43, ty.code, rm.code, 0, [a, b, c], []⟩
  | .fdiv ty rm a b => some ⟨0x44, ty.code, rm.code, 0, [a, b], []⟩
  | .fsqrt ty rm a => some ⟨0x45, ty.code, rm.code, 0, [a], []⟩
  | .frsq ty rm a => some ⟨0x46, ty.code, rm.code, 0, [a], []⟩
  | .frcp ty rm a => some ⟨0x47, ty.code, rm.code, 0, [a], []⟩
  | .fexp2 ty a => some ⟨0x48, ty.code, 0, 0, [a], []⟩
  | .flog2 ty a => some ⟨0x49, ty.code, 0, 0, [a], []⟩
  | .fsin ty a => some ⟨0x4A, ty.code, 0, 0, [a], []⟩
  | .fcos ty a => some ⟨0x4B, ty.code, 0, 0, [a], []⟩
  | .ftanh ty a => some ⟨0x4C, ty.code, 0, 0, [a], []⟩
  | .fmin ty a b => some ⟨0x4D, ty.code, 0, 0, [a, b], []⟩
  | .fmax ty a b => some ⟨0x4E, ty.code, 0, 0, [a, b], []⟩
  | .fabs ty a => some ⟨0x4F, ty.code, 0, 0, [a], []⟩
  | .fneg ty a => some ⟨0x50, ty.code, 0, 0, [a], []⟩
  | .fcmp ty cc a b => some ⟨0x51, ty.code, cc.code, 0, [a, b], []⟩
  | .fclass ty a => some ⟨0x52, ty.code, 0, 0, [a], []⟩
  | .fround ty rm a => some ⟨0x53, ty.code, rm.code, 0, [a], []⟩
  | .fcopysign ty a b => some ⟨0x54, ty.code, 0, 0, [a, b], []⟩
  | .cvt ty s rm a => some ⟨0x70, ty.code, boolN s * 4 + rm.code, 0, [a], []⟩
  | .bitcast ty a => some ⟨0x71, ty.code, 0, 0, [a], []⟩
  | .pack ty a b => some ⟨0x72, ty.code, 0, 0, [a, b], []⟩
  | .unpack ty a => some ⟨0x73, ty.code, 0, 0, [a], []⟩
  | .dxbPackElem ty x => some ⟨0x74, ty.code, 0, 0, [x], []⟩
  | .dxbPackScale ty hi x o => some ⟨0x74, ty.code, 0, 1 + boolN hi * 2, [x, o], []⟩
  | .dxbUnpack ty rm hi e s => some ⟨0x75, ty.code, rm.code, boolN hi * 2, [e, s], []⟩
  | .shfl ty mode seg v d => some ⟨0x80, ty.code, mode.code, seg, [v, d], []⟩
  | .vote op c => some ⟨0x81, 1, op.code, 0, [c], []⟩
  | .ballot w c => some ⟨0x82, 8, 0, w.val, [c], []⟩
  | .redux ty op rm v => some ⟨0x83, ty.code, rm.code, op.code, [v], []⟩
  | .scan ty op rm ex v => some ⟨0x84, ty.code, boolN ex * 4 + rm.code, op.code, [v], []⟩
  | .rand wide s => some ⟨0x85, if wide then 9 else 8, 0, 0, [s], []⟩
  | .ld ty m => some ⟨0x90, ty.code, m.ord.code, memSx 0 m, [m.a], memExt m⟩
  | .st ty m v => some ⟨0x91, ty.code, m.ord.code, memSx 0 m, [m.a, v], memExt m⟩
  | .ldv ty n m => some ⟨0x92, ty.code, m.ord.code, memSx n m, [m.a], memExt m⟩
  | .stv ty n m vs => some ⟨0x93, ty.code, m.ord.code, memSx n m, m.a :: vs, memExt m⟩
  | .atom ty op m v new => some ⟨0x94, ty.code, m.ord.code, memSx op.code m, m.a :: v :: optL new, memExt m⟩
  | .fence o sc => some ⟨0x95, 0, o.code, sc.code, [], []⟩
  | .prefetch llc a => some ⟨0x96, 0, 0, boolN llc, [a], []⟩
  | .tier cap a l => some ⟨0x97, 0, 0, boolN cap, [a, l], []⟩
  | .barInit sc b e => some ⟨0xB0, 0, 0, sc.code, [b, e], []⟩
  | .barArrive b n => some ⟨0xB1, 1, 0, 0, b :: optL n, []⟩
  | .barWait b p => some ⟨0xB2, 0, 0, 0, b :: optL p, []⟩
  | .barTry b p => some ⟨0xB3, 1, 0, 0, [b, p], []⟩
  | .barSync b n => some ⟨0xB4, 0, 0, 0, b :: optL n, []⟩
  | .stepSync b n => some ⟨0xB5, 0, 0, 0, b :: optL n, []⟩
  | .copy s sc a b l bw cv w => some ⟨0xC0, stTy s, ckMd cv w, optN bw * 16 + sc.code,
      a :: b :: l :: (optL bw ++ optL cv ++ optL w), []⟩
  | .tcopy var s sc a b os bw cv w => some ⟨0xC1, stTy s, ckMd cv w, var.code * 64 + optN bw * 16 + sc.code,
      a :: b :: (os ++ (optL bw ++ optL cv ++ optL w)), []⟩
  | .copyRemote s sc a b l loc bw cv w => some ⟨0xC2, stTy s, ckMd cv w, optN bw * 16 + optN loc * 8 + sc.code,
      a :: b :: l :: (optL loc ++ optL bw ++ optL cv ++ optL w), []⟩
  | .accInit s c e => some ⟨0xD0, 32, 0, s.val * 16 + c.val, [e], []⟩
  | .mma fa fb t a x y => some ⟨0xD1, 32, t.val, fa.code * 16 + fb.code, [a, x, y], []⟩
  | .mmaRes fa fb t a x h j => some ⟨0xD2, 32, t.val, fa.code * 16 + fb.code, [a, x, h, j], []⟩
  | .accNorm a => some ⟨0xD3, 32, 0, 0, [a], []⟩
  | .accRd ty rm a r c => some ⟨0xD4, ty.code, rm.code, 0, [a, r, c], []⟩
  | .accRdWord hi a r c => some ⟨0xD4, 9, 0, 1 + boolN hi, [a, r, c], []⟩
  | .accWr ty rm a r c v => some ⟨0xD5, 32, rm.code, ty.code * 4, [a, r, c, v], []⟩
  | .accWrWord hi a r c v => some ⟨0xD5, 32, 0, 9 * 4 + 1 + boolN hi, [a, r, c, v], []⟩
  | .ropeForm m => some ⟨0xD6, 0, 0, 0, [m], []⟩
  | .ropeFree => some ⟨0xD7, 0, 0, 0, [], []⟩
  | .resPitch sc a b c d e f => some ⟨0xE0, 34, 0, sc.code, [a, b, c, d, e, f], []⟩
  | .resPitchAttach n => some ⟨0xE0, 34, 0, 8, [n], []⟩
  | .resPitchRefill n => some ⟨0xE0, 0, 0, 16, [n], []⟩
  | .resStrike n x => some ⟨0xE1, 0, 0, boolN n, [x], []⟩
  | .resPin n x => some ⟨0xE2, 0, 0, boolN n, [x], []⟩
  | .resUnpin n x => some ⟨0xE3, 0, 0, boolN n, [x], []⟩
  | .resQuery n x => some ⟨0xE4, 8, 0, boolN n, [x], []⟩
  | .sloop t sp bs is => some ⟨0xE8, 0, 0, is.length * 16 + sp.length, t :: (bs ++ is), sp.flatMap specWords⟩
  | .sget ty k => some ⟨0xE9, ty.code, 0, k, [], []⟩
  | .sput ty k v => some ⟨0xEA, ty.code, 0, k, [v], []⟩
  | .sloopEnd vs => some ⟨0xEB, 0, 0, 0, vs, []⟩
  | .sysRd r => some ⟨0xF0, r.ty.code, 0, r.code, [], []⟩
  | .sysWrXstat v => some ⟨0xF1, 8, 0, 0x0A, [v], []⟩
  | .sysWrStubv v => some ⟨0xF1, 9, 0, 0x0D, [v], []⟩
  | .stamp => some ⟨0xF2, 9, 0, 0, [], []⟩
  | .stampSc => some ⟨0xF2, 9, 0, 1, [], []⟩
  | .yield => some ⟨0xF3, 1, 0, 0, [], []⟩
  | .xretRetry => some ⟨0xF4, 0, 0, 0, [], []⟩
  | .xretNext => some ⟨0xF4, 0, 0, 1, [], []⟩
  | .tlbInv pkg a l => some ⟨0xF5, 0, 0, 2 + boolN pkg, [a, l], []⟩
  | .opReq p => some ⟨0xF6, 0, 0, 0, [p], []⟩
  | _ => none

/-- The operand size an assembler chooses (06 R138): 8, 16 or 32 bits as codes 0, 1, 2. -/
def sizeCode (ops : List Nat) : Nat :=
  if ops.all (· < 2 ^ 8) then 0 else if ops.all (· < 2 ^ 16) then 1 else 2

/-- Operand words of 8-bit operands (06 R138). -/
def pack8 : List Nat → List Nat
  | [] => []
  | [a] => [a]
  | [a, b] => [a + b * 2 ^ 8]
  | [a, b, c] => [a + b * 2 ^ 8 + c * 2 ^ 16]
  | a :: b :: c :: d :: r => (a + b * 2 ^ 8 + c * 2 ^ 16 + d * 2 ^ 24) :: pack8 r

/-- Operand words of 16-bit operands. -/
def pack16 : List Nat → List Nat
  | [] => []
  | [a] => [a]
  | a :: b :: r => (a + b * 2 ^ 16) :: pack16 r

/-- Operand words at an operand size. -/
def packOps (os : Nat) (ops : List Nat) : List Nat :=
  if os = 0 then pack8 ops else if os = 1 then pack16 ops else ops

/-- The instruction word (06 R137). -/
def instrWord (op ty md os no sx : Nat) : Nat :=
  op * 2 ^ 24 + ty * 2 ^ 18 + md * 2 ^ 14 + os * 2 ^ 12 + no * 2 ^ 8 + sx

/-- All words of the parts. -/
def Parts.words (p : Parts) : List Nat :=
  let os := sizeCode p.ops
  let n := p.ops.length
  if n ≤ 14 then instrWord p.op p.ty p.md os n p.sx :: (packOps os p.ops ++ p.ext)
  else instrWord p.op p.ty p.md os 15 p.sx :: n :: (packOps os p.ops ++ p.ext)

/-- Takes `n` operands of 8 bits; none for non-zero padding or too few words. -/
def take8 : Nat → List Nat → Option (List Nat × List Nat)
  | 0, ws => some ([], ws)
  | 1, w :: ws => if w < 2 ^ 8 then some ([w], ws) else none
  | 2, w :: ws => if w < 2 ^ 16 then some ([w % 2 ^ 8, w / 2 ^ 8], ws) else none
  | 3, w :: ws => if w < 2 ^ 24 then some ([w % 2 ^ 8, w / 2 ^ 8 % 2 ^ 8, w / 2 ^ 16], ws) else none
  | n + 4, w :: ws => (take8 n ws).map fun r =>
      (w % 2 ^ 8 :: w / 2 ^ 8 % 2 ^ 8 :: w / 2 ^ 16 % 2 ^ 8 :: w / 2 ^ 24 :: r.1, r.2)
  | _, [] => none

/-- Takes `n` operands of 16 bits. -/
def take16 : Nat → List Nat → Option (List Nat × List Nat)
  | 0, ws => some ([], ws)
  | 1, w :: ws => if w < 2 ^ 16 then some ([w], ws) else none
  | n + 2, w :: ws => (take16 n ws).map fun r => (w % 2 ^ 16 :: w / 2 ^ 16 :: r.1, r.2)
  | _, [] => none

/-- Takes `n` operands of 32 bits; an operand above 2^20 − 2 is no operand (06 R138). -/
def take32 : Nat → List Nat → Option (List Nat × List Nat)
  | 0, ws => some ([], ws)
  | n + 1, w :: ws => if w < 2 ^ 20 - 1 then (take32 n ws).map fun r => (w :: r.1, r.2) else none
  | _, [] => none

/-- Takes `n` operands at an operand size. -/
def takeOps (os n : Nat) (ws : List Nat) : Option (List Nat × List Nat) :=
  if os = 0 then take8 n ws else if os = 1 then take16 n ws else take32 n ws

/-- Number of operand words. -/
def opWords (os n : Nat) : Nat :=
  if os = 0 then (n + 3) / 4 else if os = 1 then (n + 1) / 2 else n

/-- Assigned opcodes (06 R146); 0x00 is the BLOCK record. -/
def opAssigned (op : Nat) : Bool :=
  op ≤ 0x09 || (0x10 ≤ op && op ≤ 0x2C) || (0x40 ≤ op && op ≤ 0x54) || (0x70 ≤ op && op ≤ 0x75) ||
  (0x80 ≤ op && op ≤ 0x85) || (0x90 ≤ op && op ≤ 0x97) || (0xB0 ≤ op && op ≤ 0xB5) || (0xC0 ≤ op && op ≤ 0xC2) ||
  (0xD0 ≤ op && op ≤ 0xD7) || (0xE0 ≤ op && op ≤ 0xE4) || (0xE8 ≤ op && op ≤ 0xEB) || (0xF0 ≤ op && op ≤ 0xF6)

/-- Number of words of `n` stream specifications at the head of the words (06 R143). -/
def specLen : Nat → List Nat → Nat
  | 0, _ => 0
  | _ + 1, [] => 1
  | n + 1, d :: ws => 1 + 2 * fld d 8 2 + specLen n (ws.drop (2 * fld d 8 2))

/-- Number of extension words that the opcode takes. -/
def extLen (op ty sx : Nat) (rest : List Nat) : Nat :=
  if op = 0x01 then 1 else if op = 0x02 then 2 else if op = 0x03 then 2 * sx + 1
  else if op = 0x04 then sx else if op = 0x05 then 1
  else if op = 0x10 then
    (if sx = 1 then 1 else if ty = 5 || ty = 9 || ty = 13 || ty = 14 || ty = 35 || ty = 36 then 2 else 1)
  else if 0x90 ≤ op ∧ op ≤ 0x94 then fld sx 3 1
  else if op = 0xE8 then specLen (sx % 16) rest
  else 0

/-- The raw form of an instruction: fields, operands as they stand, extension words, size in words. -/
structure Raw where
  op : Nat
  ty : Nat
  md : Nat
  sx : Nat
  ops : Option (List Nat)
  cnt : Nat
  ext : List Nat
  size : Nat
  deriving DecidableEq, Repr

/-- Splits the words of one instruction (06 R137 to R140). OPCODE and OSIZE failures here end decoding (17 R379). -/
def parseRaw (ws : List Nat) : Except DecErr Raw :=
  match ws with
  | [] => .error .truncated
  | w :: r =>
    let op := fld w 24 8
    let ty := fld w 18 6
    let md := fld w 14 4
    let os := fld w 12 2
    let no := fld w 8 4
    let sx := fld w 0 8
    if !opAssigned op then .error .opcode
    else if os = 3 then .error .osize
    else
      let go (cnt : Nat) (r : List Nat) (k : Nat) : Except DecErr Raw :=
        let nw := opWords os cnt
        let rest := r.drop nw
        let ne := extLen op ty sx rest
        if rest.length < ne || r.length < nw then .error .truncated
        else .ok ⟨op, ty, md, sx, (takeOps os cnt r).map Prod.fst, cnt, rest.take ne, k + nw + ne⟩
      if op = 0 then
        let ne := (sx + 3) / 4
        if r.length < ne then .error .truncated
        else .ok ⟨op, ty, md, sx, if os = 0 ∧ no = 0 then some [] else none, no, r.take ne, 1 + ne⟩
      else if no = 15 then
        match r with
        | [] => .error .truncated
        | c :: r' => if 15 ≤ c ∧ c < 256 then go c r' 2 else .error .osize
      else go no r 1

def tyIn (ty lo hi : Nat) : Bool := lo ≤ ty && ty ≤ hi
/-- The classes of 07 R154 on type codes. -/
def cI (t : Nat) : Bool := tyIn t 2 9
def cL (t : Nat) : Bool := tyIn t 1 9
def cF (t : Nat) : Bool := tyIn t 10 13
def cP (t : Nat) : Bool := tyIn t 15 16
def cFP (t : Nat) : Bool := cF t || cP t
def cD (t : Nat) : Bool := tyIn t 20 24
def cMem (t : Nat) : Bool := tyIn t 2 16 || t = 35 || t = 36
def cV (t : Nat) : Bool := tyIn t 1 16 || cD t || t = 35 || t = 36
def cAtom (t : Nat) : Bool := t = 4 || t = 5 || t = 8 || t = 9

/-- TY, MD, NO and SX as the opcode's table lists them (06 R147); `n` is the operand count. -/
def fieldsOk (op ty md n sx : Nat) : Bool :=
  let rm := md < 4
  let z := md = 0 && sx = 0
  let memSx := fld sx 0 3 ≤ 5
  if op = 0x01 then ty = 0 && z
  else if op = 0x02 then ty = 0 && z && 1 ≤ n
  else if op = 0x03 then (tyIn ty 2 4 || tyIn ty 6 8) && md = 0 && 1 ≤ n
  else if op = 0x04 then ty = 0 && md = 0 && 1 ≤ n && 1 ≤ sx
  else if op = 0x05 then ty = 0 && z
  else if op = 0x06 then ty = 0 && z
  else if op = 0x07 || op = 0x09 then ty = 0 && z && n = 0
  else if op = 0x08 then ty = 0 && md = 0 && n = 0
  else if op = 0x10 then md = 0 && n = 0 && ((sx = 0 && cV ty) || (sx = 1 && (ty = 14 || ty = 35 || ty = 36)))
  else if op = 0x11 || op = 0x12 then z && n = 2 && (cI ty || ty = 14)
  else if op = 0x13 || op = 0x14 || op = 0x16 || op = 0x17 || op = 0x1A || op = 0x1B || op = 0x1C || op = 0x1D ||
      op = 0x22 || op = 0x23 || op = 0x24 then z && n = 2 && cI ty
  else if op = 0x15 || op = 0x29 then z && n = 3 && cI ty
  else if op = 0x18 || op = 0x25 || op = 0x26 || op = 0x27 || op = 0x28 then z && n = 1 && cI ty
  else if op = 0x19 then z && n = 1 && tyIn ty 2 5
  else if op = 0x1E || op = 0x1F || op = 0x20 then z && n = 2 && cL ty
  else if op = 0x21 then z && n = 1 && cL ty
  else if op = 0x2A then z && n = 4 && cI ty
  else if op = 0x2B then sx = 0 && n = 2 && (((cI ty || ty = 14) && md < 6) || (ty = 1 && md < 2))
  else if op = 0x2C then z && n = 3 && cV ty
  else if op = 0x40 || op = 0x41 || op = 0x42 || op = 0x44 then rm && sx = 0 && n = 2 && cFP ty
  else if op = 0x43 then rm && sx = 0 && n = 3 && cFP ty
  else if op = 0x45 || op = 0x46 || op = 0x47 || op = 0x53 then rm && sx = 0 && n = 1 && cFP ty
  else if 0x48 ≤ op && op ≤ 0x4C then z && n = 1 && (tyIn ty 10 12 || cP ty)
  else if op = 0x4D || op = 0x4E || op = 0x54 then z && n = 2 && cFP ty
  else if op = 0x4F || op = 0x50 then z && n = 1 && cFP ty
  else if op = 0x51 then md < 14 && sx = 0 && n = 2 && cF ty
  else if op = 0x52 then z && n = 1 && cF ty
  else if op = 0x70 then sx = 0 && n = 1 && (cL ty || cFP ty) && md < 8 && (md < 4 || cI ty)
  else if op = 0x71 then z && n = 1 && cMem ty
  else if op = 0x72 then z && n = 2 && (cP ty || ty = 8 || ty = 9)
  else if op = 0x73 then z && n = 1 && (cP ty || ty = 8 || ty = 9)
  else if op = 0x74 then md = 0 && cD ty && ((sx = 0 && n = 1) || ((sx = 1 || sx = 3) && n = 2))
  else if op = 0x75 then rm && cF ty && n = 2 && (sx = 0 || sx = 2)
  else if op = 0x80 then md < 4 && n = 2 && cV ty && sx ≤ 10
  else if op = 0x81 then md < 3 && n = 1 && ty = 1 && sx = 0
  else if op = 0x82 then md = 0 && n = 1 && ty = 8 && sx < 32
  else if op = 0x83 then n = 1 && ((sx < 6 && cI ty && md = 0) || (sx = 8 && cFP ty && rm) ||
      ((sx = 9 || sx = 10) && cFP ty && md = 0))
  else if op = 0x84 then n = 1 && md < 8 && ((sx < 6 && cI ty && md % 4 = 0) || (sx = 8 && cFP ty) ||
      ((sx = 9 || sx = 10) && cFP ty && md % 4 = 0))
  else if op = 0x85 then z && n = 1 && (ty = 8 || ty = 9)
  else if op = 0x90 then memSx && sx < 16 && n = 1 && cMem ty && (md = 0 || md = 1 || md = 4)
  else if op = 0x91 then memSx && sx < 16 && n = 2 && cMem ty && (md = 0 || md = 2 || md = 4)
  else if op = 0x92 then memSx && 1 ≤ sx / 16 && sx / 16 ≤ 4 && n = 1 && cMem ty && (md = 0 || md = 1 || md = 4)
  else if op = 0x93 then memSx && 1 ≤ sx / 16 && sx / 16 ≤ 4 && n = 1 + 2 ^ (sx / 16) && cMem ty &&
      (md = 0 || md = 2 || md = 4)
  else if op = 0x94 then memSx && md < 5 && (
      (sx / 16 < 6 && cAtom ty && n = 2) ||
      (sx / 16 = 6 && (cAtom ty || tyIn ty 12 16 || ty = 35 || ty = 36) && n = 2) ||
      (sx / 16 = 7 && (cAtom ty || ty = 14 || ty = 35 || ty = 36) && n = 3) ||
      (8 ≤ sx / 16 && sx / 16 ≤ 11 && cFP ty && n = 2))
  else if op = 0x95 then ty = 0 && n = 0 && 1 ≤ md && md ≤ 4 && sx ≤ 5
  else if op = 0x96 then ty = 0 && n = 1 && md = 0 && sx ≤ 1
  else if op = 0x97 then ty = 0 && n = 2 && md = 0 && sx ≤ 1
  else if op = 0xB0 then ty = 0 && n = 2 && md = 0 && sx ≤ 5
  else if op = 0xB1 then ty = 1 && (n = 1 || n = 2) && z
  else if op = 0xB2 || op = 0xB4 || op = 0xB5 then ty = 0 && (n = 1 || n = 2) && z
  else if op = 0xB3 then ty = 1 && n = 2 && z
  else if op = 0xC0 || op = 0xC1 || op = 0xC2 then
    let ck := md % 2
    let cmp := md / 2
    let b := fld sx 4 1
    let l := fld sx 3 1
    md < 4 && (cmp = 0 || ck = 1) && (ty = 0 || ty = 9) && (ck = 0 || ty = 9) && fld sx 5 1 = 0 && memSx &&
    (if op = 0xC1 then sx / 64 ≤ 2 && l = 0 && 3 + b + ck + cmp ≤ n && n ≤ 7 + b + ck + cmp
     else sx < 64 && (op = 0xC2 || l = 0) && n = 3 + l + b + ck + cmp)
  else if op = 0xD0 then ty = 32 && md = 0 && n = 1 && sx < 128
  else if op = 0xD1 then ty = 32 && md < 4 && n = 3 && sx / 16 ≤ 9 && sx % 16 ≤ 9
  else if op = 0xD2 then ty = 32 && md < 4 && n = 4 && sx / 16 ≤ 9 && sx % 16 ≤ 9
  else if op = 0xD3 then ty = 32 && z && n = 1
  else if op = 0xD4 then n = 3 && ((sx = 0 && rm && (ty = 4 || ty = 5 || cF ty)) || ((sx = 1 || sx = 2) && md = 0 && ty = 9))
  else if op = 0xD5 then ty = 32 && n = 4 && ((sx % 4 = 0 && rm && cF (sx / 4)) || ((sx = 37 || sx = 38) && md = 0))
  else if op = 0xD6 then ty = 0 && z && n = 1
  else if op = 0xD7 then ty = 0 && z && n = 0
  else if op = 0xE0 then md = 0 && ((ty = 34 && sx ≤ 5 && n = 6) || (ty = 34 && sx = 8 && n = 1) || (ty = 0 && sx = 16 && n = 1))
  else if op = 0xE1 || op = 0xE2 || op = 0xE3 then ty = 0 && md = 0 && sx ≤ 1 && n = 1
  else if op = 0xE4 then ty = 8 && md = 0 && sx ≤ 1 && n = 1
  else if op = 0xE8 then ty = 0 && md = 0 && 1 ≤ sx % 16 && sx % 16 ≤ 8 && sx / 16 ≤ 8 && n = 1 + sx % 16 + sx / 16
  else if op = 0xE9 then tyIn ty 2 16 && md = 0 && n = 0 && sx < 8
  else if op = 0xEA then tyIn ty 2 16 && md = 0 && n = 1 && sx < 8
  else if op = 0xEB then ty = 0 && z && n ≤ 8
  else if op = 0xF0 then md = 0 && n = 0 && (match SysReg.ofCode sx with | some r => ty = r.ty.code | none => false)
  else if op = 0xF1 then md = 0 && n = 1 && ((sx = 0x0A && ty = 8) || (sx = 0x0D && ty = 9))
  else if op = 0xF2 then ty = 9 && md = 0 && n = 0 && sx ≤ 1
  else if op = 0xF3 then ty = 1 && z && n = 0
  else if op = 0xF4 then ty = 0 && md = 0 && n = 0 && sx ≤ 1
  else if op = 0xF5 then ty = 0 && md = 0 && n = 2 && (sx = 2 || sx = 3)
  else if op = 0xF6 then ty = 0 && z && n = 1
  else false

/-- Distributes operands over edges by the counts of their words (06 R140); none when the counts do not add up. -/
def takeEdges : List Nat → List Nat → Option (List Edge)
  | [], [] => some []
  | [], _ :: _ => none
  | e :: es, ops =>
      let n := fld e 8 8
      if ops.length < n then none
      else (takeEdges es (ops.drop n)).map fun r => ⟨e / 2 ^ 16, ops.take n⟩ :: r

/-- Edge words have [7:0] zero. -/
def edgeOk (w : Nat) : Bool := w % 2 ^ 8 = 0

/-- A case word of a type (08 R195, R140). -/
def caseOk (ty : Nat) (w : Nat) : Bool :=
  if ty = 2 then ((BitVec.ofNat 8 w).signExtend 32).toNat = w
  else if ty = 3 then ((BitVec.ofNat 16 w).signExtend 32).toNat = w
  else if ty = 6 then w < 2 ^ 8 else if ty = 7 then w < 2 ^ 16 else true

/-- Takes stream specifications from extension words; the flag says that every one keeps 06 R143. -/
def takeSpecs : Nat → List Nat → Option (List StreamSpec × Bool)
  | 0, _ => some ([], true)
  | _ + 1, [] => none
  | n + 1, d :: ws =>
      let np := fld d 8 2
      let ety := (Ty.ofCode (fld d 0 6)).getD .void
      let pw := ws.take (2 * np)
      let pairs := (List.range np).map fun i =>
        (BitVec.ofNat 32 (pw.getD (2 * i) 0), BitVec.ofNat 32 (pw.getD (2 * i + 1) 0))
      let ok := np != 0 && d < 2 ^ 10 && fld d 6 1 = 0 && tyIn (fld d 0 6) 2 16 && pairs.all fun p => p.2 != 0
      (takeSpecs n (ws.drop (2 * np))).map fun r => (⟨ety, fld d 7 1 = 1, pairs⟩ :: r.1, ok && r.2)

/-- Whether a stream's ETYPE is a reserved type code, which is judged as TYPE (17 R383). -/
def specReserved : Nat → List Nat → Bool
  | 0, _ | _ + 1, [] => false
  | n + 1, d :: ws => (Ty.ofCode (fld d 0 6)).isNone || specReserved n (ws.drop (2 * fld d 8 2))

def noDup (l : List Nat) : Bool :=
  match l with
  | [] => true
  | a :: r => !r.contains a && noDup r

/-- The memory operands of SX, MD, the address and the offset word (08 R179). -/
def memOpnd (md sx a : Nat) (ext : List Nat) : MemOpnd :=
  ⟨(Ord.ofCode md).getD .rlx, (Scope.ofCode (sx % 8)).getD .sys, ext.head?.map (BitVec.ofNat 32), a⟩

def optAt (b : Bool) (l : List Nat) : Option Nat × List Nat :=
  if b then (l.head?, l.tail) else (none, l)

/-- Builds the instruction from fields that `fieldsOk` admits, its operands and extension words. -/
def build (op ty md sx : Nat) (ops ext : List Nat) : Except DecErr Instr :=
  let t := (Ty.ofCode ty).getD .void
  let rm := Rm.ofCode (md % 4)
  match op, ops with
  | 0x01, as =>
      if ext.all edgeOk then match takeEdges ext as with
        | some [e] => .ok (.br e)
        | _ => .error .branchCount
      else .error .extword
  | 0x02, c :: as =>
      if ext.all edgeOk then match takeEdges ext as with
        | some [e1, e0] => .ok (.cbr c e1 e0)
        | _ => .error .branchCount
      else .error .extword
  | 0x03, v :: as =>
      let cs := ext.take sx
      if (ext.drop sx).all edgeOk && cs.all (caseOk ty) && noDup cs then match takeEdges (ext.drop sx) as with
        | some (d :: es) => .ok (.switch t v d ((cs.map (BitVec.ofNat 32)).zip es))
        | _ => .error .branchCount
      else .error .extword
  | 0x04, i :: as =>
      if ext.all edgeOk then match takeEdges ext as with
        | some es => .ok (.brx i es)
        | none => .error .branchCount
      else .error .extword
  | 0x05, as => match ext with
      | [f] => if f < 2 ^ 16 then .ok (.call f as) else .error .extword
      | _ => .error .extword
  | 0x06, vs => .ok (.ret vs)
  | 0x07, _ => .ok .exit
  | 0x08, _ => .ok (.trap (BitVec.ofNat 8 sx))
  | 0x09, _ => .ok .brk
  | 0x10, _ =>
      if sx = 1 then match ext with
        | [w] => match Sec.ofCode (w / 2 ^ 30) with
          | some s => .ok (.constSymbol t s (BitVec.ofNat 30 w))
          | none => .error .extword
        | _ => .error .extword
      else match immVal t ext with
        | some v => .ok (.const t v)
        | none => .error .extword
  | 0x11, [a, b] => .ok (.add t a b)
  | 0x12, [a, b] => .ok (.sub t a b)
  | 0x13, [a, b] => .ok (.mul t a b)
  | 0x14, [a, b] => .ok (.mulhi t a b)
  | 0x15, [a, b, c] => .ok (.mad t a b c)
  | 0x16, [a, b] => .ok (.div t a b)
  | 0x17, [a, b] => .ok (.rem t a b)
  | 0x18, [a] => .ok (.neg t a)
  | 0x19, [a] => .ok (.abs t a)
  | 0x1A, [a, b] => .ok (.min t a b)
  | 0x1B, [a, b] => .ok (.max t a b)
  | 0x1C, [a, b] => .ok (.addsat t a b)
  | 0x1D, [a, b] => .ok (.subsat t a b)
  | 0x1E, [a, b] => .ok (.and t a b)
  | 0x1F, [a, b] => .ok (.or t a b)
  | 0x20, [a, b] => .ok (.xor t a b)
  | 0x21, [a] => .ok (.not t a)
  | 0x22, [a, b] => .ok (.shl t a b)
  | 0x23, [a, b] => .ok (.shr t a b)
  | 0x24, [a, b] => .ok (.rotl t a b)
  | 0x25, [a] => .ok (.popc t a)
  | 0x26, [a] => .ok (.clz t a)
  | 0x27, [a] => .ok (.ctz t a)
  | 0x28, [a] => .ok (.brev t a)
  | 0x29, [a, b, c] => .ok (.bfx t a b c)
  | 0x2A, [a, b, c, d] => .ok (.bfi t a b c d)
  | 0x2B, [a, b] => match Cc.ofCode md with
      | some cc => .ok (.cmp t cc a b)
      | none => .error .fields
  | 0x2C, [c, a, b] => .ok (.sel t c a b)
  | 0x40, [a, b] => .ok (.fadd t rm a b)
  | 0x41, [a, b] => .ok (.fsub t rm a b)
  | 0x42, [a, b] => .ok (.fmul t rm a b)
  | 0x43, [a, b, c] => .ok (.fma t rm a b c)
  | 0x44, [a, b] => .ok (.fdiv t rm a b)
  | 0x45, [a] => .ok (.fsqrt t rm a)
  | 0x46, [a] => .ok (.frsq t rm a)
  | 0x47, [a] => .ok (.frcp t rm a)
  | 0x48, [a] => .ok (.fexp2 t a)
  | 0x49, [a] => .ok (.flog2 t a)
  | 0x4A, [a] => .ok (.fsin t a)
  | 0x4B, [a] => .ok (.fcos t a)
  | 0x4C, [a] => .ok (.ftanh t a)
  | 0x4D, [a, b] => .ok (.fmin t a b)
  | 0x4E, [a, b] => .ok (.fmax t a b)
  | 0x4F, [a] => .ok (.fabs t a)
  | 0x50, [a] => .ok (.fneg t a)
  | 0x51, [a, b] => match Fcc.ofCode md with
      | some cc => .ok (.fcmp t cc a b)
      | none => .error .fields
  | 0x52, [a] => .ok (.fclass t a)
  | 0x53, [a] => .ok (.fround t rm a)
  | 0x54, [a, b] => .ok (.fcopysign t a b)
  | 0x70, [a] => .ok (.cvt t (4 ≤ md) rm a)
  | 0x71, [a] => .ok (.bitcast t a)
  | 0x72, [a, b] => .ok (.pack t a b)
  | 0x73, [a] => .ok (.unpack t a)
  | 0x74, [x] => .ok (.dxbPackElem t x)
  | 0x74, [x, o] => .ok (.dxbPackScale t (2 ≤ sx) x o)
  | 0x75, [e, s] => .ok (.dxbUnpack t rm (sx = 2) e s)
  | 0x80, [v, d] => .ok (.shfl t (ShMode.ofCode md) sx v d)
  | 0x81, [c] => .ok (.vote (VoteOp.ofCode md) c)
  | 0x82, [c] => .ok (.ballot (Fin.ofNat 32 sx) c)
  | 0x83, [v] => match RedOp.ofCode sx with
      | some o => .ok (.redux t o rm v)
      | none => .error .fields
  | 0x84, [v] => match RedOp.ofCode sx with
      | some o => .ok (.scan t o rm (4 ≤ md) v)
      | none => .error .fields
  | 0x85, [s] => .ok (.rand (ty = 9) s)
  | 0x90, [a] => .ok (.ld t (memOpnd md sx a ext))
  | 0x91, [a, v] => .ok (.st t (memOpnd md sx a ext) v)
  | 0x92, [a] => .ok (.ldv t (sx / 16) (memOpnd md sx a ext))
  | 0x93, a :: vs => .ok (.stv t (sx / 16) (memOpnd md sx a ext) vs)
  | 0x94, a :: v :: r => match AtomOp.ofCode (sx / 16) with
      | some o => .ok (.atom t o (memOpnd md sx a ext) v r.head?)
      | none => .error .fields
  | 0x95, _ => .ok (.fence ((Ord.ofCode md).getD .rlx) ((Scope.ofCode sx).getD .sys))
  | 0x96, [a] => .ok (.prefetch (sx = 1) a)
  | 0x97, [a, l] => .ok (.tier (sx = 1) a l)
  | 0xB0, [b, e] => .ok (.barInit ((Scope.ofCode sx).getD .sys) b e)
  | 0xB1, b :: r => .ok (.barArrive b r.head?)
  | 0xB2, b :: r => .ok (.barWait b r.head?)
  | 0xB3, [b, p] => .ok (.barTry b p)
  | 0xB4, b :: r => .ok (.barSync b r.head?)
  | 0xB5, b :: r => .ok (.stepSync b r.head?)
  | 0xC0, a :: b :: l :: r =>
      let (bw, r) := optAt (fld sx 4 1 = 1) r
      let (cv, r) := optAt (md % 2 = 1) r
      let (w, _) := optAt (2 ≤ md) r
      .ok (.copy (ty = 9) ((Scope.ofCode (sx % 8)).getD .sys) a b l bw cv w)
  | 0xC1, a :: b :: r =>
      let no := r.length - (fld sx 4 1 + md % 2 + md / 2)
      let (bw, r') := optAt (fld sx 4 1 = 1) (r.drop no)
      let (cv, r') := optAt (md % 2 = 1) r'
      let (w, _) := optAt (2 ≤ md) r'
      .ok (.tcopy ((TVar.ofCode (sx / 64)).getD .load) (ty = 9) ((Scope.ofCode (sx % 8)).getD .sys) a b (r.take no) bw cv w)
  | 0xC2, a :: b :: l :: r =>
      let (lc, r) := optAt (fld sx 3 1 = 1) r
      let (bw, r) := optAt (fld sx 4 1 = 1) r
      let (cv, r) := optAt (md % 2 = 1) r
      let (w, _) := optAt (2 ≤ md) r
      .ok (.copyRemote (ty = 9) ((Scope.ofCode (sx % 8)).getD .sys) a b l lc bw cv w)
  | 0xD0, [e] => .ok (.accInit (Fin.ofNat 8 (sx / 16)) (Fin.ofNat 16 (sx % 16)) e)
  | 0xD1, [a, x, y] => .ok (.mma ((MFmt.ofCode (sx / 16)).getD .dxb4) ((MFmt.ofCode (sx % 16)).getD .dxb4) (Fin.ofNat 4 md) a x y)
  | 0xD2, [a, x, h, j] =>
      .ok (.mmaRes ((MFmt.ofCode (sx / 16)).getD .dxb4) ((MFmt.ofCode (sx % 16)).getD .dxb4) (Fin.ofNat 4 md) a x h j)
  | 0xD3, [a] => .ok (.accNorm a)
  | 0xD4, [a, r, c] => if sx = 0 then .ok (.accRd t rm a r c) else .ok (.accRdWord (sx = 2) a r c)
  | 0xD5, [a, r, c, v] =>
      if sx % 4 = 0 then .ok (.accWr ((Ty.ofCode (sx / 4)).getD .void) rm a r c v) else .ok (.accWrWord (sx = 38) a r c v)
  | 0xD6, [m] => .ok (.ropeForm m)
  | 0xD7, _ => .ok .ropeFree
  | 0xE0, [a, b, c, d, e, f] => .ok (.resPitch ((Scope.ofCode sx).getD .sys) a b c d e f)
  | 0xE0, [n] => if sx = 8 then .ok (.resPitchAttach n) else .ok (.resPitchRefill n)
  | 0xE1, [x] => .ok (.resStrike (sx = 1) x)
  | 0xE2, [x] => .ok (.resPin (sx = 1) x)
  | 0xE3, [x] => .ok (.resUnpin (sx = 1) x)
  | 0xE4, [x] => .ok (.resQuery (sx = 1) x)
  | 0xE8, tc :: r => match takeSpecs (sx % 16) ext with
      | some (sp, true) => .ok (.sloop tc sp (r.take (sx % 16)) (r.drop (sx % 16)))
      | _ => .error (if specReserved (sx % 16) ext then .type else .stream)
  | 0xE9, _ => .ok (.sget t sx)
  | 0xEA, [v] => .ok (.sput t sx v)
  | 0xEB, vs => .ok (.sloopEnd vs)
  | 0xF0, _ => match SysReg.ofCode sx with
      | some r => .ok (.sysRd r)
      | none => .error .fields
  | 0xF1, [v] => if sx = 0x0A then .ok (.sysWrXstat v) else .ok (.sysWrStubv v)
  | 0xF2, _ => if sx = 0 then .ok .stamp else .ok .stampSc
  | 0xF3, _ => .ok .yield
  | 0xF4, _ => if sx = 0 then .ok .xretRetry else .ok .xretNext
  | 0xF5, [a, l] => .ok (.tlbInv (sx = 3) a l)
  | 0xF6, [p] => .ok (.opReq p)
  | _, _ => .error .fields

/-- Type codes that 06 R135 reserves. -/
def tyReserved (t : Nat) : Bool := (Ty.ofCode t).isNone

/-- The instruction of raw fields, or the lowest reason among its failures (17 R379, R382). -/
def Raw.decode (r : Raw) : Except DecErr Instr :=
  if !tyReserved r.ty && !fieldsOk r.op r.ty r.md r.cnt r.sx then .error .fields
  else match r.ops with
    | none => .error .osize
    | some ops =>
      if tyReserved r.ty then .error .type else build r.op r.ty r.md r.sx ops r.ext

/-- Decodes the portable instruction at the head of the words: it and its size in words. -/
def decodePortable (ws : List Nat) : Except DecErr (Instr × Nat) :=
  match parseRaw ws with
  | .error e => .error e
  | .ok r => match r.decode with
    | .error e => .error e
    | .ok i => .ok (i, r.size)

/-! ### Native syllables -/

/-- The slots of a bundle in their order (11, introduction). -/
inductive Slot where
  | a0 | a1 | m | x | c | p
  deriving DecidableEq, Repr

/-- A header syllable (11 R265); none for a reserved bit or three literals. -/
def decodeHeader (w : Nat) : Option Hdr :=
  if fld w 0 10 = 0 ∧ fld w 11 2 ≠ 3 ∧ w < 2 ^ 32 then
    some ⟨fld w 31 1 = 1, BitVec.ofNat 6 (fld w 25 6), BitVec.ofNat 8 (fld w 17 8), BitVec.ofNat 3 (fld w 14 3),
      fld w 13 1 = 1, BitVec.ofNat 2 (fld w 11 2), fld w 10 1 = 1⟩
  else none

/-- The fields of an A, M, X or C syllable (11 R267). -/
def decodeNOp (w : Nat) : NOp :=
  ⟨fld w 31 1 = 1, fld w 30 1 = 1, BitVec.ofNat 4 (fld w 21 4), BitVec.ofNat 7 (fld w 14 7),
    BitVec.ofNat 7 (fld w 7 7), BitVec.ofNat 7 (fld w 0 7)⟩

/-- BASE values of the A slots (11 R279). -/
def decodeA (base : Nat) (n : NOp) : Option Instr :=
  match base with
  | 0x00 => some (.natIadd n) | 0x01 => some (.natIsub n) | 0x02 => some (.natImul n) | 0x03 => some (.natImad n)
  | 0x04 => some (.natAnd n) | 0x05 => some (.natOr n) | 0x06 => some (.natXor n) | 0x07 => some (.natShl n)
  | 0x08 => some (.natShr n) | 0x09 => some (.natSar n) | 0x0A => some (.natMin n) | 0x0B => some (.natMax n)
  | 0x0C => some (.natSel n) | 0x0D => some (.natIcmp n) | 0x0E => some (.natFadd n) | 0x0F => some (.natFmul n)
  | 0x10 => some (.natFma n) | 0x11 => some (.natFmad n) | 0x12 => some (.natFcmp n) | 0x13 => some (.natFmin n)
  | 0x14 => some (.natFmax n) | 0x15 => some (.natCvt n) | 0x16 => some (.natMov n) | 0x17 => some (.natMovi n)
  | 0x18 => some (.natSfu n) | 0x19 => some (.natLane n) | _ => none

/-- BASE values of the M slot. -/
def decodeM (base : Nat) (n : NOp) : Option Instr :=
  match base with
  | 0x00 => some (.natLds n) | 0x01 => some (.natSts n) | 0x02 => some (.natLdg n) | 0x03 => some (.natStg n)
  | 0x04 => some (.natAtg n) | 0x05 => some (.natLdp n) | 0x06 => some (.natStp n) | 0x07 => some (.natPrf n)
  | 0x08 => some (.natFnc n) | _ => none

/-- BASE values of the X slot. -/
def decodeX (base : Nat) (n : NOp) : Option Instr :=
  match base with
  | 0x00 => some (.natMma n) | 0x01 => some (.natMmar n) | 0x02 => some (.natAccn n) | 0x03 => some (.natTcopy n)
  | 0x04 => some (.natCopy n) | 0x05 => some (.ovl n) | 0x06 => some (.natRpitch n) | 0x07 => some (.natRstrike n)
  | 0x08 => some (.natAcci n) | _ => none

/-- BASE values of the C slot. -/
def decodeC (base : Nat) (n : NOp) : Option Instr :=
  match base with
  | 0x00 => some (.natBr n) | 0x01 => some (.natBrc n) | 0x02 => some (.brsw n) | 0x03 => some (.natCall n)
  | 0x04 => some (.natRet n) | 0x05 => some (.ifence n) | 0x06 => some (.join n) | 0x07 => some (.natExit n)
  | 0x08 => some (.natTrap n) | 0x09 => some (.bwait n) | 0x0A => some (.barr n) | 0x0B => some (.srd n)
  | 0x0C => some (.natYield n) | 0x0D => some (.point n) | 0x0E => some (.sadd n) | 0x0F => some (.smov n)
  | 0x10 => some (.scmp n) | _ => none

/-- A P syllable (11 R277). -/
def decodeP (w : Nat) : Option Instr :=
  let p : POp := ⟨fld w 31 1 = 1, BitVec.ofNat 4 (fld w 25 4), BitVec.ofNat 5 (fld w 20 5), BitVec.ofNat 4 (fld w 16 4),
    BitVec.ofNat 5 (fld w 11 5), BitVec.ofNat 2 (fld w 9 2), BitVec.ofNat 5 (fld w 4 5), BitVec.ofNat 4 (fld w 0 4)⟩
  match fld w 30 1, fld w 29 1 with
  | 1, 0 => some (.prd p)
  | 0, 1 => some (.pwr p)
  | 1, 1 => some (.prdPwr p)
  | _, _ => none

/-- The operation that a syllable names in a slot. -/
def decodeSyl (s : Slot) (w : Nat) : Option Instr :=
  if w < 2 ^ 32 then
    match s with
    | .a0 | .a1 => decodeA (fld w 25 5) (decodeNOp w)
    | .m => decodeM (fld w 25 5) (decodeNOp w)
    | .x => decodeX (fld w 25 5) (decodeNOp w)
    | .c => decodeC (fld w 25 5) (decodeNOp w)
    | .p => decodeP w
  else none

/-- The word of an operation syllable (11 R267). -/
def nopWord (base : Nat) (n : NOp) : Nat :=
  boolN n.st * 2 ^ 31 + boolN n.q * 2 ^ 30 + base * 2 ^ 25 + n.gd.toNat * 2 ^ 21 + n.dst.toNat * 2 ^ 14 +
    n.sa.toNat * 2 ^ 7 + n.sb.toNat

/-- The word of a P syllable (11 R277). -/
def popWord (re we : Nat) (p : POp) : Nat :=
  boolN p.st * 2 ^ 31 + re * 2 ^ 30 + we * 2 ^ 29 + p.rb.toNat * 2 ^ 25 + p.rr.toNat * 2 ^ 20 + p.wb.toNat * 2 ^ 16 +
    p.wr.toNat * 2 ^ 11 + p.co.toNat * 2 ^ 9 + p.kq.toNat * 2 ^ 4 + p.gd.toNat

/-- The word of a header syllable (11 R265). -/
def hdrWord (h : Hdr) : Nat :=
  boolN h.st * 2 ^ 31 + h.tm.toNat * 2 ^ 25 + h.pm.toNat * 2 ^ 17 + h.op.toNat * 2 ^ 14 + boolN h.oe * 2 ^ 13 +
    h.lc.toNat * 2 ^ 11 + boolN h.pp * 2 ^ 10

/-- The slot and word of a native operation; the header has no slot. -/
def Instr.syllable : Instr → Option (Option Slot × Nat)
  | .header h => some (none, hdrWord h)
  | .natIadd n => some (some .a0, nopWord 0x00 n) | .natIsub n => some (some .a0, nopWord 0x01 n)
  | .natImul n => some (some .a0, nopWord 0x02 n) | .natImad n => some (some .a0, nopWord 0x03 n)
  | .natAnd n => some (some .a0, nopWord 0x04 n) | .natOr n => some (some .a0, nopWord 0x05 n)
  | .natXor n => some (some .a0, nopWord 0x06 n) | .natShl n => some (some .a0, nopWord 0x07 n)
  | .natShr n => some (some .a0, nopWord 0x08 n) | .natSar n => some (some .a0, nopWord 0x09 n)
  | .natMin n => some (some .a0, nopWord 0x0A n) | .natMax n => some (some .a0, nopWord 0x0B n)
  | .natSel n => some (some .a0, nopWord 0x0C n) | .natIcmp n => some (some .a0, nopWord 0x0D n)
  | .natFadd n => some (some .a0, nopWord 0x0E n) | .natFmul n => some (some .a0, nopWord 0x0F n)
  | .natFma n => some (some .a0, nopWord 0x10 n) | .natFmad n => some (some .a0, nopWord 0x11 n)
  | .natFcmp n => some (some .a0, nopWord 0x12 n) | .natFmin n => some (some .a0, nopWord 0x13 n)
  | .natFmax n => some (some .a0, nopWord 0x14 n) | .natCvt n => some (some .a0, nopWord 0x15 n)
  | .natMov n => some (some .a0, nopWord 0x16 n) | .natMovi n => some (some .a0, nopWord 0x17 n)
  | .natSfu n => some (some .a0, nopWord 0x18 n) | .natLane n => some (some .a0, nopWord 0x19 n)
  | .natLds n => some (some .m, nopWord 0x00 n) | .natSts n => some (some .m, nopWord 0x01 n)
  | .natLdg n => some (some .m, nopWord 0x02 n) | .natStg n => some (some .m, nopWord 0x03 n)
  | .natAtg n => some (some .m, nopWord 0x04 n) | .natLdp n => some (some .m, nopWord 0x05 n)
  | .natStp n => some (some .m, nopWord 0x06 n) | .natPrf n => some (some .m, nopWord 0x07 n)
  | .natFnc n => some (some .m, nopWord 0x08 n)
  | .natMma n => some (some .x, nopWord 0x00 n) | .natMmar n => some (some .x, nopWord 0x01 n)
  | .natAccn n => some (some .x, nopWord 0x02 n) | .natTcopy n => some (some .x, nopWord 0x03 n)
  | .natCopy n => some (some .x, nopWord 0x04 n) | .ovl n => some (some .x, nopWord 0x05 n)
  | .natRpitch n => some (some .x, nopWord 0x06 n) | .natRstrike n => some (some .x, nopWord 0x07 n)
  | .natAcci n => some (some .x, nopWord 0x08 n)
  | .natBr n => some (some .c, nopWord 0x00 n) | .natBrc n => some (some .c, nopWord 0x01 n)
  | .brsw n => some (some .c, nopWord 0x02 n) | .natCall n => some (some .c, nopWord 0x03 n)
  | .natRet n => some (some .c, nopWord 0x04 n) | .ifence n => some (some .c, nopWord 0x05 n)
  | .join n => some (some .c, nopWord 0x06 n) | .natExit n => some (some .c, nopWord 0x07 n)
  | .natTrap n => some (some .c, nopWord 0x08 n) | .bwait n => some (some .c, nopWord 0x09 n)
  | .barr n => some (some .c, nopWord 0x0A n) | .srd n => some (some .c, nopWord 0x0B n)
  | .natYield n => some (some .c, nopWord 0x0C n) | .point n => some (some .c, nopWord 0x0D n)
  | .sadd n => some (some .c, nopWord 0x0E n) | .smov n => some (some .c, nopWord 0x0F n)
  | .scmp n => some (some .c, nopWord 0x10 n)
  | .prd p => some (some .p, popWord 1 0 p) | .pwr p => some (some .p, popWord 0 1 p)
  | .prdPwr p => some (some .p, popWord 1 1 p)
  | _ => none

/-- Decodes a native syllable of a slot, or a header. -/
def decodeNative (s : Option Slot) (w : Nat) : Option Instr :=
  match s with
  | none => (decodeHeader w).map .header
  | some s => decodeSyl s w

/-- The words of a well-formed instruction: portable words, or the one word of a native syllable; no words for the rows that no program encodes. -/
def encode (i : Instr) : List Nat :=
  match i.parts with
  | some p => p.words
  | none => match i.syllable with
    | some (_, w) => [w]
    | none => []

/-! ### Commands of the configuration path -/

/-- The command that a code of 14 R358 names; the other codes are reserved. -/
def commandOf (c : Cmd) : Instr :=
  match c.code.toNat with
  | 0x01 => .moduleLoad c | 0x02 => .moduleUnload c | 0x10 => .queueWrite c | 0x11 => .queueRead c
  | 0x12 => .tenantBind c | 0x13 => .tenantUnbind c | 0x14 => .regionSuspend c | 0x15 => .regionResume c
  | 0x16 => .packRequest c | 0x20 => .setRunLimit c | 0x21 => .setHold c | 0x22 => .exportWrite c
  | 0x23 => .setPackageNumber c | 0x24 => .keyInstall c | 0x25 => .routeWrite c | 0x26 => .setPeerTimeout c
  | 0x27 => .setPoolSize c | 0x28 => .supervisorKey c | 0x29 => .domainAlign c | 0x2A => .setTier c
  | 0x30 => .subscribe c | 0x31 => .rackCap c | 0x32 => .emberEnter c | 0x33 => .emberExit c
  | 0x38 => .attest c | 0x39 => .debugChallenge c | 0x3A => .debugToken c
  | 0x40 => .attach c | 0x41 => .detach c | 0x42 => .stop c | 0x43 => .resume c | 0x44 => .step c
  | 0x45 => .bkptSet c | 0x46 => .bkptClear c | 0x47 => .toPoint c | 0x48 => .read c | 0x49 => .write c
  | 0x4A => .splits c | 0x50 => .poolAdd c | 0x51 => .poolDeny c | 0x52 => .fencecmd c | 0x53 => .unfence c
  | 0x54 => .finjWrite c | 0x55 => .finjRead c | 0x56 => .errorCounts c | 0x57 => .reservedMap c
  | _ => .reservedCommand c

/-- The number of a list of bytes, lowest first (00 R3). -/
def leNat : List Byte → Nat
  | [] => 0
  | b :: r => b.toNat + 256 * leNat r

/-- `n` bytes of a number, lowest first. -/
def leBytes : Nat → Nat → List Byte
  | 0, _ => []
  | n + 1, v => BitVec.ofNat 8 v :: leBytes n (v / 256)

/-- Decodes the 64 bytes of a command that a master's ring holds (14 R356). -/
def decodeCommand (master : Nat) (bs : List Byte) : Instr :=
  let q (i : Nat) : W64 := BitVec.ofNat 64 (leNat ((bs.drop (8 * i)).take 8))
  let h := (q 0).toNat
  commandOf ⟨master, BitVec.ofNat 16 (fld h 16 16), BitVec.ofNat 8 h, fld h 8 8 != 0 || fld h 32 32 != 0,
    q 1, q 2, q 3, q 4, q 5, q 6, q 7⟩

/-- The 64 bytes of a command without reserved bits. -/
def encodeCommand (c : Cmd) : List Byte :=
  leBytes 8 (c.code.toNat + c.tag.toNat * 2 ^ 16) ++ leBytes 8 c.a0.toNat ++ leBytes 8 c.a1.toNat ++
  leBytes 8 c.a2.toNat ++ leBytes 8 c.a3.toNat ++ leBytes 8 c.a4.toNat ++ leBytes 8 c.a5.toNat ++ leBytes 8 c.a6.toNat

/-! ### The rows of the opcode table -/

/-- The portable instruction whose header word is `w` and whose further words are zero. -/
def decodeOneWord (w : Nat) : Option Instr :=
  match decodePortable (w :: List.replicate 63 0) with
  | .ok (i, _) => if fld w 24 8 = 0 then none else some i
  | _ => none

/-- The instruction whose bits are `w` in the numbering of the opcode table: a portable instruction where the word is one, else the operation of the first slot kind (A, M, X, C, P) that has it, else a header (log 6). -/
def decodeTableWord (nbits w : Nat) : Option Instr :=
  if nbits ≤ 32 ∧ w < 2 ^ 32 then
    match decodeOneWord w with
    | some i => some i
    | none =>
      match decodeSyl .a0 w with
      | some i => some i
      | none => match decodeSyl .m w with
        | some i => some i
        | none => match decodeSyl .x w with
          | some i => some i
          | none => match decodeSyl .c w with
            | some i => some i
            | none => match decodeSyl .p w with
              | some i => some i
              | none => (decodeHeader w).map .header
  else none

end Sys2Proof
end

