-- ==== Sys2Proof/Config.lean ====
section
/-! DEFINITION. What is fixed for one package: free values and secrets, which have no body, and the constants of 01 R14. -/

namespace Sys2Proof.Config

/-- A value the manual leaves open, one for each count (log 24). -/
opaque freeWord : Nat → BitVec 64

/-- Whether an RSASSA-PSS signature with RSA-3072 and SHA-384 verifies: key, message, signature (14 R362; log 12). -/
opaque rsaOk : List (BitVec 8) → List (BitVec 8) → List (BitVec 8) → Bool

/-- Whether an SLH-DSA-SHA2-192s signature verifies: key, message, signature (14 R362; log 12). -/
opaque slhOk : List (BitVec 8) → List (BitVec 8) → List (BitVec 8) → Bool

/-- The two firmware keys whose hashes are fused (14 R362). -/
opaque fwKeys : List (BitVec 8) × List (BitVec 8)

/-- The two debug keys (14 R364). -/
opaque debugKeys : List (BitVec 8) × List (BitVec 8)

/-- The device identifier (14 R363). -/
opaque deviceId : BitVec 256

/-- The n-th challenge nonce of the controller (14 R364). -/
opaque nonce : Nat → BitVec 256

/-- The two identity signatures over an attestation report (14 R363): 384 bytes of RSA-3072, then 16,224 of SLH-DSA-SHA2-192s (log 12). -/
opaque attestSig : List (BitVec 8) → BitVec (8 * 16608)

/-- The bits of the RSA and SLH-DSA signatures in a SIGN section: where the first one ends (06 R125; log 12). -/
def rsaSigBytes : Nat := 384

/-- Charge target of a cluster, by the cap in force in 0.1 W, die and cluster (14 R345; log 19). -/
opaque chargeTarget : Nat → Nat → Nat → Nat

end Sys2Proof.Config
end

