-- ==== Sys2Proof/Machine/State.lean ====
section
/-! DEFINITION. The state of the package as plain data: every register, record, queue and memory the manual gives it (INVENTORY.md, State). -/

namespace Sys2Proof.Machine

/-- A typed value of one lane (06 R135): the low bits of `v` hold it. -/
structure TVal where
  ty : Ty
  v : W64
  deriving DecidableEq, Repr

/-- One activation of a function in one lane (08 R198, 10 R251): the values it has defined, where it returns to. -/
structure Frame where
  mh : Nat
  func : Nat
  /-- offset of the `call` of the caller, and of the instruction after it -/
  callOff : Nat
  retOff : Nat
  /-- first result number in the caller -/
  resNum : Nat
  /-- frame pointer of this activation (10 R251) -/
  fp : Nat
  /-- whether the function was entered by launch or as a handler, so that `ret` is `exit` (08 R198, 18 R397) -/
  root : Bool
  vals : List (Nat × TVal)
  /-- whether the caller ran native code at the call, so that its registers are not in `vals` of its own frame (12 R312) -/
  nat : Bool
  deriving DecidableEq, Repr

/-- What a trap saves of a lane, and the bytes of its trap area that are not zero (18 R397). -/
structure LaneSave where
  frames : List Frame
  k : List (Nat × W32)
  g : BitVec 16
  area : List Host.Cell
  deriving DecidableEq, Repr

/-- A late fault waiting for the next portable point (18 R404): refused with a reason, or timed out. -/
structure Late where
  reason : Option Nat
  addr : W64
  acc : Nat
  deriving DecidableEq, Repr

/-- One lane of a troop. `frames` holds the running activation first; `k` lists registers that are not zero (11 R268). -/
structure Lane where
  frames : List Frame
  sticky : W32
  rand : W64
  seen : W64
  k : List (Nat × W32)
  g : BitVec 16
  late : Option Late
  saved : Option LaneSave
  deriving DecidableEq, Repr

/-- A sibling group (02 R29, R30): its parent, and its join point; no offset stands for the function end. -/
structure Group where
  gid : Nat
  parent : Nat
  mh : Nat
  func : Nat
  off : Option Nat
  /-- frame depth of the function in which the group formed -/
  depth : Nat
  /-- join bundle of native code, in bytes -/
  nat : Option Nat
  deriving DecidableEq, Repr

/-- The running stream loop of a split (06 R142 to R144). -/
structure Loop where
  t : Nat
  i : Nat
  body : Nat
  dst : Nat
  count : Nat
  specs : List StreamSpec
  bases : List Val
  /-- bytes that a lane's stores of this iteration have replaced: lane, location, the byte before (06 R145) -/
  olds : List (Nat × Nat × Byte)
  deriving DecidableEq, Repr

/-- Key of a translated region (10 R238). -/
structure Key where
  hash : BitVec 256
  origin : Bool
  func : Nat
  entry : Nat
  kind : Nat
  rev : Nat
  budget : Nat
  tiles : Nat
  wlog2 : Nat
  runlim : Nat
  step : Bool
  deriving DecidableEq, Repr

/-- Where a result in flight lands (10 R254, 11 R273). -/
inductive Dest where
  | reg (k : Nat)
  | guard (g : Nat)
  | scalar (s : Nat)
  deriving DecidableEq, Repr

/-- A result in flight (11 R273): bundles left, destination, lane values (or one value for a scalar). -/
structure Flight where
  left : Nat
  dst : Dest
  vals : List (Nat × W32)
  deriving DecidableEq, Repr

/-- An entry of a load-return queue (11 R272) with the type that the load gave its values. -/
structure QEnt where
  landed : Bool
  ty : Ty
  vals : List (Nat × W64)
  /-- the command and the peer requests that the entry waits for -/
  cmd : Option Nat
  reqs : List Nat
  deriving DecidableEq, Repr

/-- A branch that waits for the end of its delay bundle (11 R275): `br`; `brc` with the lanes it takes and its join bundle; `brsw`; `call` with callee, return point and new frame pointer; `ret` with the caller's frame pointer and the second word of the link, none for `exit`. -/
inductive NBr where
  | go (t : Nat)
  | cond (t : Nat) (m : Mask) (join : Option Nat)
  | sw (t entry off : Nat)
  | call (f ret fp : Nat)
  | ret (fp : Nat) (link : Option Nat)
  deriving DecidableEq, Repr

/-- A native position (02 R30): bank, byte offset, a branch that waits for its delay bundle, what the last point's bundle found (its offset, landings and queue entries, 18 R403), and whether the delay bundle has issued while the branch still waits for the bank it names (11 R284). -/
structure NPos where
  bank : Fin 2
  off : Nat
  pend : Option NBr
  ptOff : Nat
  ptFl : List Flight
  ptLq : List (Nat × QEnt)
  due : Bool
  deriving DecidableEq, Repr

/-- A block of 32 elements of a matrix operand (03 R64, R71): whether it is a NaN block, its scale terms, and the signed magnitudes under each selector. -/
structure Blk where
  nan : Bool
  t0 : Int
  t1 : Int
  q0 : List Int
  q1 : List Int
  deriving DecidableEq, Repr

/-- An element of an accumulator tile (03 R70). -/
structure AccEl where
  gm : W64
  e : BitVec 16
  s : Bool
  n : Bool
  c : BitVec 4
  deriving DecidableEq, Repr

/-- An accumulator tile (09 R222): the troop that holds it, the rope it belongs to, its slot, and the elements that differ from the default, in rising order. -/
structure Tile where
  mem : Nat
  rope : Option Nat
  slot : Nat
  dflt : AccEl
  els : List (Nat × AccEl)
  deriving DecidableEq, Repr

/-- Rows of a native matrix operation that are still to land (11 R276): bundles left, the tile as an acc value, quarter of its rows, blocks of both operands by row. Every split that counts the operation holds a copy, known by the operation's number `op`; the one with `own` lands the rows, and `was` is the tile before a landing that the split's own count has not reached. -/
structure MPend where
  left : Nat
  acc : Nat
  quarter : Nat
  as : List (List Blk)
  bs : List (List Blk)
  op : Nat
  own : Bool
  was : Option Tile
  deriving DecidableEq, Repr

/-- A write of `acci`, `accn` or `pwr` that is still to land (11 R277, 12 R306): a whole tile with its default element, or single elements. -/
structure PWrite where
  left : Nat
  acc : Nat
  whole : Option AccEl
  els : List (Nat × AccEl)
  deriving DecidableEq, Repr

/-- Supervisor registers and what a trap saved of a split (18 R397, R401). -/
structure Sup where
  func : Nat
  off : Nat
  mh : Nat
  cause : W32
  addr : W64
  mask : Mask
  loop : Option Loop
  nat : Option NPos
  scal : List (Nat × W64)
  lq : List (Nat × QEnt)
  fl : List Flight
  deriving DecidableEq, Repr

/-- A trap that waits for a trap area (18 R397). -/
structure TrapReq where
  cause : W32
  addr : W64
  off : Nat
  deriving DecidableEq, Repr

/-- A matrix operation with its operands read (09 R224): acc value, activation address, and weight address, or handle and tile when `res`. -/
structure MOp where
  fa : MFmt
  fb : MFmt
  t : Nat
  acc : Nat
  pa : Nat
  res : Bool
  b : Nat
  j : Nat
  /-- a native member of a rope not at POS 0, whose operands are ignored (12 R306) -/
  ign : Bool
  deriving DecidableEq, Repr

/-- A rendezvous of rope members (02 R39): a joint operation, or the rope's release. -/
inductive Joint where
  | op (m : MOp)
  | free
  deriving DecidableEq, Repr

/-- States of a split (02 R30), with what it waits for. -/
inductive SState where
  | ready
  /-- at a barrier instruction, until every split of the troop has reached it (02 R33) -/
  | converge (off : Nat)
  /-- in `bar.wait` or a form of it: word and reference phase (08 R192) -/
  | barrier (addr : W64) (ref : Bool)
  /-- at the rendezvous latch with a joint operation (02 R39) -/
  | rendezvous (j : Joint)
  /-- in `rope.form` with its member set (09 R227) -/
  | forming (mem : W32)
  | join
  | parked
  | claim (n : Nat)
  /-- a copy-engine command's status, or room for a further command (09 R210, R212) -/
  | command (id : Nat)
  /-- source reads of the troop's commands, in `step.sync` (08 R193) -/
  | srcReads
  | tile (num j : Nat)
  /-- a pool that is dry (19 R424) -/
  | pool (fast : Bool)
  | peer (id : Nat)
  | trap (t : TrapReq)
  deriving DecidableEq, Repr

/-- Stop causes of the debugger (18 R413 to R416). -/
inductive StopCause where
  | other | brk | step
  deriving DecidableEq, Repr

/-- Where a split's record is (02 R34): nowhere, while its camp is off its core or the divergence that made it has just issued; in an entry of its core's split table; in the camp's area of the save area. -/
inductive Seat where
  | none
  | entry (n : Nat)
  | memory
  deriving DecidableEq, Repr

/-- A split of a troop (02 R29, R30). -/
structure Split where
  sid : Nat
  mask : Mask
  mh : Nat
  func : Nat
  off : Nat
  group : Nat
  st : SState
  loop : Option Loop
  sup : Option Sup
  nat : Option NPos
  /-- portable point last passed -/
  lastPt : Nat
  scal : List (Nat × W64)
  lq : List (Nat × QEnt)
  fl : List Flight
  mp : List MPend
  pw : List PWrite
  /-- one-shot map grant of 19 R422 -/
  grant : Bool
  aged : Bool
  /-- core issue count at the split's last issue -/
  issued : Nat
  stop : Option StopCause
  /-- debugger requests: single-step, run to the next point, pass the breakpoint here once -/
  stepping : Bool
  toPoint : Bool
  passBrk : Bool
  /-- the owner denied a refill to this split's mapping (19 R424) -/
  denied : Bool
  /-- taken off at a `yield` and restored (08 R206) -/
  yielded : Bool
  /-- the split has yet to enter the stub that STUBV.RQ asked for (11 R286) -/
  rq : Bool
  /-- a tensor record that a peer has returned for the instruction at the split's position (09 R216) -/
  peerRec : Option (List Byte)
  /-- the joint operation, and the barrier operation, of the native bundle at the split's position have been performed -/
  matched : Bool
  arrived : Bool
  /-- a barrier word that a peer has returned for the native bundle at the split's position -/
  word : Option Nat
  /-- the bank that the split left when it parked (11 R285) -/
  left : Option (Fin 2)
  seat : Seat
  /-- the split was not ready at some issue of its core since the core's last aging step (13 R327) -/
  waited : Bool
  deriving DecidableEq, Repr

/-- A troop (02 R24 to R40). -/
structure Troop where
  mem : Nat
  live : Mask
  dead : Mask
  lanes : List Lane
  splits : List Split
  groups : List Group
  nextId : Nat
  /-- last arrival: word and phase (08 R191) -/
  larr : Option (W64 × Bool)
  rope : W32
  ropeId : Nat
  stubv : W64
  proot : Nat
  hwm : Nat
  pages : List Nat
  /-- deaths since the last DEADLANE report: lanes (18 R411) -/
  newDead : List Nat
  ctx : Nat
  budget : Nat
  tiles : Nat
  /-- a ROPE fault to take at the next rendezvous: sub-code, MEMBER (17 R390) -/
  rfault : Option (Nat × Nat)
  /-- the troop has taken EXITED for its rope -/
  rtaken : Bool
  deriving DecidableEq, Repr

/-- A tile of a residency held in the store (09 R230): element patterns and exponent pairs, last use. -/
structure ResTile where
  j : Nat
  els : List Nat
  pairs : List Nat
  use : Nat
  core : CoreId
  deriving DecidableEq, Repr

/-- An occupied entry of a camp's residency table (09 R230 to R236). -/
structure Res where
  num : Nat
  gen : Nat
  trec : W64
  i0 : Nat
  i1 : Nat
  tk : Nat
  tn : Nat
  fmt : MFmt
  sc : Scope
  pin : Bool
  stale : Option Nat
  /-- watched lines as first byte and byte above, in physical addresses; none for a residency without a watch -/
  watch : Option (List (Nat × Nat))
  tiles : List ResTile
  /-- the record as the pitch read it, and the tiles still to fill -/
  record : List Byte
  todo : List Nat
  /-- a stale mark set since the last pack (21 R462) -/
  since : Option Nat
  deriving DecidableEq, Repr

/-- Kinds of command (09 R211). -/
inductive CKind where
  | copy | tcopy (v : TVar) | remote
  deriving DecidableEq, Repr

/-- A copy-engine command that has not completed (09 R210 to R220). -/
structure CopyCmd where
  id : Nat
  kind : CKind
  mem : Nat
  lane : Nat
  sid : Nat
  st : Option Nat
  /-- a native issue delivers its status to this queue -/
  lq : Option Nat
  sc : Scope
  dst : W64
  src : W64
  len : Nat
  record : List Byte
  org : List Nat
  loc : Option W64
  bw : Option W64
  cv : Option W32
  want : Option W32
  /-- granules, those landed, and first position that faulted (19 R426) -/
  gran : Nat
  landed : List Nat
  stopAt : Option Nat
  /-- bytes as written, by offset in transfer order -/
  written : List (Nat × Byte)
  codes : List Nat
  seen : W64
  func : Nat
  off : Nat
  /-- byte of the command that the fault-injection register inverts, and its bit (22 R473) -/
  flip : Option (Nat × Nat)
  /-- bytes that a peer has returned, by source address (09 R213) -/
  fetched : List (Nat × Byte)
  /-- address of the tensor record of a `tcopy` -/
  trec : W64
  /-- running checksum of what had landed before a restore from another package's pack (09 R220) -/
  run : Option W32
  /-- checksum that the target has returned with its final acknowledgement (09 R214) -/
  back : Option W32
  deriving DecidableEq, Repr

/-- An entry of the ordered-reduction buffer (05 R123, 13 R336). -/
structure Orb where
  addr : W64
  ty : Ty
  v : W64
  rm : Rm
  mem : Nat
  lane : Nat
  seq : Nat
  func : Nat
  off : Nat
  /-- barrier words on which the troop has arrived since: the location of each -/
  due : List Nat
  deriving DecidableEq, Repr

/-- The portable state of a camp as a pack holds it (13 R333 to R336). -/
structure Pack where
  stamp : W64
  pkg : Nat
  hashp : Nat
  wlog2 : Nat
  runlim : Nat
  scratch : Nat
  campsize : Nat
  leaf : Nat
  camp : Nat
  troops : List Troop
  scr : List (Nat × Byte)
  res : List Res
  tiles : List Tile
  cmds : List CopyCmd
  orb : List Orb
  /-- STATE of each split that stood at a wait, by MEMBER and split (13 R335) -/
  stand : List (Nat × Nat × Nat)
  deriving DecidableEq, Repr

/-- Where a camp is. -/
inductive Place where
  | on (k : CoreId)
  /-- off its core with a native image (13 R328), made for the die kind given -/
  | image (k : CoreId)
  /-- off its core with a portable pack (13 R330) -/
  | packed
  /-- pre-empted, bringing its splits to their points before its pack is written -/
  | packing (k : CoreId)
  /-- queued, never placed -/
  | queued
  | ended
  /-- restored on another package, which has copied its private pages (13 R337) -/
  | moved
  deriving DecidableEq, Repr

/-- A camp of a launch (02 R35), resident or held as an image. -/
structure Camp where
  ref : CampRef
  place : Place
  budget : Nat
  tiles : Nat
  troops : List Troop
  /-- scratchpad bytes that are not zero (04 R80) -/
  scr : List (Nat × Byte)
  res : List Res
  /-- last generation of each entry pitched (22 R471) -/
  gens : List (Nat × Nat)
  accs : List Tile
  nextRope : Nat
  cmds : List CopyCmd
  nextCmd : Nat
  orb : List Orb
  /-- number of the next ordered-reduction entry or native matrix operation -/
  nextOrb : Nat
  pack : Option Pack
  fails : Nat
  /-- the budget before a change whose RETRANSLATE event is still to be posted (10 R264) -/
  oldb : Option Nat
  /-- a pack has been asked for while only a native image is held (13 R330) -/
  wants : Bool
  /-- the camp's area of the save area holds an uncorrectable error (21 R465) -/
  bad : Bool
  /-- POOLDRY has been posted for the placement that an empty pool holds back (15 R366) -/
  dry : Bool
  /-- shed, so placed only while power stays below 90 per cent of the cap (20 R446) -/
  shed : Bool
  /-- rendezvous latches of the core that the camp's ropes hold: rope serial and latch (02 R38) -/
  latches : List (Nat × Nat)
  /-- the camp's area of the save area: its first byte and its size (20 R443) -/
  area : Option (Nat × Nat)
  deriving DecidableEq, Repr

/-- A launch (13 R323, R324; 02 R42). -/
structure Launch where
  lid : Nat
  queue : Nat
  rcd : Nat
  leaf : Nat
  bind : Nat
  root : Nat
  /-- the RCBs from the leaf to the root as last read (02 R46): address and 1,024 bits -/
  rcbs : List (Nat × Nat)
  region : Nat
  mh : Nat
  func : Nat
  args : List W64
  wlog2 : Nat
  campsize : Nat
  troops : Nat
  scratch : Nat
  rmin : Nat
  runlim : Nat
  cohort : Bool
  det : Bool
  posts : List (Nat × W32)
  admitted : Nat
  placewait : Bool
  killed : Bool
  done : Bool
  deriving DecidableEq, Repr

/-- A queue: its descriptor (13 R320), latest NOTIFY, admitted records not completed, the record that waits. -/
structure Queue where
  q : Nat
  pendw : W32
  doneN : W32
  adm : W32
  write : W32
  doneaddr : W64
  rbase : W64
  bind : W64
  qlog2 : Nat
  pv : Bool
  mapped : Bool
  v : Bool
  /-- records admitted out of order of completion: number and whether completed -/
  recs : List (Nat × Bool)
  /-- record waiting on its flag, as it was read -/
  waiting : Option (BitVec 512)
  reload : Bool
  /-- an invalid RCB was read at BIND since the last descriptor write (20 R436) -/
  badBind : Bool
  /-- bytes of peer ranges that the scheduler has read for the next record, and whether a read failed -/
  got : List (Nat × Byte)
  gotBad : Bool
  /-- the read of a peer range that is out -/
  ask : Option Nat
  deriving DecidableEq, Repr

/-- States of a swap bank (11 R282). -/
inductive BankSt where
  | empty | loading | valid | invalid
  deriving DecidableEq, Repr

/-- A swap bank (11 R281 to R283): `marks` are the line marks set, `code` the native code of a pre-translated region. -/
structure Bank where
  st : BankSt
  key : Option Key
  total : Nat
  marks : List Nat
  code : List Byte
  /-- overlay commands not yet ended: source page and offset, length, bank offset, expected checksum, the camp that issued it -/
  ovl : List (Nat × Nat × Nat × W32 × CampRef)
  bad : Bool
  deriving DecidableEq, Repr

/-- A move between operating points (14 R342): the relock has begun, or has ended. -/
structure OpMove where
  src : Nat
  dst : Nat
  relocking : Bool
  relocked : Bool
  deriving DecidableEq, Repr

/-- Power states of a core (14 R349, R350). -/
inductive Power where
  | up
  | offing (since : Nat)
  | gated
  | waking
  deriving DecidableEq, Repr

/-- A core (01 R14). -/
structure Core where
  id : CoreId
  cur : Nat
  tgt : Nat
  mail : Option Nat
  move : Option OpMove
  pow : Power
  wake : Bool
  idle : Nat
  issues : Nat
  sinceAge : Nat
  b0 : Bank
  b1 : Bank
  /-- overlays of one key that failed in a row (21 R460) -/
  fails : Nat
  failKey : Option Key
  /-- charge issued by each camp in the current window (14 R346) -/
  charge : List (CampRef × Nat)
  /-- energy metered in the period -/
  energy : Nat
  /-- a camp has left the core since the last period boundary (13 R326) -/
  left : Bool
  deriving DecidableEq, Repr

/-- A cluster (01 R15): charge record, fault-injection register. -/
structure Cluster where
  die : Nat
  cl : Nat
  c : Nat
  ctarget : Nat
  finj : W64
  /-- matching commands or overlays let pass since FINJ was armed (22 R473) -/
  finjSeen : Nat
  deriving DecidableEq, Repr

/-- A compute die (01 R14). -/
structure Die where
  die : Nat
  fenced : Bool
  opceil : Nat
  temp : Nat
  lastDown : Nat
  lastUp : Nat
  queue : List (CoreId × Nat)
  corrected : List (Nat × BitVec 16)
  deriving DecidableEq, Repr

/-- Link states (14 R359, 21 R468). -/
inductive LinkSt where
  | up | retraining | lost
  deriving DecidableEq, Repr

/-- A Portage port (14 R359). `sent` is the replay buffer, oldest first: sequence numbers and the requests that the flits carry (log 28). -/
structure Port where
  p : Nat
  st : LinkSt
  rate : Nat
  rxSeq : BitVec 12
  txSeq : BitVec 12
  sent : List (BitVec 12 × Nat)
  delivered : List (List Byte)
  replays : List Nat
  lastReplay : Option (BitVec 12 × Nat)
  since : Nat
  deriving DecidableEq, Repr

/-- Who sent a request that waits for a peer or for host memory (19 R428, R429). -/
inductive ReqBy where
  | load (s : SplitRef) (l : Nat) (dst : Nat) (ty : Ty) (i n : Nat)
  | queue (t : TroopRef) (l : Nat)
  | store (t : TroopRef) (l : Nat)
  | amo (s : SplitRef) (l : Nat) (dst : Nat) (ty : Ty)
  | granule (c : CampRef) (cmd g : Nat)
  | orb (c : CampRef) (o : Orb)
  | barrier (s : SplitRef)
  /-- a host access of a master to a peer range of its tenant -/
  | host (m : Nat)
  /-- a read of the scheduler for a queue's next record -/
  | sched (q : Nat)
  /-- a post to a flag word, or a store of DONE: the leaf whose ring learns of a failed post -/
  | flag (leaf : Option Nat)
  deriving DecidableEq, Repr

/-- A request that has left the package and has no answer yet; `time` is when its timeout expires, `acked` that its flit has been acknowledged. -/
structure PeerReq where
  id : Nat
  pkg : Nat
  wa : W64
  by_ : ReqBy
  kind : AccKind
  n : Nat
  va : W64
  time : Nat
  port : Nat
  acked : Bool
  seen : W64
  deriving DecidableEq, Repr

/-- A store that the Groundsheet has not acknowledged (04 R101): physical bytes, who made it. -/
structure Pending where
  die : Nat
  core : CoreId
  by_ : Option TroopRef
  lane : Nat
  ord : Ord
  bytes : List (Nat × Byte)
  seen : W64
  deriving DecidableEq, Repr

/-- A migration in progress (04 R100): address of the level-2 entry, old value, physical source and target granules. -/
structure Migr where
  root : Nat
  va : Nat
  entry : Nat
  old : W64
  src : Nat
  dst : Nat
  toCap : Bool
  deriving DecidableEq, Repr

/-- What translates an address: a core with its L1 TLB and its die's last-level TLB, the last-level TLB itself, the walk-ahead TLB of a cluster's copy engine, or the Groundsheet, which holds nothing (04 R95, R98, 01 R14, R15). -/
inductive TlbUnit where
  | core (k : CoreId)
  | die (d : Nat)
  | ahead (die cl : Nat)
  | mgmt
  deriving DecidableEq, Repr

/-- A translation held in a TLB (04 R95): whose, tree or private root, page, physical page or peer target, permissions. -/
structure Tlb where
  unit : TlbUnit
  tree : Nat
  priv : Bool
  page : Nat
  phys : Nat
  pkg : Option Nat
  perm : BitVec 4
  key : Nat
  deriving DecidableEq, Repr

/-- A function-table entry (06 R128). -/
structure FuncRec where
  coff : Nat
  clen : Nat
  nval : Nat
  entry : Bool
  wmin : Nat
  wmax : Nat
  rtypes : List Ty
  deriving DecidableEq, Repr

/-- A loaded module (06 R149). -/
structure Module where
  mh : Nat
  tenant : Nat
  version : Nat
  hash : BitVec 256
  signed : Bool
  funcs : List FuncRec
  code : List Byte
  dbase : W64
  cbase : W64
  tbase : W64
  dlen : Nat
  clen : Nat
  ntens : Nat
  /-- the module holds an instruction of the matrix group (10 R250) -/
  matrix : Bool
  deriving DecidableEq, Repr

/-- A location of a side table (10 R254). -/
inductive Loc where
  | reg (k : Nat)
  | pair (k : Nat)
  | scalar (s : Nat)
  | guard (g : Nat)
  | spill (off : Nat)
  | const (v : W64)
  | acc (bank : Nat)
  | accFrame (off : Nat)
  | queue (n q : Nat)
  | flight (n : Nat) (pair : Bool) (k : Nat)
  deriving DecidableEq, Repr

/-- A point record of a side table (10 R252). -/
structure Point where
  pos : Nat
  noff : Nat
  ty : Nat
  locs : List (Nat × Loc)
  deriving DecidableEq, Repr

/-- A translation-cache entry (10 R238, R255). `stop` is the offset at which the region ends; `spills` are the spilled values and slots of the function. -/
structure TEntry where
  key : Key
  /-- number of the code page -/
  page : Nat
  pages : Nat
  stop : Nat
  points : List Point
  code : List Byte
  spills : List (Nat × Nat)
  /-- bytes of the link and the slots of the function's frame -/
  frame : Nat
  use : Nat
  hit : Bool
  badCode : Bool
  /-- discarded by a re-translation, and still pinned to the banks that held it then (10 R260) -/
  old : Bool
  keep : List (CoreId × Fin 2)
  deriving DecidableEq, Repr

/-- A claim on a key (10 R240): waiting splits, cluster, time of the request; `again` for a re-translation. -/
structure Claim where
  n : Nat
  key : Key
  mh : Nat
  die : Nat
  cl : Nat
  time : Nat
  by_ : SplitRef
  waiters : List SplitRef
  again : Bool
  /-- the core of the cluster that asked first (14 R349) -/
  core : Nat
  deriving DecidableEq, Repr

/-- A remembered verification failure (10 R240, 17 R381). -/
structure VFail where
  hash : BitVec 256
  func : Nat
  reason : Nat
  ffunc : Nat
  off : Nat
  deriving DecidableEq, Repr

/-- A tenant binding (14 R358 code 0x12, 18 R395). -/
structure Tenant where
  root : Nat
  master : Nat
  handler : Option (Nat × Nat)
  deriving DecidableEq, Repr

/-- A host master's registers (14 R353, R355). -/
structure Master where
  m : Nat
  crbase : W64
  clog2 : Nat
  en : Bool
  crcfg : W32
  crdb : W32
  crhead : W32
  cpbase : W64
  cpidx : W32
  cpdrop : W32
  link : Bool
  linkLost : Nat
  deriving DecidableEq, Repr

/-- An event ring (21 R456, R457), by tenant tree and ring address. -/
structure Ring where
  tree : Nat
  addr : W64
  idx : Nat
  drop : Nat
  told : Bool
  deriving DecidableEq, Repr

/-- A subscription (14 R347, R348). -/
structure Sub where
  i : Nat
  rcd : BitVec 256
  master : Nat
  armed : Bool
  deriving DecidableEq, Repr

/-- A device-local pool (19 R421): set size in pages, free pages, posted low. -/
structure Pool where
  size : Nat
  free : List (Nat × Nat)
  low : Bool
  deriving DecidableEq, Repr

/-- Ember states (13 R339, R340). -/
inductive Ember where
  | running | entering | ember | leaving
  deriving DecidableEq, Repr

/-- Boot states (14 R362). -/
inductive Boot where
  | running
  | held (stage : Nat)
  deriving DecidableEq, Repr

/-- A debug attachment (18 R412): the leaf's region, breakpoints by slot, and the troop last named (log 25). -/
structure Dbg where
  region : Nat
  bkpts : List (Nat × Nat × Nat)
  camp : Nat
  mem : Nat
  deriving DecidableEq, Repr

/-- One external input: what arrives, after `dt` ns of STAMP and `after` steps of the machine's own; `evict` empties the TLBs first (log 4, log 15). -/
structure Input where
  dt : Nat
  after : Nat
  evict : Bool
  ev : Instr
  deriving DecidableEq, Repr

/-- A step that the machine takes by itself (95), as an agenda entry; `Step` calls the meaning of the row of that name. -/
inductive Micro where
  | resultLanding (s : SplitRef)
  | loadResponse (s : SplitRef) (q : Fin 8) (i : Nat)
  | matrixRowLanding (s : SplitRef)
  | storeCommit (n : Nat)
  | granuleLanding (c : CampRef) (cmd g : Nat)
  | barrierWaitEnd (s : SplitRef)
  | rendezvousMatch (c : CampRef) (rope : Nat)
  | ropeFormed (c : CampRef) (mem : BitVec 32)
  | commandComplete (c : CampRef) (cmd : Nat)
  | residencyTileFill (c : CampRef) (num tile : Nat)
  | agingStep (k : CoreId)
  | troopEnd (t : TroopRef)
  | launchCompletion (lid : Nat)
  | notify (m q : Nat) (v : W32)
  | recordAdmission (q : Nat)
  | campTakeoff (c : CampRef)
  | packComplete (c : CampRef)
  | translationRequest (s : SplitRef)
  | translate (claim : Nat)
  | translationSwitch (s : SplitRef)
  | stubService (s : SplitRef)
  | overlayComplete (k : CoreId) (bank : Fin 2)
  | trapEntry (s : SplitRef)
  deriving DecidableEq, Repr

/-- The number of the next value and the offset of the next instruction, as the fetch of a portable instruction found them. -/
structure Ctx where
  dst : Nat
  next : Nat
  deriving DecidableEq, Repr

/-- A slot of a bundle (11 R267, R269): its kind in the order A0, A1, M, X, C, P, its operation, qualifier and value literals. -/
structure NSlot where
  kind : Nat
  op : Instr
  qual : Option Nat
  lits : List Nat
  deriving DecidableEq, Repr

/-- The bundle that is issuing (11 R265): header, length in bytes, the slots still to act, and a branch that it holds. -/
structure Bundle where
  hdr : Hdr
  size : Nat
  rest : List NSlot
  br : Option NBr
  deriving DecidableEq, Repr

/-- The whole package. -/
structure State where
  -- clock and identity
  stamp : W64
  pkg : Nat
  aligned : Bool
  gseen : W64
  freeCnt : Nat
  -- memory
  mem : List Host.Cell
  stores : List Pending
  poison : List Nat
  counters : List (Nat × Nat)
  migs : List Migr
  tlbs : List Tlb
  /-- TIER in force of a paged range, until a `tlb.inv` covers it: tree, first and last address, TIER (04 R99) -/
  tiers : List (Nat × Nat × Nat × Nat)
  reserved : List (Nat × Nat)
  fast : Pool
  capp : Pool
  promo : Nat
  lowmark : Nat
  keys : List (Nat × List Byte)
  wiped : Bool
  pages : List (Nat × Nat)
  -- ownership and the configuration path
  owner : Option Nat
  htgt : Nat
  hoff : Option Nat
  masters : List Master
  /-- doorbells in order of arrival: master and value (14 R355) -/
  bells : List (Nat × W32)
  hostStatus : Nat
  hostOut : List Byte
  /-- SEEN of the host as an agent (05 R114) -/
  hseen : W64
  -- management
  runlim : Nat
  hold : Nat
  peerTo : Nat
  routes : List (Nat × Nat)
  exports : List (Nat × BitVec 256)
  subs : List Sub
  capSeq : Option W32
  cap : Nat
  lease : Option Nat
  floor : Bool
  lifecycle : Nat
  meas : List (BitVec 384)
  nonces : Nat
  nonce : Option (BitVec 256)
  debugPort : Bool
  superKeys : Option (List Byte × List Byte)
  boot : Boot
  resetCause : Nat
  ember : Ember
  brownout : Bool
  emberByBrown : Bool
  /-- an exit that begins when the entry is complete (20 R454) -/
  exitDue : Bool
  power : Nat
  atOp0 : Option Nat
  lastShed : Nat
  -- tenants, modules, queues, launches
  tenants : List Tenant
  modules : List Module
  nextMh : Nat
  queues : List Queue
  launches : List Launch
  nextLid : Nat
  suspended : List Nat
  dbgs : List Dbg
  rings : List Ring
  period : Nat
  energy : List (Nat × Nat)
  spent : List Nat
  -- dies, clusters, cores, links
  dies : List Die
  clusters : List Cluster
  cores : List Core
  ports : List Port
  reqs : List PeerReq
  nextReq : Nat
  -- translation
  tcache : List TEntry
  tcFree : Nat
  tcUse : Nat
  claims : List Claim
  nextClaim : Nat
  vfails : List VFail
  trapFree : Nat
  /-- free ranges of the context-pack save area: first byte and size (20 R443) -/
  save : List (Nat × Nat)
  -- camps; the focus holds one split with its troop and camp out of the lists
  camps : List Camp
  focused : Bool
  sp : Split
  tr : Troop
  cp : Camp
  ctx : Ctx
  bnd : Option Bundle
  -- what happens next
  todo : List Micro
  inputs : List Input
  turn : Nat
  deriving DecidableEq, Repr

/-- Reasons for which the model stops with a fault. -/
inductive Fault where
  /-- raised by HOST_ACCESS: the owner's physical aperture names an address the physical map does not hold (04 R94); safe -/
  | absentPhysical
  deriving DecidableEq, Repr

/-- Reasons for which the model refuses. -/
inductive Refusal where
  /-- raised by Dispatch for an instruction without a meaning; safe -/
  | notModelled (mnemonic : String)
  deriving DecidableEq, Repr

/-- An empty swap bank (11 R282). -/
def Bank.reset : Bank := ⟨.empty, none, 0, [], [], [], false⟩

/-- A core after package reset; CUR and TGT are a design choice (log 8). -/
def Core.reset (k : CoreId) : Core :=
  ⟨k, 5, 5, none, none, .up, false, 0, 0, 0, Bank.reset, Bank.reset, 0, none, [], 0, false⟩

/-- A cluster after package reset (22 R473; CTARGET: log 19). -/
def Cluster.reset (die cl : Nat) : Cluster := ⟨die, cl, 0, 0, 0, 0⟩

/-- A die after package reset; OPCEIL is a design choice (log 8). -/
def Die.reset (d : Nat) : Die := ⟨d, false, 7, 25000, 0, 0, [], []⟩

/-- A port after package reset (log 20). -/
def Port.reset (p : Nat) : Port := ⟨p, .up, 224, 0, 0, [], [], [], none, 0⟩

/-- A master's registers after package reset (14 R355). -/
def Master.reset (m : Nat) : Master := ⟨m, 0, 0, false, 0, 0, 0, 0, 0, 0, true, 0⟩

/-- A lane at launch, without its parameters (03 R63, R75; registers and guards: log 11). -/
def Lane.reset : Lane := ⟨[], 0, 0, 0, [], 1, none, none⟩

/-- A split that holds no lane. -/
def Split.reset : Split :=
  ⟨0, 0, 0, 0, 0, 0, .ready, none, none, none, 0, [], [], [], [], [], false, false, 0, none, false, false, false, false, false, false, none, false, false, none, none, .none, false⟩

/-- A troop that holds no lane. -/
def Troop.reset : Troop := ⟨0, 0, 0, [], [], [], 1, none, 0, 0, 0, 0, 0, [], [], 0, 8, 0, none, false⟩

/-- A camp without troops. -/
def Camp.reset : Camp := ⟨⟨0, 0⟩, .queued, 8, 0, [], [], [], [], [], 1, [], 1, [], 0, none, 0, none, false, false, false, false, [], none⟩

/-- The package right after reset: values of the manual, and those of the log entries INVENTORY.md names. -/
def State.reset : State where
  stamp := 0
  pkg := 0
  aligned := false
  gseen := 0
  freeCnt := 0
  mem := []
  stores := []
  poison := []
  counters := []
  migs := []
  tlbs := []
  tiers := []
  -- translation cache 4 GiB, save area 64 GiB, fast pool 2 GiB in HBM4; capacity pool 8 GiB (log 9)
  reserved := [(0, 0x1180000000), (0x10000000000, 0x10200000000)]
  fast := ⟨32768, [(0x1100000000, 32768)], false⟩
  capp := ⟨131072, [(0x10000000000, 131072)], false⟩
  promo := 32
  lowmark := 16384
  keys := []
  wiped := false
  pages := []
  owner := none
  htgt := 0
  hoff := none
  masters := [Master.reset 0, Master.reset 1, Master.reset 2, Master.reset 3]
  bells := []
  hostStatus := 0
  hostOut := []
  hseen := 0
  runlim := 256
  hold := 20000
  peerTo := 1000
  routes := []
  exports := []
  subs := []
  capSeq := none
  cap := 1900
  lease := none
  floor := false
  lifecycle := 2
  meas := [0, 0, 0, 0, 0, 0, 0, 0]
  nonces := 0
  nonce := none
  debugPort := false
  superKeys := none
  boot := .running
  resetCause := 0
  ember := .running
  brownout := false
  emberByBrown := false
  exitDue := false
  power := 0
  atOp0 := none
  lastShed := 0
  tenants := []
  modules := []
  nextMh := 1
  queues := []
  launches := []
  nextLid := 1
  suspended := []
  dbgs := []
  rings := []
  period := 0
  energy := []
  spent := []
  dies := [Die.reset 0, Die.reset 1, Die.reset 2, Die.reset 3, Die.reset 4, Die.reset 5, Die.reset 6, Die.reset 7]
  clusters := []
  cores := []
  ports := [Port.reset 0, Port.reset 1, Port.reset 2, Port.reset 3, Port.reset 4, Port.reset 5, Port.reset 6,
    Port.reset 7, Port.reset 8, Port.reset 9, Port.reset 10, Port.reset 11, Port.reset 12, Port.reset 13,
    Port.reset 14, Port.reset 15, Port.reset 16, Port.reset 17]
  reqs := []
  nextReq := 1
  tcache := []
  tcFree := 65536
  tcUse := 0
  claims := []
  nextClaim := 1
  vfails := []
  trapFree := 65536
  save := [(0x100000000, 0x1000000000)]
  camps := []
  focused := false
  sp := Split.reset
  tr := Troop.reset
  cp := Camp.reset
  ctx := ⟨0, 0⟩
  bnd := none
  todo := []
  inputs := []
  turn := 0

end Sys2Proof.Machine
end

