-- ==== Sys2Proof/Machine/Mem.lean ====
section
/-! DEFINITION. Physical memory, range trees and translation, private memory (04 R77 to R95). -/

namespace Sys2Proof.Machine

/-- The larger of two unsigned words. -/
def maxW (a b : W64) : W64 := if a < b then b else a

/-! ### Bytes -/

/-- What the memory lists at an address; an unlisted byte reads 0 (DESIGN CHOICE, unsafe: log 1). -/
def memRead : List Host.Cell → Nat → Byte
  | [], _ => 0
  | c :: r, a => if c.1 = a then c.2 else memRead r a

/-- Removes an address. -/
def memErase : List Host.Cell → Nat → List Host.Cell
  | [], _ => []
  | c :: r, a => if c.1 = a then memErase r a else c :: memErase r a

/-- Puts a byte that is not 0 at its place in rising order. -/
def memPut : List Host.Cell → Nat → Byte → List Host.Cell
  | [], a, b => [(a, b)]
  | c :: r, a, b => if a < c.1 then (a, b) :: c :: r else if c.1 = a then (a, b) :: r else c :: memPut r a b

/-- Writes one byte; writing what an unlisted address reads as removes the entry. -/
def memWrite (m : List Host.Cell) (a : Nat) (b : Byte) : List Host.Cell :=
  if b = 0 then memErase m a else memPut m a b

/-- Writes bytes in list order. -/
def memWriteAll (m : List Host.Cell) : List (Nat × Byte) → List Host.Cell
  | [] => m
  | c :: r => memWriteAll (memWrite m c.1 c.2) r

/-- The bytes of `n` addresses from `a`. -/
def memBytes (m : List Host.Cell) (a : Nat) : Nat → List Byte
  | 0 => []
  | n + 1 => memRead m a :: memBytes m (a + 1) n

/-- The little-endian number of `n` bytes at `a` (00 R3). -/
def memNat (m : List Host.Cell) (a n : Nat) : Nat := leNat (memBytes m a n)

/-- Bytes at consecutive addresses. -/
def cellsAt (a : Nat) : List Byte → List (Nat × Byte)
  | [] => []
  | b :: r => (a, b) :: cellsAt (a + 1) r

/-- Writes a block of bytes at once. -/
def memBlock (m : List Host.Cell) (a : Nat) (bs : List Byte) : List Host.Cell :=
  (m.filter fun c => c.1 < a) ++ ((cellsAt a bs).filter fun c => c.2 != 0) ++ m.filter fun c => a + bs.length ≤ c.1

/-- Addresses strictly rising and above a bound, no entry that reads 0. -/
def Memory.wfFrom : Nat → List Host.Cell → Bool
  | _, [] => true
  | lo, c :: r => lo ≤ c.1 && c.2 != 0 && Memory.wfFrom (c.1 + 1) r

/-- The canonical form of a memory. -/
def Memory.wf (m : List Host.Cell) : Bool := Memory.wfFrom 0 m

/-! ### The physical map (04 R94) -/

def inHbm (a : Nat) : Bool := a < 0x6000000000
def inCap (a : Nat) : Bool := 0x10000000000 ≤ a && a < 0x28000000000
def inHost (a : Nat) : Bool := 0x800000000000 ≤ a && a < 0x1000000000000

/-- Whether a physical address is present (04 R94). -/
def physOk (a : Nat) : Bool := inHbm a || inCap a || inHost a

/-- Whether a physical address lies in reserved memory in force (01 R13). -/
def State.isReserved (s : State) (a : Nat) : Bool := s.reserved.any fun r => r.1 ≤ a && a < r.2

/-- Whether [lo, hi) overlaps reserved memory. -/
def State.hitsReserved (s : State) (lo hi : Nat) : Bool := s.reserved.any fun r => r.1 < hi && lo < r.2

/-- Whether the whole of [lo, hi) is present. -/
def physSpan (lo hi : Nat) : Bool :=
  hi ≤ 0x6000000000 || (0x10000000000 ≤ lo && hi ≤ 0x28000000000) || (0x800000000000 ≤ lo && hi ≤ 0x1000000000000)

/-! ### Range trees (04 R88 to R93) -/

/-- A range descriptor (04 R91). -/
structure RangeDesc where
  base : Nat
  limit : Nat
  target : Nat
  pkg : Nat
  key : Nat
  tier : Nat
  kind : Nat
  e : Bool
  a : Bool
  w : Bool
  r : Bool
  rsv : Bool
  deriving DecidableEq, Repr

/-- Reads the 256 bits of a descriptor. -/
def RangeDesc.ofNat (d : Nat) : RangeDesc :=
  ⟨fld d 0 64, fld d 64 64, fld d 192 64, fld d 183 9, fld d 168 12, fld d 166 2, fld d 164 2,
    fld d 163 1 = 1, fld d 162 1 = 1, fld d 161 1 = 1, fld d 160 1 = 1, fld d 128 32 != 0 || fld d 180 3 != 0⟩

/-- Whether a non-empty descriptor is invalid (04 R92). -/
def State.badDesc (s : State) (d : RangeDesc) : Bool :=
  d.rsv || d.limit ≤ d.base || d.base % 65536 != 0 || d.limit % 65536 != 0 || 2 ^ 56 ≤ d.base || 2 ^ 56 ≤ d.limit ||
  d.tier = 3 ||
  (match d.kind with
   | 1 => d.tier = 0 || d.target % 65536 != 0 || d.pkg != 0 || s.hitsReserved d.target (d.target + (d.limit - d.base)) ||
      !physSpan d.target (d.target + (d.limit - d.base))
   | 2 => d.target % 65536 != 0 || 2 ^ 42 < d.limit - d.base || d.pkg != 0 || !physSpan d.target (d.target + 65536)
   | _ => 320 ≤ d.pkg || d.tier != 0 || 2 ^ 56 ≤ d.target)

/-- Why a lookup fails: SUB codes of 19 R419 under PAGE. -/
inductive LookErr where
  | noRange | first | badTree | badDesc
  deriving DecidableEq, Repr

def LookErr.sub : LookErr → Nat
  | .noRange => 1 | .first => 2 | .badTree => 3 | .badDesc => 4

/-- The child of an internal node for an address, with the rules of 04 R89 on the node. -/
def nodeChild (n va : Nat) : Option Nat :=
  let cnt := fld n 0 4
  let key (i : Nat) : Nat := fld n (64 * i) 64
  let child (i : Nat) : Nat := fld n (512 + 64 * i) 64
  let used := (List.range 8).filter (· < cnt)
  let ok := 2 ≤ cnt && cnt ≤ 8 && fld n 4 60 = 0 && n < 2 ^ 1024 &&
    (List.range 8).all fun i =>
      if i < cnt then fld (child i) 1 7 = 0 && (i = 0 || (key i % 65536 = 0 && (i = 1 || key (i - 1) < key i)))
      else child i = 0 && (i = 0 || key i = 0)
  if ok then (used.filter fun i => i = 0 || key i ≤ va).getLast?.map child else none

/-- Follows the tree from a node pointer (04 R90); `depth` nodes remain. A node at an absent physical address is BADTREE: R89 gives no outcome (DESIGN CHOICE, log 37). -/
def State.walkTree (s : State) : Nat → Nat → Nat → Except LookErr RangeDesc
  | 0, _, _ => .error .badTree
  | depth + 1, p, va =>
    if p % 2 = 0 then
      if !physOk p then .error .badTree
      else match nodeChild (memNat s.mem p 256) va with
        | some c => State.walkTree s depth c va
        | none => .error .badTree
    else if !physOk (p - 1) then .error .badTree
    else
      let ds := (List.range 8).map fun i => RangeDesc.ofNat (memNat s.mem (p - 1 + 32 * i) 32)
      match ds.find? fun d => d.kind != 0 && d.base ≤ va && va < d.limit with
      | some d => if s.badDesc d then .error .badDesc else .ok d
      | none => .error .noRange

/-- `lookup(tree, va)` of 04 R90 with the validity of 04 R92. -/
def State.lookup (s : State) (tree va : Nat) : Except LookErr RangeDesc :=
  if tree / 2 % 128 = 0 then s.walkTree 8 tree va else .error .badTree

/-- Physical place of the level-2 entry of a page of a paged range (04 R93); none while the level-1 entry is not valid. Reserved bits of an entry, and C in level 1, are ignored: neither 00 R7 nor R93 gives them a fault (DESIGN CHOICE, log 31). -/
def State.entry2 (s : State) (d : RangeDesc) (va : Nat) : Option Nat :=
  let pidx := (va - d.base) / 65536
  let e1 := memNat s.mem (d.target + 8 * (pidx / 8192)) 8
  if e1 % 2 = 1 then some (fld e1 16 32 * 65536 + 8 * (pidx % 8192)) else none

/-- Where an address leads: physical memory, or a window of another package. -/
inductive Tgt where
  | phys (a : Nat)
  | peer (pkg : Nat) (wa : Nat)
  | scratch (o : Nat)
  deriving DecidableEq, Repr

/-- A translation of one address: target, permissions E A W R, key slot. -/
structure Xlat where
  tgt : Tgt
  e : Bool
  a : Bool
  w : Bool
  r : Bool
  key : Nat
  deriving DecidableEq, Repr

/-- Whether a page of reserved memory is one that no paged range may lead to: not handed out by a pool (01 R13). -/
def State.keptPage (s : State) (p : Nat) : Bool :=
  s.isReserved p && (p < 0x1100000000 || (s.fast.free ++ s.capp.free).any fun r => r.1 ≤ p && p < r.1 + 65536 * r.2)

/-- Walks the tree for one global address, without TLBs. A paged entry leads to no page of reserved memory but those that a pool has given (log 9); one that names an address outside the physical map is used as it is: R93 gives no outcome (DESIGN CHOICE, log 38). -/
def State.walk (s : State) (tree va : Nat) : Except LookErr Xlat :=
  match s.lookup tree va with
  | .error e => .error e
  | .ok d =>
    let mk (t : Tgt) : Xlat := ⟨t, d.e, d.a, d.w, d.r, d.key⟩
    match d.kind with
    | 1 => .ok (mk (.phys (d.target + (va - d.base))))
    | 2 => match s.entry2 d va with
      | none => .error .first
      | some p =>
        let e2 := memNat s.mem p 8
        if e2 % 2 = 0 then .error .first
        else if s.keptPage (fld e2 16 32 * 65536) then .error .badDesc
        else .ok (mk (.phys (fld e2 16 32 * 65536 + va % 65536)))
    | _ => .ok (mk (.peer d.pkg (d.target + (va - d.base))))

/-- The entry of one TLB for a page (04 R95). -/
def State.tlbOf (s : State) (u : TlbUnit) (tree page : Nat) : Option Tlb :=
  s.tlbs.find? fun t => t.unit = u && t.tree = tree && t.page = page && !t.priv

/-- The entry that serves a unit: a core looks into its L1 TLB, then into the last-level TLB of its die. -/
def State.tlbFind (s : State) (u : TlbUnit) (tree page : Nat) : Option Tlb :=
  match u with
  | .core k => s.tlbOf u tree page <|> s.tlbOf (.die k.die) tree page
  | _ => s.tlbOf u tree page

/-- The die whose invalidations a TLB belongs to; none for the Groundsheet's. -/
def TlbUnit.die? : TlbUnit → Option Nat
  | .core k => some k.die
  | .die d | .ahead d _ => some d
  | .mgmt => none

/-- Entries of a TLB (01 R14, R15). -/
def TlbUnit.size : TlbUnit → Nat
  | .core _ => 64
  | .die _ => 4096
  | .ahead _ _ => 512
  | .mgmt => 0

def Tlb.xlat (t : Tlb) (off : Nat) : Xlat :=
  ⟨match t.pkg with
   | some p => .peer p (t.phys + off)
   | none => .phys (t.phys + off),
   t.perm.getLsbD 3, t.perm.getLsbD 2, t.perm.getLsbD 1, t.perm.getLsbD 0, t.key⟩

/-- The master through whose Guyline link the agents of a tree reach host memory: the one bound to the tenant, else the owner (log 29). -/
def State.hostLink (s : State) (tree : Nat) : Nat :=
  match s.tenants.find? fun t => memNat s.mem (t.root + 40) 8 = tree with
  | some t => t.master
  | none => s.owner.getD 0

/-- Host memory behind a lost link answers like a package that never does, numbered from 512 (21 R469). -/
def State.throughLink (s : State) (tree : Nat) (x : Xlat) : Xlat :=
  match x.tgt with
  | .phys p =>
    if inHost p then
      let m := s.hostLink tree
      if s.masters.any fun k => k.m = m && !k.link then { x with tgt := .peer (512 + m) p } else x
    else x
  | _ => x

/-- Translates one global address for a unit: a held translation serves it until it is invalidated or evicted (04 R95; log 15). -/
def State.xlat (s : State) (u : TlbUnit) (tree va : Nat) : Except LookErr Xlat :=
  match s.tlbFind u tree (va / 65536) with
  | some t => .ok (s.throughLink tree (t.xlat (va % 65536)))
  | none => match s.walk tree va with
    | .ok x => .ok (s.throughLink tree x)
    | .error e => .error e

/-- Puts an entry into its TLB; a full one gives up its oldest (log 15). -/
def State.tlbHold (s : State) (t : Tlb) : State :=
  let mine := s.tlbs.filter fun x => x.unit = t.unit
  if t.unit.size ≤ mine.length then
    { s with tlbs := t :: (s.tlbs.filter fun x => x.unit != t.unit) ++ mine.take (t.unit.size - 1) }
  else { s with tlbs := t :: s.tlbs }

/-- The entry that a walk gives for a page of a tree; a failed one is never held (19 R420). -/
def State.tlbWalk (s : State) (u : TlbUnit) (tree page : Nat) : Option Tlb :=
  match s.walk tree (65536 * page) with
  | .error _ => none
  | .ok x =>
    let perm : BitVec 4 := BitVec.ofNat 4 (boolN x.r + 2 * boolN x.w + 4 * boolN x.a + 8 * boolN x.e)
    match x.tgt with
    | .phys p => some ⟨u, tree, false, page, p, none, perm, x.key⟩
    | .peer k wa => some ⟨u, tree, false, page, wa, some k, perm, x.key⟩
    | .scratch _ => none

/-- Holds the translation of a page that a unit has used: a core's in its L1 TLB and in its die's. -/
def State.tlbNote (s : State) (u : TlbUnit) (tree va : Nat) : State :=
  let page := va / 65536
  match u with
  | .mgmt => s
  | .core k =>
    if (s.tlbOf u tree page).isSome then s
    else match s.tlbOf (.die k.die) tree page with
      | some t => s.tlbHold { t with unit := u }
      | none => match s.tlbWalk u tree page with
        | some t => (s.tlbHold { t with unit := .die k.die }).tlbHold t
        | none => s
  | _ =>
    if (s.tlbOf u tree page).isSome then s
    else match s.tlbWalk u tree page with
      | some t => s.tlbHold t
      | none => s

/-- Invalidates the translations of [lo, hi) of a tree on the dies given, and lets a change of TIER inside take effect (08 R208, 04 R99). -/
def State.tlbDrop (s : State) (die : Option Nat) (tree lo hi : Nat) : State :=
  { s with
    tlbs := s.tlbs.filter fun t =>
      !((die = none || die = t.unit.die?) && t.tree = tree && t.page * 65536 < hi && lo < (t.page + 1) * 65536)
    tiers := s.tiers.filter fun t => !(t.1 = tree && lo ≤ t.2.1 && t.2.2.1 ≤ hi) }

/-- Invalidates everything held of some trees (04 R95), or of every tree. -/
def State.dropTrees (s : State) (ts : List Nat) : State :=
  { s with tlbs := s.tlbs.filter fun t => !ts.contains t.tree, tiers := s.tiers.filter fun t => !ts.contains t.1 }

/-- TIER in force of a paged range (04 R99). -/
def State.tierOf (s : State) (tree : Nat) (d : RangeDesc) : Nat :=
  ((s.tiers.find? fun t => t.1 = tree && t.2.1 = d.base && t.2.2.1 = d.limit).map fun t => t.2.2.2).getD d.tier

/-- The TIER of a range that is used stays in force until it is invalidated. -/
def State.noteTier (s : State) (tree : Nat) (d : RangeDesc) : State :=
  if d.kind != 2 || s.tiers.any fun t => t.1 = tree && t.2.1 = d.base && t.2.2.1 = d.limit then s
  else { s with tiers := (tree, d.base, d.limit, d.tier) :: s.tiers }

/-! ### Private memory (04 R85, R86) -/

/-- `backing(l, o)` of 04 R85 for a troop of width `w`. -/
def backing (w l o : Nat) : Nat := o / 4 * 4 * w + 4 * l + o % 4

/-- Physical address of a byte of the private backing, through the three-level table at `root` (04 R86). -/
def State.privPhys (s : State) (root bo : Nat) : Option Nat :=
  let bp := bo / 65536
  let e0 := memNat s.mem (root + 8 * (bp / 2 ^ 26)) 8
  let e1 := memNat s.mem (fld e0 16 32 * 65536 + 8 * (bp / 8192 % 8192)) 8
  let e2 := memNat s.mem (fld e1 16 32 * 65536 + 8 * (bp % 8192)) 8
  if e0 % 2 = 1 && e1 % 2 = 1 && e2 % 2 = 1 then some (fld e2 16 32 * 65536 + bo % 65536) else none

/-- The tag of an address (04 R77). -/
def tagOf (a : Nat) : Nat := a / 2 ^ 56

/-- The offset under the tag. -/
def offOf (a : Nat) : Nat := a % 2 ^ 56

end Sys2Proof.Machine
end

