-- ==== Sys2Proof/Machine/Region.lean ====
section
/-! DEFINITION. Region control blocks, effective values, budgets (02 R41 to R46), launches and their tenants. -/

namespace Sys2Proof

/-- Plane-slots of a residency (09 R230): planes stored for the format (R221). -/
def MFmt.planes : MFmt → Nat
  | .dxb4 => 4 | .dxb6 => 6 | .dxb8 => 8 | .dxb12 => 12 | .dxb16 => 16
  | .pl1 => 1 | .pl2 => 2 | .pl4 => 4 | .pl8 => 8 | .pl16 => 16

end Sys2Proof

namespace Sys2Proof.Machine

/-- A region control block as 1,024 bits with its address; field accessors below (02 R42). -/
structure Rcb where
  addr : Nat
  v : Nat
  deriving DecidableEq, Repr

namespace Rcb
def kind (r : Rcb) : Nat := fld r.v 0 2
def fdp (r : Rcb) : Nat := fld r.v 2 2
def prio (r : Rcb) : Nat := fld r.v 8 8
def region (r : Rcb) : Nat := fld r.v 16 24
def parent (r : Rcb) : Nat := fld r.v 64 64
def cores (r : Rcb) : Nat := fld r.v 128 16
def energy (r : Rcb) : Nat := fld r.v 160 32
def rslots (r : Rcb) : Nat := fld r.v 192 32
def pslots (r : Rcb) : Nat := fld r.v 224 32
def pages (r : Rcb) : Nat := fld r.v 256 32
def floorE (r : Rcb) : Nat := fld r.v 288 32
def tree (r : Rcb) : Nat := fld r.v 320 64
def ring (r : Rcb) : Nat := fld r.v 384 64
def ringlog (r : Rcb) : Nat := fld r.v 448 5
def module (r : Rcb) : Nat := fld r.v 512 32
def func (r : Rcb) : Nat := fld r.v 544 24
def wlog2 (r : Rcb) : Nat := fld r.v 576 4
def cohort (r : Rcb) : Bool := fld r.v 580 1 = 1
def det (r : Rcb) : Bool := fld r.v 581 1 = 1
def narrow (r : Rcb) : Bool := fld r.v 582 1 = 1
def campsize (r : Rcb) : Nat := fld r.v 584 5
def rmin (r : Rcb) : Nat := fld r.v 592 8
def troops (r : Rcb) : Nat := fld r.v 608 32
def scratch (r : Rcb) : Nat := fld r.v 640 32
def args (r : Rcb) : Nat := fld r.v 704 64
def arglen (r : Rcb) : Nat := fld r.v 768 13
/-- The reserved fields, and those of other kinds (02 R42). -/
def rsvOk (r : Rcb) : Bool :=
  fld r.v 4 4 = 0 && fld r.v 40 24 = 0 && fld r.v 144 16 = 0 && fld r.v 453 59 = 0 &&
  (r.kind = 1 || (r.floorE = 0 && r.tree = 0)) &&
  (if r.kind = 3 then fld r.v 568 8 = 0 && fld r.v 583 1 = 0 && fld r.v 589 3 = 0 && fld r.v 600 8 = 0 &&
      fld r.v 672 32 = 0 && fld r.v 781 243 = 0
   else fld r.v 512 512 = 0)
/-- The ranges of 02 R42, apart from the rules on ARGS that the reading of the block judges (02 R43). -/
def rangeOk (r : Rcb) : Bool :=
  1 ≤ r.region && r.cores ≤ 544 && (r.ringlog = 0 || (6 ≤ r.ringlog && r.ringlog ≤ 20)) && r.ring % 4096 = 0 &&
  (r.kind != 3 || (5 ≤ r.wlog2 && r.wlog2 ≤ 10 && 1 ≤ r.campsize && r.campsize ≤ 16 &&
    (r.rmin = 0 || (8 ≤ r.rmin && r.rmin ≤ 120 && r.rmin % 8 = 0)) && 1 ≤ r.troops && r.troops ≤ 2 ^ 24 &&
    r.troops % r.campsize = 0 && r.scratch % 256 = 0 && r.scratch ≤ 1048576 && r.arglen % 8 = 0 && r.arglen ≤ 4096))
end Rcb

/-- Reads the RCB at a device physical address, aligned to 128 bytes (02 R41). -/
def State.rcbAt (s : State) (a : Nat) : Rcb := ⟨a, memNat s.mem a 128⟩

/-- Whether the RCB breaks none of 02 R43 by itself and with its parent. -/
def State.rcbOk (s : State) (r : Rcb) : Bool :=
  r.addr % 128 = 0 && physOk r.addr && r.kind != 0 && r.rsvOk && r.rangeOk &&
  (if r.kind = 1 then r.parent = 0 && r.tree != 0 && r.ring != 0
   else r.parent != 0 && r.parent % 128 = 0 && physOk r.parent &&
     ((s.rcbAt r.parent).kind = 1 || (s.rcbAt r.parent).kind = 2))

/-- The path from an RCB up to its tenant root; none when one of them is invalid or there is no root among the given number of nodes. -/
def State.rcbPath (s : State) : Nat → Nat → Option (List Rcb)
  | 0, _ => none
  | fuel + 1, a =>
    let r := s.rcbAt a
    if !s.rcbOk r then none
    else if r.kind = 1 then some [r]
    else (State.rcbPath s fuel r.parent).map fun p => r :: p

/-- The path of an RCB (02 R43). Every node of a path holds a byte that is not zero, so a path has no more nodes than memory lists bytes; a node that is its own ancestor has none. -/
def State.path (s : State) (a : Nat) : Option (List Rcb) := s.rcbPath s.mem.length a

/-- `eff(n, f)` of 02 R44 on a path from the node to its root. -/
def effOf (f : Rcb → Nat) (dflt : Nat) : List Rcb → Nat
  | [] => dflt
  | r :: rest => if f r != 0 then f r else effOf f dflt rest

/-- `effprio(n)` of 02 R44. -/
def effPrio : List Rcb → Nat
  | [] => 1
  | [r] => if r.prio != 0 then r.prio else 1
  | r :: rest => if r.prio = 0 then effPrio rest else min r.prio (effPrio rest)

/-- Fault-domain policy, default restart (02 R44). -/
def effFdp (p : List Rcb) : Nat := effOf Rcb.fdp 1 p

/-- Pages outside reserved memory: the default of PAGES (02 R44). -/
def State.freePages (s : State) : Nat :=
  (0x6000000000 + 0x18000000000 - (s.reserved.map fun r => r.2 - r.1).sum) / 65536

/-- The budgets of 02 R45 that a count is tested against. -/
inductive Budget where
  | cores | rslots | pslots | pages | energy
  deriving DecidableEq, Repr

/-- Effective ENERGY: once a lease has expired, that of a tenant root is the least of its ENERGY and FLOOR, be it 0 (02 R44, 14 R351). -/
def energyOf (floor : Bool) : List Rcb → Nat
  | [] => 19000
  | r :: rest =>
    if floor && r.kind = 1 then min (if r.energy = 0 then 19000 else r.energy) r.floorE
    else if r.energy != 0 then r.energy else energyOf floor rest

/-- Effective budget of the node at the head of a path (02 R44); the floor of an expired lease lowers ENERGY at the root (14 R351). -/
def State.effBudget (s : State) (b : Budget) (p : List Rcb) : Nat :=
  match b with
  | .cores => effOf Rcb.cores 544 p
  | .rslots => effOf Rcb.rslots 507904 p
  | .pslots => effOf Rcb.pslots 507904 p
  | .pages => effOf Rcb.pages s.freePages p
  | .energy => energyOf s.floor p

/-- The cached path of a launch (02 R46). -/
def Launch.path (l : Launch) : List Rcb := l.rcbs.map fun r => ⟨r.1, r.2⟩

/-- The root's range tree (02 R42), as the launch last read it. -/
def Launch.tree (l : Launch) : Nat := (l.path.getLast?.map Rcb.tree).getD 0

/-- The RING and RINGLOG in force for a path (02 R44). -/
def ringOf (p : List Rcb) : Nat × Nat := (effOf Rcb.ring 0 p, effOf Rcb.ringlog 10 p)

/-- Effective troop width (02 R50). -/
def Launch.width (l : Launch) : Nat := 2 ^ l.wlog2

/-- The launch of a serial number. -/
def State.launch? (s : State) (lid : Nat) : Option Launch := s.launches.find? fun l => l.lid = lid

/-- A launch that stands for none. -/
def Launch.none : Launch :=
  ⟨0, 0, 0, 0, 0, 0, [], 0, 0, 0, [], 5, 1, 1, 0, 8, 256, false, false, [], 0, false, false, true⟩

def State.launch (s : State) (lid : Nat) : Launch := (s.launch? lid).getD Launch.none

/-- Changes one launch. -/
def State.modLaunch (s : State) (lid : Nat) (f : Launch → Launch) : State :=
  { s with launches := s.launches.map fun l => if l.lid = lid then f l else l }

/-- All camps, the focused one included, with the focused troop and split put back in their lists. -/
def Troop.withSplit (t : Troop) (p : Split) : Troop := { t with splits := t.splits ++ [p] }

def Camp.withTroop (c : Camp) (t : Troop) : Camp :=
  { c with troops := (c.troops.filter fun u => u.mem < t.mem) ++ t :: c.troops.filter fun u => t.mem < u.mem }

/-- The focused troop with all its splits; a focused split without lanes has ceased to exist (02 R31). -/
def State.curTroop (s : State) : Troop := if s.sp.mask = 0 then s.tr else s.tr.withSplit s.sp

/-- The focused camp with all its troops. -/
def State.curCamp (s : State) : Camp := s.cp.withTroop s.curTroop

def State.allCamps (s : State) : List Camp := if s.focused then s.curCamp :: s.camps else s.camps

def State.camp? (s : State) (c : CampRef) : Option Camp := s.allCamps.find? fun k => k.ref = c

/-- Whether a path holds the RCB at an address. -/
def inPath (a : Nat) (p : List Rcb) : Bool := p.any fun r => r.addr = a

/-- Plane-slots that a residency holds. -/
def Res.slots (r : Res) : Nat := r.tk * r.tn * r.fmt.planes

/-- Use of a budget in the subtree of the RCB at `node` (02 R45); cores are counted by identity. -/
def State.usage (s : State) (b : Budget) (node : Nat) : Nat :=
  let under (lid : Nat) : Bool := inPath node (s.launch lid).path
  match b with
  | .cores =>
    let ks := s.allCamps.filterMap fun c => match c.place with
      | .on k | .packing k => if under c.ref.lid then some k else none
      | _ => none
    ks.eraseDups.length
  | .rslots => ((s.allCamps.filter fun c => under c.ref.lid).map fun c => (c.res.map Res.slots).sum).sum
  | .pslots => ((s.allCamps.filter fun c => under c.ref.lid).map fun c => ((c.res.filter Res.pin).map Res.slots).sum).sum
  | .pages => ((s.pages.filter fun p => p.1 = node).map Prod.snd).sum
  | .energy => ((s.energy.filter fun p => p.1 = node).map Prod.snd).sum

/-- The node nearest the leaf whose budget refuses `need` more (02 R45 `admit`); none when all admit. -/
def State.refuser (s : State) (b : Budget) (need : Nat) : List Rcb → Option Rcb
  | [] => none
  | r :: rest =>
    if s.effBudget b (r :: rest) < s.usage b r.addr + need then some r else State.refuser s b need rest

/-- Counts a page against every node of a path (02 R45). -/
def State.countPage (s : State) (p : List Rcb) : State :=
  { s with pages := p.foldl (fun ps r =>
      match ps.find? fun q => q.1 = r.addr with
      | some _ => ps.map fun q => if q.1 = r.addr then (q.1, q.2 + 1) else q
      | none => (r.addr, 1) :: ps) s.pages }

/-- Takes pages off the counts of a path. -/
def State.uncountPages (s : State) (p : List Rcb) (n : Nat) : State :=
  { s with pages := s.pages.map fun q => if inPath q.1 p then (q.1, q.2 - n) else q }

end Sys2Proof.Machine
end

