-- ==== Sys2Proof/Machine/Event.lean ====
section
/-! DEFINITION. Commits to memory, first-touch mapping, event rings and completion records (04 R101, 19 R421 to R425, 21 R456 to R459, 14 R356). -/

namespace Sys2Proof.Machine

/-! ### Commit of bytes (04 R101) -/

/-- Applies a change to every camp, the focused one included. -/
def State.mapCamps (s : State) (f : Camp → Camp) : State :=
  { s with cp := f s.cp, camps := s.camps.map f }

/-- Whether a byte lies in one of the watched spans. -/
def inSpans (ws : List (Nat × Nat)) (a : Nat) : Bool := ws.any fun w => w.1 ≤ a && a < w.2

/-- A committed write to a watched line marks the residency stale, SUB STORE (05 R122, 19 R432). -/
def Res.mark (r : Res) (cells : List (Nat × Byte)) : Res :=
  match r.watch with
  | some ws => if cells.any fun c => inSpans ws c.1 then
      { r with stale := some (r.stale.getD 1), since := some (r.since.getD 1) } else r
  | none => r

def Camp.mark (c : Camp) (cells : List (Nat × Byte)) : Camp := { c with res := c.res.map fun r => r.mark cells }

/-- Whether a set of bytes covers the whole 64-byte line `ln` (21 R466). -/
def coversLine (cells : List (Nat × Byte)) (ln : Nat) : Bool :=
  (List.range 64).all fun i => cells.any fun c => c.1 = 64 * ln + i

/-- Commits bytes: they become visible, watches are marked, a whole line written loses its poison. -/
def State.commit (s : State) (cells : List (Nat × Byte)) : State :=
  { s with
    mem := memWriteAll s.mem cells
    poison := s.poison.filter fun ln => !coversLine cells ln
    cp := s.cp.mark cells
    camps := s.camps.map fun c => c.mark cells }

/-- Whether a key slot has been wiped and not installed again (14 R364, 19 R419). -/
def State.keyWiped (s : State) (k : Nat) : Bool := s.wiped && k != 0 && !(s.keys.any fun e => e.1 = k)

/-! ### First touch (19 R421 to R425) -/

/-- Free pages of a pool. -/
def Pool.count (p : Pool) : Nat := (p.free.map Prod.snd).sum

/-- Takes one page. -/
def Pool.take (p : Pool) : Option (Nat × Pool) :=
  match p.free with
  | [] => none
  | (b, n) :: r => some (b, { p with free := if n ≤ 1 then r else (b + 65536, n - 1) :: r })

/-- Adds one page. -/
def Pool.put (p : Pool) (b : Nat) : Pool :=
  { p with free := p.free ++ [(b, 1)], low := p.low && 8 * (p.count + 1) < p.size }

/-- Fills a page with zeros: nothing is listed there (log 1). -/
def memZero (m : List Host.Cell) (lo hi : Nat) : List Host.Cell := m.filter fun c => !(lo ≤ c.1 && c.1 < hi)

/-- Takes a page from a pool and fills it with zeros (R423). -/
def State.takePage (s : State) (cap : Bool) : Option (Nat × State) :=
  if cap then s.capp.take.map fun r => (r.1, { s with capp := r.2, mem := memZero s.mem r.1 (r.1 + 65536) })
  else s.fast.take.map fun r => (r.1, { s with fast := r.2, mem := memZero s.mem r.1 (r.1 + 65536) })

/-- Outcome of a first-touch mapping. -/
inductive MapRes where
  | ok
  | budget
  | dry (cap : Bool)
  deriving DecidableEq, Repr

/-- The pool of 04 R99 for a first-touch page. -/
def State.poolOf (s : State) (tier : Nat) : Bool :=
  if tier = 1 then false else if tier = 2 then true else !(s.lowmark < s.fast.count)

/-- An entry of a radix table: address, C and V (04 R93). -/
def entryVal (page : Nat) (cap : Bool) : Nat := page / 65536 * 65536 + boolN cap * 2 + 1

/-- Writes an 8-byte table entry. -/
def State.putEntry (s : State) (a v : Nat) : State := { s with mem := memWriteAll s.mem (cellsAt a (leBytes 8 v)) }

/-- Maps the page of `va` in a paged range when its entries are not valid (R423): the page is admitted under PAGES, tables come from the fast pool uncounted. -/
def State.mapPage (s : State) (path : List Rcb) (tree va : Nat) : State × MapRes :=
  match s.lookup tree va with
  | .error _ => (s, .ok)
  | .ok d =>
    if d.kind != 2 || s.badDesc d then (s, .ok)
    else
      let pidx := (va - d.base) / 65536
      let a1 := d.target + 8 * (pidx / 8192)
      let e1 := memNat s.mem a1 8
      let e2 := memNat s.mem (fld e1 16 32 * 65536 + 8 * (pidx % 8192)) 8
      if e1 % 2 = 1 && e2 % 2 = 1 then (s, .ok)
      else if (s.refuser .pages 1 path).isSome then (s, .budget)
      else
        let r1 : Option State :=
          if e1 % 2 = 1 then some s
          else (s.takePage false).map fun q => q.2.putEntry a1 (entryVal q.1 false)
        match r1 with
        | none => (s, .dry false)
        | some s1 =>
          let cap := s1.poolOf (s.tierOf tree d)
          match (s1.noteTier tree d).takePage cap with
          | none => (s1, .dry cap)
          | some (pg, s2) =>
            let t := fld (memNat s2.mem a1 8) 16 32 * 65536
            ((s2.putEntry (t + 8 * (pidx % 8192)) (entryVal pg cap)).countPage path, .ok)

/-! ### Records (21 R458, R459; 14 R356) -/

/-- An event record: kind, reason, source, region, and bits [511:216] as a number. -/
structure Ev where
  kind : Nat
  reason : Nat
  source : Nat
  region : Nat
  body : Nat
  deriving DecidableEq, Repr

/-- The 64 bytes of a record under a stamp. -/
def Ev.bytes (e : Ev) (stamp : Nat) : List Byte :=
  leBytes 64 (stamp + e.source * 2 ^ 64 + e.kind * 2 ^ 128 + e.reason * 2 ^ 136 + e.region * 2 ^ 192 + e.body * 2 ^ 216)

/-- Bits [511:216] of kinds 0x04 to 0x15 (21 R459). -/
structure EvBody where
  addr : Nat := 0
  off : Nat := 0
  func : Nat := 0
  camp : Nat := 0
  member : Nat := 0
  info : Nat := 0
  deriving DecidableEq, Repr

/-- Their packing: INFO from bit 344, MEMBER 380, CAMP 384, FUNC 408, OFFSET 424, ADDR 448. -/
def EvBody.pack (b : EvBody) : Nat :=
  fld b.info 0 32 * 2 ^ 128 + fld b.member 0 4 * 2 ^ 164 + fld b.camp 0 24 * 2 ^ 168 + fld b.func 0 16 * 2 ^ 192 +
  fld b.off 0 24 * 2 ^ 208 + fld b.addr 0 64 * 2 ^ 232

/-- Source number of Groundsheet agent `e` (R458). -/
def State.gsrc (s : State) (e : Nat) : Nat := s.pkg * 2 ^ 32 + 14 * 2 ^ 28 + e * 2 ^ 20

def srcSched : Nat := 1
def srcDir : Nat := 2
def srcMig : Nat := 3
def srcMgmt : Nat := 4
def srcLoader : Nat := 5

/-- Source number of a troop context (05 R114). -/
def State.csrc (s : State) (k : CoreId) (ctx : Nat) : Nat :=
  s.pkg * 2 ^ 32 + k.die * 2 ^ 28 + k.cl * 2 ^ 20 + k.core * 2 ^ 16 + ctx * 2 ^ 10

/-- The stamp that the Groundsheet takes for a record (05 R114, 21 R457): at least 1. -/
def State.gstamp (s : State) : W64 := maxW s.stamp (s.gseen + 1)

/-! ### The owner's path and completion rings -/

/-- Device physical address of a host physical address (04 R94). -/
def hostPhys (a : Nat) : Nat := 0x800000000000 + a % 2 ^ 47

def State.master (s : State) (m : Nat) : Master := (s.masters.find? fun x => x.m = m).getD (Master.reset m)

def State.modMaster (s : State) (m : Nat) (f : Master → Master) : State :=
  { s with masters := s.masters.map fun x => if x.m = m then f x else x }

/-- Address of the completion slot of index `i`. -/
def Master.slot (x : Master) (i : Nat) : Nat := hostPhys (x.cpbase.toNat + 64 * (i % 2 ^ x.clog2))

/-- Writes one record into the completion ring: dropped and counted while the slot belongs to software, an OVERRUN first when a slot is free again (14 R356, 21 R457). -/
def State.complete1 (s : State) (m : Nat) (bytes : Nat → List Byte) : State :=
  let x := s.master m
  if !x.en || !x.link then s
  else
    let a := x.slot x.cpidx.toNat
    if memNat s.mem a 8 != 0 then s.modMaster m fun x => { x with cpdrop := if x.cpdrop = 0xFFFFFFFF then x.cpdrop else x.cpdrop + 1 }
    else
      let t := s.gstamp
      { s with gseen := t }.commit (cellsAt a (bytes t.toNat)) |>.modMaster m fun x => { x with cpidx := x.cpidx + 1 }

/-- Writes a record, preceded by the OVERRUN that carries the count of dropped ones. -/
def State.completeRec (s : State) (m : Nat) (bytes : Nat → List Byte) : State :=
  let x := s.master m
  if x.cpdrop != 0 && x.en && x.link && memNat s.mem (x.slot x.cpidx.toNat) 8 = 0 then
    let e : Ev := ⟨0x12, 0, s.gsrc srcMgmt, 0, EvBody.pack ⟨0, 0, 0, 0, 0, x.cpdrop.toNat⟩⟩
    ((s.complete1 m e.bytes).modMaster m fun x => { x with cpdrop := 0 }).complete1 m bytes
  else s.complete1 m bytes

/-- Posts an event on the owner's configuration path (21 R459). -/
def State.postOwner (s : State) (e : Ev) : State :=
  match s.owner with
  | some m => s.completeRec m (Ev.bytes { e with region := 0 })
  | none => s

/-! ### Event rings (21 R456, R457) -/

/-- The ring of a tree at an address, as written so far. -/
def State.ring (s : State) (tree : Nat) (a : W64) : Ring :=
  (s.rings.find? fun r => r.tree = tree && r.addr = a).getD ⟨tree, a, 0, 0, false⟩

def State.setRing (s : State) (r : Ring) : State :=
  { s with rings := r :: s.rings.filter fun q => !(q.tree = r.tree && q.addr = r.addr) }

/-- Physical place of a ring slot, mapped by first touch if need be (R456, R425); none when the page cannot be written. -/
def State.ringPlace (s : State) (path : List Rcb) (tree va : Nat) : State × Option Nat :=
  let (s1, r) := s.mapPage path tree va
  match r, s1.walk tree va with
  | .ok, .ok x => match x.tgt with
    | .phys p => (s1, if x.w && !s1.keyWiped x.key && physOk p then some p else none)
    | _ => (s1, none)
  | _, _ => (s1, none)

/-- Writes one record at the index of a ring whose slot is free. -/
def State.ringPut (s : State) (r : Ring) (p : Nat) (e : Ev) : State :=
  let t := s.gstamp
  ({ s with gseen := t }.commit (cellsAt p (e.bytes t.toNat))).setRing { r with idx := r.idx + 1, told := false }

/-- Drops an event: counted; the first drop of a tenant root's ring whose page cannot be written tells the owner (R457). -/
def State.ringDrop (s : State) (r : Ring) (root page : Bool) : State :=
  let s1 := s.setRing { r with drop := min (r.drop + 1) 0xFFFFFFFF, told := r.told || (root && page) }
  if root && page && !r.told then
    s1.postOwner ⟨0x12, 0, s.gsrc srcMgmt, 0, EvBody.pack ⟨r.addr.toNat, 0, 0, 0, 0, 1⟩⟩
  else s1

/-- Posts one event to the ring of a path, without the pool events that a mapping may cause. -/
def State.post1 (s : State) (path : List Rcb) (e : Ev) : State :=
  let rg := ringOf path
  let tree := (path.getLast?.map Rcb.tree).getD 0
  let root := (path.getLast?.map Rcb.ring).getD 0 = rg.1
  let ev := { e with region := (path.head?.map Rcb.region).getD 0 }
  if rg.1 = 0 then s
  else
    let slot (i : Nat) : Nat := rg.1 + 64 * (i % 2 ^ rg.2)
    let r := s.ring tree (BitVec.ofNat 64 rg.1)
    match s.ringPlace path tree (slot r.idx) with
    | (s1, none) => s1.ringDrop r root true
    | (s1, some p) =>
      if memNat s1.mem p 8 != 0 then s1.ringDrop r root false
      else if r.drop = 0 then s1.ringPut r p ev
      else
        let ov : Ev := ⟨0x12, 0, s.gsrc srcMgmt, ev.region, EvBody.pack ⟨0, 0, 0, 0, 0, r.drop⟩⟩
        let s2 := s1.ringPut { r with drop := 0 } p ov
        let r2 := s2.ring tree (BitVec.ofNat 64 rg.1)
        match s2.ringPlace path tree (slot r2.idx) with
        | (s3, none) => s3.ringDrop r2 root true
        | (s3, some p2) => if memNat s3.mem p2 8 != 0 then s3.ringDrop r2 root false else s3.ringPut r2 p2 ev

/-- Path of a tenant root by itself. -/
def State.rootPath (s : State) (root : Nat) : List Rcb := [s.rcbAt root]

/-- Posts to the ring of every tenant root bound. -/
def State.postRoots (s : State) (e : Ev) : State :=
  s.tenants.foldl (fun s t => s.post1 (s.rootPath t.root) e) s

/-- The POOL event of one pool (21 R458). -/
def State.poolEv (s : State) (reason : Nat) (cap : Bool) : Ev :=
  let p := if cap then s.capp else s.fast
  ⟨0x0A, reason, s.gsrc srcMgmt, 0, EvBody.pack ⟨0, 0, 0, 0, 0, boolN cap + 2 * p.count⟩⟩

/-- Posts POOLLOW when a pool falls below one-eighth of its set size (19 R424). -/
def State.poolCheck (s : State) (cap : Bool) : State :=
  let p := if cap then s.capp else s.fast
  let low := 8 * p.count < p.size
  let set (s : State) : State :=
    if cap then { s with capp := { s.capp with low := low } } else { s with fast := { s.fast with low := low } }
  if low && !p.low then (set s).postRoots (s.poolEv 2 cap) else if low = p.low then s else set s

def State.poolChecks (s : State) : State := (s.poolCheck false).poolCheck true

/-- A first-touch mapping with the pool events that it causes (R424). -/
def State.mapGlobal (s : State) (path : List Rcb) (tree va : Nat) : State × MapRes :=
  let r := s.mapPage path tree va
  (r.1.poolChecks, r.2)

/-- Maps every page of [va, va + n), stopping at the first that fails. -/
def State.mapSpan (s : State) (path : List Rcb) (tree : Nat) : Nat → Nat → State × MapRes
  | 0, _ => (s, .ok)
  | k + 1, va =>
    match s.mapGlobal path tree va with
    | (s', .ok) => State.mapSpan s' path tree k (va + 65536)
    | r => r

/-- Posts one event to the ring of a path. -/
def State.post (s : State) (path : List Rcb) (e : Ev) : State := (s.post1 path e).poolChecks

/-- An event of 21 R459 to the ring of a launch's leaf. -/
def State.postLeaf (s : State) (lid kind reason source : Nat) (b : EvBody) : State :=
  s.post (s.launch lid).path ⟨kind, reason, source, 0, b.pack⟩

/-- POOLDRY to a tenant root's ring, and the pool-low record on the owner's path (19 R424). -/
def State.poolDry (s : State) (path : List Rcb) (cap : Bool) : State :=
  let root := path.getLast?.toList
  (s.post root (s.poolEv 1 cap)).postOwner (s.poolEv 2 cap)

end Sys2Proof.Machine
end

