-- ==== Sys2Proof/Machine/Func.lean ====
section
/-! DEFINITION. The structure of a function's portable code: blocks, value numbers, results, join points (06 R128 to R134, 02 R30). -/

namespace Sys2Proof

/-- Element type of `pack` and `unpack` (07 R170). -/
def elemTy : Ty → Ty
  | .x2f16 => .f16
  | .x2bf16 => .bf16
  | .w32 => .w16
  | .w64 => .w32
  | t => t

/-- Types of the values that an instruction defines, in order (06 R132, R134); `rt` gives the results of a function. The carried values of a stream loop take the types of their operands, shown as void here. -/
def Instr.resTys (rt : Nat → List Ty) : Instr → List Ty
  | .call f _ => rt f
  | .const ty _ | .constSymbol ty _ _ | .add ty _ _ | .sub ty _ _ | .mul ty _ _ | .mulhi ty _ _ | .mad ty _ _ _
  | .div ty _ _ | .rem ty _ _ | .neg ty _ | .abs ty _ | .min ty _ _ | .max ty _ _ | .addsat ty _ _ | .subsat ty _ _
  | .and ty _ _ | .or ty _ _ | .xor ty _ _ | .not ty _ | .shl ty _ _ | .shr ty _ _ | .rotl ty _ _ | .popc ty _
  | .clz ty _ | .ctz ty _ | .brev ty _ | .bfx ty _ _ _ | .bfi ty _ _ _ _ | .sel ty _ _ _ | .fadd ty _ _ _
  | .fsub ty _ _ _ | .fmul ty _ _ _ | .fma ty _ _ _ _ | .fdiv ty _ _ _ | .fsqrt ty _ _ | .frsq ty _ _ | .frcp ty _ _
  | .fexp2 ty _ | .flog2 ty _ | .fsin ty _ | .fcos ty _ | .ftanh ty _ | .fmin ty _ _ | .fmax ty _ _ | .fabs ty _
  | .fneg ty _ | .fround ty _ _ | .fcopysign ty _ _ | .cvt ty _ _ _ | .bitcast ty _ | .pack ty _ _
  | .dxbPackElem ty _ | .dxbUnpack ty _ _ _ _ | .shfl ty _ _ _ _ | .redux ty _ _ _ | .scan ty _ _ _ _
  | .ld ty _ | .atom ty _ _ _ _ | .accRd ty _ _ _ _ | .sget ty _ => [ty]
  | .cmp _ _ _ _ | .fcmp _ _ _ _ | .vote _ _ | .barArrive _ _ | .barTry _ _ | .yield => [.b1]
  | .fclass _ _ | .dxbPackScale _ _ _ _ | .ballot _ _ | .resQuery _ _ => [.w32]
  | .unpack ty _ => [elemTy ty, elemTy ty]
  | .rand wide _ => [if wide then .w64 else .w32]
  | .ldv ty n _ => List.replicate (2 ^ n) ty
  | .copy b _ _ _ _ _ _ _ => if b then [.w64] else []
  | .tcopy _ b _ _ _ _ _ _ _ => if b then [.w64] else []
  | .copyRemote b _ _ _ _ _ _ _ _ => if b then [.w64] else []
  | .accInit _ _ _ | .mma _ _ _ _ _ _ | .mmaRes _ _ _ _ _ _ _ | .accNorm _ | .accWr _ _ _ _ _ _
  | .accWrWord _ _ _ _ _ => [.acc]
  | .accRdWord _ _ _ _ | .stamp | .stampSc => [.w64]
  | .resPitch _ _ _ _ _ _ _ | .resPitchAttach _ => [.rhandle]
  | .sloop _ _ _ is => List.replicate is.length .void
  | .sloopEnd vs => List.replicate vs.length .void
  | .sysRd r => [r.ty]
  | _ => []

end Sys2Proof

namespace Sys2Proof.Machine

/-- Little-endian 32-bit words of a byte string. -/
def wordsOf : List Byte → List Nat
  | a :: b :: c :: d :: r => (a.toNat + 256 * b.toNat + 65536 * c.toNat + 16777216 * d.toNat) :: wordsOf r
  | _ => []

def State.module? (s : State) (mh : Nat) : Option Module := s.modules.find? fun m => m.mh = mh

def Module.func (m : Module) (f : Nat) : FuncRec := (m.funcs[f]?).getD ⟨0, 0, 0, false, 5, 10, []⟩

/-- Code words of a function. -/
def Module.words (m : Module) (f : Nat) : List Nat :=
  let r := m.func f
  wordsOf ((m.code.drop r.coff).take r.clen)

/-- What stands at a portable position. -/
inductive Item where
  | block (ps : List Nat)
  | instr (i : Instr)
  deriving DecidableEq, Repr

/-- An item with its byte offset, its length in words, and the number of the first value it defines. -/
structure At where
  off : Nat
  len : Nat
  val : Nat
  item : Item
  deriving DecidableEq, Repr

/-- Type codes of a BLOCK record's parameter words (06 R131). -/
def blockTys (p : Nat) (ws : List Nat) : List Nat :=
  ((ws.take ((p + 3) / 4)).flatMap fun w => [w % 256, w / 256 % 256, w / 65536 % 256, w / 16777216]).take p

/-- How many values an item defines (06 R132). -/
def Item.defs (rt : Nat → List Ty) : Item → Nat
  | .block ps => ps.length
  | .instr i => (i.resTys rt).length

/-- Reads one item; a BLOCK record has OP 0 (06 R131). -/
def takeItem (ws : List Nat) : Except DecErr (Item × Nat) :=
  match ws with
  | [] => .error .opcode
  | w :: r =>
    if w / 2 ^ 24 = 0 then .ok (.block (blockTys (w % 256) r), 1 + (w % 256 + 3) / 4)
    else match decodePortable ws with
      | .ok (i, n) => .ok (.instr i, n)
      | .error e => .error e

/-- Items of a function from an offset, up to the first that does not decode; the error with its offset. -/
def takeItems (rt : Nat → List Ty) : Nat → Nat → Nat → List Nat → List At × Option (Nat × DecErr)
  | 0, _, _, _ => ([], none)
  | fuel + 1, off, val, ws =>
    match ws with
    | [] => ([], none)
    | _ =>
      match takeItem ws with
      | .error e => ([], some (off, e))
      | .ok (it, n) =>
        let r := takeItems rt fuel (off + 4 * n) (val + it.defs rt) (ws.drop n)
        (⟨off, n, val, it⟩ :: r.1, r.2)

/-- Result types of the functions of a module. -/
def Module.rtypes (m : Module) (f : Nat) : List Ty := (m.func f).rtypes

/-- Items of a function. -/
def Module.items (m : Module) (f : Nat) : List At :=
  let ws := m.words f
  (takeItems m.rtypes ws.length 0 0 ws).1

/-- The item at a position of a function. -/
def Module.at? (m : Module) (f off : Nat) : Option At := (m.items f).find? fun a => a.off = off

/-- The BLOCK records of a function in code order. -/
def blocksOf (is : List At) : List At := is.filter fun a => match a.item with
  | .block _ => true
  | .instr _ => false

/-- Block `b` of a function (06 R131): offset of its record and number of its first parameter. -/
def Module.block (m : Module) (f b : Nat) : At := ((blocksOf (m.items f))[b]?).getD ⟨0, 1, 0, .block []⟩

/-- Targets of a terminator; none for another instruction. -/
def termEdges : Instr → Option (List Nat)
  | .br e => some [e.blk]
  | .cbr _ a b => some [a.blk, b.blk]
  | .switch _ _ d cs => some (d.blk :: cs.map fun c => c.2.blk)
  | .brx _ es => some (es.map Edge.blk)
  | .ret _ | .exit => some []
  | _ => none

/-- Edges of an instruction. -/
def instrEdges : Instr → Option (List Edge)
  | .br e => some [e]
  | .cbr _ a b => some [a, b]
  | .switch _ _ d cs => some (d :: cs.map Prod.snd)
  | .brx _ es => some es
  | .ret _ | .exit => some []
  | _ => none

/-- Whether a block's code ends in `ret` or `exit`, which the function end follows (02 R30). -/
def isEnd : Instr → Bool
  | .ret _ | .exit => true
  | _ => false

/-- Successors of each block as a bit set, in block order; bit `nb` stands for the function end. -/
def blockSuccs (is : List At) : List Nat :=
  let nb := (blocksOf is).length
  (is.filterMap fun a => match a.item with
    | .block _ => none
    | .instr i => (termEdges i).map fun ts => ts.foldl (fun m t => m ||| 2 ^ t) (if isEnd i then 2 ^ nb else 0))

/-- Members of a bit set below a bound. -/
def bitsOf (n v : Nat) : List Nat := (List.range n).filter v.testBit

/-- One round of the post-dominator equations over all blocks. -/
def pdomRound (nb : Nat) (succs pd : List Nat) : List Nat :=
  let all := 2 ^ (nb + 1) - 1
  succs.mapIdx fun b sc =>
    let m := (bitsOf (nb + 1) sc).foldl (fun m t => m &&& (if t = nb then 2 ^ nb else (pd[t]?).getD all)) all
    m ||| 2 ^ b

/-- Post-dominator sets after enough rounds. -/
def pdomSets (nb : Nat) (succs : List Nat) : List Nat :=
  (List.range (nb + 1)).foldl (fun pd _ => pdomRound nb succs pd) (succs.map fun _ => 2 ^ (nb + 1) - 1)

/-- Number of members of a bit set. -/
def bitCount (n v : Nat) : Nat := (bitsOf n v).length

/-- Whether a path from a block reaches the function end. -/
def reachesEnd (nb : Nat) (succs : List Nat) (b : Nat) : Bool :=
  let close (v : Nat) : Nat := (bitsOf nb v).foldl (fun m t => m ||| (succs[t]?).getD 0) v
  ((List.range (nb + 1)).foldl (fun v _ => close v) (2 ^ b)).testBit nb

/-- Immediate post-dominator of block `b`; none for the function end, also when no path reaches it (02 R30). -/
def ipdom (is : List At) (b : Nat) : Option Nat :=
  let nb := (blocksOf is).length
  let succs := blockSuccs is
  let pd := pdomSets nb succs
  let mine := (pd[b]?).getD 0
  if !reachesEnd nb succs b then none
  else
    (List.range nb).find? fun d =>
      d != b && mine.testBit d && bitCount (nb + 1) ((pd[d]?).getD 0) + 1 = bitCount (nb + 1) mine

/-- Number of the block that holds an offset. -/
def blockOf (is : List At) (off : Nat) : Nat := ((blocksOf is).filter fun a => a.off ≤ off).length - 1

/-- Join point of a transfer at an offset: the BLOCK record of the immediate post-dominator; none for the function end. -/
def Module.join (m : Module) (f off : Nat) : Option Nat :=
  let is := m.items f
  (ipdom is (blockOf is off)).map fun b => (m.block f b).off

end Sys2Proof.Machine
end

