-- ==== Sys2Proof/Machine/Flags.lean ====
section
/-! DEFINITION. The sticky status word: its bits, the report set, and what sets integer status (03 R63, 17 R392, 18 R406). -/

namespace Sys2Proof.Machine

/-- Bits of the sticky status word (03 R63). -/
def fNV : W32 := 0x1
def fDZ : W32 := 0x2
def fOF : W32 := 0x4
def fUF : W32 := 0x8
def fIX : W32 := 0x10
def fID : W32 := 0x20
def fIS : W32 := 0x40
def fAS : W32 := 0x80
def fDX : W32 := 0x100
def fSD : W32 := 0x200
def fRN : W32 := 0x400
def fRT : W32 := 0x800
def fDF : W32 := 0x1000

/-- The report set NV, DZ, OF, ID, AS, SD, RN, RT, DF (18 R406). -/
def reportSet : W32 := 0x1EA7

/-- A bit when a condition holds. -/
def flagIf (b : Bool) (f : W32) : W32 := if b then f else 0

/-- Sets status in a lane; in supervisor mode it is discarded (18 R398). -/
def Lane.raise (l : Lane) (sup : Bool) (f : W32) : Lane := if sup then l else { l with sticky := l.sticky ||| f }

/-- Whether a lane reports (R406). -/
def Lane.reports (l : Lane) : Bool := l.sticky &&& reportSet != 0

/-- IS: a saturating operation whose clamp changed the value (07 R157). -/
def satFlag (exact clamped : Int) : W32 := flagIf (exact != clamped) fIS

/-- ID: division or remainder by zero (07 R158). -/
def divFlag (b : Int) : W32 := flagIf (b = 0) fID

end Sys2Proof.Machine
end

