-- ==== Sys2Proof/Machine/Operands.lean ====
section
/-! DEFINITION. Reading operands and defining results, lane by lane (06 R132, R135, 07 R155, 08 R179). -/

namespace Sys2Proof

/-- Whether integer operands of the type are read as signed (07, before R157). -/
def Ty.signed : Ty → Bool
  | .i8 | .i16 | .i32 | .i64 => true
  | _ => false

/-- Bytes of a memory type (08 R181). -/
def Ty.bytes (t : Ty) : Nat := t.width / 8

end Sys2Proof

namespace Sys2Proof.Machine

/-! ### Values -/

/-- A value of a type from a natural number, cut to its width. -/
def mkVal (ty : Ty) (n : Nat) : TVal := ⟨ty, BitVec.ofNat 64 (n % 2 ^ ty.width)⟩

/-- A value of a type from an integer, wrapped to its width (03 R55). -/
def mkInt (ty : Ty) (x : Int) : TVal := mkVal ty (wrapu ty.width x)

/-- The bit pattern of a value. -/
def TVal.nat (v : TVal) : Nat := v.v.toNat

/-- A pattern of `n` bits read as signed or unsigned. -/
def readInt (ty : Ty) (n : Nat) : Int := if ty.signed then wrap ty.width n else (n % 2 ^ ty.width : Nat)

/-- A b1 value. -/
def mkB (b : Bool) : TVal := ⟨.b1, if b then 1 else 0⟩

/-- `dict` of value numbers: the value of a number, void while none is defined. -/
def Frame.val (f : Frame) (v : Nat) : TVal := ((f.vals.find? fun p => p.1 = v).map Prod.snd).getD ⟨.void, 0⟩

/-- The value of a number in the running activation of a lane. -/
def Lane.val (l : Lane) (v : Nat) : TVal := (l.frames.head?.map fun f => f.val v).getD ⟨.void, 0⟩

/-- Its bit pattern. -/
def Lane.nat (l : Lane) (v : Nat) : Nat := (l.val v).nat

/-- Its integer value as an operand of a type. -/
def Lane.int (l : Lane) (ty : Ty) (v : Nat) : Int := readInt ty (l.nat v)

/-- Whether a b1 operand is 1. -/
def Lane.bool (l : Lane) (v : Nat) : Bool := l.nat v % 2 = 1

/-- Replaces one entry of a list of numbered values. -/
def setNum {α : Type} (n : Nat) (x : α) (l : List (Nat × α)) : List (Nat × α) := (n, x) :: l.filter fun p => p.1 != n

/-- Defines a value in the running activation. -/
def Frame.define (f : Frame) (n : Nat) (v : TVal) : Frame := { f with vals := setNum n v f.vals }

def Lane.define (l : Lane) (n : Nat) (v : TVal) : Lane :=
  { l with frames := match l.frames with
      | [] => []
      | f :: r => f.define n v :: r }

/-- Defines consecutive values. -/
def Lane.defines (l : Lane) (n : Nat) : List TVal → Lane
  | [] => l
  | v :: r => Lane.defines (l.define n v) (n + 1) r

/-! ### Lanes of a mask -/

/-- Lane `l` is in the mask (02 R26). -/
def inMask (m : Mask) (l : Nat) : Bool := m.getLsbD l

/-- The lanes of a mask in ascending order, below the troop's width. -/
def lanesOf (w : Nat) (m : Mask) : List Nat := (List.range w).filter fun l => inMask m l

/-- A mask of lanes. -/
def maskOf (ls : List Nat) : Mask := ls.foldl (fun m l => m ||| BitVec.ofNat 1024 (2 ^ l)) 0

/-- Changes the lanes of a mask. -/
def onLanes (m : Mask) (f : Nat → Lane → Lane) (ls : List Lane) : List Lane :=
  ls.mapIdx fun i l => if inMask m i then f i l else l

/-- A lane of a troop. -/
def Troop.lane (t : Troop) (l : Nat) : Lane := (t.lanes[l]?).getD Lane.reset

/-- Effective width of the troop (02 R50): its lanes. -/
def Troop.width (t : Troop) : Nat := t.lanes.length

/-- The lowest-indexed active lane of the executing split, from which scalar operands are taken. -/
def State.lead (s : State) : Nat := ((lanesOf s.tr.width s.sp.mask).head?).getD 0

/-- A scalar operand's pattern. -/
def State.scalar (s : State) (v : Nat) : Nat := (s.tr.lane s.lead).nat v

/-- An optional scalar operand, 0 when it is omitted. -/
def State.scalarD (s : State) (v : Option Nat) : Nat := (v.map s.scalar).getD 0

/-! ### The frame of a portable instruction that only defines values -/

/-- Whether the executing split is in supervisor mode (08 R201). -/
def State.sup (s : State) : Bool := s.sp.sup.isSome

/-- The executing split goes on at the next instruction. -/
def State.advance (s : State) : State := { s with sp := { s.sp with off := s.ctx.next } }

/-- Defines one value in each active lane from a function of the lane, ORs its status, and goes on (07 R155). -/
def State.defLanes (s : State) (f : Nat → Lane → TVal × W32) : State :=
  { s with
    tr := { s.tr with lanes := onLanes s.sp.mask (fun i l => (l.define s.ctx.dst (f i l).1).raise s.sup (f i l).2) s.tr.lanes }
    sp := { s.sp with off := s.ctx.next } }

/-- Defines several values in each active lane, and goes on. -/
def State.defTuple (s : State) (f : Nat → Lane → List TVal × W32) : State :=
  { s with
    tr := { s.tr with lanes := onLanes s.sp.mask (fun i l => (l.defines s.ctx.dst (f i l).1).raise s.sup (f i l).2) s.tr.lanes }
    sp := { s.sp with off := s.ctx.next } }

/-- Changes each active lane and goes on. -/
def State.doLanes (s : State) (f : Nat → Lane → Lane) : State :=
  { s with
    tr := { s.tr with lanes := onLanes s.sp.mask f s.tr.lanes }
    sp := { s.sp with off := s.ctx.next } }

/-- Effective address of a lane (08 R180): the sum wraps through the tag. -/
def Lane.ea (l : Lane) (m : MemOpnd) : Nat :=
  match m.off with
  | none => l.nat m.a
  | some o => wrapu 64 (l.nat m.a + o.toInt)

end Sys2Proof.Machine
end

