-- ==== Sys2Proof/Machine/Ops.lean ====
section
/-! DEFINITION. Shared operations: the focus, splits and their groups, lanes that leave, taking an exception and returning from it (02 R29 to R33, 18 R395 to R411). -/

namespace Sys2Proof.Machine

/-! ### Focus -/

/-- The core on which a camp is, or for whose kind its image is. -/
def Camp.core (c : Camp) : CoreId :=
  match c.place with
  | .on k | .packing k | .image k => k
  | _ => ⟨0, 0, 0⟩

/-- Whether the camp is resident (02 R35). -/
def Camp.resident (c : Camp) : Bool :=
  match c.place with
  | .on _ | .packing _ => true
  | _ => false

/-- Whether a camp's splits issue on a core. -/
def Camp.issuesOn (c : Camp) (k : CoreId) : Bool :=
  match c.place with
  | .on j | .packing j => j = k
  | _ => false

def State.trRef (s : State) : TroopRef := ⟨s.cp.ref, s.tr.mem⟩
def State.spRef (s : State) : SplitRef := ⟨s.trRef, s.sp.sid⟩

/-- The launch of the focused camp. -/
def State.lch (s : State) : Launch := s.launch s.cp.ref.lid

/-- Puts the focused split, troop and camp back into the lists. -/
def State.unfocus (s : State) : State :=
  if s.focused then
    { s with camps := s.curCamp :: s.camps, focused := false, sp := Split.reset, tr := Troop.reset, cp := Camp.reset }
  else s

/-- Takes a split, its troop and its camp out of the lists. -/
def State.focusOn (s : State) (r : SplitRef) : Option State :=
  let u := s.unfocus
  match u.camps.find? fun c => c.ref = r.tr.camp with
  | none => none
  | some c => match c.troops.find? fun t => t.mem = r.tr.mem with
    | none => none
    | some t => match t.splits.find? fun p => p.sid = r.sid with
      | none => none
      | some p => some { u with
          camps := u.camps.filter fun c => c.ref != r.tr.camp
          focused := true
          sp := p
          tr := { t with splits := t.splits.filter fun q => q.sid != r.sid }
          cp := { c with troops := c.troops.filter fun u => u.mem != r.tr.mem } }

/-- Changes one camp, the lists being whole. -/
def State.modCamp (s : State) (c : CampRef) (f : Camp → Camp) : State :=
  { s with camps := s.camps.map fun k => if k.ref = c then f k else k }

def Camp.modTroop (c : Camp) (m : Nat) (f : Troop → Troop) : Camp :=
  { c with troops := c.troops.map fun t => if t.mem = m then f t else t }

def Troop.modSplit (t : Troop) (sid : Nat) (f : Split → Split) : Troop :=
  { t with splits := t.splits.map fun p => if p.sid = sid then f p else p }

def State.modTroop (s : State) (r : TroopRef) (f : Troop → Troop) : State :=
  s.modCamp r.camp fun c => c.modTroop r.mem f

/-- Changes one troop, whatever the focus. -/
def State.onTroop (s : State) (r : TroopRef) (f : Troop → Troop) : State :=
  let t := s.modTroop r f
  if s.focused && s.cp.ref = r.camp then
    (if s.tr.mem = r.mem then { t with tr := f t.tr } else { t with cp := t.cp.modTroop r.mem f })
  else t

def State.modSplit (s : State) (r : SplitRef) (f : Split → Split) : State :=
  s.modTroop r.tr fun t => t.modSplit r.sid f

def State.troop? (s : State) (r : TroopRef) : Option Troop :=
  (s.camp? r.camp).bind fun c => c.troops.find? fun t => t.mem = r.mem

def State.split? (s : State) (r : SplitRef) : Option Split :=
  (s.troop? r.tr).bind fun t => t.splits.find? fun p => p.sid = r.sid

/-- Adds a step to the agenda. -/
def State.push (s : State) (m : Micro) : State := { s with todo := s.todo ++ [m] }

/-- Puts a troop in the focus, with the split of a number, or no split where it has ceased to exist. -/
def State.setTroop (s : State) (t : Troop) (sid : Nat) : State :=
  match t.splits.find? fun p => p.sid = sid with
  | some p => { s with sp := p, tr := { t with splits := t.splits.filter fun q => q.sid != sid } }
  | none => { s with sp := { Split.reset with sid := sid }, tr := t }

/-- A fresh free value, and the state with its counter advanced (log 24). -/
def State.free (s : State) : W64 := Config.freeWord s.freeCnt
def State.freed (s : State) : State := { s with freeCnt := s.freeCnt + 1 }

/-- Gives a value of the running activation of a lane. -/
def Lane.setVal (l : Lane) (v : Nat) (x : TVal) : Lane :=
  { l with frames := match l.frames with
      | [] => []
      | f :: r => { f with vals := setNum v x f.vals } :: r }

/-! ### Groups, fusion, convergence (02 R29 to R33) -/

/-- Frames of the lowest lane of a mask: all lanes of a split have the same depth. -/
def Troop.depth (t : Troop) (m : Mask) : Nat :=
  ((lanesOf t.width m).head?.map fun l => (t.lane l).frames.length).getD 0

/-- Depth by which a group knows the activation it formed in; handler activations count apart. -/
def depthKey (sup : Bool) (d : Nat) : Nat := if sup then d + 1048576 else d

def Troop.group? (t : Troop) (g : Nat) : Option Group := t.groups.find? fun x => x.gid = g

/-- Whether group `a` encloses group `g` or is it. -/
def encloses (gs : List Group) (a : Nat) : Nat → Nat → Bool
  | 0, g => g = a
  | fuel + 1, g => g = a || match gs.find? fun x => x.gid = g with
    | some x => encloses gs a fuel x.parent
    | none => false

/-- Whether a split of a depth stands at the join point of its group (R31). -/
def Troop.atJoin (t : Troop) (p : Split) (d : Nat) : Bool :=
  match t.group? p.group with
  | some g => p.nat.isNone && g.off = some p.off && g.mh = p.mh && g.func = p.func && g.depth = depthKey p.sup.isSome d
  | none => false

/-- Whether a split is at its join point. -/
def Split.joined (p : Split) : Bool := p.st = .join

/-- Whether every split of a group waits at the join point, none being left in a group inside it. -/
def Troop.canFuse (t : Troop) (g : Group) : Bool :=
  (t.splits.any fun p => p.group = g.gid) &&
  t.splits.all fun p =>
    if p.group = g.gid then p.joined else !encloses t.groups g.gid t.groups.length p.group

/-- Whether two native positions are the same bundle; both absent for portable splits. -/
def sameSpot : Option NPos → Option NPos → Bool
  | none, none => true
  | some a, some b => a.bank = b.bank && a.off = b.off
  | _, _ => false

/-- Landings that the last point's bundle found in flight. -/
def Split.pointFl (p : Split) : List Flight := (p.nat.map NPos.ptFl).getD []

/-- One copy of each row operation that several splits counted: the owner's, where one is left. -/
def mergeRows (ms : List MPend) : List MPend :=
  let own := ms.filter MPend.own
  own ++ (ms.filter fun p => !p.own && !own.any fun q => q.op = p.op && q.quarter = p.quarter).foldl
    (fun l p => if l.any fun q => q.op = p.op && q.quarter = p.quarter then l else l ++ [p]) []

/-- What splits that fuse bring together: lanes, what is in flight, what the array and the ports still owe them, requests to the stub and of the debugger (11 R272, R273, R276, R286). -/
def Split.joinAll (p : Split) (ms : List Split) : Split :=
  { p with
    mask := ms.foldl (fun m x => m ||| x.mask) 0
    nat := p.nat.map fun n => { n with ptFl := ms.flatMap Split.pointFl }
    fl := ms.flatMap Split.fl
    mp := mergeRows (ms.flatMap Split.mp)
    pw := ms.flatMap Split.pw
    rq := ms.any Split.rq
    stepping := ms.any Split.stepping
    toPoint := ms.any Split.toPoint }

/-- Fuses the waiting splits of a group: the union goes on under the parent group, or waits there too (R31). -/
def Troop.fuse (t : Troop) (g : Group) : Troop :=
  let ms := t.splits.filter fun p => p.group = g.gid
  match ms with
  | [] => t
  | p :: _ =>
    let q := { p.joinAll ms with
      group := g.parent
      st := .ready
      aged := ms.any Split.aged
      issued := (ms.map Split.issued).foldl Nat.min p.issued }
    let rest := t.splits.filter fun p => p.group != g.gid
    let t1 := { t with groups := t.groups.filter fun x => x.gid != g.gid }
    let again := match t1.group? g.parent with
      | some h =>
        (g.off.isNone && h.off.isNone && h.mh = g.mh && h.func = g.func && h.depth = g.depth) ||
        t1.atJoin q (t1.depth q.mask) ||
        (q.nat.isSome && h.nat != none && h.nat = g.nat && h.mh = g.mh && h.func = g.func && h.depth = g.depth)
      | none => false
    { t1 with splits := rest ++ [if again then { q with st := .join } else q] }

/-- Innermost group that encloses both. -/
def commonGroup (gs : List Group) : Nat → Nat → Nat → Nat
  | 0, _, _ => 0
  | fuel + 1, a, b =>
    if encloses gs a gs.length b then a
    else match gs.find? fun x => x.gid = a with
      | some x => commonGroup gs fuel x.parent b
      | none => 0

/-- Whether the split waits for the others at a barrier instruction. -/
def Split.converging (p : Split) : Bool :=
  match p.st with
  | .converge _ => true
  | _ => false

/-- Fuses the splits of the troop when all have reached the same barrier instruction at the same point (R33). -/
def Troop.converge (t : Troop) : Troop :=
  match t.splits with
  | [] => t
  | p :: r =>
    if p.converging && r.all (fun q => q.converging && q.off = p.off && q.func = p.func && q.mh = p.mh && sameSpot q.nat p.nat) then
      let q := { p.joinAll (p :: r) with
        group := r.foldl (fun g x => commonGroup t.groups (t.groups.length + 1) g x.group) p.group
        st := .ready }
      { t with splits := [q], groups := t.groups.filter fun g => encloses t.groups g.gid t.groups.length q.group }
    else t

/-- Drops splits without lanes, fuses groups whose splits all wait, lets a converged troop pass its barrier. -/
def Troop.settleN : Nat → Troop → Troop
  | 0, t => t
  | n + 1, t =>
    match t.groups.find? t.canFuse with
    | some g => Troop.settleN n (t.fuse g)
    | none => t

def Troop.settle (t : Troop) : Troop :=
  let t0 := { t with splits := t.splits.filter fun p => p.mask != 0 }
  (Troop.settleN (t0.groups.length + 1) t0).converge

/-- Settles the focused troop. -/
def State.settle (s : State) : State := s.setTroop s.curTroop.settle s.sp.sid

/-- Whether the focused split is its whole troop (02 R39). -/
def State.converged (s : State) : Bool := s.tr.splits.isEmpty && s.sp.mask = s.tr.live

/-! ### Points of execution -/

/-- The result types of the functions of the running module. -/
def State.rtypes (s : State) (mh : Nat) (f : Nat) : List Ty := ((s.module? mh).map fun m => m.rtypes f).getD []

/-- The item at a position. -/
def State.itemAt (s : State) (mh func off : Nat) : Option At := (s.module? mh).bind fun m => m.at? func off

/-- Whether the instruction at a position is a terminator (06 R131). -/
def State.isTerm (s : State) (mh func off : Nat) : Bool :=
  match s.itemAt mh func off with
  | some a => match a.item with
    | .instr i => (termEdges i).isSome
    | .block _ => false
  | none => false

/-! ### Lanes that leave -/

/-- Members of a rope by its register (02 R37): the members' MEMBER numbers. -/
def ropeMembers (r : W32) : List Nat :=
  let v := r.toNat
  let n := if v / 2 ^ 31 = 1 then fld v 28 3 else 0
  (List.range n).map fun i => fld v (4 * i) 4

/-- Position of the troop in its rope. -/
def ropePos (r : W32) : Nat := fld r.toNat 24 4

/-- ROPE in force. -/
def inRope (r : W32) : Bool := r.toNat / 2 ^ 31 = 1

/-- Takes lanes out of the live mask; they never return (02 R27). -/
def Troop.leave (t : Troop) (m : Mask) : Troop :=
  { t with live := t.live &&& ~~~m, splits := t.splits.map fun p => { p with mask := p.mask &&& ~~~m } }

/-- Removes lanes of the focused split from the troop; the split ends when none is left (02 R27, R31, 08 R199). A member of a rope that ends, or a troop that a forming rope lists, lets the rope's check run. -/
def State.leaveLanes (s : State) (m : Mask) : State :=
  let s1 := { s with tr := { s.tr with live := s.tr.live &&& ~~~m }, sp := { s.sp with mask := s.sp.mask &&& ~~~m } }
  let s2 := s1.settle
  let s3 := if s2.tr.live = 0 then s2.push (.troopEnd s2.trRef) else s2
  if s3.tr.live = 0 then
    if inRope s3.tr.rope then s3.push (.rendezvousMatch s3.cp.ref s3.tr.ropeId) else s3.push (.ropeFormed s3.cp.ref 0)
  else s3

/-! ### End of a camp (02 R54) -/

/-- The core record of a core; one that no step has touched is as after reset. -/
def State.coreOf (s : State) (k : CoreId) : Core := (s.cores.find? fun c => c.id = k).getD (Core.reset k)

/-- Changes a core's record. -/
def State.modCore (s : State) (k : CoreId) (f : Core → Core) : State :=
  { s with cores := f (s.coreOf k) :: s.cores.filter fun c => c.id != k }

/-- Pages of a camp's private memory go back to the fast pool (04 R86). -/
def State.freePrivate (s : State) (c : Camp) : State :=
  let pages := c.troops.flatMap Troop.pages
  let data := (c.troops.map Troop.hwm).sum
  { s with fast := pages.foldl (fun p b => p.put b) s.fast }.uncountPages (s.launch c.ref.lid).path data

/-- Trap areas that a camp's handlers hold. -/
def Camp.trapAreas (c : Camp) : Nat :=
  (c.troops.map fun t => ((t.splits.filterMap fun p => p.sup).eraseDups).length).sum

/-- Free ranges with one more, joined to its neighbours; the ranges rise. -/
def joinRange (a n : Nat) : List (Nat × Nat) → List (Nat × Nat)
  | [] => [(a, n)]
  | (b, m) :: r =>
    if b + m < a then (b, m) :: joinRange a n r
    else if b + m = a then joinRange b (m + n) r
    else if a + n = b then (a, n + m) :: r
    else (a, n) :: (b, m) :: r

/-- An area of the save area becomes free (20 R443). -/
def State.giveSave (s : State) (area : Option (Nat × Nat)) : State :=
  match area with
  | some (a, n) => { s with save := joinRange a n s.save }
  | none => s

/-- A camp ends: contexts, scratchpad, entries and latches are freed, ropes dissolved, residencies struck, its area of the save area is released (02 R54, 15 R374, 20 R443). -/
def State.endCamp (s : State) (c : CampRef) : State :=
  match s.camps.find? fun k => k.ref = c with
  | none => s
  | some k =>
    let s1 := s.freePrivate k
    let s2 := { s1 with trapFree := s1.trapFree + k.trapAreas }.giveSave k.area
    (if k.resident then s2.modCore k.core fun x => { x with left := true, idle := s.stamp.toNat } else s2).modCamp c fun k => { k with
      place := .ended, troops := [], scr := [], res := [], accs := [], pack := none, latches := [], area := none }

/-- Whether all camps of a launch have ended. -/
def State.allEnded (s : State) (lid : Nat) : Bool :=
  (s.camps.filter fun c => c.ref.lid = lid).all fun c => c.place = .ended

/-- Ends every camp of a launch, which then completes without its posts (02 R42 FDP 0b10, 20 R442). -/
def State.killLaunch (s : State) (lid : Nat) : State :=
  let s1 := s.unfocus
  let cs := (s1.camps.filter fun c => c.ref.lid = lid && c.place != .ended).map Camp.ref
  let s2 := cs.foldl (fun s c => (s.endCamp c).modCamp c fun k => { k with cmds := [], orb := [] }) s1
  (s2.modLaunch lid fun l => { l with killed := true }).push (.launchCompletion lid)

/-! ### Taking an exception (18 R396 to R401) -/

/-- Cause codes (18 R402, 17 R386, 21 R460). -/
def cXLATE : Nat := 0x01
def cPAGE : Nat := 0x02
def cPERM : Nat := 0x03
def cWINDOW : Nat := 0x04
def cALIGN : Nat := 0x05
def cSTALE : Nat := 0x06
def cQUOTA : Nat := 0x07
def cPRIVGROW : Nat := 0x08
def cREMOTE : Nat := 0x09
def cTIMEOUT : Nat := 0x0A
def cROPE : Nat := 0x0B
def cBRX : Nat := 0x0C
def cTRAP : Nat := 0x0D
def cSTICKY : Nat := 0x11
def cDEADLANE : Nat := 0x12
def cHEADROOM : Nat := 0x13
def cOPERAND : Nat := 0x14
def cPRIV : Nat := 0x15
def cILLBUNDLE : Nat := 0x20
def cMEMECC : Nat := 0x21
def cOVLREPEAT : Nat := 0x26

/-- Whether a cause is a report. -/
def isReport (c : Nat) : Bool := c = cSTICKY || c = cDEADLANE || c = cHEADROOM

/-- The forms of `xret` that a cause allows: retry, next (18 R402). -/
def xretForms (c : Nat) : Bool × Bool :=
  if c = cXLATE || c = cILLBUNDLE || c = cOVLREPEAT then (false, false)
  else if isReport c || c = cBRX then (true, false)
  else (true, true)

/-- XCAUSE (18 R401). -/
def xcause (c : Nat) (term late : Bool) : W32 :=
  let f := xretForms c
  BitVec.ofNat 32 (c + boolN (isReport c) * 2 ^ 8 + boolN f.1 * 2 ^ 9 + boolN (f.2 && !term) * 2 ^ 10 + boolN late * 2 ^ 11)

/-- The tenant binding of a launch. -/
def State.tenantOf (s : State) (l : Launch) : Option Tenant := s.tenants.find? fun t => t.root = l.root

/-- The report-set bits of the lanes of a mask, ORed. -/
def Troop.reportBits (t : Troop) (m : Mask) : W32 :=
  (lanesOf t.width m).foldl (fun b l => b ||| ((t.lane l).sticky &&& reportSet)) 0

/-- Clears the report-set bits of lanes (18 R407). -/
def Troop.clearReports (t : Troop) (m : Mask) : Troop :=
  { t with lanes := onLanes m (fun _ l => { l with sticky := l.sticky &&& ~~~reportSet }) t.lanes }

/-- Place of a troop context as an event names it (21 R459). -/
def State.evBody (s : State) (addr func off info : Nat) : EvBody :=
  ⟨addr, off, func, s.cp.ref.camp, s.tr.mem, info⟩

/-- Source of the focused troop context. -/
def State.src (s : State) : Nat := s.csrc s.cp.core s.tr.ctx

/-- The first activation of a handler (18 R397): it returns nowhere. -/
def handlerFrame (mh func : Nat) : Frame := ⟨mh, func, 0, 0xFFFFFF, 0, 0, true, [], false⟩

/-- The frame link at the start of a trap area: its return offset is 0xFF_FFFF (18 R397). -/
def rootLink : List Host.Cell := [(8, 255), (9, 255), (10, 255)]

/-- Saves a lane and enters the handler's activation. -/
def Lane.enter (l : Lane) (mh func : Nat) : Lane :=
  { l with saved := some ⟨l.frames, l.k, l.g, rootLink⟩, frames := [handlerFrame mh func] }

/-- The focused split enters the handler: banked registers set, s31 = 0, supervisor mode (18 R397, R401). -/
def State.enterHandler (s : State) (mh func : Nat) (q : TrapReq) : State :=
  let p := s.sp
  { s with
    trapFree := s.trapFree - 1
    tr := { s.tr with lanes := onLanes p.mask (fun _ l => l.enter mh func) s.tr.lanes }
    sp := { p with
      sup := some ⟨p.func, q.off, p.mh, q.cause, q.addr, p.mask, p.loop, p.nat, p.scal, p.lq, p.fl⟩
      mh := mh, func := func, off := 0, st := .ready, loop := none, nat := none
      scal := setNum 31 0 p.scal, lq := [], fl := [], grant := false } }

/-- Whether what a trap entry waits for has landed: queue values, and matrix rows with their status (18 R397 step 1, 17 R393); values in flight are known and are replayed (11 R273). -/
def Split.landed (p : Split) : Bool := p.lq.all (fun e => e.2.landed) && p.mp.isEmpty && p.pw.isEmpty

/-- Whether status of stores to peers or of remote commands may still come to the focused split's lanes (17 R393). -/
def State.statusDue (s : State) : Bool :=
  (s.reqs.any fun q => match q.by_ with
    | .store t l => t = s.trRef && inMask s.sp.mask l
    | _ => false) ||
  s.cp.cmds.any fun c => c.kind = .remote && c.mem = s.tr.mem && inMask s.sp.mask c.lane

/-- A native split goes back to the bundle of its last point, with what that bundle found in flight (18 R403); loads that the point found pending have landed unless a peer or a command owes them. -/
def Split.rewind (p : Split) : Split :=
  match p.nat with
  | none => p
  | some n => { p with
      nat := some { n with off := n.ptOff, pend := none }
      fl := n.ptFl
      lq := n.ptLq.map fun e => (e.1, if e.2.reqs.isEmpty && e.2.cmd.isNone then { e.2 with landed := true } else e.2)
      matched := false, arrived := false, word := none }

/-- Landings of the lanes of a mask; those of scalars stay (11 R271, R273). -/
def Flight.only (m : Mask) (f : Flight) : Flight :=
  match f.dst with
  | .scalar _ => f
  | _ => { f with vals := f.vals.filter fun v => inMask m v.1 }

/-- A queue entry restricted to the lanes of a mask: it waits for their requests only (11 R272). -/
def State.entryOnly (s : State) (m : Mask) (e : QEnt) : QEnt :=
  let mine (r : Nat) : Bool := s.reqs.any fun q => q.id = r && match q.by_ with
    | .queue _ l => inMask m l
    | _ => true
  { e with vals := e.vals.filter (fun v => inMask m v.1), reqs := e.reqs.filter mine }

/-- The part of a split that holds the lanes of a mask: its results in flight and queue entries are those of its lanes; the rows that the whole split counts are counted on, and landed by the part with `own` (11 R272, R273; log 86). -/
def State.partOf (s : State) (p : Split) (m : Mask) (own : Bool) : Split :=
  { p with
    mask := p.mask &&& m
    fl := p.fl.map (Flight.only m)
    lq := p.lq.map fun e => (e.1, s.entryOnly m e.2)
    nat := p.nat.map fun n => { n with ptFl := n.ptFl.map (Flight.only m), ptLq := n.ptLq.map fun e => (e.1, s.entryOnly m e.2) }
    mp := if own then p.mp else p.mp.map fun x => { x with own := false }
    pw := if own then p.pw else [] }

/-- Divides the focused split at its point: the lanes of `m` become the focus, the others go on in a split of their own (18 R396). -/
def State.divide (s : State) (m : Mask) : State :=
  let x := s.sp.mask &&& m
  if s.sp.mask &&& ~~~x = 0 then s
  else
    { s with
      sp := { s.partOf s.sp x true with sid := s.tr.nextId }
      tr := { s.tr with splits := s.tr.splits ++ [s.partOf s.sp (~~~x) false], nextId := s.tr.nextId + 1 } }

/-- Whether other splits run the same trap's handler. -/
def State.trapShared (s : State) : Bool := s.tr.splits.any fun p => p.sup.isSome && p.sup = s.sp.sup

/-- A nested trap: no handler, the lanes leave as by `exit`, the trap area is released, NESTED is posted (18 R398). -/
def State.nested (s : State) (cause : Nat) (m : Mask) (addr : W64) : State :=
  match s.sp.sup with
  | none => s
  | some x =>
    let s1 := s.postLeaf s.cp.ref.lid 0x05 cause s.src (s.evBody addr.toNat x.func x.off x.cause.toNat)
    let gone := s1.sp.mask &&& ~~~m = 0 && !s1.trapShared
    ({ s1 with trapFree := s1.trapFree + (if gone then 1 else 0) }).leaveLanes (m &&& s1.sp.mask)

/-- Without a handler a report posts and clears; any other cause posts and kills the launch (18 R400). -/
def State.noHandler (s : State) (cause : Nat) (m : Mask) (addr : W64) : State :=
  let info := (s.tr.reportBits m).toNat
  let s1 := s.postLeaf s.cp.ref.lid 0x06 cause s.src (s.evBody addr.toNat s.sp.func s.sp.off info)
  if cause = cDEADLANE then { s1 with tr := { s1.tr with newDead := [] } }
  else if isReport cause then { s1 with tr := s1.tr.clearReports m }
  else s1.killLaunch s1.cp.ref.lid

/-- TAKING AN EXCEPTION: the lanes of `m` of the focused split take `cause` at the split's point with XADDR (18 R396, R397). Entry waits while landings are due or no trap area is free. -/
def State.takeTrap (s0 : State) (cause : Nat) (m : Mask) (addr : W64) (late : Bool := false) : State :=
  let s : State := { s0 with sp := s0.sp.rewind }
  if s.sup then s.nested cause m addr
  else
    match (s.tenantOf s.lch).bind Tenant.handler with
    | none => s.noHandler cause m addr
    | some (mh, func) =>
      let s1 := s.divide m
      let q : TrapReq := ⟨xcause cause (s.isTerm s.sp.mh s.sp.func s.sp.off) late, addr, s.sp.off⟩
      if s1.trapFree != 0 && s1.sp.landed && !s1.statusDue then s1.enterHandler mh func q
      else ({ s1 with sp := { s1.sp with st := .trap q } }).push (.trapEntry s1.spRef)

/-- A fault of an instruction that acts once: the trap mask is the executing split's mask (17 R387, 19 R418). -/
def State.trapAll (s : State) (cause : Nat) (addr : W64) : State := s.takeTrap cause s.sp.mask addr

/-- XADDR of PRIV (17 R389). -/
def privAddr (op sx : Nat) : W64 := BitVec.ofNat 64 (op + 2 ^ 8 * sx)

/-- XADDR of OPERAND (17 R387). -/
def operandAddr (value index sub : Nat) : W64 := BitVec.ofNat 64 (sub + 2 ^ 8 * index + 2 ^ 32 * (value % 2 ^ 32))

/-- XADDR of memory causes (19 R419). -/
def memAddr (a sub acc lane : Nat) : W64 := BitVec.ofNat 64 (a / 2 ^ 16 * 2 ^ 16 + sub * 2 ^ 12 + acc * 2 ^ 10 + lane)

/-- XADDR of ROPE (17 R390). -/
def ropeAddr (sub member : Nat) : W64 := BitVec.ofNat 64 (sub + 2 ^ 8 * member)

/-- PRIV in the executing split's mask. -/
def State.priv (s : State) (op sx : Nat) : State := s.trapAll cPRIV (privAddr op sx)

/-- OPERAND in the executing split's mask. -/
def State.operand (s : State) (sub index value : Nat) : State := s.trapAll cOPERAND (operandAddr value index sub)

/-! ### Return from an exception (18 R399) -/

/-- Restores what a trap saved of a lane. -/
def Lane.restore (l : Lane) : Lane :=
  match l.saved with
  | some v => { l with frames := v.frames, k := v.k, g := v.g, saved := none }
  | none => l

/-- STUBV with a cause at a point (11 R286); RQ stays. -/
def stubVal (old : W64) (cause func off : Nat) : W64 :=
  BitVec.ofNat 64 (boolN (old.getLsbD 0) + cause * 2 ^ 16 + fld func 0 16 * 2 ^ 24 + fld off 0 24 * 2 ^ 40)

/-- The group of user mode that encloses a group of handler activations. -/
def userGroup (gs : List Group) : Nat → Nat → Nat
  | 0, g => g
  | fuel + 1, g => match gs.find? fun x => x.gid = g with
    | some x => if 1048576 ≤ x.depth then userGroup gs fuel x.parent else g
    | none => g

/-- Restores the focused split from its trap area, still at its trap point; STUBV.CAUSE 5, the area is released with the last split of the handler. -/
def State.resumeTrap (s : State) (x : Sup) : State :=
  { s with
    trapFree := s.trapFree + (if s.trapShared then 0 else 1)
    tr := { s.tr with lanes := onLanes s.sp.mask (fun _ l => l.restore) s.tr.lanes, stubv := stubVal s.tr.stubv 5 x.func x.off }
    sp := { s.sp with
      mh := x.mh, func := x.func, off := x.off, st := .ready, loop := x.loop, nat := x.nat, scal := x.scal
      group := userGroup s.tr.groups s.tr.groups.length s.sp.group
      lq := x.lq, fl := x.fl, sup := none } }

/-- Whether a cause with its XADDR gives a map grant (19 R422): PAGE FIRST or PRIVGROW GROW. -/
def grants (cause : Nat) (addr : W64) : Bool :=
  let sub := fld addr.toNat 12 4
  (cause = cPAGE && sub = 2) || (cause = cPRIVGROW && sub = 1)

/-- A form that the cause does not allow raises the same cause again at the same point (18 R399). -/
def State.raiseAgain (s : State) (x : Sup) : State :=
  (s.resumeTrap x).takeTrap (x.cause.toNat % 256) s.sp.mask x.addr (x.cause.getLsbD 11)

/-- RETURN FROM EXCEPTION, retry form (18 R399, R407, 19 R422). -/
def State.retryTrap (s : State) (x : Sup) : State :=
  let c := x.cause.toNat % 256
  let s1 := s.resumeTrap x
  if c = cDEADLANE then { s1 with tr := { s1.tr with newDead := [] } }
  else if isReport c then { s1 with tr := s1.tr.clearReports s1.sp.mask }
  else { s1 with sp := { s1.sp with grant := grants c x.addr } }

/-- Defines the all-zero pattern of each result of a skipped instruction (18 R399). -/
def Lane.zeros (l : Lane) (n : Nat) : List Ty → Lane
  | [] => l
  | t :: r => Lane.zeros (l.define n ⟨t, 0⟩) (n + 1) r

end Sys2Proof.Machine
end

