-- ==== Sys2Proof/Machine/Float.lean ====
section
/-! DEFINITION. Floating-point arithmetic: exact values, one rounding, special values and status (03 R56 to R62, 07 R162 to R167). -/

namespace Sys2Proof.Machine

/-- A format: exponent bits and fraction bits (03 R56). -/
structure FFmt where
  eb : Nat
  fb : Nat
  deriving DecidableEq, Repr

def f16F : FFmt := ⟨5, 10⟩
def bf16F : FFmt := ⟨8, 7⟩
def f32F : FFmt := ⟨8, 23⟩
def f64F : FFmt := ⟨11, 52⟩

/-- The format of a float type, and of the elements of a packed type (R57). -/
def fmtOf : Ty → FFmt
  | .f16 | .x2f16 => f16F
  | .bf16 | .x2bf16 => bf16F
  | .f64 => f64F
  | _ => f32F

namespace FFmt
def width (f : FFmt) : Nat := 1 + f.eb + f.fb
def bias (f : FFmt) : Nat := 2 ^ (f.eb - 1) - 1
/-- Exponent of the smallest normal, and of the largest finite. -/
def emin (f : FFmt) : Int := 1 - (f.bias : Int)
def emax (f : FFmt) : Int := f.bias
def emask (f : FFmt) : Nat := 2 ^ f.eb - 1
/-- Canonical quiet NaN and infinity (R61). -/
def qnan (f : FFmt) : Nat := f.emask * 2 ^ f.fb + 2 ^ (f.fb - 1)
def signBit (f : FFmt) : Nat := 2 ^ (f.eb + f.fb)
def inf (f : FFmt) (s : Bool) : Nat := f.emask * 2 ^ f.fb + (if s then f.signBit else 0)
def zero (f : FFmt) (s : Bool) : Nat := if s then f.signBit else 0
def maxFin (f : FFmt) (s : Bool) : Nat := f.inf s - 1
def expo (f : FFmt) (x : Nat) : Nat := fld x f.fb f.eb
def frac (f : FFmt) (x : Nat) : Nat := fld x 0 f.fb
def sign (f : FFmt) (x : Nat) : Bool := fld x (f.eb + f.fb) 1 = 1
def isNan (f : FFmt) (x : Nat) : Bool := f.expo x = f.emask && f.frac x != 0
def isSnan (f : FFmt) (x : Nat) : Bool := f.isNan x && f.frac x < 2 ^ (f.fb - 1)
def isInf (f : FFmt) (x : Nat) : Bool := f.expo x = f.emask && f.frac x = 0
def isZero (f : FFmt) (x : Nat) : Bool := f.expo x = 0 && f.frac x = 0
/-- Significand and exponent of a finite pattern: its magnitude is `m * 2^e`. -/
def sig (f : FFmt) (x : Nat) : Nat := if f.expo x = 0 then f.frac x else f.frac x + 2 ^ f.fb
def ex (f : FFmt) (x : Nat) : Int := (if f.expo x = 0 then f.emin else (f.expo x : Int) - f.bias) - f.fb
end FFmt

/-- A result of an operation: bit pattern and status. -/
abbrev FRes := Nat × W32

/-- Whether a rounding away from zero happens: `n` the kept part, `r` of `2^d` the rest, `st` a non-zero tail. -/
def roundUp (rm : Rm) (s : Bool) (n r d : Nat) (st : Bool) : Bool :=
  let inexact := r != 0 || st
  match rm with
  | .ne => decide (2 ^ d < 2 * r) || (2 * r = 2 ^ d && d != 0 && (st || n % 2 = 1))
  | .tz => false
  | .up => inexact && !s
  | .dn => inexact && s

/-- Rounds the magnitude `(m + tail) * 2^e` to a multiple of `2^q`: the multiple, and whether it is inexact. -/
def roundAt (rm : Rm) (s : Bool) (m : Nat) (e : Int) (st : Bool) (q : Int) : Nat × Bool :=
  if q ≤ e then
    let n := m * 2 ^ (e - q).toNat
    (if roundUp rm s n 0 0 st then n + 1 else n, st)
  else
    let d := (q - e).toNat
    let n := m / 2 ^ d
    let r := m % 2 ^ d
    (if roundUp rm s n r d st then n + 1 else n, r != 0 || st)

/-- Rounds a finite exact value `(-1)^s (m + tail) 2^e` to a format (R59, R60); with a tail, `m` has at least three bits more than the format's precision. -/
def roundTo (f : FFmt) (rm : Rm) (s : Bool) (m : Nat) (e : Int) (st : Bool) : FRes :=
  if m = 0 then (f.zero s, 0)
  else
    let top : Int := (Nat.log2 m : Int) + e
    let qn := top - f.fb
    let qmin := f.emin - f.fb
    let q := max qn qmin
    let r := roundAt rm s m e st q
    let u := roundAt rm s m e st qn
    if f.emax < (Nat.log2 r.1 : Int) + q then
      let v := match rm with
        | .ne => f.inf s
        | .tz => f.maxFin s
        | .up => if s then f.maxFin s else f.inf s
        | .dn => if s then f.inf s else f.maxFin s
      (v, fOF ||| fIX)
    else
      let tiny := (Nat.log2 u.1 : Int) + qn < f.emin
      ((q - qmin).toNat * 2 ^ f.fb + r.1 + f.zero s, flagIf r.2 fIX ||| flagIf (r.2 && tiny) fUF)

/-- Rounds `n * 2^e` for an integer; the sign of an exact zero is given. -/
def roundInt (f : FFmt) (rm : Rm) (n : Int) (e : Int) (zs : Bool) : FRes :=
  if n = 0 then (f.zero zs, 0) else roundTo f rm (n < 0) n.natAbs e false

/-- The canonical NaN with status. -/
def FFmt.nan (f : FFmt) (fl : W32) : FRes := (f.qnan, fl)

/-- NV when an operand is a signalling NaN. -/
def snanFlag (f : FFmt) (xs : List Nat) : W32 := flagIf (xs.any f.isSnan) fNV

/-- Signed significand of a finite pattern at an exponent below its own. -/
def FFmt.at (f : FFmt) (x : Nat) (e : Int) : Int :=
  let m : Int := f.sig x * 2 ^ (f.ex x - e).toNat
  if f.sign x then -m else m

/-- Sign of an exact zero sum of operands of opposite sign (R60). -/
def zeroSign (rm : Rm) : Bool := rm == .dn

def fAdd (f : FFmt) (rm : Rm) (a b : Nat) : FRes :=
  if f.isNan a || f.isNan b then f.nan (snanFlag f [a, b])
  else if f.isInf a then (if f.isInf b && f.sign a != f.sign b then f.nan fNV else (f.inf (f.sign a), 0))
  else if f.isInf b then (f.inf (f.sign b), 0)
  else
    let e := min (f.ex a) (f.ex b)
    let zs := if f.isZero a && f.isZero b && f.sign a = f.sign b then f.sign a else zeroSign rm
    roundInt f rm (f.at a e + f.at b e) e zs

/-- Inverts the sign bit. -/
def FFmt.neg (f : FFmt) (x : Nat) : Nat := if f.sign x then x - f.signBit else x + f.signBit

def fSub (f : FFmt) (rm : Rm) (a b : Nat) : FRes := fAdd f rm a (f.neg b)

def fMul (f : FFmt) (rm : Rm) (a b : Nat) : FRes :=
  let s := f.sign a != f.sign b
  if f.isNan a || f.isNan b then f.nan (snanFlag f [a, b])
  else if (f.isInf a && f.isZero b) || (f.isZero a && f.isInf b) then f.nan fNV
  else if f.isInf a || f.isInf b then (f.inf s, 0)
  else roundTo f rm s (f.sig a * f.sig b) (f.ex a + f.ex b) false

/-- `a * b + c` with one rounding (07 R162): 0 × ∞ is invalid whatever c is. -/
def fFma (f : FFmt) (rm : Rm) (a b c : Nat) : FRes :=
  let s := f.sign a != f.sign b
  let inv := (f.isInf a && f.isZero b) || (f.isZero a && f.isInf b)
  if inv then f.nan fNV
  else if f.isNan a || f.isNan b || f.isNan c then f.nan (snanFlag f [a, b, c])
  else if f.isInf a || f.isInf b then
    (if f.isInf c && f.sign c != s then f.nan fNV else (f.inf s, 0))
  else if f.isInf c then (f.inf (f.sign c), 0)
  else
    let ep := f.ex a + f.ex b
    let e := min ep (f.ex c)
    let p : Int := (f.sig a * f.sig b : Nat) * 2 ^ (ep - e).toNat
    let n := (if s then -p else p) + f.at c e
    let zs := if (f.isZero a || f.isZero b) && f.isZero c && s = f.sign c then s else zeroSign rm
    roundInt f rm n e zs

def fDiv (f : FFmt) (rm : Rm) (a b : Nat) : FRes :=
  let s := f.sign a != f.sign b
  if f.isNan a || f.isNan b then f.nan (snanFlag f [a, b])
  else if (f.isInf a && f.isInf b) || (f.isZero a && f.isZero b) then f.nan fNV
  else if f.isInf a then (f.inf s, 0)
  else if f.isInf b then (f.zero s, 0)
  else if f.isZero b then (f.inf s, fDZ)
  else
    let k := 2 * f.fb + 8
    let n := f.sig a * 2 ^ k
    roundTo f rm s (n / f.sig b) (f.ex a - f.ex b - k) (n % f.sig b != 0)

/-- Integer square root by bits from the highest. -/
def isqrtFrom : Nat → Nat → Nat → Nat
  | 0, _, r => r
  | k + 1, n, r => isqrtFrom k n (if (r + 2 ^ k) * (r + 2 ^ k) ≤ n then r + 2 ^ k else r)

def isqrt (n : Nat) : Nat := isqrtFrom (Nat.log2 n / 2 + 1) n 0

def fSqrt (f : FFmt) (rm : Rm) (a : Nat) : FRes :=
  if f.isNan a then f.nan (snanFlag f [a])
  else if f.isZero a then (a, 0)
  else if f.sign a then f.nan fNV
  else if f.isInf a then (f.inf false, 0)
  else
    let k : Nat := 2 * f.fb + 16
    let e := f.ex a - k
    let odd := e % 2 != 0
    let n := f.sig a * 2 ^ (if odd then k + 1 else k)
    let e2 := if odd then e - 1 else e
    let r := isqrt n
    roundTo f rm false r (e2 / 2) (r * r != n)

def fRsq (f : FFmt) (rm : Rm) (a : Nat) : FRes :=
  if f.isNan a then f.nan (snanFlag f [a])
  else if f.isZero a then (f.inf (f.sign a), fDZ)
  else if f.sign a then f.nan fNV
  else if f.isInf a then (f.zero false, 0)
  else
    let odd := f.ex a % 2 != 0
    let m := if odd then f.sig a * 2 else f.sig a
    let e := if odd then f.ex a - 1 else f.ex a
    let k := 2 * f.fb + 8
    let r := isqrt (2 ^ (2 * k) / m)
    roundTo f rm false r (-(e / 2) - k) (r * r * m != 2 ^ (2 * k))

def fRcp (f : FFmt) (rm : Rm) (a : Nat) : FRes :=
  if f.isNan a then f.nan (snanFlag f [a])
  else if f.isZero a then (f.inf (f.sign a), fDZ)
  else if f.isInf a then (f.zero (f.sign a), 0)
  else
    let k := 2 * f.fb + 8
    roundTo f rm (f.sign a) (2 ^ k / f.sig a) (-(f.ex a) - k) (2 ^ k % f.sig a != 0)

/-- Order of two patterns that are not NaN, −0 below +0. -/
def FFmt.key (f : FFmt) (x : Nat) : Int := if f.sign x then -((x - f.signBit : Nat) : Int) - 1 else x

def fMin (f : FFmt) (a b : Nat) : FRes :=
  if f.isNan a || f.isNan b then f.nan (snanFlag f [a, b]) else (if f.key b < f.key a then b else a, 0)

def fMax (f : FFmt) (a b : Nat) : FRes :=
  if f.isNan a || f.isNan b then f.nan (snanFlag f [a, b]) else (if f.key a < f.key b then b else a, 0)

def fAbs (f : FFmt) (a : Nat) : Nat := if f.sign a then a - f.signBit else a

def fCopysign (f : FFmt) (a b : Nat) : Nat := fAbs f a + (if f.sign b then f.signBit else 0)

/-- Three-way comparison of ordered operands, −0 equal to +0. -/
def FFmt.lt (f : FFmt) (a b : Nat) : Bool := !(f.isZero a && f.isZero b) && f.key a < f.key b
def FFmt.eqv (f : FFmt) (a b : Nat) : Bool := (f.isZero a && f.isZero b) || a = b

/-- Whether a float condition holds (07 R165). -/
def fCond (f : FFmt) (cc : Fcc) (a b : Nat) : Bool :=
  let u := f.isNan a || f.isNan b
  let eq := !u && f.eqv a b
  let lt := !u && f.lt a b
  let gt := !u && f.lt b a
  match cc with
  | .eq => eq
  | .ne => !eq
  | .lt => lt
  | .le => lt || eq
  | .gt => gt
  | .ge => gt || eq
  | .ord => !u
  | .uno => u
  | .ueq => u || eq
  | .one => lt || gt
  | .ult => u || lt
  | .ule => u || lt || eq
  | .ugt => u || gt
  | .uge => u || gt || eq

/-- `fclass` (07 R166). -/
def fClass (f : FFmt) (a : Nat) : Nat :=
  let bit : Nat :=
    if f.isNan a then (if f.isSnan a then 8 else 9)
    else if f.sign a then
      (if f.isInf a then 0 else if f.isZero a then 3 else if f.expo a = 0 then 2 else 1)
    else if f.isInf a then 7 else if f.isZero a then 4 else if f.expo a = 0 then 5 else 6
  2 ^ bit

/-- Rounds a finite value to an integer: the integer and whether it is inexact (R60, R62). -/
def toInteger (f : FFmt) (rm : Rm) (a : Nat) : Int × Bool :=
  let r := roundAt rm (f.sign a) (f.sig a) (f.ex a) false 0
  (if f.sign a then -(r.1 : Int) else r.1, r.2)

/-- `fround` (07 R167). -/
def fRound (f : FFmt) (rm : Rm) (a : Nat) : FRes :=
  if f.isNan a then f.nan (snanFlag f [a])
  else if f.isInf a || f.isZero a then (a, 0)
  else
    let n := (toInteger f rm a).1
    ((roundInt f rm n 0 (f.sign a)).1, 0)

/-- Float to integer of `n` bits (03 R62). -/
def fToInt (f : FFmt) (rm : Rm) (signed : Bool) (n : Nat) (a : Nat) : Int × W32 :=
  if f.isNan a then (0, fNV)
  else if f.isInf a then
    let lo : Int := if signed then -(2 ^ (n - 1) : Int) else 0
    let hi : Int := if signed then (2 ^ (n - 1) : Int) - 1 else (2 ^ n : Int) - 1
    (if f.sign a then lo else hi, fNV)
  else
    let r := toInteger f rm a
    let c := if signed then sat n r.1 else satu n r.1
    if c != r.1 then (c, fNV) else (c, flagIf r.2 fIX)

/-- Integer to float (03 R62). -/
def fOfInt (f : FFmt) (rm : Rm) (n : Int) : FRes := roundInt f rm n 0 false

/-- Float to float (03 R62). -/
def fConv (f g : FFmt) (rm : Rm) (a : Nat) : FRes :=
  if f.isNan a then g.nan (snanFlag f [a])
  else if f.isInf a then (g.inf (f.sign a), 0)
  else roundTo g rm (f.sign a) (f.sig a) (f.ex a) false

/-! ### Packed elements (03 R57) -/

/-- Applies a scalar effect to a value of a float type, per element for the packed types. -/
def per1 (ty : Ty) (g : FFmt → Nat → FRes) (a : Nat) : FRes :=
  let f := fmtOf ty
  if ty.isP then
    let r0 := g f (a % 65536)
    let r1 := g f (a / 65536 % 65536)
    (r0.1 + 65536 * r1.1, r0.2 ||| r1.2)
  else g f (a % 2 ^ f.width)

def per2 (ty : Ty) (g : FFmt → Nat → Nat → FRes) (a b : Nat) : FRes :=
  let f := fmtOf ty
  if ty.isP then
    let r0 := g f (a % 65536) (b % 65536)
    let r1 := g f (a / 65536 % 65536) (b / 65536 % 65536)
    (r0.1 + 65536 * r1.1, r0.2 ||| r1.2)
  else g f (a % 2 ^ f.width) (b % 2 ^ f.width)

def per3 (ty : Ty) (g : FFmt → Nat → Nat → Nat → FRes) (a b c : Nat) : FRes :=
  let f := fmtOf ty
  if ty.isP then
    let r0 := g f (a % 65536) (b % 65536) (c % 65536)
    let r1 := g f (a / 65536 % 65536) (b / 65536 % 65536) (c / 65536 % 65536)
    (r0.1 + 65536 * r1.1, r0.2 ||| r1.2)
  else g f (a % 2 ^ f.width) (b % 2 ^ f.width) (c % 2 ^ f.width)

end Sys2Proof.Machine
end

