-- ==== Sys2Proof/Machine/Transc.lean ====
section
/-! DEFINITION. The correctly rounded elementary functions of 07 R163, by enclosures in fixed point at rising precision. -/

namespace Sys2Proof.Machine

/-- Sum of `x^(2i+1) / (2i+1)`, alternating or not: `t` is the current power, `z` the square, `2^p` one. -/
def atanSum (p : Nat) (alt : Bool) (z : Int) : Nat → Nat → Int → Int → Int
  | 0, _, _, acc => acc
  | k + 1, i, t, acc =>
    let term := t / (2 * i + 1 : Nat)
    atanSum p alt z k (i + 1) (t * z / 2 ^ p) (if alt && i % 2 = 1 then acc - term else acc + term)

/-- `ln 2 * 2^p`, within `p + 4` units. -/
def ln2 (p : Nat) : Int := 2 * atanSum p false ((2 : Int) ^ p / 9) (p / 3 + 2) 0 ((2 : Int) ^ p / 3) 0

/-- `atan(1/n) * 2^p` within a unit per term. -/
def atanInv (p n : Nat) : Int := atanSum p true ((2 : Int) ^ p / (n * n : Nat)) (p / 4 + 2) 0 ((2 : Int) ^ p / (n : Int)) 0

/-- `π * 2^p`, within `8 p + 64` units. -/
def piFix (p : Nat) : Int := 16 * atanInv p 5 - 4 * atanInv p 239

/-- Sum of the exponential series of `y` from term `i`: `t` is the term before. -/
def expSum (p : Nat) (y : Int) : Nat → Nat → Int → Int → Int
  | 0, _, _, acc => acc
  | k + 1, i, t, acc =>
    let u := t * y / 2 ^ p / (i : Int)
    expSum p y k (i + 1) u (acc + u)

/-- `(e^y - 1) * 2^p` for `0 ≤ y < 1`. -/
def expm1Fix (p : Nat) (y : Int) : Int := expSum p y (p / 2 + 8) 1 ((2 : Int) ^ p) 0

/-- Alternating series of the sine or the cosine: terms `t * r² / ((i+1)(i+2))`. -/
def trigSum (p : Nat) (r2 : Int) : Nat → Nat → Int → Int → Int
  | 0, _, _, acc => acc
  | k + 1, i, t, acc =>
    let u := -(t * r2 / 2 ^ p / ((i + 1) * (i + 2) : Nat))
    trigSum p r2 k (i + 2) u (acc + u)

def sinFix (p : Nat) (r : Int) : Int := trigSum p (r * r / 2 ^ p) (p / 2 + 8) 1 r r
def cosFix (p : Nat) (r : Int) : Int := trigSum p (r * r / 2 ^ p) (p / 2 + 8) 0 ((2 : Int) ^ p) ((2 : Int) ^ p)

/-- Guard: every enclosure below is within this many units at precision `p`. -/
def slack (p : Nat) : Int := 64 * (p : Int) + 4096

/-- An enclosure: sign, and an approximation of the magnitude in units of `2^e`, off by at most the guard. -/
structure Encl where
  s : Bool
  m : Int
  e : Int
  deriving DecidableEq, Repr

/-- Rounds when both ends of the enclosure agree. -/
def decideEncl (f : FFmt) (g : Int) (x : Encl) : Option FRes :=
  let lo := x.m - g
  let hi := x.m + g
  if lo ≤ 0 then none
  else
    let a := roundTo f .ne x.s lo.toNat x.e true
    let b := roundTo f .ne x.s hi.toNat x.e true
    if a = b then some a else none

/-- Tries precisions from the lowest; the result is never exact, so some precision decides. -/
def ziv (f : FFmt) (h : Nat → Encl) : List Nat → FRes
  | [] => (f.qnan, 0)
  | p :: r => match decideEncl f (slack p) (h p) with
    | some x => x
    | none => ziv f h r

/-- Precisions in bits. -/
def precs : List Nat := [320, 640, 1280, 2560]

/-- The magnitude `m 2^e` in units of `2^-p`, rounded down. -/
def fixOf (p : Nat) (m : Nat) (e : Int) : Int :=
  if 0 ≤ e + p then (m : Int) * 2 ^ (e + p).toNat else (m : Int) / 2 ^ (-(e + p)).toNat

/-- 2 to a fixed-point power `x`: magnitude and exponent. -/
def exp2Encl (p : Nat) (x : Int) : Encl :=
  let n := x / 2 ^ p
  let fr := x % 2 ^ p
  ⟨false, 2 ^ p + expm1Fix p (fr * ln2 p / 2 ^ p), n - p⟩

/-- Exponents beyond every format decide at once. -/
def bigExp (f : FFmt) (neg : Bool) : FRes :=
  if neg then roundTo f .ne false 1 (-(2000 : Int)) true else roundTo f .ne false 1 2000 false

def fExp2 (f : FFmt) (a : Nat) : FRes :=
  if f.isNan a then f.nan (snanFlag f [a])
  else if f.isInf a then (if f.sign a then f.zero false else f.inf false, 0)
  else if f.isZero a then roundTo f .ne false 1 0 false
  else if (14 : Int) ≤ (Nat.log2 (f.sig a) : Int) + f.ex a then bigExp f (f.sign a)
  else
    let i := roundAt .tz false (f.sig a) (f.ex a) false 0
    if !i.2 then roundTo f .ne false 1 (if f.sign a then -(i.1 : Int) else i.1) false
    else ziv f (fun p =>
      let x := fixOf p (f.sig a) (f.ex a)
      exp2Encl p (if f.sign a then -x else x)) precs

/-- `log2` of a positive value that is no power of two. -/
def log2Encl (p : Nat) (m : Nat) (e : Int) : Encl :=
  let k := Nat.log2 m
  let x : Int := (m : Int) * 2 ^ p / 2 ^ k
  let one : Int := 2 ^ p
  let z := (x - one) * 2 ^ p / (x + one)
  let l := 2 * atanSum p false (z * z / 2 ^ p) (p / 3 + 2) 0 z 0
  let v := ((k : Int) + e) * 2 ^ p + l * 2 ^ p / ln2 p
  ⟨v < 0, v.natAbs, -(p : Int)⟩

def fLog2 (f : FFmt) (a : Nat) : FRes :=
  if f.isNan a then f.nan (snanFlag f [a])
  else if f.isZero a then (f.inf true, fDZ)
  else if f.sign a then f.nan fNV
  else if f.isInf a then (f.inf false, 0)
  else if f.sig a = 2 ^ Nat.log2 (f.sig a) then
    roundInt f .ne ((Nat.log2 (f.sig a) : Int) + f.ex a) 0 false
  else ziv f (fun p => log2Encl p (f.sig a) (f.ex a)) precs

/-- Quadrant and rest of a non-negative argument: with 160 bits more for the reduction. -/
def trigReduce (p : Nat) (m : Nat) (e : Int) : Int × Int :=
  let w := p + 160
  let x := fixOf w m e
  let h := piFix w / 2
  (x / h, x % h / 2 ^ 160)

def trigEncl (isCos : Bool) (p : Nat) (s : Bool) (m : Nat) (e : Int) : Encl :=
  let r := trigReduce p m e
  let q := (r.1 + (if isCos then 1 else 0)) % 4
  let v := if q % 2 = 0 then sinFix p r.2 else cosFix p r.2
  let neg := decide (2 ≤ q) != (s && !isCos)
  ⟨neg != decide (v < 0), v.natAbs, -(p : Int)⟩

def fSin (f : FFmt) (a : Nat) : FRes :=
  if f.isNan a then f.nan (snanFlag f [a])
  else if f.isInf a then f.nan fNV
  else if f.isZero a then (a, 0)
  else ziv f (fun p => trigEncl false p (f.sign a) (f.sig a) (f.ex a)) precs

def fCos (f : FFmt) (a : Nat) : FRes :=
  if f.isNan a then f.nan (snanFlag f [a])
  else if f.isInf a then f.nan fNV
  else if f.isZero a then roundTo f .ne false 1 0 false
  else ziv f (fun p => trigEncl true p (f.sign a) (f.sig a) (f.ex a)) precs

/-- `tanh` of a positive argument below 64: `(E - 1) / (E + 1)` for `E = e^{2x}`. -/
def tanhEncl (p : Nat) (s : Bool) (m : Nat) (e : Int) : Encl :=
  let y := fixOf p m (e + 1)
  let l := ln2 p
  let n := (y / l).toNat
  let r := y - (n : Int) * l
  let em := (expm1Fix p r + 2 ^ p) * 2 ^ n - 2 ^ p
  ⟨s, em * 2 ^ p / (em + 2 * 2 ^ p), -(p : Int)⟩

def fTanh (f : FFmt) (a : Nat) : FRes :=
  if f.isNan a then f.nan (snanFlag f [a])
  else if f.isInf a then (roundTo f .ne (f.sign a) 1 0 false)
  else if f.isZero a then (a, 0)
  else if (6 : Int) ≤ (Nat.log2 (f.sig a) : Int) + f.ex a then roundTo f .ne (f.sign a) (2 ^ 80 - 1) (-80) true
  else ziv f (fun p => tanhEncl p (f.sign a) (f.sig a) (f.ex a)) precs

end Sys2Proof.Machine
end

