-- ==== Sys2Proof/Machine/Access.lean ====
section
/-! DEFINITION. Accesses of lanes to memory: checks in order, places, map grants, loads, stores and atomics (08 R180 to R184, 05 R107 to R114, 19 R418 to R424). -/

namespace Sys2Proof.Machine

/-- A check that failed in a lane: cause, SUB and address of 19 R419. -/
structure LFault where
  cause : Nat
  sub : Nat
  addr : Nat
  deriving DecidableEq, Repr

/-- Where one element lies: its physical bytes, a scratchpad offset, or a peer's window. -/
inductive Spot where
  | phys (bs : List Nat)
  | scratch (o : Nat)
  | peer (pkg wa : Nat)
  deriving DecidableEq, Repr

/-- Permissions an access needs (04 R91), and whether it reads its bytes at once, so that a poisoned line stops it (21 R466). -/
structure Need where
  r : Bool
  w : Bool
  a : Bool
  now : Bool
  deriving DecidableEq, Repr

def needR : Need := ⟨true, false, false, true⟩
def needW : Need := ⟨false, true, false, false⟩
def needA : Need := ⟨true, true, true, true⟩
/-- An atomic that is recorded in the ordered-reduction buffer: checked, but nothing is read (08 R185). -/
def needRec : Need := ⟨true, true, true, false⟩

/-- An access of a lane: first byte, element size and count, grain, needs, ACC code. -/
structure Acc where
  size : Nat
  count : Nat
  grain : Nat
  need : Need
  acc : Nat
  deriving DecidableEq, Repr

def Acc.span (a : Acc) : Nat := a.size * a.count

/-! ### Checks (08 R180) -/

/-- WINDOW: the window of the first byte, under R77, R78 and R85. -/
def windowErr (w scratch ea n : Nat) : Option Nat :=
  let last := (ea + n - 1) % 2 ^ 64
  if tagOf last != tagOf ea then some 2
  else match tagOf ea with
    | 0x00 => none
    | 0xFC => if offOf ea / 2 ^ 48 != 0 || 2 ^ 48 / w ≤ offOf last then some 3 else none
    | 0xFD => if scratch ≤ offOf last then some 4 else none
    | _ => some 1

/-- SUB of PERM: READ, WRITE, ATOMIC, then KEY. -/
def State.permErr (s : State) (x : Xlat) (need : Need) : Option Nat :=
  if need.r && !x.r then some 1
  else if need.w && !x.w then some 2
  else if need.a && !x.a then some 3
  else if s.keyWiped x.key then some 4
  else none

/-- Physical bytes of `n` bytes of a lane's private memory (04 R85, R86). -/
def State.privBytes (s : State) (root w lane o n : Nat) : List Nat :=
  (List.range n).map fun i => (s.privPhys root (backing w lane (o + i))).getD 0

/-- First byte of a lane's private access whose backing page is not mapped (04 R86). -/
def privErr (w hwm lane o n : Nat) : Option Nat :=
  (List.range n).find? fun i => hwm ≤ backing w lane (o + i) / 65536

/-- First failing page of a list of elements. -/
def firstPage (s : State) (die : TlbUnit) (tree : Nat) : List Nat → Option LFault
  | [] => none
  | a :: r => match s.xlat die tree a with
    | .error e => some ⟨cPAGE, e.sub, a⟩
    | .ok _ => firstPage s die tree r

/-- First element whose permission fails. -/
def firstPerm (s : State) (die : TlbUnit) (tree : Nat) (need : Need) : List Nat → Option LFault
  | [] => none
  | a :: r => match s.xlat die tree a with
    | .error _ => firstPerm s die tree need r
    | .ok x => match s.permErr x need with
      | some e => some ⟨cPERM, e, a⟩
      | none => firstPerm s die tree need r

/-- Whether any byte lies in a poisoned line (21 R466). -/
def State.poisoned (s : State) (bs : List Nat) : Bool := bs.any fun b => s.poison.any fun ln => ln = b / 64

/-- Spot of an element that passed its checks. -/
def State.placeOf (s : State) (die : TlbUnit) (tree lane a size : Nat) : Spot :=
  match tagOf a with
  | 0xFD => .scratch (offOf a)
  | 0xFC => .phys (s.privBytes s.tr.proot s.tr.width lane (offOf a) size)
  | _ => match s.xlat die tree a with
    | .ok x => match x.tgt with
      | .phys p => .phys ((List.range size).map fun i => p + i)
      | .peer k wa => .peer k wa
      | .scratch o => .scratch o
    | .error _ => .phys []

/-- Element addresses. -/
def Acc.elems (a : Acc) (ea : Nat) : List Nat := (List.range a.count).map fun i => ea + i * a.size

/-- The checks of 08 R180 in their order for one lane, then the poison check of a read (21 R460): places of the elements, or the first failure. -/
def State.check (s : State) (lane ea : Nat) (a : Acc) : Except LFault (List Spot) :=
  let die : TlbUnit := .core s.cp.core
  let tree := s.lch.tree
  match windowErr s.tr.width s.lch.scratch ea a.span with
  | some sub => .error ⟨cWINDOW, sub, ea⟩
  | none =>
    if ea % a.grain != 0 then .error ⟨cALIGN, 1, ea⟩
    else
      let es := a.elems ea
      let ps := es.map fun e => s.placeOf die tree lane e a.size
      let bad : Option LFault :=
        match tagOf ea with
        | 0x00 => match firstPage s die tree es with
          | some e => some e
          | none => firstPerm s die tree a.need es
        | 0xFC => (privErr s.tr.width s.tr.hwm lane (offOf ea) a.span).map fun i => ⟨cPRIVGROW, 1, ea + i⟩
        | _ => none
      match bad with
      | some e => .error e
      | none =>
        if a.need.now then
          match (es.zip ps).find? fun q => match q.2 with
            | .phys bs => s.poisoned bs
            | _ => false with
          | some q => .error ⟨cMEMECC, 0, q.1⟩
          | none => .ok ps
        else .ok ps

/-- Order in which causes are taken (19 R418). -/
def causeRank (c : Nat) : Nat :=
  if c = cWINDOW then 0 else if c = cALIGN then 1 else if c = cPAGE then 2 else if c = cPRIVGROW then 3
  else if c = cPERM then 4 else if c = cQUOTA then 5 else if c = cSTALE then 6 else 7

/-- Takes the earliest cause in the lanes that have it (R418): XADDR names the lowest lane. -/
def State.trapLanes (s : State) (fs : List (Nat × LFault)) (acc : Nat) : State :=
  let best := fs.foldl (fun b f => min b (causeRank f.2.cause)) 8
  let mine := fs.filter fun f => causeRank f.2.cause = best
  match mine with
  | [] => s
  | (l, f) :: _ => s.takeTrap f.cause (maskOf (mine.map Prod.fst)) (memAddr f.addr f.sub acc l)

/-! ### Map grants (19 R422 to R424) -/

/-- Table page for a private table entry: the page it names, taken from the fast pool when the entry is not valid. -/
def State.privTable (s : State) (a : Nat) : Option (State × Nat × List Nat) :=
  let e := memNat s.mem a 8
  if e % 2 = 1 then some (s, fld e 16 32 * 65536, [])
  else match s.takePage false with
    | none => none
    | some (p, s1) => some (s1.putEntry a (entryVal p false), p, [p])

/-- Maps backing page `bp` of a private table, counted under PAGES: new root, pages taken. -/
def State.mapBacking (s : State) (path : List Rcb) (root bp : Nat) : State × MapRes × Nat × List Nat :=
  if (s.refuser .pages 1 path).isSome then (s, .budget, root, [])
  else
    let r0 : Option (State × Nat × List Nat) :=
      if root != 0 then some (s, root, []) else (s.takePage false).map fun q => (q.2, q.1, [q.1])
    match r0 with
    | none => (s, .dry false, root, [])
    | some (s0, rt, p0) =>
      match s0.privTable (rt + 8 * (bp / 2 ^ 26)) with
      | none => (s0, .dry false, rt, p0)
      | some (s1, t1, p1) =>
        match s1.privTable (t1 + 8 * (bp / 8192 % 8192)) with
        | none => (s1, .dry false, rt, p0 ++ p1)
        | some (s2, t2, p2) =>
          match s2.takePage false with
          | none => (s2, .dry false, rt, p0 ++ p1 ++ p2)
          | some (pg, s3) =>
            ((s3.putEntry (t2 + 8 * (bp % 8192)) (entryVal pg false)).countPage path, .ok, rt, p0 ++ p1 ++ p2 ++ [pg])

/-- A private mapping with the pool events that it causes (R424). -/
def State.mapPrivate (s : State) (path : List Rcb) (root bp : Nat) : State × MapRes × Nat × List Nat :=
  let r := s.mapBacking path root bp
  (r.1.poolChecks, r.2)

/-- Raises HWM of the focused troop past a backing page, page by page (R422). -/
def State.growTo (s : State) (bp : Nat) : Nat → State × MapRes
  | 0 => (s, .ok)
  | fuel + 1 =>
    if bp < s.tr.hwm then (s, .ok)
    else
      let r := s.mapPrivate s.lch.path s.tr.proot s.tr.hwm
      match r.2.1 with
      | .ok =>
        State.growTo { r.1 with tr := { r.1.tr with proot := r.2.2.1, hwm := r.1.tr.hwm + 1, pages := r.1.tr.pages ++ r.2.2.2 } } bp fuel
      | e => ({ r.1 with tr := { r.1.tr with proot := r.2.2.1, pages := r.1.tr.pages ++ r.2.2.2 } }, e)

/-- Gives one lane the pages its access needs, when its check stops at the first-touch step. -/
def State.grantLane (s : State) (lane ea : Nat) (a : Acc) : State × MapRes :=
  match s.check lane ea a with
  | .error f =>
    if f.cause = cPAGE && f.sub = 2 then
      s.mapSpan s.lch.path s.lch.tree ((ea % 65536 + a.span + 65535) / 65536) (ea / 65536 * 65536)
    else if f.cause = cPRIVGROW then
      let top := backing s.tr.width lane (offOf ea + a.span - 1) / 65536
      s.growTo top (top + 1 - s.tr.hwm)
    else (s, .ok)
  | .ok _ => (s, .ok)

/-- Grants lane by lane: the state, and the lanes refused or short of a page. -/
def State.grantAll (s : State) (a : Acc) : List (Nat × Nat) → State × List (Nat × MapRes)
  | [] => (s, [])
  | (l, ea) :: r =>
    match s.grantLane l ea a with
    | (s1, .ok) => State.grantAll s1 a r
    | (s1, e) => let q := State.grantAll s1 a r; (q.1, (l, e) :: q.2)

/-- What the checks of an instruction end in: a state that is its outcome, or what it goes on with. -/
inductive Prep (α : Type) where
  | done (s : State)
  | go (s : State) (a : α)

/-- Failures of the lanes after a grant: BUDGET or DRY where the mapping failed (R424). -/
def granted (bad : List (Nat × MapRes)) (l : Nat) (f : LFault) : LFault :=
  match bad.find? fun b => b.1 = l with
  | some (_, .budget) => { f with sub := 0xE }
  | some (_, .dry _) => { f with sub := 0xF }
  | _ => f

/-- Grants for several accesses of one instruction. -/
def State.grantMany (s : State) : List (Acc × List (Nat × Nat)) → State × List (Nat × MapRes)
  | [] => (s, [])
  | (a, eas) :: r =>
    let g := s.grantAll a eas
    let q := State.grantMany g.1 r
    (q.1, g.2 ++ q.2)

/-- The use of a map grant before the checks (R422, R424): the lanes whose mapping failed, or a wait for a dry pool. -/
def State.useGrant (s : State) (xs : List (Acc × List (Nat × Nat))) : Prep (List (Nat × MapRes)) :=
  let g := if s.sp.grant then s.grantMany xs else (s, [])
  let dry := g.2.find? fun b => match b.2 with
    | .dry _ => true
    | _ => false
  match dry, s.sp.denied with
  | some (_, .dry cap), false =>
    let s1 := g.1.poolDry s.lch.path cap
    .done { s1 with sp := { s1.sp with st := .pool (!cap) } }
  | _, _ => .go { g.1 with sp := { g.1.sp with grant := false, denied := false } } g.2

/-- Checks all lanes of an access; traps, waits for a dry pool, or goes on with the places of each lane. -/
def State.prepare (s : State) (a : Acc) (eas : List (Nat × Nat)) : Prep (List (Nat × List Spot)) :=
  match s.useGrant [(a, eas)] with
  | .done t => .done t
  | .go s1 bad =>
    let cs := eas.map fun q => (q.1, s1.check q.1 q.2 a)
    let fs := cs.filterMap fun c => match c.2 with
      | .error f => some (c.1, granted bad c.1 f)
      | .ok _ => none
    if fs.isEmpty then
      .go s1 (cs.map fun c => (c.1, match c.2 with
        | .ok ps => ps
        | .error _ => []))
    else .done (s1.trapLanes fs a.acc)

/-- Takes a memory cause of an instruction that acts once: the trap mask is the executing split's mask (R418). -/
def State.trapOnce (s : State) (f : LFault) (acc : Nat) : State :=
  s.trapAll f.cause (memAddr f.addr f.sub acc s.lead)

/-- Checks one access of the split, from its lowest lane. -/
def State.prepareOnce (s : State) (a : Acc) (ea : Nat) : Prep (List Spot) :=
  match s.useGrant [(a, [(s.lead, ea)])] with
  | .done t => .done t
  | .go s1 bad =>
    match s1.check s1.lead ea a with
    | .error f => .done (s1.trapOnce (granted bad s1.lead f) a.acc)
    | .ok ps => .go s1 ps

/-! ### Waiting for commits (04 R102, 05 R112) -/

/-- What names a scratchpad byte among the locations of barrier words. -/
def scratchKey (o : Nat) : Nat := 0xFD * 2 ^ 56 + o

/-- Physical bytes of the places of an access. -/
def physBytes (ps : List (Nat × List Spot)) : List Nat :=
  ps.flatMap fun q => q.2.flatMap fun p => match p with
    | .phys bs => bs
    | _ => []

/-- Position of the first store of this core, not yet acknowledged, that overlaps the bytes. -/
def State.overlaps (s : State) (bs : List Nat) : Option Nat :=
  s.stores.findIdx? fun p => p.core = s.cp.core && p.bytes.any fun b => bs.any fun a => a = b.1

/-- The lane for which a request was sent, if any. -/
def ReqBy.lane : ReqBy → Option (TroopRef × Nat)
  | .store t l | .queue t l => some (t, l)
  | .load r l _ _ _ _ | .amo r l _ _ => some (r.tr, l)
  | _ => none

/-- Whether a load or an atomic has gone to a load-return queue. -/
def ReqBy.queued : ReqBy → Bool
  | .queue _ _ => true
  | _ => false

/-- The load or atomic of lanes of the focused troop that no peer has answered yet: it is not bound (05 R112). -/
def State.unbound (s : State) (m : Mask) : Option Nat :=
  (s.reqs.find? fun q => q.by_.queued && q.by_.lane.any fun x => x.1 = s.trRef && inMask m x.2).map PeerReq.id

/-- The request of any lane of the camp that has no answer yet: what Fusion and Rendezvous order before a release (05 R110). -/
def State.campDue (s : State) : Option Nat :=
  (s.reqs.find? fun q => q.by_.lane.any fun x => x.1.camp = s.cp.ref).map PeerReq.id

/-- Position of the first store not yet acknowledged of lanes of the focused troop. -/
def State.pendingOf (s : State) (m : Mask) : Option Nat :=
  s.stores.findIdx? fun p => p.by_ = some s.trRef && inMask m p.lane

/-- Holds the split: the store of that position commits first, and the instruction is issued again. -/
def State.holdFor (s : State) (n : Nat) : State := s.push (.storeCommit n)

/-- Whether an order makes earlier stores commit first. -/
def releases (o : Ord) : Bool := o == .rel || o == .ar || o == .sc

/-- The store request of lanes of the focused troop that has no answer yet: its status may still come (17 R393). -/
def State.dueBits (s : State) (m : Mask) : Option Nat :=
  (s.reqs.find? fun q => match q.by_ with
    | .store t l => t = s.trRef && inMask m l
    | _ => false).map PeerReq.id

/-- Waits for the answer of a request; the instruction is then issued again. -/
def State.awaitReq (s : State) (id : Nat) : State := { s with sp := { s.sp with st := .peer id } }

/-- What an access of an order waits for (05 R112; log 3): the lanes' earlier loads bind first, and before one that releases every earlier store of the lanes commits, and every request of the camp is answered; none when nothing is due. -/
def State.orderWait (s : State) (o : Ord) (m : Mask) : Option State :=
  match s.unbound m with
  | some q => some (s.awaitReq q)
  | none =>
    if releases o then
      match s.pendingOf m, s.campDue with
      | some n, _ => some (s.holdFor n)
      | none, some q => some (s.awaitReq q)
      | none, none => none
    else none

/-- What a fence waits for: the accesses of the lanes of its mask alone (08 R186). -/
def State.fenceWait (s : State) (o : Ord) (m : Mask) : Option State :=
  match s.unbound m with
  | some q => some (s.awaitReq q)
  | none =>
    if releases o then
      match s.pendingOf m, s.dueBits m with
      | some n, _ => some (s.holdFor n)
      | none, some q => some (s.awaitReq q)
      | none, none => none
    else none

/-- A store of this core to a peer, without an answer, that overlaps a place (05 R109). -/
def State.peerClash (s : State) (n : Nat) (ps : List (Nat × List Spot)) : Option Nat :=
  (s.reqs.find? fun q => match q.by_, q.kind with
    | .store _ _, .store d => ps.any fun x => x.2.any fun p => match p with
      | .peer k wa => k = q.pkg && wa < q.wa.toNat + d.length && q.wa.toNat < wa + n
      | _ => false
    | _, _ => false).map PeerReq.id

/-- The ordered reduction at a peer for which the completion of a barrier word waits, when the word overlaps a place: no other update falls inside that step (05 R116, 08 R185). -/
def State.wordBusy (s : State) (own : CampRef) (n : Nat) (ps : List (Nat × List Spot)) : Option Nat :=
  (s.reqs.find? fun q => match q.by_ with
    | .orb c o => o.due.any fun k => ps.any fun x => x.2.any fun p => match p with
      | .phys bs => bs.any fun b => k ≤ b && b < k + 8
      | .scratch a => c = own && scratchKey a < k + 8 && k < scratchKey a + n
      | _ => false
    | _ => false).map PeerReq.id

/-- What a store waits for: a completing word, and what its order asks. -/
def State.storeWait (s : State) (o : Ord) (n : Nat) (m : Mask) (ps : List (Nat × List Spot)) : Option State :=
  match s.wordBusy s.cp.ref n ps with
  | some q => some (s.awaitReq q)
  | none => s.orderWait o m

/-- What a load or atomic waits for: stores that overlap it, a completing word, and what its order asks. -/
def State.waitFirst (s : State) (o : Ord) (n : Nat) (ps : List (Nat × List Spot)) : Option State :=
  match s.overlaps (physBytes ps), s.peerClash n ps with
  | some k, _ => some (s.holdFor k)
  | none, some q => some (s.awaitReq q)
  | none, none => s.storeWait o n s.sp.mask ps

/-! ### SEEN and stamps (05 R114) -/

/-- The stamp that an `.sc` operation of a lane takes. -/
def State.stampOf (s : State) (l : Lane) : W64 := maxW s.stamp (l.seen + 1)

/-- A lane's SEEN after it has exchanged with the Groundsheet, after its own stamp when the operation is `.sc`. -/
def State.seenLane (s : State) (o : Ord) (l : Lane) : Lane :=
  let x := if o == .sc then s.stampOf l else l.seen
  { l with seen := maxW x s.gseen }

/-- Exchanges SEEN between the accessing lanes and the Groundsheet. -/
def State.exchange (s : State) (o : Ord) (m : Mask) : State :=
  let ls := onLanes m (fun _ l => s.seenLane o l) s.tr.lanes
  { s with
    gseen := (lanesOf s.tr.width m).foldl (fun g i => maxW g ((ls[i]?).getD Lane.reset).seen) s.gseen
    tr := { s.tr with lanes := ls } }

/-! ### Access counters and TLBs (04 R95, R99) -/

/-- Adds one access to the counter of a granule of a migrate range. -/
def State.countAccess (s : State) (tree a : Nat) : State :=
  if tagOf a != 0 then s
  else match s.lookup tree a, s.walk tree a with
    | .ok d, .ok x =>
      match d.kind, s.tierOf tree d, x.tgt with
      | 2, 0, .phys p =>
        let g := p / 65536
        let n := ((s.counters.find? fun c => c.1 = g).map Prod.snd).getD 0
        { s.noteTier tree d with counters := setNum g (min (n + 1) 255) s.counters }
      | _, _, _ => s
    | _, _ => s

/-- Notes a global access: its page's translation is held, its granule counted. -/
def State.noteAt (s : State) (u : TlbUnit) (tree a : Nat) : State :=
  if tagOf a != 0 then s else (s.tlbNote u tree a).countAccess tree a

/-- Notes an access to a span for a unit: once for every page that it touches. -/
def State.noteUnit (s : State) (u : TlbUnit) (tree a n : Nat) : State :=
  if n = 0 then s
  else (List.range ((a + n - 1) / 65536 - a / 65536)).foldl (fun s i => s.noteAt u tree (65536 * (a / 65536 + 1 + i))) (s.noteAt u tree a)

/-- Notes an access of the focused core. -/
def State.noteSpan (s : State) (a n : Nat) : State := s.noteUnit (.core s.cp.core) s.lch.tree a n

/-- Notes the accesses of lanes, of `n` bytes each. -/
def State.noteAll (s : State) (n : Nat) (eas : List (Nat × Nat)) : State := eas.foldl (fun s q => s.noteSpan q.2 n) s

/-! ### Reads and writes of places -/

/-- The little-endian number at a place. -/
def State.readPlace (s : State) (p : Spot) (n : Nat) : Nat :=
  match p with
  | .phys bs => leNat (bs.map (memRead s.mem))
  | .scratch o => leNat (memBytes s.cp.scr o n)
  | .peer _ _ => 0

/-- Writes at once: scratchpad, or physical memory through a commit. -/
def State.writePlace (s : State) (p : Spot) (n v : Nat) : State :=
  match p with
  | .phys bs => s.commit (bs.zip (leBytes n v))
  | .scratch o => { s with cp := { s.cp with scr := memWriteAll s.cp.scr (cellsAt o (leBytes n v)) } }
  | .peer _ _ => s

/-! ### Requests to peers (14 R359, 19 R428, 21 R468) -/

/-- The port that the route table names for a package, when it is not lost. -/
def State.linkTo (s : State) (pkg : Nat) : Option Port :=
  (s.routes.find? fun r => r.1 = pkg).bind fun r => (s.ports.find? fun p => p.p = r.2).bind fun p =>
    if p.st = .lost then none else some p

/-- Source of the events of the link to a package: its Portage port, or the management controller without one (log 28). -/
def State.linkSrc (s : State) (pkg : Nat) : Nat :=
  match s.routes.find? fun r => r.1 = pkg with
  | some r => s.gsrc (16 + r.2)
  | none => s.gsrc srcMgmt

/-- The PEERFAULT of a request that does not leave the package (R468): the lost port on its route is the SOURCE, and the management controller where no route names the package. -/
def State.linkFault (s : State) (pkg wa : Nat) : State :=
  s.postOwner ⟨0x09, 5, s.linkSrc pkg, 0, EvBody.pack ⟨wa, 0, 0, 0, 0, s.pkg⟩⟩

/-- Sends a request; none when no port carries it. One to host memory behind a lost link waits for its timeout of 1 ms (R469). -/
def State.request (s : State) (pkg wa va n : Nat) (b : ReqBy) (k : AccKind) (seen : W64) : Option State :=
  if 512 ≤ pkg then
    some { s with
      reqs := s.reqs ++ [⟨s.nextReq, pkg, BitVec.ofNat 64 wa, b, k, n, BitVec.ofNat 64 va, s.stamp.toNat + 1000000, 31, true, seen⟩]
      nextReq := s.nextReq + 1 }
  else (s.linkTo pkg).map fun p =>
    { s with
      reqs := s.reqs ++ [⟨s.nextReq, pkg, BitVec.ofNat 64 wa, b, k, n, BitVec.ofNat 64 va, s.stamp.toNat + 1000 * s.peerTo, p.p, false, seen⟩]
      ports := s.ports.map fun x => if x.p = p.p then { x with txSeq := x.txSeq + 1, sent := x.sent ++ [(x.txSeq, s.nextReq)] } else x
      nextReq := s.nextReq + 1 }

/-- A late fault of a lane (18 R404). A lane with several keeps one, the first to come, but a refusal before a timeout, since REMOTE is taken first (DEDUCED, log 18). -/
def Lane.fail (l : Lane) (reason : Option Nat) (a acc : Nat) : Lane :=
  let new : Late := ⟨reason, BitVec.ofNat 64 a, acc⟩
  { l with late := some (match l.late with
      | some x => if x.reason.isNone && reason.isSome then new else x
      | none => new) }

/-- Changes one lane of the focused troop. -/
def State.onLane (s : State) (i : Nat) (f : Lane → Lane) : State :=
  { s with tr := { s.tr with lanes := s.tr.lanes.mapIdx fun j l => if j = i then f l else l } }

/-! ### Loads -/

/-- Values of a lane's elements; a peer element reads as zero until its response (R404). -/
def State.loadVals (s : State) (ty : Ty) (ps : List Spot) : List TVal := ps.map fun p => mkVal ty (s.readPlace p ty.bytes)

/-- Sends the requests of a lane's peer elements. -/
def State.sendLoads (s : State) (ty : Ty) (dst l ea n : Nat) : Nat → List Spot → State
  | _, [] => s
  | i, .peer k wa :: r =>
    let seen := (s.tr.lane l).seen
    let s1 := match s.request k wa (ea + i * ty.bytes) ty.bytes (.load s.spRef l (dst + i) ty i n) .load seen with
      | some s1 => s1
      | none => (s.linkFault k wa).onLane l fun x => x.fail (some 5) (ea + i * ty.bytes) 0
    State.sendLoads s1 ty dst l ea n (i + 1) r
  | i, _ :: r => State.sendLoads s ty dst l ea n (i + 1) r

/-- Whether a request was sent by a split. -/
def PeerReq.ofSplit (q : PeerReq) (r : SplitRef) : Bool :=
  match q.by_ with
  | .load s _ _ _ _ _ | .amo s _ _ _ | .barrier s => s = r
  | _ => false

/-- The split waits while it has requests without an answer. -/
def State.awaitPeers (s : State) : State :=
  match s.reqs.find? fun q => q.ofSplit s.spRef with
  | some q => { s with sp := { s.sp with st := .peer q.id } }
  | none => s

/-- Values that a load defines in a lane. -/
def loaded (s : State) (ty : Ty) (ps : List (Nat × List Spot)) (i : Nat) : List TVal :=
  ((ps.find? fun q => q.1 = i).map fun q => s.loadVals ty q.2).getD []

/-- A load of `count` elements in each active lane at the address `ea` gives (08 R181, R182). Its scope, like that of every store, atomic and barrier word, is met as the widest (log 39, DESIGN CHOICE). -/
def State.loadAt (s : State) (ty : Ty) (count : Nat) (o : Ord) (ea : Lane → Nat) : State :=
  let a : Acc := ⟨ty.bytes, count, ty.bytes, needR, 0⟩
  let eas := (lanesOf s.tr.width s.sp.mask).map fun l => (l, ea (s.tr.lane l))
  match s.prepare a eas with
  | .done s1 => s1
  | .go s1 ps =>
    match s1.waitFirst o ty.bytes ps with
    | some t => t
    | none =>
      let s2 := (s1.noteAll a.span eas).exchange o s1.sp.mask
      let s3 := s2.defTuple fun i _ => (loaded s2 ty ps i, 0)
      let s4 := (ps.zip eas).foldl (fun s q => s.sendLoads ty s2.ctx.dst q.1.1 q.2.2 count 0 q.1.2) s3
      s4.awaitPeers

/-- A load with the address form of the memory instructions. -/
def State.loadLanes (s : State) (ty : Ty) (count : Nat) (m : MemOpnd) : State := s.loadAt ty count m.ord fun l => l.ea m

/-! ### Stores -/

/-- Bytes of a lane's elements in physical memory. -/
def storeCells (n : Nat) (ps : List Spot) (vs : List Nat) : List (Nat × Byte) :=
  (ps.zip vs).flatMap fun q => match q.1 with
    | .phys bs => bs.zip (leBytes n q.2)
    | _ => []

/-- Drops the bytes that a higher lane of the same instruction writes too (04 R82). -/
def dropShadowed : List (Nat × List (Nat × Byte)) → List (Nat × List (Nat × Byte))
  | [] => []
  | (l, cs) :: r => (l, cs.filter fun c => !(r.any fun q => q.2.any fun d => d.1 = c.1)) :: dropShadowed r

/-- Sends the stores of a lane's peer elements. -/
def State.sendStores (s : State) (n l ea : Nat) : Nat → List Spot → List Nat → State
  | i, .peer k wa :: r, v :: vs =>
    let seen := (s.tr.lane l).seen
    let s1 := match s.request k wa (ea + i * n) n (.store s.trRef l) (.store (leBytes n v)) seen with
      | some s1 => s1
      | none => (s.linkFault k wa).onLane l fun x => x.raise s.sup fRN
    State.sendStores s1 n l ea (i + 1) r vs
  | i, _ :: r, _ :: vs => State.sendStores s n l ea (i + 1) r vs
  | _, _, _ => s

/-- Writes of a lane's elements to the scratchpad, at once. -/
def State.scratchStores (s : State) (n : Nat) : List Spot → List Nat → State
  | .scratch o :: r, v :: vs => State.scratchStores (s.writePlace (.scratch o) n v) n r vs
  | _ :: r, _ :: vs => State.scratchStores s n r vs
  | _, _ => s

/-- The stores of one instruction that wait for their commit, one for each lane that has bytes. -/
def State.newStores (s : State) (o : Ord) (cs : List (Nat × List (Nat × Byte))) : List Pending :=
  (cs.filter fun c => !c.2.isEmpty).map fun c =>
    ⟨s.cp.core.die, s.cp.core, some s.trRef, c.1, o, c.2, (s.tr.lane c.1).seen⟩

/-- Locations of the bytes of an element. -/
def spotKeys (p : Spot) (n : Nat) : List Nat :=
  match p with
  | .phys bs => bs
  | .scratch o => (List.range n).map fun i => scratchKey (o + i)
  | .peer _ _ => []

/-- The byte at such a location. -/
def State.keyByte (s : State) (k : Nat) : Byte := if tagOf k = 0xFD then memRead s.cp.scr (offOf k) else memRead s.mem k

/-- In a stream loop, the bytes that a store replaces are kept for the reads of input streams (06 R145): `s` is the state before it. -/
def State.keepOlds (t s : State) (n : Nat) (ps : List (Nat × List Spot)) : State :=
  match s.sp.loop with
  | none => t
  | some p =>
    let new := (ps.flatMap fun q => (q.2.flatMap fun x => spotKeys x n).map fun k => (q.1, k, s.keyByte k)).filter
      fun x => !(p.olds.any fun o => o.1 = x.1 && o.2.1 = x.2.1)
    { t with sp := { t.sp with loop := some { p with olds := p.olds ++ new } } }

/-- A store of elements in each active lane: `ea` gives a lane's address, `vs` its element patterns (08 R181, R182). -/
def State.storeAt (s : State) (ty : Ty) (count : Nat) (o : Ord) (ea : Lane → Nat) (vs : Lane → List Nat) : State :=
  let a : Acc := ⟨ty.bytes, count, ty.bytes, needW, 1⟩
  let eas := (lanesOf s.tr.width s.sp.mask).map fun l => (l, ea (s.tr.lane l))
  match s.prepare a eas with
  | .done s1 => s1
  | .go s1 ps =>
    match s1.storeWait o ty.bytes s1.sp.mask ps with
    | some t => t
    | none =>
    let s2 := (s1.noteAll a.span eas).exchange o s1.sp.mask
    let val (l : Nat) : List Nat := vs (s2.tr.lane l)
    let cells := dropShadowed (ps.map fun q => (q.1, storeCells ty.bytes q.2 (val q.1)))
    let s3 := ps.foldl (fun s q => s.scratchStores ty.bytes q.2 (val q.1)) s2
    let s4 := { s3 with stores := s3.stores ++ s3.newStores o cells }
    let s5 := (ps.zip eas).foldl (fun s q => s.sendStores ty.bytes q.1.1 q.2.2 0 q.1.2 (val q.1.1)) s4
    (s5.keepOlds s1 ty.bytes ps).advance

/-- A store with the address form of the memory instructions. -/
def State.storeLanes (s : State) (ty : Ty) (count : Nat) (m : MemOpnd) (vs : Lane → List Nat) : State :=
  s.storeAt ty count m.ord (fun l => l.ea m) vs

/-! ### Atomics (08 R183) -/

/-- The value that an atomic operation stores; `n` is the second operand of a compare and swap. -/
def atomNew (op : AtomOp) (ty : Ty) (old v n : Nat) : Nat :=
  let x := readInt ty old
  let y := readInt ty v
  match op with
  | .add => wrapu ty.width (x + y)
  | .min => if y < x then v else old
  | .max => if x < y then v else old
  | .and => old &&& v
  | .or => old ||| v
  | .xor => old ^^^ v
  | .xchg => v
  | .cas => if old = v then n else old
  | .fadd rm => (per2 ty (fun f a b => fAdd f rm a b) old v).1

/-- Whether a compare failed, which is no write (19 R432). -/
def casFails (op : AtomOp) (old v : Nat) : Bool := op == .cas && old != v

/-- One lane's atomic: the old value, and the state after its write. -/
def State.atomLane (s : State) (op : AtomOp) (ty : Ty) (p : Spot) (v n : Nat) : Nat × State :=
  let old := s.readPlace p ty.bytes
  (old, if casFails op old v then s else s.writePlace p ty.bytes (atomNew op ty old v n))

/-- The lanes' atomics in ascending lane order (08 R184). -/
def State.atomLanes (s : State) (op : AtomOp) (ty : Ty) (v : Nat) (new : Option Nat) :
    List (Nat × List Spot) → State × List (Nat × Nat)
  | [] => (s, [])
  | (l, ps) :: r =>
    let x := s.tr.lane l
    let q := match ps with
      | p :: _ => s.atomLane op ty p (x.nat v) ((new.map x.nat).getD 0)
      | [] => (0, s)
    let t := State.atomLanes q.2 op ty v new r
    (t.1, (l, q.1) :: t.2)

/-- Whether an atomic is recorded instead in a DET launch (08 R185). -/
def isFadd : AtomOp → Bool
  | .fadd _ => true
  | _ => false

/-- Rounding mode of an addition. -/
def faddRm : AtomOp → Rm
  | .fadd rm => rm
  | _ => .ne

/-- Records one reduction entry per active lane (05 R123). Program order within the troop is taken as the order of execution, which also orders the splits that R109 leaves unordered (log 40, DESIGN CHOICE). -/
def State.recordOrb (s : State) (ty : Ty) (rm : Rm) (v : Nat) (eas : List (Nat × Nat)) : State :=
  { s with cp := { s.cp with
      orb := s.cp.orb ++ (eas.map fun q =>
        ⟨BitVec.ofNat 64 q.2, ty, (s.tr.lane q.1).val v |>.v, rm, s.tr.mem, q.1, s.cp.nextOrb, s.sp.func, s.sp.off, []⟩)
      nextOrb := s.cp.nextOrb + 1 } }

/-- Sends the atomics of lanes whose location is a peer's. -/
def State.sendAtoms (s : State) (op : AtomOp) (ty : Ty) (dst v : Nat) (new : Option Nat) :
    List ((Nat × List Spot) × (Nat × Nat)) → State
  | [] => s
  | ((l, ps), (_, ea)) :: r =>
    let s1 := match ps with
      | .peer k wa :: _ =>
        let x := s.tr.lane l
        let kind : AccKind := .amo op ty (x.val v).v (BitVec.ofNat 64 ((new.map x.nat).getD 0))
        match s.request k wa ea ty.bytes (.amo s.spRef l dst ty) kind x.seen with
        | some s1 => s1
        | none => (s.linkFault k wa).onLane l fun x => x.fail (some 5) ea 2
      | _ => s
    State.sendAtoms s1 op ty dst v new r

/-- `atom` in each active lane (08 R183 to R185). -/
def State.atomAll (s : State) (op : AtomOp) (ty : Ty) (m : MemOpnd) (v : Nat) (new : Option Nat) : State :=
  let a : Acc := ⟨ty.bytes, 1, ty.bytes, if s.lch.det && isFadd op then needRec else needA, 2⟩
  let eas := (lanesOf s.tr.width s.sp.mask).map fun l => (l, (s.tr.lane l).ea m)
  match s.prepare a eas with
  | .done s1 => s1
  | .go s1 ps =>
    match s1.waitFirst m.ord ty.bytes ps with
    | some t => t
    | none =>
      let s2 := (s1.noteAll a.span eas).exchange m.ord s1.sp.mask
      if s2.lch.det && isFadd op then
        (s2.recordOrb ty (faddRm op) v eas).defLanes fun _ _ => (⟨ty, 0⟩, 0)
      else
        let r := s2.atomLanes op ty v new ps
        let old (i : Nat) : Nat := ((r.2.find? fun q => q.1 = i).map Prod.snd).getD 0
        let s3 := r.1.defLanes fun i _ => (mkVal ty (old i), 0)
        (s3.sendAtoms op ty s2.ctx.dst v new (ps.zip eas)).awaitPeers

end Sys2Proof.Machine
end

