-- ==== Sys2Proof/Machine/Barrier.lean ====
section
/-! DEFINITION. Barrier words, landings on them, and the ordered-reduction commits of their completions (05 R115 to R118, R123). -/

namespace Sys2Proof.Machine

/-- A barrier word (05 R115); `bal` is the signed byte balance that OVER and PBYTES hold. -/
structure BWord where
  phase : Bool
  expect : Nat
  parr : Nat
  bal : Int
  scope : Nat
  deriving DecidableEq, Repr

/-- Fields of a word. -/
def BWord.ofNat (v : Nat) : BWord :=
  ⟨fld v 63 1 = 1, fld v 51 12, fld v 39 12, if fld v 11 1 = 1 then -(fld v 15 24 : Int) else fld v 15 24, fld v 12 3⟩

/-- Whether a word is valid. -/
def wordOk (v : Nat) : Bool :=
  1 ≤ fld v 51 12 && fld v 39 12 ≤ fld v 51 12 && fld v 12 3 ≤ 5 && (fld v 15 24 != 0 || fld v 11 1 = 0) && fld v 0 11 = 0

/-- The 64 bits of a word. -/
def BWord.toNat (w : BWord) : Nat :=
  boolN w.phase * 2 ^ 63 + w.expect * 2 ^ 51 + w.parr * 2 ^ 39 + min w.bal.natAbs (2 ^ 24 - 1) * 2 ^ 15 +
  w.scope * 2 ^ 12 + boolN (w.bal < 0) * 2 ^ 11

/-- `credit(w, d)` of R116. -/
def BWord.credit (w : BWord) (d : Int) : BWord :=
  let b := w.bal + d
  { w with bal := if b < 0 then -(min b.natAbs (2 ^ 24 - 1) : Nat) else (min b.natAbs (2 ^ 24 - 1) : Nat) }

/-- `arrive(w, expect)` before its completion. -/
def BWord.arrive (w : BWord) (n : Nat) : BWord :=
  let c := w.credit n
  { c with parr := c.parr - 1 }

/-- `land(w, n)` before its completion. -/
def BWord.land (w : BWord) (n : Nat) : BWord := w.credit (-(n : Int))

/-- Whether the phase is complete. -/
def BWord.due (w : BWord) : Bool := w.parr = 0 && w.bal = 0

/-- The flip and reload of a completion. -/
def BWord.flip (w : BWord) : BWord := { w with phase := !w.phase, parr := w.expect, bal := 0 }

/-- What identifies the location of a word: its physical address, its scratchpad address, or its package and window address. -/
def spotKey : Spot → Nat
  | .phys (b :: _) => b
  | .phys [] => 0
  | .scratch o => scratchKey o
  | .peer k wa => 2 ^ 64 * (k + 1) + wa

/-- Whether an entry is due at the word of a camp: a scratchpad word is the camp's own. -/
def Orb.dueAt (o : Orb) (own : Bool) (k : Nat) : Bool := o.due.contains k && (own || tagOf k != 0xFD)

/-- Order of application: TROOPID, which `tid` gives, program order, lane (05 R123). -/
def orbBefore (tid : CampRef × Orb → Nat) (a b : CampRef × Orb) : Bool :=
  tid a < tid b || (tid a = tid b && (a.2.seq < b.2.seq || (a.2.seq = b.2.seq && a.2.lane ≤ b.2.lane)))

/-- Insertion into the order. -/
def insertOrb (tid : CampRef × Orb → Nat) (x : CampRef × Orb) : List (CampRef × Orb) → List (CampRef × Orb)
  | [] => [x]
  | y :: r => if orbBefore tid x y then x :: y :: r else y :: insertOrb tid x r

def sortOrb (tid : CampRef × Orb → Nat) (l : List (CampRef × Orb)) : List (CampRef × Orb) := l.foldr (insertOrb tid) []

/-- TROOPID of the troop that made an entry. -/
def State.orbTroop (s : State) (x : CampRef × Orb) : Nat := x.1.camp * (s.launch x.1.lid).campsize + x.2.mem

/-- A view of the state from a camp and troop, for translations on their behalf. -/
def State.viewOf (s : State) (c : Camp) (m : Nat) : State :=
  { s with cp := c, tr := (c.troops.find? (fun t => t.mem = m)).getD Troop.reset }

/-- Marks a sticky bit in a lane of a camp. -/
def State.markLane (s : State) (c : CampRef) (m l : Nat) (f : W32) : State :=
  s.modTroop ⟨c, m⟩ fun t => { t with lanes := t.lanes.mapIdx fun i x => if i = l then x.raise false f else x }

/-- A failed update: MEMFAULT to the leaf's ring, and the lane's bit (08 R185). -/
def State.orbFail (s : State) (c : CampRef) (o : Orb) (cause sub : Nat) (bit : W32) (k : CoreId) (ctx : Nat) : State :=
  (s.postLeaf c.lid 0x08 cause (s.csrc k ctx) ⟨o.addr.toNat, o.off, o.func, c.camp, o.mem, sub⟩).markLane c o.mem o.lane bit

/-- Applies one entry: true when it waits for a peer (08 R185). -/
def State.orbApply (s : State) (c : CampRef) (o : Orb) : State × Bool :=
  match s.camps.find? fun k => k.ref = c with
  | none => (s, false)
  | some k =>
    let v := s.viewOf k o.mem
    match v.check o.lane o.addr.toNat ⟨o.ty.bytes, 1, o.ty.bytes, needA, 2⟩ with
    | .error f => (s.orbFail c o f.cause f.sub fDF k.core v.tr.ctx, false)
    | .ok ps =>
      match ps with
      | [] => (s, false)
      | p :: _ =>
        match p with
        | .peer q wa =>
          match s.request q wa o.addr.toNat o.ty.bytes (.orb c o) (.amo (.fadd o.rm) o.ty o.v 0) (maxW s.gseen (v.tr.lane o.lane).seen) with
          | some s1 => (s1, true)
          | none => ((s.linkFault q wa).orbFail c o cREMOTE 5 fRN k.core v.tr.ctx, false)
        | .scratch a =>
          let old := leNat (memBytes k.scr a o.ty.bytes)
          let new := atomNew (.fadd o.rm) o.ty old o.v.toNat 0
          (s.modCamp c fun k => { k with scr := memWriteAll k.scr (cellsAt a (leBytes o.ty.bytes new)) }, false)
        | .phys bs =>
          let old := leNat (bs.map (memRead s.mem))
          let new := atomNew (.fadd o.rm) o.ty old o.v.toNat 0
          (s.commit (bs.zip (leBytes o.ty.bytes new)), false)

/-- Applies entries in order; true when some wait for a peer. -/
def State.orbApplyAll (s : State) : List (CampRef × Orb) → State × Bool
  | [] => (s, false)
  | (c, o) :: r =>
    let a := s.orbApply c o
    let b := State.orbApplyAll a.1 r
    (b.1, a.2 || b.2)

/-- Entries due at a word, over all camps; `own` is the camp of a scratchpad word. -/
def State.dueOrbs (s : State) (own : CampRef) (k : Nat) : List (CampRef × Orb) :=
  s.camps.flatMap fun c => (c.orb.filter fun o => o.dueAt (c.ref = own) k).map fun o => (c.ref, { o with due := [k] })

/-- Commits the entries due at a word (05 R123); the lists are whole. True when the completion waits for a peer. -/
def State.detCommitW (s : State) (own : CampRef) (k : Nat) : State × Bool :=
  let es := sortOrb s.orbTroop (s.dueOrbs own k)
  let s1 := { s with camps := s.camps.map fun (c : Camp) => { c with orb := c.orb.filter fun o => !o.dueAt (c.ref = own) k } }
  s1.orbApplyAll es

/-- Whether any camp holds an entry due at a word. -/
def State.anyDue (s : State) (own : CampRef) (k : Nat) : Bool :=
  (s.cp.orb.any fun o => o.dueAt (s.cp.ref = own) k) || s.camps.any fun c => c.orb.any fun o => o.dueAt (c.ref = own) k

/-- Commits due entries whatever the focus, which stays. -/
def State.detCommit (s : State) (own : CampRef) (k : Nat) : State × Bool :=
  if s.anyDue own k then
    let r := s.spRef
    let d := s.unfocus.detCommitW own k
    if s.focused then ((d.1.focusOn r).getD d.1, d.2) else d
  else (s, false)

/-- Writes a word in the focused camp's scratchpad or in memory. -/
def State.putWord (s : State) (p : Spot) (w : BWord) : State := s.writePlace p 8 w.toNat

/-- Applies an update to a valid word, with its completion in the same step (R116); false when the word is invalid. -/
def State.updateWord (s : State) (own : CampRef) (p : Spot) (f : BWord → BWord) : State × Bool :=
  let v := s.readPlace p 8
  if !wordOk v then (s, false)
  else
    let w := f (BWord.ofNat v)
    if w.due then
      let d := s.detCommit own (spotKey p)
      (d.1.putWord p (if d.2 then w else w.flip), true)
    else (s.putWord p w, true)

/-- Marks a troop's entries as due at a word on which it arrives: those of several words go with the first of them to complete (05 R123). -/
def Camp.arriveOrb (c : Camp) (m : Nat) (k : Nat) : Camp :=
  { c with orb := c.orb.map fun o => if o.mem = m && !o.due.contains k then { o with due := k :: o.due } else o }

/-- Physical place or scratchpad offset of a barrier word that a camp names; none when its translation fails or it lies with a peer. -/
def State.wordSpot (s : State) (c : Camp) (a : Nat) : Option Spot :=
  match tagOf a with
  | 0xFD => some (.scratch (offOf a))
  | 0x00 => match s.xlat (if c.resident then .core c.core else .mgmt) (s.launch c.ref.lid).tree a with
    | .ok x => match x.tgt with
      | .phys p => some (.phys ((List.range 8).map fun i => p + i))
      | _ => none
    | .error _ => none
  | _ => none

/-- Whether the completion of some barrier word waits for ordered reductions at peers. -/
def State.completing (s : State) : Bool := s.reqs.any fun q => match q.by_ with
  | .orb _ _ => true
  | _ => false

/-- Whether the word that a camp names stands in the middle of its completion. -/
def State.landBusy (s : State) (c : Camp) (a : Nat) : Bool :=
  (s.wordSpot c a).any fun p => (s.wordBusy c.ref 8 [(0, [p])]).isSome

/-- A landing of `n` bytes on a word that a camp names, the lists being whole (R116, R118): false when the word is invalid. -/
def State.landWord (s : State) (c : CampRef) (a n : Nat) : State × Bool :=
  match s.camps.find? fun k => k.ref = c with
  | none => (s, false)
  | some k =>
    match s.wordSpot k a with
    | none => (s, false)
    | some p =>
      match p with
      | .scratch o =>
        let v := leNat (memBytes k.scr o 8)
        if !wordOk v then (s, false)
        else
          let w := (BWord.ofNat v).land n
          let d := if w.due then s.detCommitW c (spotKey p) else (s, false)
          let x := if w.due && !d.2 then w.flip else w
          (d.1.modCamp c fun k => { k with scr := memWriteAll k.scr (cellsAt o (leBytes 8 x.toNat)) }, true)
      | _ => s.updateWord c p fun w => w.land n

end Sys2Proof.Machine
end

