-- ==== Sys2Proof/Machine/Points.lean ====
section
/-! DEFINITION. Portable points, regions and keys of the translation cache (10 R238 to R247). -/

namespace Sys2Proof

/-- Whether a portable point stands before the instruction, or before and after it (10 R241). -/
inductive PointSide where
  | none
  | before
  | both
  deriving DecidableEq, Repr

/-- Mandatory points around an instruction (R241). -/
def Instr.points : Instr → PointSide
  | .ret _ | .exit => .before
  | .call _ _ | .brx _ _ | .trap _ | .brk | .sloop _ _ _ _ | .sget _ _ | .sput _ _ _ => .both
  | .ld _ _ | .st _ _ _ | .ldv _ _ _ | .stv _ _ _ _ | .atom _ _ _ _ _ | .fence _ _ | .prefetch _ _ | .tier _ _ _ => .both
  | .barInit _ _ _ | .barArrive _ _ | .barWait _ _ | .barTry _ _ | .barSync _ _ | .stepSync _ _ => .both
  | .copy .. | .tcopy .. | .copyRemote .. => .both
  | .accInit _ _ _ | .mma .. | .mmaRes .. | .accNorm _ | .accRd .. | .accRdWord .. | .accWr .. | .accWrWord ..
  | .ropeForm _ | .ropeFree => .both
  | .resPitch .. | .resPitchAttach _ | .resPitchRefill _ | .resStrike _ _ | .resPin _ _ | .resUnpin _ _ | .resQuery _ _ => .both
  | .sysRd _ | .sysWrXstat _ | .sysWrStubv _ | .stamp | .stampSc | .yield | .xretRetry | .xretNext | .tlbInv .. | .opReq _ => .both
  | _ => .none

/-- Cost of an instruction that has no mandatory point before it (R242). -/
def Instr.cost : Instr → Nat
  | .switch .. => 8
  | .fdiv ty _ _ _ => if ty == .f64 then 24 else 12
  | .fsqrt ty _ _ | .frsq ty _ _ | .frcp ty _ _ => if ty == .f64 then 24 else 12
  | .fexp2 .. | .flog2 .. | .fsin .. | .fcos .. | .ftanh .. => 12
  | .fadd .. | .fsub .. | .fmul .. | .fma .. | .fmin .. | .fmax .. | .fabs .. | .fneg .. | .fcmp .. | .fclass ..
  | .fround .. | .fcopysign .. | .cvt .. => 4
  | .dxbPackElem .. | .dxbPackScale .. | .dxbUnpack .. | .shfl .. | .vote .. | .ballot .. | .rand .. => 8
  | .redux .. | .scan .. => 40
  | _ => 1

end Sys2Proof

namespace Sys2Proof.Machine

/-- Kinds of point as a side table has them (10 R252). -/
def ptMandatory : Nat := 0
def ptOptional : Nat := 1
def ptStep : Nat := 2

/-- Points of a function in code order (R241, R242): `c` is the running cost, `after` says that the item before puts a point here. -/
def pointsFrom (half : Nat) (step : Bool) : Nat → Bool → List At → List (Nat × Nat)
  | _, _, [] => []
  | c, after, a :: r =>
    match a.item with
    | .block _ => (a.off, ptMandatory) :: pointsFrom half step 1 false r
    | .instr i =>
      let side := i.points
      let next := side == .both || match i with
        | .sloopEnd _ => true
        | _ => false
      if after || side != .none then (a.off, ptMandatory) :: pointsFrom half step 0 next r
      else if half < c + i.cost then (a.off, ptOptional) :: pointsFrom half step i.cost next r
      else if step then (a.off, ptStep) :: pointsFrom half step (c + i.cost) next r
      else pointsFrom half step (c + i.cost) next r

/-- Points of a function for a run limit. -/
def pointsOf (is : List At) (l : Nat) (step : Bool) : List (Nat × Nat) := pointsFrom (l / 2) step 0 false is

/-- Whether a portable offset is a point. -/
def isPoint (is : List At) (l : Nat) (step : Bool) (off : Nat) : Bool := (pointsOf is l step).any fun p => p.1 = off

/-- Spans of the stream loops, from `sloop` to the end of `sloop.end`. -/
def loopSpans : Option Nat → List At → List (Nat × Nat)
  | _, [] => []
  | o, a :: r =>
    match a.item, o with
    | .instr (.sloop _ _ _ _), _ => loopSpans (some a.off) r
    | .instr (.sloopEnd _), some b => (b, a.off + 4 * a.len) :: loopSpans none r
    | _, _ => loopSpans o r

/-- Whether an offset lies strictly inside a stream loop. -/
def insideLoop (spans : List (Nat × Nat)) (off : Nat) : Bool := spans.any fun s => s.1 < off && off < s.2

/-- Region size limit Z of a die (R246). -/
def zLimit (die : Nat) : Nat := if die < 6 then 3840 else 1792

/-- Cuts a block that passes the limit: region starts found so far, latest first. -/
def cutBlock (z : Nat) (pts : List Nat) (endB : Nat) : Nat → List Nat → List Nat
  | 0, st => st
  | fuel + 1, st =>
    let s := st.head?.getD 0
    if endB ≤ s + z then st
    else
      let inB := pts.filter fun p => s < p && p < endB
      match (inB.filter fun p => p ≤ s + z).getLast? with
      | some p => cutBlock z pts endB fuel (p :: st)
      | none => match inB.head? with
        | some p => cutBlock z pts endB fuel (p :: st)
        | none => st

/-- Ends of the blocks: each BLOCK record with the offset after its block. -/
def blockSpans (total : Nat) (bs : List At) : List (Nat × Nat) :=
  (bs.zip ((bs.drop 1).map At.off ++ [total])).map fun p => (p.1.off, p.2)

/-- Region starts of a function for a die kind and run limit (R246). -/
def regionStarts (is : List At) (l die : Nat) : List Nat :=
  let z := zLimit die
  let spans := loopSpans none is
  let total := (is.getLast?.map fun a => a.off + 4 * a.len).getD 0
  let pts := ((pointsOf is l false).map Prod.fst).filter fun p => !insideLoop spans p
  let add (st : List Nat) (b : Nat × Nat) : List Nat :=
    let s := st.head?.getD 0
    let st1 := if b.2 ≤ s + z || b.1 = s then st else b.1 :: st
    cutBlock z (pts.filter fun p => b.1 ≤ p && p < b.2) b.2 (is.length + 1) st1
  ((blockSpans total (blocksOf is)).foldl add [0]).reverse

/-- Start and end of the region that holds an offset. -/
def regionOf (is : List At) (l die off : Nat) : Nat × Nat :=
  let st := regionStarts is l die
  let total := (is.getLast?.map fun a => a.off + 4 * a.len).getD 0
  (((st.filter fun s => s ≤ off).getLast?).getD 0, ((st.filter fun s => off < s).head?).getD total)

/-- KIND and REV of a die (01 R17). -/
def dieKind (die : Nat) : Nat := if die < 6 then 1 else 2
def dieRev (die : Nat) : Nat := if die < 6 then 3 else 2

/-- Bytes of a swap bank (11 R281). -/
def bankBytes (die : Nat) : Nat := if die < 6 then 61440 else 28672

/-- Whether the troop is under single-step (10 R243). -/
def Troop.stepping (t : Troop) (p : Split) : Bool := p.stepping || t.splits.any Split.stepping

/-- The key of the region at a position, for a split of a troop on a core (R238). -/
def keyAt (l : Launch) (t : Troop) (k : CoreId) (m : Module) (func off : Nat) (step : Bool) : Key :=
  ⟨m.hash, false, func, (regionOf (m.items func) l.runlim k.die off).1, dieKind k.die, dieRev k.die, t.budget, t.tiles,
    l.wlog2, l.runlim, step⟩

/-- The same key for an entry installed from a NATIVE section (R238). -/
def Key.native (k : Key) (mh : Nat) : Key := { k with origin := true, hash := BitVec.ofNat 256 mh }

/-- The key of the focused split at its position. -/
def State.spKey (s : State) : Key :=
  match s.module? s.sp.mh with
  | some m => keyAt s.lch s.tr s.cp.core m s.sp.func s.sp.off (s.tr.stepping s.sp && !s.sup)
  | none => ⟨0, false, s.sp.func, 0, 0, 0, 0, 0, 0, 0, false⟩

/-- Whether the focused split stands at a portable point of its translation. -/
def State.atPoint (s : State) : Bool :=
  match s.module? s.sp.mh with
  | some m => isPoint (m.items s.sp.func) s.lch.runlim (s.tr.stepping s.sp && !s.sup) s.sp.off
  | none => true

/-- The cores of the package in ascending number (01 R14): core `n` of 0 to 543. -/
def coreNum (n : Nat) : CoreId :=
  if n < 480 then ⟨n / 80, n / 4 % 20, n % 4⟩ else ⟨6 + (n - 480) / 32, (n - 480) / 2 % 16, n % 2⟩

def Core.bank (c : Core) (b : Fin 2) : Bank := if b = 0 then c.b0 else c.b1

def Core.setBank (c : Core) (b : Fin 2) (x : Bank) : Core := if b = 0 then { c with b0 := x } else { c with b1 := x }

/-- The VALID bank that holds a key's region, translated or native (11 R282, 10 R238). -/
def Core.bankOf (c : Core) (k : Key) (mh : Nat) : Option (Fin 2) :=
  let ok (b : Bank) : Bool := b.st = .valid && (b.key = some k || b.key = some (k.native mh))
  if ok c.b0 then some 0 else if ok c.b1 then some 1 else none

end Sys2Proof.Machine
end

