-- ==== Sys2Proof/Machine/Alloc.lean ====
section
/-! DEFINITION. Uses of values, liveness, the linear scan of the translator and the frames of functions (10 R250, R251). -/

namespace Sys2Proof

/-- Operand values of a portable instruction, edge arguments included, in operand order (06 R138). -/
def Instr.uses (i : Instr) : List Val := (i.parts.map Parts.ops).getD []

end Sys2Proof

namespace Sys2Proof.Machine

/-! ### Slots of acc values (09 R222) -/

/-- A value takes the slot that its `acc.init` names, or that of another value. -/
structure SlotEq where
  v : Val
  init : Option Nat
  src : Val
  deriving DecidableEq, Repr

/-- Equations of an instruction whose first value has a number. -/
def slotEqsIn (i : Instr) (val : Nat) : List SlotEq :=
  match i with
  | .accInit k _ _ => [⟨val, some k.val, 0⟩]
  | .mma _ _ _ a _ _ | .mmaRes _ _ _ a _ _ _ | .accNorm a | .accWr _ _ a _ _ _ | .accWrWord _ a _ _ _ => [⟨val, none, a⟩]
  | .sloop _ _ _ vs | .sloopEnd vs => vs.mapIdx fun j v => ⟨val + j, none, v⟩
  | _ => []

/-- Slots that equations give to values that have none yet. -/
def slotRound (eqs : List SlotEq) (known : List (Nat × Nat)) : List (Nat × Nat) :=
  let get (s : List (Nat × Nat)) (v : Val) : Option Nat := (s.find? fun p => p.1 = v).map Prod.snd
  eqs.foldl (fun s e => if (get s e.v).isSome then s else match e.init <|> get s e.src with
    | some k => (e.v, k) :: s
    | none => s) known

/-- Slots of acc values: a block parameter has that of the first edge in code order; another edge decides only where the first never leads to an `acc.init`. -/
def solveSlots (eqs : List SlotEq) : List (Nat × Nat) :=
  let first := eqs.foldl (fun l e => if l.any fun x => x.v = e.v then l else l ++ [e]) []
  let turns := List.range (first.length + 1)
  let a := turns.foldl (fun s _ => slotRound first s) []
  turns.foldl (fun s _ => slotRound eqs s) a

/-- Equations of a function. -/
def slotEqsOf (is : List At) : List SlotEq :=
  let bs := blocksOf is
  is.flatMap fun a => match a.item with
    | .block _ => []
    | .instr i => (((instrEdges i).getD []).flatMap fun e => match bs[e.blk]? with
        | some t => e.args.mapIdx fun j v => ⟨t.val + j, none, v⟩
        | none => []) ++ slotEqsIn i a.val

/-! ### Liveness (10 R244, R250) -/

/-- Types of the values of a function in number order; carried values take the types of their operands (06 R132, R142). -/
def valTys (rt : Nat → List Ty) (is : List At) : List Ty :=
  is.foldl (fun ts a => ts ++ match a.item with
    | .block ps => ps.map fun c => (Ty.ofCode c).getD .void
    | .instr (.sloop _ _ _ vs) | .instr (.sloopEnd vs) => vs.map fun v => (ts[v]?).getD .void
    | .instr i => i.resTys rt) []

/-- Units of a type (R250). -/
def tyUnits : Ty → Nat
  | .acc | .rhandle | .void => 0
  | .i64 | .w64 | .f64 | .addr | .barref | .trec => 2
  | _ => 1

/-- Values that an item uses. -/
def At.uses (a : At) : List Val :=
  match a.item with
  | .block _ => []
  | .instr i => i.uses

/-- Values that a stream loop needs in every iteration: trip count and stream bases (06 R142, R144). -/
def At.loopKeeps (a : At) : List Val :=
  match a.item with
  | .instr (.sloop t _ bases _) => t :: bases
  | _ => []

/-- Values that an item defines. -/
def At.defines (rt : Nat → List Ty) (a : At) : List Val := (List.range (a.item.defs rt)).map fun i => a.val + i

/-- A set of values as bits. -/
def valSet (vs : List Val) : Nat := vs.foldl (fun m v => m ||| 2 ^ v) 0

/-- Set difference below bit `n`. -/
def setMinus (n a b : Nat) : Nat := a &&& ((2 ^ n - 1) ^^^ (b % 2 ^ n))

/-- What a block uses before it defines it, and what it defines. -/
def blockUse (n : Nat) (rt : Nat → List Ty) : List At → Nat × Nat
  | [] => (0, 0)
  | a :: r =>
    let (u, d) := blockUse n rt r
    let da := valSet (a.defines rt)
    (valSet a.uses ||| setMinus n u da, da ||| d)

/-- Items of each block, in code order. -/
def splitBlocks (is : List At) : List (List At) :=
  is.foldr (fun a bs => match a.item, bs with
    | .block _, b :: r => [] :: (a :: b) :: r
    | .block _, [] => [[], [a]]
    | .instr _, b :: r => (a :: b) :: r
    | .instr _, [] => [[a]]) [[]] |>.drop 1

/-- One round of the liveness equations: sets live at the entries of the blocks. -/
def liveRound (nb n : Nat) (succs : List Nat) (ud : List (Nat × Nat)) (ins : List Nat) : List Nat :=
  ud.mapIdx fun b q =>
    let out := (bitsOf nb ((succs[b]?).getD 0)).foldl (fun m t => m ||| (ins[t]?).getD 0) 0
    q.1 ||| setMinus n out q.2

/-- Sets live at the exits of the blocks. -/
def liveOuts (rt : Nat → List Ty) (is : List At) (n : Nat) : List Nat :=
  let nb := (blocksOf is).length
  let succs := blockSuccs is
  let ud := (splitBlocks is).map (blockUse n rt)
  let ins := (List.range (nb + 1)).foldl (fun v _ => liveRound nb n succs ud v) (ud.map fun _ => 0)
  succs.map fun sc => (bitsOf nb sc).foldl (fun m t => m ||| (ins[t]?).getD 0) 0

/-- Positions of `sloop` and `sloop.end` of each stream loop. -/
def loopPositions : Option Nat → Nat → List At → List (Nat × Nat)
  | _, _, [] => []
  | o, p, a :: r =>
    match a.item, o with
    | .instr (.sloop _ _ _ _), _ => loopPositions (some p) (p + 1) r
    | .instr (.sloopEnd _), some b => (b, p) :: loopPositions none (p + 1) r
    | _, _ => loopPositions o (p + 1) r

/-- An interval of R250: value, start, end, units. -/
structure Interval where
  v : Nat
  lo : Nat
  hi : Nat
  units : Nat
  deriving DecidableEq, Repr

/-- The intervals of a function by ascending start, then value number: values are numbered in code order. A value used in a stream loop that it was defined before, its trip count and stream bases among them, is live up to `sloop.end` (DEDUCED, log 17). -/
def intervals (rt : Nat → List Ty) (is : List At) : List Interval :=
  let ts := valTys rt is
  let n := ts.length
  let outs := liveOuts rt is n
  let loops := loopPositions none 0 is
  let ends := ((splitBlocks is).foldl (fun (p : Nat × List Nat) b => (p.1 + b.length, p.2 ++ [p.1 + b.length - 1])) (0, [])).2
  let defs := (is.mapIdx fun p a => (a.defines rt).map fun v => (v, p)).flatten
  let uses := (is.mapIdx fun p a => (a.uses.map fun v => (v, p)) ++ a.loopKeeps.map fun v => (v, p + 1)).flatten
  (ts.zip defs).map fun (t, v, lo) =>
    let us := (uses.filter fun u => u.1 = v).map fun u =>
      match loops.find? fun l => lo ≤ l.1 && l.1 < u.2 && u.2 < l.2 with
      | some l => l.2
      | none => u.2
    let bs := (outs.zip ends).filterMap fun q => if q.1.testBit v then some q.2 else none
    ⟨v, lo, (us ++ bs).foldl Nat.max lo, tyUnits t⟩

/-- First free register for a number of units among the first `a`. -/
def freeReg (a units : Nat) (used : List (Interval × Nat)) : Option Nat :=
  let busy (k : Nat) : Bool := used.any fun u => u.2 ≤ k && k < u.2 + u.1.units
  if units = 1 then (List.range a).find? fun k => !busy k
  else (List.range a).find? fun k => k % 2 = 0 && k + 1 < a && !busy k && !busy (k + 1)

/-- Spills until the interval fits or is spilled itself (R250): active registers and spilled values in order. -/
def scanFit (a : Nat) (i : Interval) : Nat → List (Interval × Nat) → List Nat → List (Interval × Nat) × List Nat
  | 0, act, sp => (act, sp ++ [i.v])
  | fuel + 1, act, sp =>
    match freeReg a i.units act with
    | some k => (act ++ [(i, k)], sp)
    | none =>
      let c := act.foldl (fun b x => if b.hi < x.1.hi || (b.hi = x.1.hi && b.v < x.1.v) then x.1 else b) i
      if c.v = i.v then (act, sp ++ [i.v])
      else scanFit a i fuel (act.filter fun x => x.1.v != c.v) (sp ++ [c.v])

/-- The scan over the intervals: registers given in the end, and spilled values in the order they were spilled. -/
def scanFrom (a : Nat) : List Interval → List (Interval × Nat) → List (Interval × Nat) → List Nat → List (Interval × Nat) × List Nat
  | [], act, old, sp => (old ++ act, sp)
  | i :: r, act, old, sp =>
    let done := act.filter fun x => !(i.lo ≤ x.1.hi)
    let act := act.filter fun x => i.lo ≤ x.1.hi
    if i.units = 0 then scanFrom a r act (old ++ done) sp
    else
      let (act, sp) := scanFit a i (act.length + 1) act sp
      scanFrom a r act (old ++ done) sp

/-- Registers and spilled values of a function under a budget of `b` registers (R250). -/
def allocOf (rt : Nat → List Ty) (is : List At) (b : Nat) : List (Interval × Nat) × List Nat :=
  scanFrom (b - 2) (intervals rt is) [] [] []

/-- Spilled values of a function under a budget of `b` registers (R250). -/
def spillsOf (rt : Nat → List Ty) (is : List At) (b : Nat) : List Nat := (allocOf rt is b).2

/-- Whether the item at a position of a function is a call. -/
def At.isCall (a : At) : Bool :=
  match a.item with
  | .instr (.call _ _) => true
  | _ => false

/-- Values saved across a call (R250): those not spilled whose interval contains one, but for tiles, which no slot holds. -/
def savesOf (rt : Nat → List Ty) (is : List At) (sp : List Nat) : List Nat :=
  let calls := (is.mapIdx fun p a => if a.isCall then [p] else []).flatten
  let ts := valTys rt is
  ((intervals rt is).filter fun i => !sp.contains i.v && (ts[i.v]?).getD .void != .acc && (ts[i.v]?).getD .void != .void &&
    calls.any fun p => i.lo ≤ p && p ≤ i.hi).map Interval.v

/-- Tile slots at or above the grant that an `acc.init` of the function names (R251). -/
def framedSlots (is : List At) (tiles : Nat) : List Nat :=
  (List.range 8).filter fun s => tiles ≤ s && is.any fun a => match a.item with
    | .instr (.accInit k _ _) => k.val = s
    | _ => false

/-- A function's frame (R251): spilled values and saved values in the order of their slots, tile slots with an image, bytes of an image. -/
structure FrameMap where
  spills : List Nat
  saves : List Nat
  images : List Nat
  image : Nat
  deriving DecidableEq, Repr

def frameMap (rt : Nat → List Ty) (is : List At) (b tiles w : Nat) : FrameMap :=
  let sp := spillsOf rt is b
  ⟨sp, savesOf rt is sp, framedSlots is tiles, 2 ^ 18 / w⟩

namespace FrameMap
/-- Slots of the spilled values, of the saved values, and first byte of the images. -/
def spillSlots (f : FrameMap) : List (Nat × Nat) := f.spills.mapIdx fun j v => (v, 16 + 8 * j)
def saveSlots (f : FrameMap) : List (Nat × Nat) := f.saves.mapIdx fun j v => (v, 16 + 8 * (f.spills.length + j))
def imageBase (f : FrameMap) : Nat := 16 + 8 * (f.spills.length + f.saves.length)
/-- Offset of the image of a tile slot. -/
def imageAt (f : FrameMap) (slot : Nat) : Option Nat := (f.images.findIdx? fun x => x = slot).map fun j => f.imageBase + j * f.image
/-- Bytes of the frame. -/
def size (f : FrameMap) : Nat := f.imageBase + f.images.length * f.image
end FrameMap

/-- Size in bytes of a function's frame (R251). -/
def frameSize (rt : Nat → List Ty) (is : List At) (b tiles w : Nat) : Nat := (frameMap rt is b tiles w).size

/-- The frame above one that begins at an offset: links are counted in units of 16 bytes (12 R312). -/
def frameAbove (fp n : Nat) : Nat := fp + (n + 15) / 16 * 16

/-- Frame of a function for the focused troop. -/
def State.frameMapOf (s : State) (mh func : Nat) : FrameMap :=
  match s.module? mh with
  | some m => frameMap m.rtypes (m.items func) s.tr.budget s.tr.tiles s.tr.width
  | none => ⟨[], [], [], 0⟩

def State.frameOf (s : State) (mh func : Nat) : Nat := (s.frameMapOf mh func).size

/-! ### Values live at a point (10 R244) -/

/-- Number that names the iteration index in a side table (R253). -/
def iterVal : Nat := 0xFFFFF

/-- The stream loop around an offset: its item, and the items of its body before the offset. -/
def loopAround (is : List At) (off : Nat) : Option (At × List At) :=
  match (loopSpans none is).find? fun p => p.1 < off && off < p.2 with
  | none => none
  | some p => (is.find? fun a => a.off = p.1).map fun a => (a, is.filter fun x => p.1 < x.off && x.off < off)

/-- A function as the points of one of its maps are computed: items, types, values live at the ends of its blocks. -/
structure FuncMap where
  items : List At
  tys : List Ty
  outs : List Nat
  blocks : List (List At)
  deriving DecidableEq, Repr

def funcMap (rt : Nat → List Ty) (is : List At) : FuncMap :=
  let ts := valTys rt is
  ⟨is, ts, liveOuts rt is ts.length, splitBlocks is⟩

/-- Numbers of the values live at a point, in rising order; the iteration index last. -/
def FuncMap.live (f : FuncMap) (rt : Nat → List Ty) (off : Nat) : List Nat :=
  let n := f.tys.length
  let bi := (f.blocks.findIdx? fun xs => (xs.any fun a => a.off = off)).getD 0
  let after := ((f.blocks[bi]?).getD []).filter fun a => off < a.off || (a.off = off && match a.item with
    | .instr _ => true
    | .block _ => false)
  let u := blockUse n rt after
  let m0 := u.1 ||| setMinus n ((f.outs[bi]?).getD 0) u.2
  match loopAround f.items off with
  | none => bitsOf n m0
  | some (a, before) =>
    let more := valSet (a.loopKeeps ++ (before.flatMap At.uses).filter fun v => v < a.val)
    bitsOf n (m0 ||| more) ++ [iterVal]

/-- Values live at one point of a function. -/
def livePoint (rt : Nat → List Ty) (is : List At) (off : Nat) : List Nat := (funcMap rt is).live rt off

/-! ### The scan's location map (R250 to R254; log 88) -/

/-- Scalar registers that the model's maps give to rhandle values, and to the iteration index. -/
def handleScalar (j : Nat) : Nat := j % 30
def iterScalar : Nat := 30

/-- Places of the values of a function under a budget and tile grant. -/
structure ScanMap where
  fn : FuncMap
  regs : List (Nat × Nat × Nat)
  frame : FrameMap
  slots : List (Nat × Nat)
  tiles : Nat
  deriving DecidableEq, Repr

def scanMap (rt : Nat → List Ty) (is : List At) (b tiles w : Nat) : ScanMap :=
  ⟨funcMap rt is, (allocOf rt is b).1.map fun x => (x.1.v, x.2, x.1.units), frameMap rt is b tiles w, solveSlots (slotEqsOf is), tiles⟩

/-- Place of a value: at a call's return point the saved values lie in their slots. -/
def ScanMap.loc (m : ScanMap) (across : Bool) (v : Nat) : Option Loc :=
  let find (l : List (Nat × Nat)) : Option Nat := (l.find? fun p => p.1 = v).map Prod.snd
  if v = iterVal then some (.scalar iterScalar)
  else match (if across then find m.frame.saveSlots else none), find m.frame.spillSlots with
    | some o, _ | none, some o => some (.spill o)
    | none, none => match (m.fn.tys[v]?).getD .void with
      | .acc =>
        let k := (find m.slots).getD 0
        if k < m.tiles then some (.acc (4 * k)) else (m.frame.imageAt k).map .accFrame
      | .rhandle => some (.scalar (handleScalar (((m.fn.tys.take v).filter fun t => t = .rhandle).length)))
      | _ => (m.regs.find? fun r => r.1 = v).map fun r => if r.2.2 = 2 then .pair r.2.1 else .reg r.2.1

/-- Whether a point is the return point of a call. -/
def FuncMap.afterCall (f : FuncMap) (off : Nat) : Bool := f.items.any fun a => a.isCall && a.off + 4 * a.len = off

/-- Results of the call whose return point an offset is. -/
def FuncMap.callResults (f : FuncMap) (rt : Nat → List Ty) (off : Nat) : List Nat :=
  ((f.items.find? fun a => a.isCall && a.off + 4 * a.len = off).map fun a => a.defines rt).getD []

/-- Locations of the values live at a point. -/
def ScanMap.locs (m : ScanMap) (rt : Nat → List Ty) (off : Nat) : List (Nat × Loc) :=
  let across := m.fn.afterCall off
  let res := m.fn.callResults rt off
  (m.fn.live rt off).filterMap fun v => (m.loc (across && !res.contains v) v).map fun l => (v, l)

end Sys2Proof.Machine
end

