-- ==== Sys2Proof/Machine/Frames.lean ====
section
/-! DEFINITION. The frame area of private memory: bytes of frames and trap areas, the pages a frame needs, spill slots (10 R250, R251, 08 R198, 18 R397). -/

namespace Sys2Proof.Machine

/-! ### Register images (11 R289) -/

/-- Whether a value of the type takes a pair. -/
def wideTy (ty : Ty) : Bool := ty.width = 64

/-- The register image of a value: extended to 32 bits, or 64 bits for a pair. -/
def TVal.image (v : TVal) : Nat :=
  if wideTy v.ty then v.nat else if v.ty.signed then wrapu 32 (readInt v.ty v.nat) else v.nat

/-- The value that a register image stands for, after truncation. -/
def ofImage (ty : Ty) (n : Nat) : TVal := mkVal ty n

/-! ### Frames -/

/-- A private address. -/
def privVa (o : Nat) : Nat := 0xFC * 2 ^ 56 + o

/-- Reads bytes of a lane's frame area, or of its trap area in supervisor mode. -/
def State.frameRead (s : State) (i o n : Nat) : Nat :=
  if s.sup then ((s.tr.lane i).saved.map fun v => memNat v.area o n).getD 0
  else leNat ((List.range n).map fun b => ((s.privPhys s.tr.proot (backing s.tr.width i (o + b))).map (memRead s.mem)).getD 0)

/-- A write to frame bytes: the lane, the private offset, the bytes and the value. -/
structure FrameWrite where
  lane : Nat
  off : Nat
  size : Nat
  val : Nat
  deriving DecidableEq, Repr

/-- The bytes of physical memory that a write to mapped frame bytes gives. -/
def State.frameCells (s : State) (w : FrameWrite) : List (Nat × Byte) :=
  (List.range w.size).zip (leBytes w.size w.val) |>.filterMap fun b =>
    (s.privPhys s.tr.proot (backing s.tr.width w.lane (w.off + b.1))).map fun a => (a, b.2)

/-- A lane's trap area after the writes for the lane. -/
def areaAfter (ws : List FrameWrite) (i : Nat) (area : List Host.Cell) : List Host.Cell :=
  memWriteAll area ((ws.filter fun w => w.lane = i).flatMap fun w => cellsAt w.off (leBytes w.size w.val))

/-- Writes frame bytes that are mapped, all at once, or bytes of the trap areas. -/
def State.frameStore (s : State) (ws : List FrameWrite) : State :=
  if s.sup then
    { s with tr := { s.tr with lanes := s.tr.lanes.mapIdx fun i l =>
        { l with saved := l.saved.map fun x => { x with area := areaAfter ws i x.area } } } }
  else s.commit (ws.flatMap s.frameCells)

/-- Writes bytes of one lane's frame area, or of its trap area. -/
def State.frameWrite (s : State) (i o n v : Nat) : State := s.frameStore [⟨i, o, n, v⟩]

/-- The backing pages of the link and the slots of a frame, `n` bytes at an offset (portable code keeps no tile image there: log 17): all mapped, or mapped by the split's grant, or PRIVGROW (R198, 04 R86). -/
def State.frameReady (s : State) (fp n : Nat) : Prep Unit :=
  let ls := lanesOf s.tr.width s.sp.mask
  if s.sup || ls.all (fun i => backing s.tr.width i (fp + n - 1) / 65536 < s.tr.hwm) then .go s ()
  else match s.prepare ⟨8, n / 8, 8, needW, 3⟩ (ls.map fun i => (i, privVa fp)) with
    | .done t => .done t
    | .go t _ => .go t ()

/-- The writes that bring the slots of the running frame up to date in the split's lanes: values with the offsets of their slots (R250). -/
def State.slotWrites (s : State) (fp : Nat) (slots : List (Nat × Nat)) : List FrameWrite :=
  (lanesOf s.tr.width s.sp.mask).flatMap fun i => slots.filterMap fun q =>
    ((s.tr.lane i).frames.head?.bind fun f => f.vals.find? fun x => x.1 = q.1).bind fun x =>
      if s.frameRead i (fp + q.2) 8 = x.2.image then none else some ⟨i, fp + q.2, 8, x.2.image⟩

/-- Stores the values of slots of the running frame. -/
def State.keepSlots (s : State) (fp : Nat) (slots : List (Nat × Nat)) : State :=
  match s.slotWrites fp slots with
  | [] => s
  | ws => s.frameStore ws

/-- Bytes of the frame link (10 R251, 13 R338): the caller's FP, then its return offset, function, BUDGET and TILES. -/
def linkWord (fp func off budget tiles : Nat) : Nat :=
  fp + 2 ^ 64 * (off + 2 ^ 24 * func + 2 ^ 40 * budget + 2 ^ 47 * tiles)
def linkBytes (fp func off budget tiles : Nat) : List Byte := leBytes 16 (linkWord fp func off budget tiles)

/-- The link of every lane of the split. -/
def State.linkWrites (s : State) (fp v : Nat) : List FrameWrite := (lanesOf s.tr.width s.sp.mask).map fun i => ⟨i, fp, 16, v⟩

end Sys2Proof.Machine
end

