-- ==== Sys2Proof/Machine/Save.lean ====
section
/-! DEFINITION. The context-pack save area: how much of it a camp reserves, and its portable pack as bytes (20 R443, 21 R462, 13 R333 to R336). -/

namespace Sys2Proof.Machine

/-! ### Sizes (R443) -/

/-- Rounds up to a multiple of 8, and of 256. -/
def pad8 (n : Nat) : Nat := (n + 7) / 8 * 8
def pad256 (n : Nat) : Nat := (n + 255) / 256 * 256

/-- Bytes of a mask (R334). -/
def maskBytes (w : Nat) : Nat := pad8 (4 + w / 8)

/-- Form of a value of a type (R335, 11 R289). -/
def formOf (t : Ty) : Nat := if t = .acc then 4 else if t = .rhandle then 2 else if t = .b1 then 3 else if tyUnits t = 2 then 1 else 0

/-- Data bytes of a form (R335). -/
def formBytes (w form : Nat) : Option Nat :=
  match form with
  | 0 => some (4 * w)
  | 1 => some (8 * w)
  | 2 => some 8
  | 3 => some (pad8 (w / 8))
  | 4 => some 0
  | _ => none

/-- The most bytes of value records at a position of a function, the iteration index among them: every value whose interval holds the position counts. -/
def valueRoom (rt : Nat → List Ty) (is : List At) (w : Nat) : Nat :=
  let ts := valTys rt is
  let vs := (intervals rt is).map fun i => (i.lo, i.hi, 8 + (formBytes w (formOf ((ts[i.v]?).getD .void))).getD 0)
  16 + ((List.range is.length).map fun p => ((vs.filter fun v => v.1 ≤ p && p ≤ v.2.1).map fun v => v.2.2).sum).foldl max 0

/-- The same over the functions of a module. -/
def Module.valueRoom (m : Module) (w : Nat) : Nat :=
  ((List.range m.funcs.length).map fun f => Machine.valueRoom m.rtypes (m.items f) w).foldl max 0

/-- Bytes of a tile record (R336). -/
def tileRec : Nat := 16 + 262144

/-- Most bytes of a command record: a command writes at most 2^24 − 1 bytes, in pieces of 64. -/
def cmdRoom : Nat := 96 + 8 * 4097

/-- Most bytes of a camp's portable pack: as many splits as lanes, eight tiles and sixteen commands a troop, 256 residencies, 1,024 reduction entries. -/
def packRoom (m : Module) (l : Launch) : Nat :=
  let w := l.width
  let troop := 64 + 2 * maskBytes w + 12 * w + 8 * (w - 1) + w * (16 + maskBytes w + m.valueRoom w)
  256 + pad256 (l.campsize * troop) + pad256 l.scratch + (if m.matrix then pad256 (l.campsize * 8 * tileRec) else 0) +
  pad256 (256 * 32) + pad256 (l.campsize * 16 * cmdRoom) + 1024 * 32

/-- Bytes of a camp's native image under a budget and tile grant: registers, guards, 16 entries of eight queues and a split record of 512 bytes a lane, tiles, pending rows, scratchpad (DESIGN CHOICE: the layout belongs to the die kind, R329; log 91). -/
def imageRoom (l : Launch) (b g : Nat) : Nat :=
  256 + l.campsize * (l.width * (4 * b + 8 + 1024 + 512) + g * 2 * tileRec) + pad256 l.scratch

/-- What a camp of a launch reserves: twice as much under a restart policy (21 R462). -/
def State.saveNeed (s : State) (l : Launch) (b g : Nat) : Nat :=
  let n := match s.module? l.mh with
    | some m => max (packRoom m l) (imageRoom l b g)
    | none => imageRoom l b g
  pad256 n * (if effFdp l.path = 1 then 2 else 1)

/-! ### Reservation -/

/-- Whether a camp's area, or the free ranges, hold what it needs. -/
def State.saveFits (s : State) (c : Camp) (n : Nat) : Bool :=
  (c.area.any fun a => n ≤ a.2) || s.save.any fun r => n ≤ r.2

/-- Takes an area from the first free range that holds it. -/
def takeRange (n : Nat) : List (Nat × Nat) → Option (Nat × List (Nat × Nat))
  | [] => none
  | (a, k) :: r =>
    if n ≤ k then some (a, if k = n then r else (a + n, k - n) :: r)
    else (takeRange n r).map fun q => (q.1, (a, k) :: q.2)

/-- Reserves a camp's area; one that is large enough stays. -/
def State.reserve (s : State) (c : CampRef) (n : Nat) : State :=
  match s.camps.find? fun k => k.ref = c with
  | none => s
  | some k =>
    if k.area.any fun a => n ≤ a.2 then s
    else
      let s1 := s.giveSave k.area
      match takeRange n s1.save with
      | some (a, r) => ({ s1 with save := r }).modCamp c fun k => { k with area := some (a, n) }
      | none => s

/-! ### The pack as bytes (R333 to R336) -/

/-- A number as a field at a bit. -/
def atBit (v lo : Nat) : Nat := v * 2 ^ lo

/-- Bytes padded with zeros to a length. -/
def padTo (n : Nat) (b : List Byte) : List Byte := b ++ List.replicate (n - b.length) 0

/-- A mask: the summary word, a bit for each mask word that is not zero, then the mask words (R334, 02 R27). -/
def maskImage (w : Nat) (m : Mask) : List Byte :=
  let v := m.toNat % 2 ^ w
  let sum := ((List.range (w / 32)).filter fun i => fld v (32 * i) 32 != 0).foldl (fun n i => n + 2 ^ i) 0
  padTo (maskBytes w) (leBytes 4 sum ++ leBytes (w / 8) v)

/-- A value of the lanes of a split: zero outside its mask. -/
def Troop.imageOf (t : Troop) (p : Split) (v i : Nat) : Nat :=
  if !inMask p.mask i then 0
  else ((((((t.lane i).frames.head?).map Frame.vals).getD []).find? fun q => q.1 = v).map fun q => q.2.image).getD 0

/-- A value record; `tile` is the record that an acc value names. -/
def Troop.valueRec (t : Troop) (w : Nat) (p : Split) (ty : Nat → Ty) (tile : Nat → Nat) (v : Nat) : List Byte :=
  let form := if v = iterVal then 2 else formOf (ty v)
  let lead := t.imageOf p v (((lanesOf w p.mask).head?).getD 0)
  let data : List Byte := match form with
    | 0 => (List.range w).flatMap fun i => leBytes 4 (t.imageOf p v i)
    | 1 => (List.range w).flatMap fun i => leBytes 8 (t.imageOf p v i)
    | 2 => leBytes 8 (if v = iterVal then (p.loop.map Loop.i).getD 0 else lead)
    | 3 => leBytes (pad8 (w / 8)) (((List.range w).filter fun i => t.imageOf p v i % 2 = 1).foldl (fun n i => n + 2 ^ i) 0)
    | _ => []
  leBytes 8 (atBit v 44 + atBit form 40 + (if form = 4 then tile lead else 0)) ++ data

/-- Position of a group in a troop's list of groups, 0xFFF for none. -/
def groupIndex (gs : List Group) (gid : Nat) : Nat := (gs.findIdx? fun g => g.gid = gid).getD 0xFFF

/-- A split record under a module. -/
def Troop.splitRec (t : Troop) (w : Nat) (m : Option Module) (st : Nat) (tile : Nat → Nat) (p : Split) : List Byte :=
  let is := (m.map fun m => m.items p.func).getD []
  let rt : Nat → List Ty := (m.map Module.rtypes).getD fun _ => []
  let ts := valTys rt is
  let vs := if st = 3 && p.mask = 0 then [] else livePoint rt is p.off
  leBytes 16 (atBit p.off 104 + atBit p.func 88 + atBit (groupIndex t.groups p.group) 76 + atBit vs.length 56 + st) ++
  maskImage w p.mask ++ vs.flatMap fun v => t.valueRec w p (fun v => (ts[v]?).getD .void) tile v

/-- A group record: a join at the function's end has no offset. -/
def groupRec (gs : List Group) (g : Group) : List Byte :=
  leBytes 8 (atBit (g.off.getD 0xFFFFFF) 40 + atBit g.func 24 + atBit (if g.parent = 0 then 0xFFF else groupIndex gs g.parent) 12)

/-- A troop record (R334). -/
def Troop.record (t : Troop) (w : Nat) (m : Option Module) (st : Nat → Nat) (tile : Nat → Nat) : List Byte :=
  let body := maskImage w t.live ++ maskImage w t.dead ++
    ((List.range w).flatMap fun i => leBytes 4 (t.lane i).sticky.toNat) ++
    ((List.range w).flatMap fun i => leBytes 8 (t.lane i).rand.toNat) ++
    (t.groups.flatMap (groupRec t.groups)) ++ t.splits.flatMap fun p => t.splitRec w m (st p.sid) tile p
  let lead := (((t.splits.head?).bind fun p => (lanesOf w p.mask).head?).getD 0)
  let fp := ((((t.lane lead).frames.head?).map Frame.fp).getD 0)
  leBytes 64 (atBit (64 + body.length) 480 + atBit t.splits.length 464 + atBit t.groups.length 452 + atBit t.mem 448 +
    atBit ((t.larr.map fun a => a.1.toNat).getD 0) 384 + atBit (boolN (t.larr.any Prod.snd)) 383 + atBit t.rope.toNat 320 +
    atBit t.stubv.toNat 256 + atBit t.proot 192 + atBit t.hwm 160 + atBit fp 64) ++ body

/-- An entry of the residency table (R336). -/
def Res.record32 (r : Res) : List Byte :=
  leBytes 32 (atBit r.trec.toNat 192 + atBit r.i0 160 + atBit r.i1 128 + atBit r.tk 119 + atBit r.tn 110 + atBit r.fmt.code 106 +
    atBit r.sc.code 103 + atBit (boolN r.pin) 102 + atBit (boolN r.stale.isSome) 101 + atBit r.gen 8 + r.num)

/-- The operand qwords of a command in portable order, and the instruction that takes them as its values 0, 1, … (R336). -/
def CopyCmd.operands (c : CopyCmd) : Instr × List Nat :=
  let opt (o : Option Nat) : List Nat := o.toList
  let b := c.bw.map BitVec.toNat
  let v := c.cv.map BitVec.toNat
  let w := c.want.map BitVec.toNat
  let at_ (n : Nat) (o : Option Nat) : Option Val := o.map fun _ => n
  let st := c.st.isSome || c.lq.isSome
  match c.kind with
  | .copy => (.copy st c.sc 0 1 2 (at_ 3 b) (at_ (3 + (opt b).length) v) (at_ (3 + (opt b).length + (opt v).length) w),
      [c.dst.toNat, c.src.toNat, c.len] ++ opt b ++ opt v ++ opt w)
  | .remote =>
    let l := c.loc.map BitVec.toNat
    let n := 3 + (opt l).length
    (.copyRemote st c.sc 0 1 2 (at_ 3 l) (at_ n b) (at_ (n + (opt b).length) v) (at_ (n + (opt b).length + (opt v).length) w),
      [c.dst.toNat, c.src.toNat, c.len] ++ opt l ++ opt b ++ opt v ++ opt w)
  | .tcopy var =>
    let n := 2 + c.org.length
    (.tcopy var st c.sc 0 1 ((List.range c.org.length).map fun i => 2 + i) (at_ n b) (at_ (n + (opt b).length) v)
      (at_ (n + (opt b).length + (opt v).length) w), [c.dst.toNat, c.trec.toNat] ++ c.org ++ opt b ++ opt v ++ opt w)

/-- A command record, with the running checksum given. -/
def CopyCmd.record16 (c : CopyCmd) (v : Nat) : List Byte :=
  let o := c.operands
  let bm := (c.landed.eraseDups.filter fun i => i < c.gran).foldl (fun n i => n + 2 ^ i) 0
  leBytes 16 (atBit ((encode o.1).headD 0) 96 + atBit c.gran 64 + atBit v 32 + atBit c.mem 28) ++
  padTo 80 (o.2.flatMap (leBytes 8)) ++ leBytes (8 * ((c.gran + 63) / 64)) bm

/-- A reduction entry. -/
def Orb.record32 (o : Orb) (troop : Nat) : List Byte :=
  leBytes 32 (atBit o.addr.toNat 192 + atBit o.v.toNat 128 + atBit o.off 104 + atBit o.func 88 + atBit troop 64 + atBit o.lane 54 +
    atBit o.ty.code 48 + atBit o.rm.code 46 + atBit (o.seq % 2 ^ 32) 14)

/-- A section that begins at a multiple of 256: its offset, 0 when it has no record, and the bytes so far with it. -/
def addSection (b sec : List Byte) : Nat × List Byte :=
  if sec.isEmpty then (0, b) else (pad256 b.length, padTo (pad256 b.length) b ++ sec)

end Sys2Proof.Machine
end

