-- ==== Sys2Proof/Machine/Integer.lean ====
section
/-! DEFINITION. Constants and the integer group (07 R156 to R160). -/

namespace Sys2Proof.Machine

/-- What every meaning answers. -/
abbrev Out := Host.Outcome State Fault Refusal

/-- One operand, an exact integer result wrapped to the type, no status. -/
def intUn (ty : Ty) (f : Int → Int) (a : Val) (s : State) : Out :=
  .next (s.defLanes fun _ l => (mkInt ty (f (l.int ty a)), 0))

/-- Two operands. -/
def intBin (ty : Ty) (f : Int → Int → Int) (a b : Val) (s : State) : Out :=
  .next (s.defLanes fun _ l => (mkInt ty (f (l.int ty a) (l.int ty b)), 0))

/-- Two operands, the exact result clamped; IS when the clamp changes it (R157). -/
def intSat (ty : Ty) (f : Int → Int → Int) (a b : Val) (s : State) : Out :=
  .next (s.defLanes fun _ l =>
    let x := f (l.int ty a) (l.int ty b)
    let c := if ty.signed then sat ty.width x else satu ty.width x
    (mkInt ty c, satFlag x c))

/-- Bit patterns combined. -/
def bitBin (ty : Ty) (f : Nat → Nat → Nat) (a b : Val) (s : State) : Out :=
  .next (s.defLanes fun _ l => (mkVal ty (f (l.nat a) (l.nat b)), 0))

/-- A pattern and a w32 amount. -/
def bitShift (ty : Ty) (f : Nat → Nat → Nat) (a k : Val) (s : State) : Out :=
  .next (s.defLanes fun _ l => (mkVal ty (f (l.nat a % 2 ^ ty.width) (l.nat k % 2 ^ 32)), 0))

/-- A count or rearrangement of a pattern's bits. -/
def bitUn (ty : Ty) (f : Nat → Nat → Nat) (a : Val) (s : State) : Out :=
  .next (s.defLanes fun _ l => (mkVal ty (f ty.width (l.nat a % 2 ^ ty.width)), 0))

/-- Truncating division of 07 R158. -/
def divInt (ty : Ty) (a b : Int) : Int := if b = 0 then -1 else wrap (ty.width + 1) (Int.tdiv a b)
def remInt (a b : Int) : Int := if b = 0 then a else Int.tmod a b

/-- Arithmetic or logical right shift: floor(a / 2^min(s, n)). -/
def shrInt (ty : Ty) (a : Int) (k : Nat) : Int := a / (2 ^ (min k ty.width) : Int)

def popcount : Nat → Nat → Nat
  | 0, _ => 0
  | n + 1, v => v % 2 + popcount n (v / 2)

def leadZeros (n v : Nat) : Nat := if v = 0 then n else n - 1 - Nat.log2 v

def trailZeros : Nat → Nat → Nat
  | 0, _ => 0
  | n + 1, v => if v % 2 = 1 then 0 else 1 + trailZeros n (v / 2)

def bitReverse : Nat → Nat → Nat
  | 0, _ => 0
  | n + 1, v => v % 2 * 2 ^ n + bitReverse n (v / 2)

def rotLeft (n a k : Nat) : Nat := a * 2 ^ (k % n) % 2 ^ n + a / 2 ^ (n - k % n)

/-- `bfx` (07 R159). -/
def bfxVal (ty : Ty) (a p l : Nat) : Int :=
  let n := ty.width
  let p1 := min p n
  let l1 := min l (n - p1)
  if l1 = 0 then 0 else if ty.signed then wrap l1 (fld a p1 l1) else fld a p1 l1

/-- `bfi` (07 R159). -/
def bfiVal (ty : Ty) (a b p l : Nat) : Nat :=
  let n := ty.width
  let p1 := min p n
  let l1 := min l (n - p1)
  a - fld a p1 l1 * 2 ^ p1 + fld b 0 l1 * 2 ^ p1

/-- Whether an integer condition holds (07 R160). -/
def ccHolds (cc : Cc) (a b : Int) : Bool :=
  match cc with
  | .eq => a = b
  | .ne => a != b
  | .lt => a < b
  | .le => a ≤ b
  | .gt => b < a
  | .ge => b ≤ a

/-- `const` (R156). -/
def execConst (ty : Ty) (v : W64) (s : State) : Out := .next (s.defLanes fun _ _ => (mkVal ty v.toNat, 0))

/-- Address of a symbol: the base kept with the module handle under which the troop runs, plus the offset (R156, 06 R140, R149). -/
def State.symbol (s : State) (sec : Sec) (off : BitVec 30) : Nat :=
  match s.module? s.sp.mh with
  | none => off.toNat
  | some m => ((match sec with
    | .data => m.dbase
    | .const => m.cbase
    | .tensor => m.tbase).toNat + off.toNat) % 2 ^ 64

/-- `const` of a symbol (R156). -/
def execConstSymbol (ty : Ty) (sec : Sec) (off : BitVec 30) (s : State) : Out :=
  .next (s.defLanes fun _ _ => (mkVal ty (s.symbol sec off), 0))

/-- `add`; with TY addr the sum wraps through the tag bits (R157). -/
def execAdd (ty : Ty) (a b : Val) (s : State) : Out := intBin ty (fun x y => x + y) a b s
/-- `sub` (R157). -/
def execSub (ty : Ty) (a b : Val) (s : State) : Out := intBin ty (fun x y => x - y) a b s
/-- `mul` (R157). -/
def execMul (ty : Ty) (a b : Val) (s : State) : Out := intBin ty (fun x y => x * y) a b s
/-- `mulhi`: bits [2n−1:n] of the exact product (R157). -/
def execMulhi (ty : Ty) (a b : Val) (s : State) : Out := intBin ty (fun x y => x * y / (2 ^ ty.width : Int)) a b s
/-- `mad` with one wrap (R157). -/
def execMad (ty : Ty) (a b c : Val) (s : State) : Out :=
  .next (s.defLanes fun _ l => (mkInt ty (l.int ty a * l.int ty b + l.int ty c), 0))
/-- `div` (R158). -/
def execDiv (ty : Ty) (a b : Val) (s : State) : Out :=
  .next (s.defLanes fun _ l => (mkInt ty (divInt ty (l.int ty a) (l.int ty b)), divFlag (l.int ty b)))
/-- `rem` (R158). -/
def execRem (ty : Ty) (a b : Val) (s : State) : Out :=
  .next (s.defLanes fun _ l => (mkInt ty (remInt (l.int ty a) (l.int ty b)), divFlag (l.int ty b)))
/-- `neg` (R157). -/
def execNeg (ty : Ty) (a : Val) (s : State) : Out := intUn ty (fun x => -x) a s
/-- `abs` (R157). -/
def execAbs (ty : Ty) (a : Val) (s : State) : Out := intUn ty (fun x => x.natAbs) a s
/-- `min` (R157). -/
def execMin (ty : Ty) (a b : Val) (s : State) : Out := intBin ty (fun x y => if y < x then y else x) a b s
/-- `max` (R157). -/
def execMax (ty : Ty) (a b : Val) (s : State) : Out := intBin ty (fun x y => if x < y then y else x) a b s
/-- `addsat` (R157). -/
def execAddsat (ty : Ty) (a b : Val) (s : State) : Out := intSat ty (fun x y => x + y) a b s
/-- `subsat` (R157). -/
def execSubsat (ty : Ty) (a b : Val) (s : State) : Out := intSat ty (fun x y => x - y) a b s
/-- `and` (R157). -/
def execAnd (ty : Ty) (a b : Val) (s : State) : Out := bitBin ty (fun x y => x &&& y) a b s
/-- `or` (R157). -/
def execOr (ty : Ty) (a b : Val) (s : State) : Out := bitBin ty (fun x y => x ||| y) a b s
/-- `xor` (R157). -/
def execXor (ty : Ty) (a b : Val) (s : State) : Out := bitBin ty (fun x y => x ^^^ y) a b s
/-- `not`: complement of the n-bit pattern (R157). -/
def execNot (ty : Ty) (a : Val) (s : State) : Out := bitUn ty (fun n x => 2 ^ n - 1 - x) a s
/-- `shl` (R159). -/
def execShl (ty : Ty) (a k : Val) (s : State) : Out :=
  bitShift ty (fun x n => if ty.width ≤ n then 0 else x * 2 ^ n) a k s
/-- `shr`: arithmetic for signed types, logical for unsigned (R159). -/
def execShr (ty : Ty) (a k : Val) (s : State) : Out :=
  .next (s.defLanes fun _ l => (mkInt ty (shrInt ty (l.int ty a) (l.nat k % 2 ^ 32)), 0))
/-- `rotl` (R159). -/
def execRotl (ty : Ty) (a k : Val) (s : State) : Out := bitShift ty (rotLeft ty.width) a k s
/-- `popc` (R159). -/
def execPopc (ty : Ty) (a : Val) (s : State) : Out := bitUn ty popcount a s
/-- `clz` (R159). -/
def execClz (ty : Ty) (a : Val) (s : State) : Out := bitUn ty leadZeros a s
/-- `ctz` (R159). -/
def execCtz (ty : Ty) (a : Val) (s : State) : Out := bitUn ty trailZeros a s
/-- `brev` (R159). -/
def execBrev (ty : Ty) (a : Val) (s : State) : Out := bitUn ty bitReverse a s
/-- `bfx` (R159). -/
def execBfx (ty : Ty) (a p l : Val) (s : State) : Out :=
  .next (s.defLanes fun _ x => (mkInt ty (bfxVal ty (x.nat a) (x.nat p % 2 ^ 32) (x.nat l % 2 ^ 32)), 0))
/-- `bfi` (R159). -/
def execBfi (ty : Ty) (a b p l : Val) (s : State) : Out :=
  .next (s.defLanes fun _ x =>
    (mkVal ty (bfiVal ty (x.nat a % 2 ^ ty.width) (x.nat b) (x.nat p % 2 ^ 32) (x.nat l % 2 ^ 32)), 0))
/-- `cmp`: signed order for class S, unsigned for unsigned types and addr (R160). -/
def execCmp (ty : Ty) (cc : Cc) (a b : Val) (s : State) : Out :=
  .next (s.defLanes fun _ l => (mkB (ccHolds cc (l.int ty a) (l.int ty b)), 0))
/-- `sel`: a when c = 1, b when c = 0 (R160). -/
def execSel (ty : Ty) (c a b : Val) (s : State) : Out :=
  .next (s.defLanes fun _ l => (mkVal ty (if l.bool c then l.nat a else l.nat b), 0))

end Sys2Proof.Machine
end

