-- ==== Sys2Proof/Machine/FloatOps.lean ====
section
/-! DEFINITION. The float group (07 R161 to R167). -/

namespace Sys2Proof.Machine

/-- One operand, per element for packed types. -/
def fltUn (ty : Ty) (g : FFmt → Nat → FRes) (a : Val) (s : State) : Out :=
  .next (s.defLanes fun _ l => let r := per1 ty g (l.nat a); (mkVal ty r.1, r.2))

/-- Two operands. -/
def fltBin (ty : Ty) (g : FFmt → Nat → Nat → FRes) (a b : Val) (s : State) : Out :=
  .next (s.defLanes fun _ l => let r := per2 ty g (l.nat a) (l.nat b); (mkVal ty r.1, r.2))

/-- `fadd` (R162). -/
def execFadd (ty : Ty) (rm : Rm) (a b : Val) (s : State) : Out := fltBin ty (fun f => fAdd f rm) a b s
/-- `fsub` (R162). -/
def execFsub (ty : Ty) (rm : Rm) (a b : Val) (s : State) : Out := fltBin ty (fun f => fSub f rm) a b s
/-- `fmul` (R162). -/
def execFmul (ty : Ty) (rm : Rm) (a b : Val) (s : State) : Out := fltBin ty (fun f => fMul f rm) a b s
/-- `fma`: one rounding (R162). -/
def execFma (ty : Ty) (rm : Rm) (a b c : Val) (s : State) : Out :=
  .next (s.defLanes fun _ l =>
    let r := per3 ty (fun f => fFma f rm) (l.nat a) (l.nat b) (l.nat c)
    (mkVal ty r.1, r.2))
/-- `fdiv` (R162). -/
def execFdiv (ty : Ty) (rm : Rm) (a b : Val) (s : State) : Out := fltBin ty (fun f => fDiv f rm) a b s
/-- `fsqrt` (R162). -/
def execFsqrt (ty : Ty) (rm : Rm) (a : Val) (s : State) : Out := fltUn ty (fun f => fSqrt f rm) a s
/-- `frsq` (R163). -/
def execFrsq (ty : Ty) (rm : Rm) (a : Val) (s : State) : Out := fltUn ty (fun f => fRsq f rm) a s
/-- `frcp` (R163). -/
def execFrcp (ty : Ty) (rm : Rm) (a : Val) (s : State) : Out := fltUn ty (fun f => fRcp f rm) a s
/-- `fexp2` (R163). -/
def execFexp2 (ty : Ty) (a : Val) (s : State) : Out := fltUn ty fExp2 a s
/-- `flog2` (R163). -/
def execFlog2 (ty : Ty) (a : Val) (s : State) : Out := fltUn ty fLog2 a s
/-- `fsin` (R163). -/
def execFsin (ty : Ty) (a : Val) (s : State) : Out := fltUn ty fSin a s
/-- `fcos` (R163). -/
def execFcos (ty : Ty) (a : Val) (s : State) : Out := fltUn ty fCos a s
/-- `ftanh` (R163). -/
def execFtanh (ty : Ty) (a : Val) (s : State) : Out := fltUn ty fTanh a s
/-- `fmin` (R164). -/
def execFmin (ty : Ty) (a b : Val) (s : State) : Out := fltBin ty fMin a b s
/-- `fmax` (R164). -/
def execFmax (ty : Ty) (a b : Val) (s : State) : Out := fltBin ty fMax a b s
/-- `fabs`: clears the sign bit, no status (R164). -/
def execFabs (ty : Ty) (a : Val) (s : State) : Out := fltUn ty (fun f x => (fAbs f x, 0)) a s
/-- `fneg`: inverts the sign bit, no status (R164). -/
def execFneg (ty : Ty) (a : Val) (s : State) : Out := fltUn ty (fun f x => (f.neg x, 0)) a s
/-- `fcopysign` (R164). -/
def execFcopysign (ty : Ty) (a b : Val) (s : State) : Out := fltBin ty (fun f x y => (fCopysign f x y, 0)) a b s
/-- `fcmp`: NV for a signalling NaN (R165). -/
def execFcmp (ty : Ty) (cc : Fcc) (a b : Val) (s : State) : Out :=
  .next (s.defLanes fun _ l =>
    let f := fmtOf ty
    (mkB (fCond f cc (l.nat a) (l.nat b)), snanFlag f [l.nat a, l.nat b]))
/-- `fclass` (R166). -/
def execFclass (ty : Ty) (a : Val) (s : State) : Out :=
  .next (s.defLanes fun _ l => (mkVal .w32 (fClass (fmtOf ty) (l.nat a)), 0))
/-- `fround`: only NV, for a signalling NaN (R167). -/
def execFround (ty : Ty) (rm : Rm) (a : Val) (s : State) : Out := fltUn ty (fun f => fRound f rm) a s

end Sys2Proof.Machine
end

