-- ==== Sys2Proof/Machine/Dxb.lean ====
section
/-! DEFINITION. Dual-exponent blocks: packing and values (03 R64 to R68). -/

namespace Sys2Proof.Machine

/-- Magnitude bits k of a DXB type (R64). -/
def dxbK : Ty → Nat
  | .dxb4 => 2
  | .dxb6 => 4
  | .dxb8 => 6
  | .dxb12 => 10
  | _ => 14

/-- Exponent pair of a block. -/
structure DPair where
  e0 : Nat
  e1 : Nat
  deriving DecidableEq, Repr

/-- Half-word image of a pair: E0 in the low byte (R65). -/
def DPair.nat (p : DPair) : Nat := p.e0 + 256 * p.e1

/-- A source of an element: format and pattern. -/
structure DSrc where
  f : FFmt
  x : Nat
  deriving DecidableEq, Repr

def DSrc.isZero (d : DSrc) : Bool := d.f.isZero d.x
def DSrc.isNan (d : DSrc) : Bool := d.f.isNan d.x

/-- `expo` of R67. -/
def DSrc.expo (d : DSrc) : Int :=
  if d.f.isInf d.x then 254 else (Nat.log2 (d.f.sig d.x) : Int) + d.f.ex d.x + 127

/-- Exponent pair of `pack_block` over the active sources of a block (R67). -/
def packPair (k : Nat) (xs : List DSrc) : DPair :=
  if xs.any DSrc.isNan then ⟨255, 255⟩
  else
    let nz := xs.filter fun d => !d.isZero
    match nz with
    | [] => ⟨0, 0⟩
    | d :: r =>
      let top := r.foldl (fun m x => max m x.expo) d.expo
      let e0 := (min (max top 0) 254).toNat
      ⟨e0, e0 - k⟩

/-- Magnitude of a source at a scale, rounded to nearest even; none for an infinity, which is above every value. -/
def scaled (k e : Nat) (d : DSrc) : Option Nat :=
  if d.f.isInf d.x then none
  else some (roundAt .ne false (d.f.sig d.x) (d.f.ex d.x) false ((e : Int) - 127 - ((k : Int) - 1))).1

/-- One element under a pair (R67): pattern, and whether it saturated. -/
def packElem (k : Nat) (p : DPair) (d : DSrc) : Nat × Bool :=
  if p.e0 = 255 || d.isZero then (0, false)
  else
    let top := 2 ^ k - 1
    let sgn (m : Nat) : Nat := if d.f.sign d.x && m != 0 then 2 ^ (k + 1) else 0
    let low : Nat × Bool := match scaled k p.e0 d with
      | some m0 => if top < m0 then (top, true) else (m0, false)
      | none => (top, true)
    match scaled k p.e1 d with
    | some m1 => if m1 ≤ top then (m1 + 2 ^ k + sgn m1, false) else (low.1 + sgn low.1, low.2)
    | none => (low.1 + sgn low.1, low.2)

/-- Conversion of an element out of DXB (R68, 07 R172). -/
def dxbTo (f : FFmt) (rm : Rm) (k pair e : Nat) : FRes :=
  let e0 := fld pair 0 8
  let e1 := fld pair 8 8
  if e0 = 255 || e1 = 255 then f.nan fNV
  else
    let m := fld e 0 k
    let q := fld e k 1
    if m = 0 then (0, 0)
    else roundTo f rm (fld e (k + 1) 1 = 1) m ((if q = 1 then e1 else e0 : Nat) - 127 - ((k : Int) - 1)) false

end Sys2Proof.Machine
end

