-- ==== Sys2Proof/Machine/Convert.lean ====
section
/-! DEFINITION. The conversion group (07 R168 to R172). -/

namespace Sys2Proof.Machine

/-- `cvt` of one value (07 R168): the source type is the operand's. -/
def cvtVal (ty : Ty) (clamp : Bool) (rm : Rm) (a : TVal) : TVal × W32 :=
  let n := ty.width
  if a.ty.isF || a.ty.isP then
    if ty.isP then
      let r := per1 a.ty (fun f x => fConv f (fmtOf ty) rm x) a.nat
      (mkVal ty r.1, r.2)
    else if ty.isF then
      let r := fConv (fmtOf a.ty) (fmtOf ty) rm a.nat
      (mkVal ty r.1, r.2)
    else
      let r := fToInt (fmtOf a.ty) rm ty.signed n a.nat
      (mkInt ty r.1, r.2)
  else
    let x := readInt a.ty a.nat
    if ty.isF then
      let r := fOfInt (fmtOf ty) rm x
      (mkVal ty r.1, r.2)
    else if ty == .b1 then (mkB (x != 0), 0)
    else if clamp then
      let c := if ty.signed then sat n x else satu n x
      (mkInt ty c, satFlag x c)
    else (mkInt ty x, 0)

/-- `cvt` (R168). -/
def execCvt (ty : Ty) (clamp : Bool) (rm : Rm) (a : Val) (s : State) : Out :=
  .next (s.defLanes fun _ l => cvtVal ty clamp rm (l.val a))

/-- `bitcast` (R169). -/
def execBitcast (ty : Ty) (a : Val) (s : State) : Out := .next (s.defLanes fun _ l => (mkVal ty (l.nat a), 0))

/-- `pack` (R170). -/
def execPack (ty : Ty) (lo hi : Val) (s : State) : Out :=
  .next (s.defLanes fun _ l =>
    let h := 2 ^ (ty.width / 2)
    (mkVal ty (l.nat lo % h + h * (l.nat hi % h)), 0))

/-- `unpack` (R170). -/
def execUnpack (ty : Ty) (a : Val) (s : State) : Out :=
  .next (s.defTuple fun _ l =>
    let h := 2 ^ (ty.width / 2)
    ([mkVal (elemTy ty) (l.nat a % h), mkVal (elemTy ty) (l.nat a / h)], 0))

/-- Source of a DXB element: the lane's float value. -/
def srcOf (l : Lane) (x : Val) : DSrc := ⟨fmtOf (l.val x).ty, l.nat x⟩

/-- Active sources of block `j` of a split (03 R66, R67). -/
def State.blockSrcs (s : State) (x : Val) (j : Nat) : List DSrc :=
  ((List.range 32).filter fun i => inMask s.sp.mask (32 * j + i)).map fun i => srcOf (s.tr.lane (32 * j + i)) x

/-- `dxb.pack` of elements (R171). -/
def execDxbPackElem (ty : Ty) (x : Val) (s : State) : Out :=
  .next (s.defLanes fun i l =>
    let k := dxbK ty
    let r := packElem k (packPair k (s.blockSrcs x (i / 32))) (srcOf l x)
    (mkVal ty r.1, flagIf r.2 fDX))

/-- `dxb.pack` of scales (R171): lane l receives the pair of block l. -/
def execDxbPackScale (ty : Ty) (hi : Bool) (x old : Val) (s : State) : Out :=
  .next (s.defLanes fun i l =>
    let o := l.nat old % 2 ^ 32
    if i < s.tr.width / 32 then
      let p := (packPair (dxbK ty) (s.blockSrcs x i)).nat
      (mkVal .w32 (if hi then o % 65536 + 65536 * p else o / 65536 * 65536 + p), 0)
    else (mkVal .w32 o, 0))

/-- `dxb.unpack` (R172): the operand's format gives k; the pair comes from lane l div 32 where the split holds it. -/
def execDxbUnpack (ty : Ty) (rm : Rm) (hi : Bool) (e sc : Val) (s : State) : Out :=
  .next (s.defLanes fun i l =>
    let j := i / 32
    let src := if inMask s.sp.mask j then (s.tr.lane j).nat sc else l.nat sc
    let r := dxbTo (fmtOf ty) rm (dxbK (l.val e).ty) (fld src (if hi then 16 else 0) 16) (l.nat e)
    (mkVal ty r.1, r.2))

end Sys2Proof.Machine
end

