-- ==== Sys2Proof/Machine/LaneOps.lean ====
section
/-! DEFINITION. The lane group (07 R173 to R177, 03 R74, R75). -/

namespace Sys2Proof.Machine

/-- Status of a lane that receives a value of a lane whose remote load failed (18 R404). -/
def lateFlag (l : Lane) : W32 :=
  match l.late with
  | none => 0
  | some x => if x.reason.isSome then fRN else fRT

/-- Source lane of `shfl`; none when it leaves the segment (R174). -/
def shflSrc (mode : ShMode) (seg l u : Nat) : Option Nat :=
  let base := l - l % seg
  match mode with
  | .pick => some (base + u % seg)
  | .slide =>
    let t : Int := (l : Int) + wrap 32 u
    if t < base || (base + seg : Nat) ≤ t then none else some t.toNat
  | .wheel => some (base + (l - base + u) % seg)
  | .flip => some (Nat.xor l (u % seg))

/-- `shfl` (R174); a dead source gives zero and SD. -/
def execShfl (ty : Ty) (mode : ShMode) (seg : Nat) (v d : Val) (s : State) : Out :=
  .next (s.defLanes fun i l =>
    let n := if seg = 0 then s.tr.width else min (2 ^ seg) s.tr.width
    let own := mkVal ty (l.nat v)
    match shflSrc mode n i (l.nat d % 2 ^ 32) with
    | none => (own, 0)
    | some t =>
      if inMask s.tr.dead t then (⟨ty, 0⟩, fSD)
      else if inMask s.sp.mask t then
        (mkVal ty ((s.tr.lane t).nat v), if t = i then 0 else lateFlag (s.tr.lane t))
      else (own, 0))

/-- Conditions of the active lanes, in lane order. -/
def State.votes (s : State) (c : Val) : List Bool :=
  (lanesOf s.tr.width s.sp.mask).map fun i => (s.tr.lane i).bool c

/-- Status from other lanes of the split whose remote load failed, for a lane that reads those that `f` names. -/
def State.lateFrom (s : State) (i : Nat) (f : Nat → Bool) : W32 :=
  (lanesOf s.tr.width s.sp.mask).foldl (fun w j => if j = i || !f j then w else w ||| lateFlag (s.tr.lane j)) 0

/-- The same for a lane that reads them all. -/
def State.lateOthers (s : State) (i : Nat) : W32 := s.lateFrom i fun _ => true

/-- `vote` (R175). -/
def execVote (op : VoteOp) (c : Val) (s : State) : Out :=
  .next (s.defLanes fun i _ =>
    let vs := s.votes c
    (mkB (match op with
      | .any => vs.any id
      | .all => vs.all id
      | .uni => vs.all id || !vs.any id), s.lateOthers i))

/-- `ballot` (R175). -/
def execBallot (word : Fin 32) (c : Val) (s : State) : Out :=
  .next (s.defLanes fun i _ =>
    let on := (List.range 32).filter fun j =>
      32 * word.val + j < s.tr.width && inMask s.sp.mask (32 * word.val + j) && (s.tr.lane (32 * word.val + j)).bool c
    (mkVal .w32 (on.foldl (fun v j => v + 2 ^ j) 0), s.lateFrom i fun j => j / 32 = word.val))

/-- The operation of `redux` and `scan` on two patterns (R176). -/
def redOp (ty : Ty) (op : RedOp) (rm : Rm) (a b : Nat) : FRes :=
  match op with
  | .add => (wrapu ty.width (readInt ty a + readInt ty b), 0)
  | .min => (if readInt ty b < readInt ty a then b else a, 0)
  | .max => (if readInt ty a < readInt ty b then b else a, 0)
  | .and => (a &&& b, 0)
  | .or => (a ||| b, 0)
  | .xor => (a ^^^ b, 0)
  | .fadd => per2 ty (fun f => fAdd f rm) a b
  | .fmin => per2 ty fMin a b
  | .fmax => per2 ty fMax a b

/-- `tree` of 03 R74 over `2^n` lanes from `lo`; none when no lane is present. A tree of one lane returns its bits as they are, a NaN too, with no status: R61 does not settle it (DESIGN CHOICE, log 33). -/
def redTree (op : Nat → Nat → FRes) (v : Nat → Option Nat) : Nat → Nat → Option FRes
  | 0, lo => (v lo).map fun x => (x, 0)
  | n + 1, lo =>
    match redTree op v n lo, redTree op v n (lo + 2 ^ n) with
    | some a, some b => let r := op a.1 b.1; some (r.1, r.2 ||| a.2 ||| b.2)
    | some a, none => some a
    | none, b => b

/-- Values of the active lanes for a tree. -/
def State.present (s : State) (v : Val) (ok : Nat → Bool) (i : Nat) : Option Nat :=
  if inMask s.sp.mask i && !inMask s.tr.dead i && ok i then some ((s.tr.lane i).nat v) else none

/-- `redux` (R176). -/
def execRedux (ty : Ty) (op : RedOp) (rm : Rm) (v : Val) (s : State) : Out :=
  let r := (redTree (redOp ty op rm) (s.present v fun _ => true) (Nat.log2 s.tr.width) 0).getD (0, 0)
  .next (s.defLanes fun i _ => (mkVal ty r.1, r.2 ||| s.lateOthers i))

/-- `scan` (R176): its own tree for each lane. -/
def execScan (ty : Ty) (op : RedOp) (rm : Rm) (excl : Bool) (v : Val) (s : State) : Out :=
  .next (s.defLanes fun i _ =>
    let low (j : Nat) : Bool := if excl then j < i else j ≤ i
    let r := (redTree (redOp ty op rm) (s.present v low) (Nat.log2 s.tr.width) 0).getD (0, 0)
    (mkVal ty r.1, r.2 ||| s.lateFrom i low))

/-- `fin` of 03 R75. -/
def randFin (z : W64) : W64 :=
  let a := (z ^^^ (z >>> 30)) * 0xBF58476D1CE4E5B9
  let b := (a ^^^ (a >>> 27)) * 0x94D049BB133111EB
  b ^^^ (b >>> 31)

/-- TROOP of the focused troop (02 R25). -/
def State.troopNum (s : State) : Nat := s.cp.ref.camp * s.lch.campsize + s.tr.mem

/-- One draw (03 R75). -/
def randDraw (region troop l : Nat) (seed counter : W64) : W64 :=
  randFin ((seed ^^^ BitVec.ofNat 64 (region * 2 ^ 40) ^^^ BitVec.ofNat 64 (troop * 2 ^ 10) ^^^ BitVec.ofNat 64 l)
    + counter * 0x9E3779B97F4A7C15)

/-- `rand` (R177): draws and advances the lane's counter. -/
def execRand (wide : Bool) (seed : Val) (s : State) : Out :=
  .next (s.doLanes fun i l =>
    let d := (randDraw s.lch.region s.troopNum i (l.val seed).v l.rand).toNat
    { l with rand := l.rand + 1 }.define s.ctx.dst (if wide then mkVal .w64 d else mkVal .w32 (d / 2 ^ 32)))

end Sys2Proof.Machine
end

