-- ==== Sys2Proof/Machine/Control.lean ====
section
/-! DEFINITION. Structure and control (08 R195 to R200, 02 R29 to R33). -/

namespace Sys2Proof.Machine

/-! ### Transfers -/

/-- The lanes of the executing split that satisfy a condition. -/
def State.lanesIf (s : State) (f : Lane → Bool) : Mask :=
  maskOf ((lanesOf s.tr.width s.sp.mask).filter fun i => f (s.tr.lane i))

/-- Binds the arguments of an edge to the target's parameters, all at once (R196). -/
def Lane.bind (l : Lane) (n : Nat) (e : Edge) : Lane := l.defines n (e.args.map l.val)

/-- Block of the running function. -/
def State.blockAt (s : State) (b : Nat) : At :=
  match s.module? s.sp.mh with
  | some m => m.block s.sp.func b
  | none => ⟨0, 1, 0, .block []⟩

/-- Join point of a transfer of the executing split (02 R30). -/
def State.joinHere (s : State) : Option Nat := (s.module? s.sp.mh).bind fun m => m.join s.sp.func s.sp.off

/-- A split that has moved waits when it stands at its join point (02 R31). -/
def Troop.arrived (t : Troop) (p : Split) : Split := if t.atJoin p (t.depth p.mask) then { p with st := .join } else p

/-- A uniform transfer moves the split (02 R29). -/
def State.goEdge (s : State) (e : Edge) : State :=
  let b := s.blockAt e.blk
  let s1 := { s with tr := { s.tr with lanes := onLanes s.sp.mask (fun _ l => l.bind b.val e) s.tr.lanes } }
  let p := s1.tr.arrived { s1.sp with off := b.off }
  if p.st = .join then { s1 with sp := p }.settle else { s1 with sp := p }

/-- The sibling group that a diverging transfer forms. -/
def State.newGroup (s : State) : Group :=
  ⟨s.tr.nextId, s.sp.group, s.sp.mh, s.sp.func, s.joinHere, depthKey s.sup (s.tr.depth s.sp.mask), none⟩

/-- The splits of the edges taken, numbered from `n`. -/
def State.siblings (s : State) (g : Nat) : Nat → List (Mask × Edge) → List Split
  | _, [] => []
  | n, (m, e) :: r => { s.sp with sid := n, mask := m, group := g, off := (s.blockAt e.blk).off } :: State.siblings s g (n + 1) r

/-- Binds the arguments of every edge in the lanes that take it. -/
def State.bindAll (s : State) (ts : List (Mask × Edge)) : State :=
  ts.foldl (fun s t => { s with
    tr := { s.tr with lanes := onLanes t.1 (fun _ l => l.bind (s.blockAt t.2.blk).val t.2) s.tr.lanes } }) s

/-- A transfer that is not uniform: one split for each target, and one at the transfer for the lanes of `bad` (02 R29, 08 R197). The focus is the last of these when there is one, else the first target. -/
def State.diverge (s : State) (ts : List (Mask × Edge)) (bad : Mask) : State :=
  let g := s.newGroup
  let n := g.gid + 1
  let s1 := s.bindAll ts
  let ps := s.siblings g.gid n ts
  let b := { s.sp with sid := n + ts.length, mask := bad, group := g.gid }
  let t := { s1.tr with groups := g :: s1.tr.groups, nextId := n + ts.length + 1 }
  let all := ps.map t.arrived ++ (if bad = 0 then [] else [b])
  ({ s1 with tr := { t with splits := t.splits ++ all } }.setTroop { t with splits := t.splits ++ all }
    (if bad = 0 then n else b.sid)).settle

/-- A transfer to the edges that lanes take; edges without lanes make no split. -/
def State.transfer (s : State) (ts : List (Mask × Edge)) : State :=
  match ts.filter fun t => t.1 != 0 with
  | [] => s
  | [t] => s.goEdge t.2
  | us => s.diverge us 0

/-- `br` (R196). -/
def execBr (e : Edge) (s : State) : Out := .next (s.goEdge e)

/-- `cbr` (R196). -/
def execCbr (c : Val) (e1 e0 : Edge) (s : State) : Out :=
  .next (s.transfer [(s.lanesIf fun l => l.bool c, e1), (s.lanesIf fun l => !l.bool c, e0)])

/-- Whether a lane's value equals a case word (R195, 06 R140). -/
def Lane.isCase (l : Lane) (ty : Ty) (v : Val) (k : W32) : Bool := l.nat v % 2 ^ ty.width = k.toNat % 2 ^ ty.width

/-- `switch` (R196). -/
def execSwitch (ty : Ty) (v : Val) (dflt : Edge) (cases : List (W32 × Edge)) (s : State) : Out :=
  .next (s.transfer
    ((s.lanesIf fun l => !(cases.any fun c => l.isCase ty v c.1), dflt) ::
      cases.map fun c => (s.lanesIf fun l => l.isCase ty v c.1, c.2)))

/-- `brx` (R197): lanes whose index has no edge take BRX. -/
def execBrx (i : Val) (es : List Edge) (s : State) : Out :=
  let ts := ((List.range es.length).zip es).map fun e => (s.lanesIf fun l => l.nat i = e.1, e.2)
  let bad := s.lanesIf fun l => es.length ≤ l.nat i
  let x : W64 := BitVec.ofNat 64 es.length
  .next (if bad = 0 then s.transfer ts
    else if s.sp.mask &&& ~~~bad = 0 then s.takeTrap cBRX bad x
    else (s.diverge (ts.filter fun t => t.1 != 0) bad).takeTrap cBRX bad x)

/-! ### Barrier arrivals, exits and what they wait for (17 R393, 18 R407) -/

/-- The remote command that may still set status in lanes of the focused troop. -/
def State.dueCmd (s : State) (m : Mask) : Option Nat :=
  (s.cp.cmds.find? fun c => c.kind = .remote && c.mem = s.tr.mem && inMask m c.lane).map CopyCmd.id

/-- XADDR of DEADLANE (18 R402). -/
def Troop.deadAddr (t : Troop) : W64 :=
  BitVec.ofNat 64 ((t.newDead.foldl Nat.min 1023) + 2 ^ 10 * t.newDead.length)

/-- What a barrier arrival or an exit of the lanes of `m` does first: wait for due bits, DEADLANE, then STICKY or HEADROOM (R407); none when nothing is due. -/
def State.gate (s : State) (m : Mask) : Option State :=
  match s.dueBits m, s.dueCmd m with
  | some q, _ => some (s.awaitReq q)
  | none, some c => some { s with sp := { s.sp with st := .command c } }
  | none, none =>
    if !s.tr.newDead.isEmpty then some (s.takeTrap cDEADLANE m s.tr.deadAddr)
    else
      let rs := maskOf ((lanesOf s.tr.width m).filter fun i => (s.tr.lane i).reports)
      let bits := s.tr.reportBits rs
      if rs = 0 then none
      else some (s.takeTrap (if bits &&& fAS != 0 then cHEADROOM else cSTICKY) rs (bits.setWidth 64))

/-- `exit` in a handler (18 R398, R399): an UNHANDLED event for report bits, and the trap area goes with the last split. -/
def State.supExit (s : State) : State :=
  let bits := s.tr.reportBits s.sp.mask
  let reason := if bits &&& fAS != 0 then cHEADROOM else cSTICKY
  let s1 := if bits = 0 then s
    else s.postLeaf s.cp.ref.lid 0x06 reason s.src (s.evBody 0 s.sp.func s.sp.off bits.toNat)
  ({ s1 with trapFree := s1.trapFree + (if s1.trapShared then 0 else 1) }).leaveLanes s1.sp.mask

/-- The lanes of the executing split leave by `exit` (08 R199). -/
def State.exitLanes (s : State) : State :=
  if s.sup then s.supExit
  else match s.gate s.sp.mask with
    | some s1 => s1
    | none => s.leaveLanes s.sp.mask

/-- `exit` (R199). -/
def execExit (s : State) : Out := .next s.exitLanes

/-! ### Calls (R198, 10 R251) -/

/-- The running activation of the executing split. -/
def State.topFrame (s : State) : Frame := (s.tr.lane s.lead).frames.headD (handlerFrame s.sp.mh s.sp.func)

/-- Frame limit: the frame area, or the trap area in supervisor mode (18 R397). -/
def State.frameLimit (s : State) : Nat := if s.sup then 4096 else 65536


/-- WINDOW with SUB FRAME in the calling lanes. -/
def State.frameTrap (s : State) (fp : Nat) : State := s.trapAll cWINDOW (memAddr (privVa fp) 5 3 s.lead)

/-- Enters the callee at its block 0. -/
def State.enterFunc (s : State) (f : Nat) (args : List Val) (fp : Nat) : State :=
  let p := ((s.module? s.sp.mh).map fun m => (m.block f 0).val).getD 0
  let enter (l : Lane) : Lane :=
    { l with frames := (⟨s.sp.mh, f, s.sp.off, s.ctx.next, s.ctx.dst, fp, false, [], false⟩ : Frame) :: l.frames }
  { s with
    tr := { s.tr with lanes := onLanes s.sp.mask (fun _ l => (enter l).defines p (args.map l.val)) s.tr.lanes }
    sp := { s.sp with func := f, off := 0, scal := setNum 31 (BitVec.ofNat 64 fp) s.sp.scal } }

/-- `call` (R198): WINDOW when the callee's frame passes the area, PRIVGROW when its pages are not mapped; else the caller's values go to their spill and save slots, the link is written, and the callee is entered (10 R250, R251). -/
def State.callTo (s : State) (f : Nat) (args : List Val) : State :=
  let fp := s.topFrame.fp
  let m := s.frameMapOf s.sp.mh s.sp.func
  let nfp := frameAbove fp m.size
  if s.frameLimit < nfp + s.frameOf s.sp.mh f then s.frameTrap nfp
  else match s.frameReady nfp (s.frameMapOf s.sp.mh f).imageBase with
    | .done s1 => s1
    | .go s1 _ => (s1.frameStore (s1.slotWrites fp (m.spillSlots ++ m.saveSlots) ++
        s1.linkWrites nfp (linkWord fp s.sp.func s.ctx.next s.tr.budget s.tr.tiles))).enterFunc f args nfp

/-- `call`. -/
def execCall (f : Nat) (args : List Val) (s : State) : Out := .next (s.callTo f args)

/-- Pops the running activation of a lane and defines the results in the caller. -/
def Lane.return (l : Lane) (vs : List Val) : Lane :=
  match l.frames with
  | f :: r => ({ l with frames := r } : Lane).defines f.resNum (vs.map l.val)
  | [] => l

/-- Whether the group of the split waits at the end of the running function (02 R30). -/
def State.endsHere (s : State) : Bool :=
  match s.tr.group? s.sp.group with
  | some g => g.off.isNone && g.mh = s.sp.mh && g.func = s.sp.func &&
      g.depth = depthKey s.sup (s.tr.depth s.sp.mask)
  | none => false

/-- Returns to the caller: a split whose group ends with the function waits for its siblings. -/
def State.returnTo (s : State) (vs : List Val) : State :=
  let f := s.topFrame
  let c := ((s.tr.lane s.lead).frames.drop 1).headD f
  let w := s.endsHere
  let s1 := { s with
    tr := { s.tr with lanes := onLanes s.sp.mask (fun _ l => l.return vs) s.tr.lanes }
    sp := { s.sp with
      mh := c.mh, func := c.func, off := f.retOff
      scal := setNum 31 (BitVec.ofNat 64 c.fp) s.sp.scal, st := if w then .join else s.sp.st } }
  if w then s1.settle else s1

/-- `ret` (R198): `exit` in the function of launch and of a handler; else the link is read and the lanes return. -/
def State.retFunc (s : State) (vs : List Val) : State :=
  let f := s.topFrame
  if f.root then s.exitLanes
  else if s.sup then s.returnTo vs
  else match s.prepare ⟨8, 2, 8, needR, 3⟩ ((lanesOf s.tr.width s.sp.mask).map fun l => (l, privVa f.fp)) with
    | .done s1 => s1
    | .go s1 _ => s1.returnTo vs

/-- `ret`. -/
def execRet (vs : List Val) (s : State) : Out := .next (s.retFunc vs)

/-! ### `trap`, `brk` (R200) -/

/-- `trap`: TRAP with the code in XADDR. -/
def execTrap (code : Byte) (s : State) : Out := .next (s.trapAll cTRAP (code.setWidth 64))

/-- Whether a debugger is attached to the troop's leaf (18 R412). -/
def State.attached (s : State) : Bool := s.dbgs.any fun d => d.region = s.lch.region

/-- Stops the focused split, and every other split of its troop with cause 0 (18 R413, R414). -/
def State.stopHere (s : State) (c : StopCause) : State :=
  { s with
    sp := { s.sp with stop := some c, toPoint := false }
    tr := { s.tr with splits := s.tr.splits.map fun p => if p.stop.isSome then p else { p with stop := some .other } } }

/-- `brk`: BREAK under a debugger, once for each time it is reached; nothing otherwise, and nothing in a handler. -/
def execBrk (s : State) : Out :=
  .next (if s.attached && !s.sup && !s.sp.passBrk then s.stopHere .brk
    else { s.advance with sp := { s.advance.sp with passBrk := false } })

end Sys2Proof.Machine
end

