-- ==== Sys2Proof/Machine/MemoryOps.lean ====
section
/-! DEFINITION. Loads, stores, atomics, fences, prefetches and tier hints (08 R179 to R187). -/

namespace Sys2Proof.Machine

/-- `ld` (R181). -/
def execLd (ty : Ty) (m : MemOpnd) (s : State) : Out := .next (s.loadLanes ty 1 m)

/-- `st` (R181). -/
def execSt (ty : Ty) (m : MemOpnd) (v : Val) (s : State) : Out := .next (s.storeLanes ty 1 m fun l => [l.nat v])

/-- `ldv` (R182). -/
def execLdv (ty : Ty) (n : Nat) (m : MemOpnd) (s : State) : Out := .next (s.loadLanes ty (2 ^ n) m)

/-- `stv` (R182). -/
def execStv (ty : Ty) (n : Nat) (m : MemOpnd) (vs : List Val) (s : State) : Out :=
  .next (s.storeLanes ty (2 ^ n) m fun l => vs.map l.nat)

/-- `atom` (R183 to R185). -/
def execAtom (ty : Ty) (op : AtomOp) (m : MemOpnd) (v : Val) (new : Option Val) (s : State) : Out :=
  .next (s.atomAll op ty m v new)

/-- The stamp that a `.sc` fence of the split takes (05 R114). -/
def State.fenceStamp (s : State) : W64 :=
  (lanesOf s.tr.width s.sp.mask).foldl (fun t i => maxW t (s.stampOf (s.tr.lane i))) s.stamp

/-- A `.sc` fence taken at a stamp. -/
def State.takeStamp (s : State) (t : W64) : State :=
  { s with
    gseen := maxW s.gseen t
    tr := { s.tr with lanes := onLanes s.sp.mask (fun _ l => { l with seen := maxW t s.gseen }) s.tr.lanes } }

/-- The effect of a fence at an order (05 R112, R114): a releasing one waits for the lanes' stores. -/
def State.fenceAt (s : State) (o : Ord) : State :=
  match s.fenceWait o s.sp.mask with
  | some t => t
  | none => (if o == .sc then s.takeStamp s.fenceStamp else s.exchange o s.sp.mask).advance

/-- `fence` (R186); every scope is met by a wait for the commit of all earlier stores. -/
def execFence (ord : Ord) (_sc : Scope) (s : State) : Out := .next (s.fenceAt ord)

/-- `prefetch` (R187): no value that an agent reads depends on the caches. -/
def execPrefetch (_llc : Bool) (_a : Val) (s : State) : Out := .next s.advance

/-! ### Granules of migrate ranges (R187, 04 R99) -/

/-- Children of an internal node that keeps the rules of 04 R89. -/
def nodeKids (n : Nat) : List Nat :=
  if (nodeChild n 0).isSome then (List.range (fld n 0 4)).map fun i => fld n (512 + 64 * i) 64 else []

/-- The valid descriptors below a node pointer. -/
def State.descs (s : State) : Nat → Nat → List RangeDesc
  | 0, _ => []
  | depth + 1, p =>
    if p % 2 = 0 then
      if physOk p then (nodeKids (memNat s.mem p 256)).flatMap (State.descs s depth) else []
    else if physOk (p - 1) then
      ((List.range 8).map fun i => RangeDesc.ofNat (memNat s.mem (p - 1 + 32 * i) 32)).filter fun d => d.kind != 0 && !s.badDesc d
    else []

/-- Mapped granules of a paged range inside [lo, hi): virtual page address, address of its level-2 entry, entry. -/
def State.granules (s : State) (d : RangeDesc) (lo hi : Nat) : List (Nat × Nat × Nat) :=
  let b := (max lo d.base - d.base) / 65536
  let e := (min hi d.limit - d.base + 65535) / 65536
  if min hi d.limit ≤ max lo d.base then []
  else
    (List.range (e / 8192 + 1 - b / 8192)).flatMap fun k =>
      let i := b / 8192 + k
      let e1 := memNat s.mem (d.target + 8 * i) 8
      if e1 % 2 = 0 then []
      else
        let t := fld e1 16 32 * 65536
        let j0 := if i = b / 8192 then b % 8192 else 0
        let j1 := if i = e / 8192 then e % 8192 else 8192
        ((List.range (j1 - j0)).map fun j => (d.base + (8192 * i + j0 + j) * 65536, t + 8 * (j0 + j), memNat s.mem (t + 8 * (j0 + j)) 8)).filter
          fun x => x.2.2 % 2 = 1

/-- Mapped granules of the migrate ranges of a tree inside [lo, hi). -/
def State.migGranules (s : State) (tree lo hi : Nat) : List (Nat × Nat × Nat) :=
  ((s.descs 8 tree).filter fun d => d.kind = 2 && s.tierOf tree d = 0).flatMap fun d =>
    (s.granules d lo hi).filter fun x => (s.lookup tree x.1).toOption = some d

/-- Sets the counters of the granules that overlap the span. -/
def State.setCounters (s : State) (tree a len v : Nat) : State :=
  if len = 0 || tagOf a != 0 then s
  else
    let gs := s.migGranules tree (a / 65536 * 65536) (a + len)
    { s with counters := gs.foldl (fun c g => setNum (fld g.2.2 16 32) v c) s.counters }

/-- `tier` (R187), for the span of each active lane. -/
def execTier (cap : Bool) (a len : Val) (s : State) : Out :=
  let s1 := (lanesOf s.tr.width s.sp.mask).foldl
    (fun t l => t.setCounters s.lch.tree ((s.tr.lane l).nat a) ((s.tr.lane l).nat len) (if cap then 0 else 255)) s
  .next s1.advance

end Sys2Proof.Machine
end

