-- ==== Sys2Proof/Machine/Sync.lean ====
section
/-! DEFINITION. Barrier instructions (08 R188 to R194, 05 R115 to R117, 02 R33). -/

namespace Sys2Proof.Machine

/-! ### Operands (R188, R189) -/

/-- Access of a barrier word. -/
def accWord : Acc := ⟨8, 1, 8, needA, 2⟩

/-- Whether a named word can be read here and is invalid: BARWORD comes before BARARG (17 R388). -/
def State.wordBad (s : State) (a : Nat) : Bool :=
  tagOf a != 0xFC && match s.check s.lead a accWord with
    | .ok (.peer _ _ :: _) => false
    | .ok (p :: _) => !wordOk (s.readPlace p 8)
    | _ => false

/-- Checks a barrier word's address (R188): the private window is not accepted. -/
def State.wordPlace (s : State) (a : Nat) : Prep (List Spot) :=
  if tagOf a = 0xFC then .done (s.trapOnce ⟨cWINDOW, 6, a⟩ 2) else s.prepareOnce accWord a

/-- The checks of a barrier instruction in the order of R388: BARWORD where the content matters, BARARG, then memory causes. -/
def State.wordOperand (s : State) (a : Nat) (valid : Bool) (arg : Option Nat) (lo hi : Nat) : Prep Spot :=
  let bad := match arg with
    | some n => n < lo || hi < n
    | none => false
  if valid && s.wordBad a then .done (s.operand 0x01 0 0)
  else if bad then .done (s.operand 0x02 1 (arg.getD 0))
  else match s.wordPlace a with
    | .done t => .done t
    | .go t (p :: _) => .go t p
    | .go t [] => .done t

/-- PRIV of a barrier instruction in supervisor mode (18 R398). -/
def State.userOnly (s : State) (op sx : Nat) (k : State → State) : State := if s.sup then s.priv op sx else k s

/-- A troop-unit instruction: the split waits until every split of the troop is there, and they fuse (02 R33). -/
def State.troopUnit (s : State) (op : Nat) (k : State → State) : State :=
  s.userOnly op 0 fun s =>
    if s.converged then k s else { s with sp := { s.sp with st := .converge s.sp.off } }.settle

/-- Holds until every store of the lanes has committed, and what they have sent to peers is answered. -/
def State.afterStores (s : State) (m : Mask) (k : State → State) : State := (s.fenceWait .rel m).getD (k s)

/-- Holds until every access of the lanes is bound or committed, with what Fusion and Rendezvous order before it (05 R110). -/
def State.afterAll (s : State) (m : Mask) (k : State → State) : State := (s.orderWait .rel m).getD (k s)

/-- Goes on with a word once no store that overlaps it is on its way and its completion is over (04 R102, 05 R109, R116). -/
def State.onWord (s : State) (p : Spot) (k : State → State) : State := (s.waitFirst .rlx 8 [(s.lead, [p])]).getD (k s)

/-- The barrier word's offset in the portable order of an operand that a lane gives. -/
def State.barAddr (s : State) (b : Val) : Nat := s.scalar b

/-- Sends the operation of a barrier word that lies with a peer (R188); the split waits for the answer. -/
def State.wordRequest (s : State) (k : Nat) (wa a : Nat) (kind : AccKind) : State :=
  let seen := (s.tr.lane s.lead).seen
  match s.request k wa a 8 (.barrier s.spRef) kind seen with
  | some t => t.awaitPeers
  | none => (s.linkFault k wa).trapAll cREMOTE (memAddr a 5 2 s.lead)

/-! ### Ends of the instructions -/

/-- Defines one b1 value in the active lanes and goes on. -/
def State.defB1 (s : State) (b : Bool) : State := s.defLanes fun _ _ => (mkB b, 0)

/-- The acquire that a wait ends with (R192): the lanes meet the Groundsheet's SEEN. -/
def State.acquired (s : State) : State := s.exchange .acq s.sp.mask

/-- The last-arrival record (R191). -/
def State.noteArrival (s : State) (a : Nat) (ph : Bool) : State :=
  { s with tr := { s.tr with larr := some (BitVec.ofNat 64 a, ph) } }

/-- Waits for the phase to differ from a reference, with the phase just read (R192). -/
def State.waitPhase (s : State) (a : Nat) (ph ref : Bool) : State :=
  if ph != ref then s.acquired.advance
  else { s with sp := { s.sp with st := .barrier (BitVec.ofNat 64 a) ref } }

/-- Reference phase of `bar.wait` (R192). -/
def State.refPhase (s : State) (a : Nat) (ph : Option Val) (now : Bool) : Bool :=
  match ph, s.tr.larr with
  | some v, _ => (s.tr.lane s.lead).bool v
  | none, some (b, p) => if b = BitVec.ofNat 64 a then p else now
  | none, none => now

/-- What an arrival does after the word was updated and shows phase `now`: the forms that wait go on to wait (R191, R193). -/
def State.arrivedAt (s : State) (a : Nat) (old now wait : Bool) : State :=
  let s1 := s.noteArrival a old
  if wait then s1.waitPhase a now old else s1.defB1 old

/-- An arrival with `n` bytes declared (R191): checks, reports, then the update. -/
def State.arrival (s : State) (b : Val) (n : Option Val) (wait : Bool) : State :=
  let a := s.barAddr b
  s.afterAll s.tr.live fun s =>
    match s.wordOperand a true (n.map s.scalar) 0 (2 ^ 24 - 1) with
    | .done t => t
    | .go s p => s.onWord p fun s => match s.gate s.tr.live with
      | some t => t
      | none =>
        let e := s.scalarD n
        match p with
        | .peer k wa => s.wordRequest k wa a (.bar e)
        | p =>
          let old := fld (s.readPlace p 8) 63 1 = 1
          let s1 := s.exchange .rel s.sp.mask
          let s2 := { s1 with cp := s1.cp.arriveOrb s1.tr.mem (spotKey p) }
          let s3 := (s2.updateWord s2.cp.ref p fun w => w.arrive e).1
          s3.arrivedAt a old (fld (s3.readPlace p 8) 63 1 = 1) wait

/-- Whether a command of the troop may still read source bytes (R193): granules neither landed nor sent, of a command that has not stopped. -/
def State.readsLeft (s : State) : Bool :=
  s.cp.cmds.any fun c => c.mem = s.tr.mem &&
    (List.range c.gran).any fun g =>
      !c.landed.contains g && (c.stopAt.all fun p => g < p) && !(s.reqs.any fun q => match q.by_ with
        | .granule r k h => r = s.cp.ref && k = c.id && h = g
        | _ => false)

/-! ### The instructions -/

/-- `bar.init` (R190): a release store of a valid word. -/
def execBarInit (sc : Scope) (b e : Val) (s : State) : Out :=
  .next (s.userOnly 0xB0 sc.code fun s =>
    let a := s.barAddr b
    let n := s.scalar e
    s.afterAll s.sp.mask fun s =>
      match s.wordOperand a false (some n) 1 4095 with
      | .done t => t
      | .go s p => s.onWord p fun s =>
        let w : BWord := ⟨false, n, n, 0, sc.code⟩
        match p with
        | .peer k wa => s.wordRequest k wa a (.store (leBytes 8 w.toNat))
        | p => ((s.exchange .rel s.sp.mask).putWord p w).advance)

/-- `bar.arrive` (R191). -/
def execBarArrive (b : Val) (n : Option Val) (s : State) : Out :=
  .next (s.troopUnit 0xB1 fun s => s.arrival b n false)

/-- `bar.wait` (R192). -/
def execBarWait (b : Val) (ph : Option Val) (s : State) : Out :=
  .next (s.troopUnit 0xB2 fun s =>
    let a := s.barAddr b
    s.afterStores s.sp.mask fun s =>
      match s.wordOperand a true none 0 0 with
      | .done t => t
      | .go s p => s.onWord p fun s => match p with
        | .peer k wa => s.wordRequest k wa a .load
        | p =>
          let now := fld (s.readPlace p 8) 63 1 = 1
          s.waitPhase a now (s.refPhase a ph now))

/-- `bar.try` (R192). -/
def execBarTry (b ph : Val) (s : State) : Out :=
  .next (s.userOnly 0xB3 0 fun s =>
    let a := s.barAddr b
    s.afterStores s.sp.mask fun s =>
      match s.wordOperand a true none 0 0 with
      | .done t => t
      | .go s p => s.onWord p fun s => match p with
        | .peer k wa => s.wordRequest k wa a .load
        | p =>
          let on := (fld (s.readPlace p 8) 63 1 = 1) != (s.tr.lane s.lead).bool ph
          (if on then s.acquired else s).defB1 on)

/-- `bar.sync` (R193). -/
def execBarSync (b : Val) (n : Option Val) (s : State) : Out :=
  .next (s.troopUnit 0xB4 fun s => s.arrival b n true)

/-- `step.sync` (R193): first the source reads of the troop's commands. -/
def execStepSync (b : Val) (n : Option Val) (s : State) : Out :=
  .next (s.troopUnit 0xB5 fun s =>
    if s.readsLeft then { s with sp := { s.sp with st := .srcReads } } else s.arrival b n true)

/-! ### Answers of peers about barrier words (R188, R192) -/

/-- Finds the instruction of the focused split again, after a wait. -/
def State.setCtx (s : State) : State :=
  match s.itemAt s.sp.mh s.sp.func s.sp.off with
  | some a => { s with ctx := ⟨a.val, a.off + 4 * a.len⟩ }
  | none => s

/-- What a peer's answer does to the split that waits for it with a barrier word or a tensor record, in the focus: `d` is the word before the update, or the record. -/
def State.wordAnswer (s : State) (d : List Byte) : State :=
  let on := fld (leNat d) 63 1 = 1
  let s := s.setCtx
  match s.sp.st with
  | .barrier _ ref =>
    let t := { s with sp := { s.sp with st := .ready } }
    if on = ref then s
    else if s.sp.nat.isSome then { t.acquired with sp := { t.acquired.sp with arrived := true } }
    else t.acquired.advance
  | .peer _ =>
    let s := { s with sp := { s.sp with st := .ready } }
    if s.sp.nat.isSome then
      (if d.length ≤ 8 then { s with sp := { s.sp with word := some (leNat d) } }
       else { s with sp := { s.sp with peerRec := some d } })
    else match (s.itemAt s.sp.mh s.sp.func s.sp.off).map At.item with
    | some (.instr (.barInit _ _ _)) => s.advance
    | some (.instr (.barArrive b _)) => (s.noteArrival (s.barAddr b) on).defB1 on
    | some (.instr (.barSync b _)) | some (.instr (.stepSync b _)) =>
      (s.noteArrival (s.barAddr b) on).waitPhase (s.barAddr b) on on
    | some (.instr (.barWait b ph)) => s.waitPhase (s.barAddr b) on (s.refPhase (s.barAddr b) ph on)
    | some (.instr (.barTry _ ph)) =>
      let d := on != (s.tr.lane s.lead).bool ph
      (if d then s.acquired else s).defB1 d
    | _ => { s with sp := { s.sp with peerRec := some d } }
  | _ => s

end Sys2Proof.Machine
end

