-- ==== Sys2Proof/Machine/System.lean ====
section
/-! DEFINITION. System instructions but for `yield` and `xret` (08 R201 to R209, 11 R286, 14 R343). -/

namespace Sys2Proof.Machine

/-- DIEKIND of a core (01 R17). -/
def diekindOf (k : CoreId) : Nat := k.die * 2 ^ 24 + k.cl * 2 ^ 16 + k.core * 2 ^ 12 + dieRev k.die * 2 ^ 8 + dieKind k.die

/-- OPREQ of a core (R203). -/
def Core.opreq (c : Core) : Nat :=
  c.cur % 8 + 2 ^ 8 * ((c.mail.getD c.tgt) % 8) + 2 ^ 11 * boolN c.mail.isSome

/-- Summary word of a hierarchical mask (02 R26). -/
def maskSummary (m : Mask) : Nat :=
  (List.range 32).foldl (fun v j => if fld m.toNat (32 * j) 32 != 0 then v + 2 ^ j else v) 0

/-- Registers that only supervisor mode reads (R202, 18 R401). -/
def Sup.reg (x : Sup) : SysReg → Nat
  | .xpc => x.func * 2 ^ 24 + x.off
  | .xcause => x.cause.toNat
  | .xaddr => x.addr.toNat
  | .xmaskSum => maskSummary x.mask
  | .xmask j => fld x.mask.toNat (32 * j.val) 32
  | _ => 0

/-- The value that lane `i` reads of a register (R202). -/
def State.sysReg (s : State) (r : SysReg) (i : Nat) : Nat :=
  match r with
  | .laneid => i
  | .width => s.tr.width
  | .troopid => s.troopNum
  | .campid => s.cp.ref.camp + 2 ^ 24 * s.tr.mem
  | .regionid => s.lch.region
  | .diekind => diekindOf s.cp.core
  | .stamp => s.stamp.toNat
  | .rope => s.tr.rope.toNat
  | .xstat => (s.tr.lane i).sticky.toNat
  | .opreq => (s.coreOf s.cp.core).opreq
  | .stubv => if s.sup then s.tr.stubv.toNat else 0
  | r => match s.sp.sup with
    | some x => x.reg r
    | none => 0

/-- `sys.rd` (R202). -/
def execSysRd (r : SysReg) (s : State) : Out :=
  .next (s.defLanes fun i _ => (mkVal r.ty (s.sysReg r i), 0))

/-- `sys.wr XSTAT` (R202): each 1 clears that bit in the lane. -/
def execSysWrXstat (v : Val) (s : State) : Out :=
  .next (if s.sup then s.doLanes fun _ l => { l with sticky := l.sticky &&& ~~~(l.val v).v.setWidth 32 }
    else s.priv 0xF1 0x0A)

/-- Asks every split of the focused troop to enter the stub at its next point (11 R286). -/
def State.requestStub (s : State) : State :=
  { s with
    sp := { s.sp with rq := true }
    tr := { s.tr with stubv := s.tr.stubv ||| 1, splits := s.tr.splits.map fun p => { p with rq := true } } }

/-- `sys.wr STUBV` (R202): RQ is set by a 1 of any active lane. -/
def execSysWrStubv (v : Val) (s : State) : Out :=
  .next (if s.sup then
      (if (lanesOf s.tr.width s.sp.mask).any fun i => (s.tr.lane i).nat v % 2 = 1 then s.requestStub else s).advance
    else s.priv 0xF1 0x0D)

/-- `stamp.w64` (R205): one reading for the split. -/
def execStamp (s : State) : Out := .next (s.defLanes fun _ _ => (mkVal .w64 s.stamp.toNat, 0))

/-- `stamp.w64.sc` (R205). -/
def execStampSc (s : State) : Out :=
  .next (match s.fenceWait .sc s.sp.mask with
    | some t => t
    | none =>
      let x := s.fenceStamp
      (s.takeStamp x).defLanes fun _ _ => (mkVal .w64 x.toNat, 0))

/-- Invalidates what one lane names (R208): nothing is held of private mappings. -/
def State.invLane (s : State) (die : Option Nat) (a len : Nat) : State :=
  if len = 0 then s.tlbDrop die s.lch.tree 0 (2 ^ 56)
  else if tagOf a = 0 then s.tlbDrop die s.lch.tree a (a + len)
  else s

/-- `tlb.inv` (R208): a fence of order `.ar`, then the union of the lanes' ranges. -/
def execTlbInv (pkg : Bool) (a len : Val) (s : State) : Out :=
  .next (if !s.sup then s.priv 0xF5 (if pkg then 3 else 2)
    else match s.fenceWait .ar s.sp.mask with
      | some t => t
      | none =>
        let die := if pkg then none else some s.cp.core.die
        ((lanesOf s.tr.width s.sp.mask).foldl
          (fun t l => t.invLane die ((s.tr.lane l).nat a) ((s.tr.lane l).nat len)) (s.exchange .ar s.sp.mask)).advance)

/-! ### Operating points (14 R342, R343) -/

/-- Starts the move that the mailbox asks for, when none is in progress. -/
def Core.opStart (c : Core) : Core :=
  match c.move, c.mail with
  | none, some p =>
    if p = c.cur then { c with mail := none }
    else { c with mail := none, move := some ⟨c.cur, p, p < c.cur, false⟩ }
  | some m, some p => if p = m.dst then { c with mail := none } else c
  | _, none => c

/-- Posts a clipped request. -/
def Core.opPost (c : Core) (p : Nat) : Core := { c with mail := some p }.opStart

/-- Whether a launch's region has spent its energy budget (14 R346). -/
def State.isSpent (s : State) (lid : Nat) : Bool := s.spent.any fun n => inPath n (s.launch lid).path

/-- A request of the focused troop for a point, clipped (R343). -/
def State.opRequest (s : State) (p : Nat) : State :=
  let ceil := ((s.dies.find? fun d => d.die = s.cp.core.die).map Die.opceil).getD 7
  let p1 := min p ceil
  let p2 := if s.isSpent s.cp.ref.lid then min p1 4 else p1
  s.modCore s.cp.core fun c => c.opPost p2

/-- `op.req` (R209): a value above 7 posts nothing. -/
def execOpReq (p : Val) (s : State) : Out :=
  .next (if 7 < s.scalar p then s.advance else (s.opRequest (s.scalar p)).advance)

end Sys2Proof.Machine
end

