-- ==== Sys2Proof/Machine/Tensor.lean ====
section
/-! DEFINITION. Tensor records, boxes and their scratchpad images (04 R83, R84, R96, R97, 09 R216, R217). -/

namespace Sys2Proof.Machine

/-- A tensor record (R96); `box` holds BOX[d] + 1, extents and boxes are 1 beyond RANK. -/
structure TRec where
  base : Nat
  scales : Nat
  fmt : Ty
  rank : Nat
  box : List Nat
  ext : List Nat
  stride : List Int
  ok : Bool
  deriving DecidableEq, Repr

/-- Whether a format is DXB. -/
def isDxb : Ty → Bool
  | .dxb4 | .dxb6 | .dxb8 | .dxb12 | .dxb16 => true
  | _ => false

/-- Whether a format packs several elements in a byte. -/
def isSub : Ty → Bool
  | .pl1 | .pl2 | .pl4 => true
  | _ => false

/-- A signed field of 40 bits. -/
def int40 (v : Nat) : Int := if v < 2 ^ 39 then v else (v : Int) - 2 ^ 40

/-- The rules of R97 on a record of format `fmt`. -/
def trecOk (v : Nat) (fmt : Ty) : Bool :=
  let rank := fld v 136 3
  let code := fld v 128 6
  let ext (d : Nat) : Nat := fld v (32 * d + 184) 32
  let box (d : Nat) : Nat := fld v (8 * d + 144) 8
  let str (d : Nat) : Nat := fld v (40 * d + 304) 40
  let g := if isDxb fmt then 8 else if isSub fmt then 1 else fmt.width / 8
  fld v 504 8 = 0 && fld v 139 5 = 0 && fld v 134 2 = 0 && 1 ≤ rank && rank ≤ 5 &&
  (tyIn code 2 13 || tyIn code 15 16 || tyIn code 20 29) &&
  ((List.range 5).all fun d => if d < rank then 1 ≤ ext d else ext d = 0 && box d = 0) &&
  ([1, 2, 3, 4].all fun d => if d < rank then int40 (str d) % (g : Int) = 0 else str d = 0) &&
  (tagOf (fld v 0 64) = 0 || tagOf (fld v 0 64) = 0xFD) && fld v 0 64 % g = 0 &&
  (if isDxb fmt then fld v 64 64 % 2 = 0 && ext 0 % 32 = 0 && (box 0 + 1) % 32 = 0 else fld v 64 64 = 0) &&
  (if isSub fmt then ext 0 % (8 / fmt.width) = 0 else true)

/-- Reads the 64 bytes of a record. -/
def TRec.ofBytes (bs : List Byte) : TRec :=
  let v := leNat bs
  let rank := fld v 136 3
  let fmt := (Ty.ofCode (fld v 128 6)).getD .void
  ⟨fld v 0 64, fld v 64 64, fmt, rank,
    (List.range 5).map fun d => fld v (8 * d + 144) 8 + 1,
    (List.range 5).map fun d => if d < rank then fld v (32 * d + 184) 32 else 1,
    0 :: ([1, 2, 3, 4].map fun d => int40 (fld v (40 * d + 304) 40)),
    trecOk v fmt⟩

def nth (l : List Nat) (d : Nat) : Nat := (l[d]?).getD 0

/-- Whether an index lies inside the extents. -/
def TRec.inExt (r : TRec) (ix : List Nat) : Bool := (List.range 5).all fun d => nth ix d < nth r.ext d

/-- Address and bit of bit `sub` of the element at an index (R97). -/
def TRec.bitAt (r : TRec) (ix : List Nat) (sub : Nat) : Nat × Nat :=
  let sg : Int := ([1, 2, 3, 4].map fun d => (nth ix d : Int) * (r.stride[d]?).getD 0).foldl (· + ·) 0
  let p := r.fmt.width * nth ix 0 + sub
  (wrapu 64 ((r.base : Int) + sg + (p / 8 : Nat)), p % 8)

/-- Address of the exponent pair of the block that holds an index (R97). -/
def TRec.pairAt (r : TRec) (ix : List Nat) : Nat :=
  let e (d : Nat) : Nat := nth r.ext d
  let lin := nth ix 1 + e 1 * (nth ix 2 + e 2 * (nth ix 3 + e 3 * nth ix 4))
  wrapu 64 (r.scales + 2 * (nth ix 0 / 32 + e 0 / 32 * lin))

/-- Elements of a box. -/
def TRec.count (r : TRec) : Nat := r.box.foldl (· * ·) 1

/-- Index of element `e` of the box at an origin, dimension 0 fastest. -/
def TRec.boxIx (r : TRec) (org : List Nat) (e : Nat) : List Nat :=
  let b (d : Nat) : Nat := nth r.box d
  [nth org 0 + e % b 0, nth org 1 + e / b 0 % b 1, nth org 2 + e / (b 0 * b 1) % b 2,
    nth org 3 + e / (b 0 * b 1 * b 2) % b 3, nth org 4 + e / (b 0 * b 1 * b 2 * b 3)]

/-- Bytes of the element strings of a packed image. -/
def TRec.elemBytes (r : TRec) : Nat := (r.count * r.fmt.width + 7) / 8

/-- Footprint of an operand tile (R84). -/
def planeFoot (fmt : Ty) : Nat := 512 * fmt.width + (if isDxb fmt then 256 else 0)

/-- Size of the image of a variant (R217). -/
def TRec.imageSize (r : TRec) (var : TVar) : Nat :=
  if var == .planes then nth r.box 0 / 32 * planeFoot r.fmt
  else r.elemBytes + (if isDxb r.fmt then 2 * (r.count / 32) else 0)

/-- Whether `.planes` accepts the shape of a record (R217). -/
def TRec.planesOk (r : TRec) : Bool :=
  (isDxb r.fmt || tyIn r.fmt.code 25 29) && 2 ≤ r.rank && nth r.box 1 = 128 && nth r.box 0 % 32 = 0 && nth r.box 0 ≤ 128 &&
  nth r.box 2 = 1 && nth r.box 3 = 1 && nth r.box 4 = 1

/-- Where each bit of a byte comes from: an address with a bit, or nowhere, which is zero. -/
abbrev BitSrc := List (Option (Nat × Nat))

/-- A whole byte at an address. -/
def wholeByte (a : Nat) : BitSrc := (List.range 8).map fun b => some (a, b)

def zeroByte : BitSrc := List.replicate 8 none

/-- Byte `off` of the packed image (R217 `.load`). -/
def TRec.packedByte (r : TRec) (org : List Nat) (off : Nat) : BitSrc :=
  let w := r.fmt.width
  if off < r.elemBytes then
    (List.range 8).map fun b =>
      let p := 8 * off + b
      let ix := r.boxIx org (p / w)
      if p / w < r.count && r.inExt ix then some (r.bitAt ix (p % w)) else none
  else
    let q := (off - r.elemBytes) / 2
    let ix := r.boxIx org (32 * q)
    if r.inExt ix then wholeByte (r.pairAt ix + (off - r.elemBytes) % 2) else zeroByte

/-- Byte `off` of the plane image (R83, R217 `.planes`). -/
def TRec.planeByte (r : TRec) (org : List Nat) (off : Nat) : BitSrc :=
  let f := planeFoot r.fmt
  let c := off / f
  let o := off % f
  let w := r.fmt.width
  let ix (j row : Nat) : List Nat := [nth org 0 + 32 * c + j, nth org 1 + row, nth org 2, nth org 3, nth org 4]
  if o < 512 * w then
    (List.range 8).map fun b =>
      let i := ix (8 * (o % 4) + b) (o % 512 / 4)
      if r.inExt i then some (r.bitAt i (o / 512)) else none
  else
    let row := (o - 512 * w) / 2
    if r.inExt (ix 0 row) then wholeByte (r.pairAt (ix 0 row) + o % 2) else zeroByte

end Sys2Proof.Machine
end

