-- ==== Sys2Proof/Machine/Engine.lean ====
section
/-! DEFINITION. Copy-engine commands in progress: their granules, sources, landings and completion (09 R210 to R220, 05 R118, 19 R426). -/

namespace Sys2Proof.Machine

/-! ### Checksums (03 R76) -/

/-- A carried value reduced. -/
def adlerStart (v : Nat) : Nat × Nat := (v % 65536 % 65521, v / 65536 % 65521)

/-- Adler-32 continued over bytes. -/
def adler (v : Nat) (bs : List Byte) : Nat :=
  let r := bs.foldl (fun (p : Nat × Nat) b =>
    let a := (p.1 + b.toNat) % 65521
    (a, (p.2 + a) % 65521)) (adlerStart v)
  r.2 * 65536 + r.1

/-! ### Granules (R213, R217) -/

/-- A granule: offset of its first byte in the transfer order, destination, bytes; for `.store` its first image bit and its bits. -/
structure Gran where
  off : Nat
  dst : Nat
  n : Nat
  bit0 : Nat
  nbit : Nat
  deriving DecidableEq, Repr

/-- Pieces of `n` bytes at `dst` that no 64-byte boundary cuts. -/
def spanCount (dst n : Nat) : Nat := if n = 0 then 0 else (dst % 64 + n + 63) / 64

/-- Piece `g`. -/
def spanGran (off dst n bit0 nbit g : Nat) : Gran :=
  let lo := if g = 0 then 0 else 64 * g - dst % 64
  let hi := min n (64 * (g + 1) - dst % 64)
  ⟨off + lo, wrapu 64 (dst + lo), hi - lo, bit0 + 8 * lo, min (nbit - 8 * lo) (8 * (hi - lo))⟩

/-- All pieces. -/
def spanGrans (off dst n bit0 nbit : Nat) : List Gran := (List.range (spanCount dst n)).map (spanGran off dst n bit0 nbit)

/-- Granules of a `.store`: rows of the box in image order, then the pairs of each row. -/
def storeGrans (r : TRec) (org : List Nat) : List Gran :=
  let b0 := nth r.box 0
  let w := r.fmt.width
  let rows := List.range (r.count / b0)
  let cnt (row : Nat) : Nat :=
    if r.inExt (r.boxIx org (row * b0)) then min b0 (nth r.ext 0 - nth org 0) else 0
  let els := rows.flatMap fun row =>
    spanGrans (row * b0 * w / 8) (r.bitAt (r.boxIx org (row * b0)) 0).1 ((cnt row * w + 7) / 8) (row * b0 * w) (cnt row * w)
  let prs := if isDxb r.fmt then rows.flatMap fun row =>
      let o := r.elemBytes + 2 * (row * (b0 / 32))
      spanGrans o (r.pairAt (r.boxIx org (row * b0))) (cnt row / 32 * 2) (8 * o) (cnt row / 32 * 16)
    else []
  els ++ prs

/-- Bytes of a command in its transfer order. -/
def CopyCmd.size (c : CopyCmd) : Nat :=
  match c.kind with
  | .tcopy v => (TRec.ofBytes c.record).imageSize v
  | _ => c.len

/-- Granules of a command in command order (19 R426). -/
def CopyCmd.grans (c : CopyCmd) : List Gran :=
  match c.kind with
  | .tcopy .store => storeGrans (TRec.ofBytes c.record) c.org
  | _ => spanGrans 0 c.dst.toNat c.size 0 (8 * c.size)

/-- Sources of the byte at an offset of the transfer order. -/
def CopyCmd.srcOf (c : CopyCmd) (off : Nat) : BitSrc :=
  match c.kind with
  | .tcopy .load => (TRec.ofBytes c.record).packedByte c.org off
  | .tcopy .planes => (TRec.ofBytes c.record).planeByte c.org off
  | _ => wholeByte (wrapu 64 (c.src.toNat + off))

/-- Offsets of the bytes a granule reads of the source. -/
def CopyCmd.offsOf (c : CopyCmd) (g : Gran) : List Nat :=
  match c.kind with
  | .tcopy .store => (List.range ((g.bit0 % 8 + g.nbit + 7) / 8)).map fun i => g.bit0 / 8 + i
  | _ => (List.range g.n).map fun i => g.off + i

/-- Addresses that a granule reads, each once. -/
def CopyCmd.srcAddrs (c : CopyCmd) (g : Gran) : List Nat :=
  ((c.offsOf g).flatMap fun o => (c.srcOf o).filterMap fun b => b.map Prod.fst).eraseDups

/-- Addresses that a granule writes. -/
def Gran.dstAddrs (g : Gran) : List Nat := (List.range g.n).map fun i => wrapu 64 (g.dst + i : Nat)

/-! ### Places for an engine (19 R425, R426) -/

/-- Translation of a global address for an agent that runs no handler: first-touch pages are mapped within the PAGES budget. -/
def State.engXlat (s : State) (die : TlbUnit) (tree : Nat) (path : List Rcb) (need : Need) (va : Nat) : State × Except LFault Xlat :=
  let q := match s.xlat die tree va with
    | .error .first => s.mapGlobal path tree va
    | _ => (s, .ok)
  match q.2 with
  | .budget => (q.1, .error ⟨cPAGE, 0xE, va⟩)
  | .dry _ => (q.1, .error ⟨cPAGE, 0xF, va⟩)
  | .ok =>
    (q.1, match q.1.xlat die tree va with
      | .error e => .error ⟨cPAGE, e.sub, va⟩
      | .ok x => match q.1.permErr x need with
        | some e => .error ⟨cPERM, e, va⟩
        | none => .ok x)

/-- Place of one byte for such an agent. -/
def State.engSpot (s : State) (die : TlbUnit) (scratch tree : Nat) (path : List Rcb) (need : Need) (va : Nat) :
    State × Except LFault Spot :=
  if tagOf va = 0xFD then
    (s, if offOf va < scratch then .ok (.scratch (offOf va)) else .error ⟨cWINDOW, 4, va⟩)
  else if tagOf va != 0 then (s, .error ⟨cWINDOW, if tagOf va = 0xFC then 6 else 1, va⟩)
  else match s.engXlat die tree path need va with
    | (t, .error e) => (t, .error e)
    | (t, .ok x) => (t, match x.tgt with
      | .phys p => if need.now && t.poisoned [p] then .error ⟨cMEMECC, 0, va⟩ else .ok (.phys [p])
      | .peer k wa => .ok (.peer k wa)
      | .scratch o => .ok (.scratch o))

/-- Places of several bytes, up to the first that fails. -/
def State.engSpots (s : State) (die : TlbUnit) (scratch tree : Nat) (path : List Rcb) (need : Need) :
    List Nat → State × Except LFault (List (Nat × Spot))
  | [] => (s, .ok [])
  | a :: r =>
    match s.engSpot die scratch tree path need a with
    | (s1, .error e) => (s1, .error e)
    | (s1, .ok p) => match State.engSpots s1 die scratch tree path need r with
      | (s2, .error e) => (s2, .error e)
      | (s2, .ok ps) => (s2, .ok ((a, p) :: ps))

/-- What translates for a camp's commands: the walk-ahead TLB of its cluster's copy engine (04 R98); off its core, the Groundsheet. -/
def Camp.engine (k : Camp) : TlbUnit := if k.resident then .ahead k.core.die k.core.cl else .mgmt

/-- Places of the source and destination bytes of a granule of a camp's command. -/
def State.granSpots (s : State) (k : Camp) (c : CopyCmd) (g : Gran) :
    State × Except LFault (List (Nat × Spot) × List (Nat × Spot)) :=
  let l := s.launch k.ref.lid
  let die := k.engine
  match s.engSpots die l.scratch l.tree l.path needR (c.srcAddrs g) with
  | (s1, .error e) => (s1, .error e)
  | (s1, .ok ss) =>
    if c.loc.isSome then (s1, .ok (ss, []))
    else match s1.engSpots die l.scratch l.tree l.path needW g.dstAddrs with
      | (s2, .error e) => (s2, .error e)
      | (s2, .ok ds) => (s2, .ok (ss, ds))

/-- The first granule up to `g` that has not landed and whose places fail (R426). -/
def State.firstBad (s : State) (k : Camp) (c : CopyCmd) : List (Nat × Gran) → State × Option (Nat × LFault)
  | [] => (s, none)
  | (h, g) :: r =>
    match s.granSpots k c g with
    | (s1, .error e) => (s1, some (h, e))
    | (s1, .ok _) => State.firstBad s1 k c r

/-! ### Changes of a command -/

def State.modCmd (s : State) (c : CampRef) (id : Nat) (f : CopyCmd → CopyCmd) : State :=
  s.modCamp c fun k => { k with cmds := k.cmds.map fun x => if x.id = id then f x else x }

def State.cmd? (s : State) (c : CampRef) (id : Nat) : Option (Camp × CopyCmd) :=
  (s.camps.find? fun k => k.ref = c).bind fun k => (k.cmds.find? fun x => x.id = id).map fun x => (k, x)

/-- Whether a request of a granule is out. -/
def State.granOut (s : State) (c : CampRef) (id g : Nat) : Bool :=
  s.reqs.any fun q => match q.by_ with
    | .granule r i h => r = c && i = id && h = g
    | _ => false

/-- Whether a granule may still start. -/
def State.granFree (s : State) (k : Camp) (x : CopyCmd) (g : Nat) : Bool :=
  g < x.gran && !x.landed.contains g && (x.stopAt.all fun p => g < p) && !s.granOut k.ref x.id g

/-- Splits that may go on after a granule or command has ended are tried again. -/
def Camp.wakeCmds (k : Camp) (m : Nat) (f : SState → Bool) : Camp :=
  k.modTroop m fun t => { t with splits := t.splits.map fun p => if f p.st then { p with st := .ready } else p }

/-- The MEMFAULT of a granule, and the position at which the command stops (R426). -/
def State.granFault (s : State) (k : Camp) (x : CopyCmd) (h : Nat) (f : LFault) : State :=
  let ctx := ((k.troops.find? fun t => t.mem = x.mem).map Troop.ctx).getD 0
  let s1 := s.postLeaf k.ref.lid 0x08 f.cause (s.csrc { k.core with core := 15 } ctx)
    ⟨f.addr, x.off, x.func, k.ref.camp, x.mem, f.sub⟩
  (s1.modCmd k.ref x.id fun x => { x with stopAt := some h, codes := 2 :: x.codes }).modCamp k.ref fun k =>
    k.wakeCmds x.mem fun st => st = .srcReads

/-- A granule ends at the initiator: landed, its bytes as written, and a code when there is one (R212). -/
def State.granEnd (s : State) (c : CampRef) (id g : Nat) (ws : List (Nat × Byte)) (code : Option Nat) : State :=
  match s.cmd? c id with
  | none => s
  | some (_, x) =>
    (s.modCmd c id fun x => { x with
      landed := g :: x.landed, written := ws ++ x.written, codes := code.toList ++ x.codes }).modCamp c fun k =>
      k.wakeCmds x.mem fun st => st = .srcReads

/-- Status of the issuing lane after a refusal or a timeout (R218). -/
def State.granRefused (s : State) (c : CampRef) (id g : Nat) (timeout : Bool) : State :=
  match s.cmd? c id with
  | none => s
  | some (_, x) =>
    (s.granEnd c id g [] (some (if timeout then 4 else 3))).markLane c x.mem x.lane (if timeout then fRT else fRN)

/-! ### Transfer of one granule -/

/-- Value of one source bit, from the bytes read. -/
def bitFrom (vs : List (Nat × Byte)) : Option (Nat × Nat) → Bool
  | none => false
  | some (a, b) => ((vs.find? fun v => v.1 = a).map fun v => v.2.getLsbD b).getD false

/-- A byte from its bits. -/
def byteOf (bs : List Bool) : Byte := BitVec.ofNat 8 ((bs.mapIdx fun i b => boolN b * 2 ^ i).sum)

/-- The byte at a transfer offset, with the bit that FINJ inverts (22 R473). -/
def CopyCmd.byteAt (c : CopyCmd) (vs : List (Nat × Byte)) (off : Nat) : Byte :=
  let b := byteOf ((c.srcOf off).map (bitFrom vs))
  match c.flip with
  | some (o, i) => if o = off then b ^^^ BitVec.ofNat 8 (2 ^ i) else b
  | none => b

/-- Bytes to write at a granule's destination: for `.store` the image bits, a last partial byte keeping its other bits. -/
def CopyCmd.bytesFor (c : CopyCmd) (g : Gran) (img : Nat → Byte) (old : Nat → Byte) : List Byte :=
  match c.kind with
  | .tcopy .store => (List.range g.n).map fun i => byteOf ((List.range 8).map fun b =>
      let p := g.bit0 + 8 * i + b
      if 8 * i + b < g.nbit then (img (p / 8)).getLsbD (p % 8) else (old i).getLsbD b)
  | _ => (List.range g.n).map fun i => img (g.off + i)

/-- Byte at a place of a camp. -/
def State.byteSpot (s : State) (k : Camp) : Spot → Byte
  | .phys (p :: _) => memRead s.mem p
  | .scratch o => memRead k.scr o
  | _ => 0

/-- Writes bytes at places of a camp, at once. -/
def State.putBytes (s : State) (c : CampRef) (ds : List Spot) (bs : List Byte) : State :=
  let cells := (ds.zip bs).filterMap fun q => match q.1 with
    | .phys (p :: _) => some (p, q.2)
    | _ => none
  let sc := (ds.zip bs).filterMap fun q => match q.1 with
    | .scratch o => some (o, q.2)
    | _ => none
  let s1 := if cells.isEmpty then s else s.commit cells
  if sc.isEmpty then s1 else s1.modCamp c fun k => { k with scr := memWriteAll k.scr sc }

/-- Applies a local landing to the command's barrier word (05 R118): code 5 when the word is invalid. -/
def State.landGran (s : State) (k : Camp) (x : CopyCmd) (n : Nat) : State × Option Nat :=
  match x.kind, x.bw with
  | .remote, _ | _, none => (s, none)
  | _, some b => let d := s.landWord k.ref b.toNat n; (d.1, if d.2 then none else some 5)

/-- Whether the barrier word of a command stands in the middle of its completion, so that no landing changes it (05 R116). -/
def State.granHeld (s : State) (k : Camp) (x : CopyCmd) : Bool :=
  match x.kind, x.bw with
  | .remote, _ | _, none => false
  | _, some b => s.completing && s.landBusy k b.toNat

/-- Bytes known to the engine: those of local places, and those a peer has returned. -/
def State.knownBytes (s : State) (k : Camp) (x : CopyCmd) (ss : List (Nat × Spot)) : List (Nat × Byte) :=
  ss.map fun q => match q.2 with
    | .peer _ _ => (q.1, ((x.fetched.find? fun f => f.1 = q.1).map Prod.snd).getD 0)
    | p => (q.1, s.byteSpot k p)

/-- The first run of peer bytes that are still to be fetched: source address, package, window address, bytes. -/
def missingRun (known : List (Nat × Byte)) : List (Nat × Spot) → Option (Nat × Nat × Nat × Nat)
  | [] => none
  | (a, .peer k wa) :: r =>
    if known.any fun f => f.1 = a then missingRun known r
    else
      let rec more (n : Nat) : List (Nat × Spot) → Nat
        | (b, .peer j wb) :: t => if b = a + n && j = k && wb = wa + n then more (n + 1) t else n
        | _ => n
      some (a, k, wa, more 1 r)
  | _ :: r => missingRun known r

/-- Sends a granule's request to a peer; without a port it is refused at once (21 R468). -/
def State.sendGran (s : State) (k : Camp) (x : CopyCmd) (g pkg wa va n : Nat) (kind : AccKind) : State :=
  match s.request pkg wa va n (.granule k.ref x.id g) kind x.seen with
  | some t => t
  | none => (s.linkFault pkg wa).granRefused k.ref x.id g false

/-- The destination byte that a granule writes in part: the last one of a row of `.store` that ends inside it, whose other bits are kept (R217). -/
def CopyCmd.partByte (x : CopyCmd) (gr : Gran) (ds : List (Nat × Spot)) : List (Nat × Spot) :=
  match x.kind with
  | .tcopy .store => if gr.nbit % 8 = 0 then [] else (ds.drop (gr.nbit / 8)).take 1
  | _ => []

/-- Transfers a granule whose places are known (R213, R218): first what it reads of a peer is fetched. -/
def State.moveGran (s : State) (k : Camp) (x : CopyCmd) (g : Nat) (gr : Gran) (ss ds : List (Nat × Spot)) : State :=
  match missingRun x.fetched (ss ++ x.partByte gr ds) with
  | some (a, pkg, wa, n) => s.sendGran k x g pkg wa a n .load
  | none =>
    let vs := s.knownBytes k x ss
    let ws := (x.offsOf gr).map fun o => (o, x.byteAt vs o)
    let img (o : Nat) : Byte := ((ws.find? fun w => w.1 = o).map Prod.snd).getD 0
    let old (i : Nat) : Byte := (((s.knownBytes k x ds)[i]?).map Prod.snd).getD 0
    let bs := x.bytesFor gr img old
    match x.loc, ds with
    | some l, _ =>
      (s.modCmd k.ref x.id fun x => { x with written := ws ++ x.written }).sendGran k x g (fld l.toNat 48 9) gr.dst gr.dst gr.n (.store bs)
    | none, (_, .peer pkg wa) :: _ =>
      (s.modCmd k.ref x.id fun x => { x with written := ws ++ x.written }).sendGran k x g pkg wa gr.dst gr.n (.store bs)
    | none, _ =>
      let s1 := s.putBytes k.ref (ds.map Prod.snd) bs
      let d := s1.landGran k x gr.n
      d.1.granEnd k.ref x.id g ws d.2

/-- Notes the accesses of a granule: the pages it reads and writes are held in the walk-ahead TLB and counted (04 R98, R99). -/
def State.countGran (s : State) (k : Camp) (x : CopyCmd) (gr : Gran) : State :=
  let tree := (s.launch k.ref.lid).tree
  let s1 := if x.loc.isSome then s else s.noteUnit k.engine tree gr.dst gr.n
  (((x.srcAddrs gr).map fun a => a / 65536).eraseDups).foldl (fun t p => t.noteAt k.engine tree (65536 * p)) s1

/-- A granule that may still start is read and written, and lands (R118, R213, R426). -/
def State.granuleGo (s : State) (c : CampRef) (id g : Nat) : State :=
  match s.cmd? c id with
  | none => s
  | some (k, x) =>
    if !s.granFree k x g || s.granHeld k x then s
    else
      let gs := x.grans
      let before := ((List.range (g + 1)).zip gs).filter fun q => s.granFree k x q.1
      match s.firstBad k x before with
      | (s1, some (h, e)) => s1.granFault k x h e
      | (s1, none) =>
        match gs[g]? with
        | none => s1
        | some gr => match s1.granSpots k x gr with
          | (s2, .ok (ss, ds)) => (s2.countGran k x gr).moveGran k x g gr ss ds
          | (s2, .error e) => s2.granFault k x g e

/-- GRANULE LANDING: while the camp is on its core (R220). -/
def State.granuleStep (s : State) (c : CampRef) (id g : Nat) : State :=
  if (s.cmd? c id).any fun q => q.1.resident then s.granuleGo c id g else s

/-- The checksum that a target returns with an acknowledgement of `copy.remote` (R214). -/
def backOf (x : CopyCmd) (d : List Byte) : Option W32 :=
  if x.kind = .remote && x.cv.isSome && d.length = 4 then some (BitVec.ofNat 32 (leNat d)) else none

/-- The answer of a peer to a granule's request: data fetched, a landing acknowledged, or a refusal (R218, R428). A granule whose source read had begun when the camp left its core is completed (R220). -/
def State.granAnswer (s : State) (q : PeerReq) (c : CampRef) (id g : Nat) (a : PeerAns) : State :=
  match s.cmd? c id, q.kind, a with
  | none, _, _ => s
  | some _, _, .nack _ => s.granRefused c id g false
  | some (k, _), .load, .ack d =>
    let t := s.modCmd c id fun x => { x with fetched := cellsAt q.va.toNat d ++ x.fetched }
    if k.resident then t else t.granuleGo c id g
  | some _, _, .badWord => s.granEnd c id g [] (some 5)
  | some (k, x), _, .ack d =>
    let r := s.landGran k x q.n
    (r.1.granEnd c id g [] r.2).modCmd c id fun y => { y with back := backOf x d <|> y.back }

/-! ### Completion (R212) -/

/-- Whether every granule of a command has ended or will not start. -/
def State.cmdDone (s : State) (k : Camp) (x : CopyCmd) : Bool :=
  (List.range x.gran).all fun g => (x.landed.contains g || x.stopAt.any fun p => p ≤ g) && !s.granOut k.ref x.id g

/-- Bytes over which the checksum runs: as written, or of the image that `.store` read (R214, R216). -/
def CopyCmd.sumBytes (x : CopyCmd) (k : Camp) : List Byte :=
  (List.range x.size).map fun o =>
    match x.written.find? fun w => w.1 = o with
    | some w => w.2
    | none => match x.kind with
      | .tcopy .store => memRead k.scr (x.src.toNat % 2 ^ 56 + o)
      | _ => 0

/-- Adler-32 of a string of which one part, with zeros for the rest, gave `v`, and the other part is `bs`: both of its sums add up (03 R76). -/
def adlerJoin (v : Nat) (bs : List Byte) : Nat :=
  let w := adler 0 bs
  (v / 65536 + w / 65536) % 65521 * 65536 + (v % 65536 + w % 65536) % 65521

/-- The checksum of a command: as the target returned it, or over its bytes, those before a restore counted in the running value (R214, R220). -/
def CopyCmd.sum (x : CopyCmd) (k : Camp) (v : Nat) : Nat :=
  match x.back, x.run with
  | some a, _ => a.toNat
  | none, some r => adlerJoin r.toNat (x.sumBytes k)
  | none, none => adler v (x.sumBytes k)

/-- The status value (R212). -/
def CopyCmd.status (x : CopyCmd) (k : Camp) : Nat :=
  match x.codes with
  | c :: r => (r.foldl Nat.min c) * 2 ^ 32
  | [] => match x.cv with
    | none => 0
    | some v =>
      let a := x.sum k v.toNat
      (match x.want with
        | some w => if w.toNat = a then 0 else 2 ^ 32
        | none => 0) + a

/-- Whether the split waits for the status of this command at its instruction. -/
def Split.awaits (p : Split) (x : CopyCmd) : Bool :=
  p.st = .command x.id && p.sid = x.sid && p.func = x.func && p.off = x.off && p.nat.isNone && x.st.isSome

/-- Splits that wait for a command's end, or for room, are tried again. -/
def cmdWaiter (id : Nat) (st : SState) : Bool := st = .command id || st = .command 0 || st = .srcReads

/-- Changes the entries of the load-return queues of a split, those its last point found among them. -/
def Split.mapQueues (p : Split) (f : QEnt → QEnt) : Split :=
  { p with
    lq := p.lq.map fun e => (e.1, f e.2)
    nat := p.nat.map fun n => { n with ptLq := n.ptLq.map fun e => (e.1, f e.2) } }

/-- Marks the entry of a load-return queue that waits for a command as landed with its status. -/
def Split.landQueue (p : Split) (id v : Nat) (m : Mask) (w : Nat) : Split :=
  p.mapQueues fun e =>
    if e.cmd = some id then { e with landed := true, cmd := none, vals := (lanesOf w m).map fun l => (l, BitVec.ofNat 64 v) } else e

/-- COMMAND COMPLETE: the command ends and its status is defined in the lanes that wait for it (R212). -/
def State.commandEnd (s : State) (c : CampRef) (id : Nat) : State :=
  match s.cmd? c id with
  | none => s
  | some (k, x) =>
    if !s.cmdDone k x then s
    else
      let v := x.status k
      let s1 := s.modCamp c fun k => { k with cmds := k.cmds.filter fun y => y.id != id }
      let waits := (k.troops.find? fun t => t.mem = x.mem).bind fun t => t.splits.find? fun p => p.awaits x
      let s2 := match waits with
        | none => s1
        | some p => match s1.focusOn ⟨⟨c, x.mem⟩, p.sid⟩ with
          | none => s1
          | some f =>
            let f := { f with sp := { f.sp with st := .ready } }.setCtx.exchange .acq f.sp.mask
            (f.defLanes fun _ _ => (⟨.w64, BitVec.ofNat 64 v⟩, 0)).unfocus
      s2.modCamp c fun k =>
        (k.wakeCmds x.mem (cmdWaiter id)).modTroop x.mem fun t =>
          { t with splits := t.splits.map fun p => p.landQueue id v p.mask t.width }

end Sys2Proof.Machine
end

