-- ==== Sys2Proof/Machine/CopyOps.lean ====
section
/-! DEFINITION. The command instructions of the copy engine (09 R210 to R218, 17 R387). -/

namespace Sys2Proof.Machine

/-! ### Operand checks -/

/-- A breach under OPERAND: SUB, operand index, value. -/
structure Breach where
  sub : Nat
  index : Nat
  value : Nat
  deriving DecidableEq, Repr

/-- Takes OPERAND with the lowest SUB of the breaches, else the first memory cause in the order of 19 R418; none without either. -/
def State.operandTrap (s : State) (bad : List Breach) (fs : List (LFault × Nat)) : Option State :=
  match bad with
  | b :: r =>
    let m := r.foldl (fun x y => if y.sub < x.sub || (y.sub = x.sub && y.index < x.index) then y else x) b
    some (s.operand m.sub m.index m.value)
  | [] => match fs with
    | f :: r =>
      let m := r.foldl (fun x y => if causeRank y.1.cause < causeRank x.1.cause then y else x) f
      some (s.trapOnce m.1 m.2)
    | [] => none

/-- Window check of a command range (R213): private ranges are not accepted. -/
def rangeErr (scratch a n : Nat) : Option Nat :=
  if n = 0 then none
  else if tagOf a = 0xFC then some 6
  else windowErr 32 scratch a n

/-- Memory causes of a command range. -/
def State.rangeFaults (s : State) (a n : Nat) : List (LFault × Nat) :=
  ((rangeErr s.lch.scratch a n).map fun e => ((⟨cWINDOW, e, a⟩ : LFault), 3)).toList

/-- What the local barrier word of a command breaks (R188, R213): a word of a peer range is not accepted. -/
def State.localWord (s : State) (b : Option Nat) (index : Nat) : List Breach × List (LFault × Nat) :=
  match b with
  | none => ([], [])
  | some a =>
    if tagOf a = 0xFC then ([], [(⟨cWINDOW, 6, a⟩, 2)])
    else match s.check s.lead a accWord with
      | .error f => ([], [(f, 2)])
      | .ok (.peer _ _ :: _) => ([], [(⟨cWINDOW, 6, a⟩, 2)])
      | .ok (p :: _) => (if wordOk (s.readPlace p 8) then [] else [⟨1, index, 0⟩], [])
      | .ok [] => ([], [])

/-! ### Issue -/

/-- FLIP of the cluster's fault-injection register for a command that is accepted (22 R473). -/
def State.finjFlip (s : State) : State × Option (Nat × Nat) :=
  let k := s.cp.core
  match s.clusters.find? fun c => c.die = k.die && c.cl = k.cl with
  | none => (s, none)
  | some c =>
    let v := c.finj.toNat
    if v % 2 = 0 || fld v 1 2 != 1 || fld v 24 4 != k.core then (s, none)
    else
      let put (x : Cluster) : State :=
        { s with clusters := s.clusters.map fun y => if y.die = x.die && y.cl = x.cl then x else y }
      if c.finjSeen < fld v 32 8 then (put { c with finjSeen := c.finjSeen + 1 }, none)
      else (put { c with finj := c.finj &&& ~~~1, finjSeen := 0 }, some (fld v 40 24, fld v 8 3))

/-- A command of the executing split with its common operands; the rest is filled in by its instruction. -/
def State.newCmd (s : State) (kind : CKind) (st : Bool) (sc : Scope) (bw cv want : Option Val) : CopyCmd :=
  let w32 (v : Val) : W32 := BitVec.ofNat 32 (s.scalar v)
  ⟨s.cp.nextCmd, kind, s.tr.mem, s.lead, s.sp.sid, if st then some s.ctx.dst else none, none, sc, 0, 0, 0, [], [], none,
    bw.map fun v => BitVec.ofNat 64 (s.scalar v), cv.map w32, want.map w32, 0, [], none, [], [],
    (s.tr.lane s.lead).seen, s.sp.func, s.sp.off, none, [], 0, none, none⟩

/-- Accepts a command: it is listed with its granules; the split goes on, or waits for the status (R210, R212). -/
def State.acceptCmd (s : State) (c : CopyCmd) : State :=
  let f := s.finjFlip
  let c1 := { c with flip := f.2 }
  let c2 := { c1 with gran := c1.grans.length }
  let s1 := { f.1 with cp := { f.1.cp with cmds := f.1.cp.cmds ++ [c2], nextCmd := f.1.cp.nextCmd + 1 } }
  if c.st.isSome then { s1 with sp := { s1.sp with st := .command c.id } } else s1.advance

/-- Commands of the troop that have not completed. -/
def State.cmdCount (s : State) : Nat := (s.cp.cmds.filter fun c => c.mem = s.tr.mem).length

/-- What issue waits for first: room among the troop's 16 commands, and the stores before it (R210, 05 R118). -/
def State.beforeIssue (s : State) (k : State → State) : State :=
  if 16 ≤ s.cmdCount then { s with sp := { s.sp with st := .command 0 } }
  else s.afterStores s.sp.mask k

/-- Checks, then accepts. -/
def State.issueCmd (s : State) (bad : List Breach) (fs : List (LFault × Nat)) (c : CopyCmd) : State :=
  match s.operandTrap bad fs with
  | some t => t
  | none => s.acceptCmd c

/-- COPYLEN (R213). -/
def lenBreach (n : Nat) : List Breach := if 2 ^ 24 ≤ n then [⟨3, 2, n⟩] else []

/-- Grants that a barrier word may use (19 R422). -/
def State.wordGrant (s : State) (b : Option Nat) : List (Acc × List (Nat × Nat)) :=
  b.toList.map fun a => (accWord, [(s.lead, a)])

/-! ### `copy` (R213) -/

/-- `copy`. -/
def State.copyCmd (s : State) (st : Bool) (sc : Scope) (dst src len : Val) (bw cv want : Option Val) : State :=
  let b := bw.map s.scalar
  match s.useGrant (s.wordGrant b) with
  | .done t => t
  | .go s _ =>
    let d := s.scalar dst
    let f := s.scalar src
    let n := s.scalar len
    let w := s.localWord b 3
    let rs := if 2 ^ 24 ≤ n then [] else s.rangeFaults d n ++ s.rangeFaults f n
    s.issueCmd (lenBreach n ++ w.1) (rs ++ w.2)
      { s.newCmd .copy st sc bw cv want with dst := BitVec.ofNat 64 d, src := BitVec.ofNat 64 f, len := n }

/-- `copy`. -/
def execCopy (st : Bool) (sc : Scope) (dst src len : Val) (bw cv want : Option Val) (s : State) : Out :=
  .next (s.beforeIssue fun s => s.copyCmd st sc dst src len bw cv want)

/-! ### `tcopy` (R216, R217) -/

/-- Access of a tensor record: 64 bytes with ACC 0. -/
def accRecord : Acc := ⟨64, 1, 1, needR, 0⟩

/-- What a record's address gives. -/
inductive RecRead where
  | bytes (bs : List Byte)
  | bad
  | fault (f : LFault)
  | peer (pkg wa : Nat)
  /-- a store of this core that overlaps it commits first (04 R102) -/
  | held (n : Nat)

/-- Reads the record at an address, as a relaxed load (R216): an address that is not a multiple of 64 is a breach. One named by a scratchpad or private address is read there (log 36, DESIGN CHOICE). -/
def State.readRec (s : State) (a : Nat) : RecRead :=
  if a % 64 != 0 then .bad
  else match s.check s.lead a accRecord with
    | .error f => .fault f
    | .ok (.peer k wa :: _) => match s.sp.peerRec with
      | some d => .bytes d
      | none => .peer k wa
    | .ok (p :: _) => match s.overlaps (physBytes [(s.lead, [p])]) with
      | some n => .held n
      | none => .bytes (leBytes 64 (s.readPlace p 64))
    | .ok [] => .bad

/-- Asks a peer for a record; the instruction is issued again with the answer. -/
def State.recRequest (s : State) (k wa a : Nat) : State :=
  match s.request k wa a 64 (.barrier s.spRef) .load (s.tr.lane s.lead).seen with
  | some t => t.awaitPeers
  | none => (s.linkFault k wa).trapAll cREMOTE (memAddr a 5 0 s.lead)

/-- TCOPYARG (R216). -/
def tcopyArgs (r : TRec) (var : TVar) (scratch sp : Nat) (os : List Nat) : List Breach :=
  let g := if var == .planes then 256 else 8
  let o0 := nth os 0
  (if tagOf sp != 0xFD || sp % g != 0 || scratch < offOf sp + r.imageSize var then [⟨5, 0, sp⟩] else []) ++
  (if (isDxb r.fmt && o0 % 32 != 0) || (isSub r.fmt && o0 * r.fmt.width % 8 != 0) then [⟨5, 2, o0⟩] else []) ++
  (((List.range os.length).zip os).filter fun q => r.rank ≤ q.1 && q.2 != 0).map fun q => ⟨5, 2 + q.1, q.2⟩

/-- Breaches of a record under a variant: TRECORD for one that is invalid or of a shape `.planes` does not take. -/
def tcopyBreaches (bs : List Byte) (var : TVar) (scratch sp : Nat) (os : List Nat) : List Breach :=
  let r := TRec.ofBytes bs
  if !r.ok || (var == .planes && !r.planesOk) then [⟨4, 1, 0⟩] else tcopyArgs r var scratch sp os

/-- `tcopy`. -/
def State.tcopyCmd (s : State) (var : TVar) (st : Bool) (sc : Scope) (sp tr : Val) (os : List Val) (bw cv want : Option Val) : State :=
  let b := bw.map s.scalar
  let t := s.scalar tr
  match s.useGrant ((accRecord, [(s.lead, t)]) :: s.wordGrant b) with
  | .done t => t
  | .go s _ =>
    let w := s.localWord b (2 + os.length)
    let img := BitVec.ofNat 64 (s.scalar sp)
    let org := os.map s.scalar
    let c : CopyCmd := { s.newCmd (.tcopy var) st sc bw cv want with dst := img, src := img, org := org, trec := BitVec.ofNat 64 t }
    match s.readRec t with
    | .bad => s.issueCmd (⟨4, 1, 0⟩ :: w.1) w.2 c
    | .fault f => s.issueCmd w.1 ((f, 0) :: w.2) c
    | .peer k wa => s.recRequest k wa t
    | .held n => s.holdFor n
    | .bytes bs =>
      let s1 := ({ s with sp := { s.sp with peerRec := none } } : State).noteSpan t 64
      s1.issueCmd (tcopyBreaches bs var s.lch.scratch img.toNat org ++ w.1) w.2 { c with record := bs }

/-- `tcopy`. -/
def execTcopy (var : TVar) (st : Bool) (sc : Scope) (sp tr : Val) (os : List Val) (bw cv want : Option Val) (s : State) : Out :=
  .next (s.beforeIssue fun s => s.tcopyCmd var st sc sp tr os bw cv want)

/-! ### `copy.remote` (R218) -/

/-- The peer range that covers an address, with its limit. -/
def State.peerRange (s : State) (a : Nat) : Option RangeDesc :=
  match s.lookup s.lch.tree a with
  | .ok d => if d.kind = 3 then some d else none
  | .error _ => none

/-- Whether any byte of a global source lies in a peer range. -/
def State.anyPeer (s : State) (a n : Nat) : Bool :=
  n != 0 && tagOf a = 0 && (List.range ((a % 65536 + n + 65535) / 65536)).any fun i => (s.peerRange (a / 65536 * 65536 + i * 65536)).isSome

/-- How a destination of tag 0x00 resolves: to a package, to a fault at the first granule, or not at all. -/
inductive RemoteDst where
  | pkg (k : Nat)
  | gone
  | bad
  deriving DecidableEq, Repr

/-- The global destination of R218. -/
def State.remoteDst (s : State) (a n : Nat) : RemoteDst :=
  match s.lookup s.lch.tree a with
  | .error _ => .gone
  | .ok d => if !d.w then .gone else if d.kind = 3 && a + n ≤ d.limit then .pkg d.pkg else .bad

/-- Breaches of the locator rules (R218, R387). -/
def State.locBreaches (s : State) (d f n : Nat) (loc : Option Nat) (bw : Option Nat) (bi : Nat) : List Breach :=
  let tagBad := match loc with
    | none => tagOf d != 0
    | some _ => tagOf d != 0xFD
  let locBad := match loc with
    | some l => 2 ^ 57 ≤ l || 320 ≤ fld l 48 9
    | none => false
  let rd := if loc.isNone && tagOf d = 0 then s.remoteDst d n else .gone
  let pkgOk (k : Nat) : Bool := match loc, rd with
    | some l, _ => fld l 48 9 = k
    | none, .pkg j => j = k
    | none, _ => true
  let bwBad := match bw with
    | none => false
    | some b =>
      if tagOf b = 0xFD then loc.isNone
      else match (if tagOf b = 0 then s.peerRange b else none) with
        | some r => !(pkgOk r.pkg && b + 8 ≤ r.limit && r.r && r.w && r.a)
        | none => true
  (if tagBad then [⟨6, 0, d⟩] else []) ++ (if locBad then [⟨6, 3, loc.getD 0⟩] else []) ++
  (if s.anyPeer f n then [⟨6, 1, f⟩] else []) ++
  (if n != 0 && !tagBad && loc.isNone && rd = .bad then [⟨6, 0, d⟩] else []) ++
  (if bwBad then [⟨6, bi, bw.getD 0⟩] else [])

/-- `copy.remote`. -/
def State.remoteCmd (s : State) (st : Bool) (sc : Scope) (dst src len : Val) (loc bw cv want : Option Val) : State :=
  let d := s.scalar dst
  let f := s.scalar src
  let n := s.scalar len
  let l := loc.map s.scalar
  let bi := if loc.isSome then 4 else 3
  let rs := if 2 ^ 24 ≤ n then [] else s.rangeFaults f n
  s.issueCmd (lenBreach n ++ (if 2 ^ 24 ≤ n then [] else s.locBreaches d f n l (bw.map s.scalar) bi)) rs
    { s.newCmd .remote st sc bw cv want with
      dst := BitVec.ofNat 64 d, src := BitVec.ofNat 64 f, len := n, loc := l.map (BitVec.ofNat 64) }

/-- `copy.remote`. -/
def execCopyRemote (st : Bool) (sc : Scope) (dst src len : Val) (loc bw cv want : Option Val) (s : State) : Out :=
  .next (s.beforeIssue fun s => s.remoteCmd st sc dst src len loc bw cv want)

end Sys2Proof.Machine
end

