-- ==== Sys2Proof/Machine/Cache.lean ====
section
/-! DEFINITION. Side tables as the translation cache holds them, and its pages (10 R252 to R255, 11 R283). -/

namespace Sys2Proof.Machine

/-! ### Side tables (R252 to R254) -/

/-- LKIND and WHERE of a location. -/
def Loc.code : Loc → Nat × Nat
  | .reg k => (0, k)
  | .pair k => (1, k)
  | .scalar s => (2, s)
  | .guard g => (3, g)
  | .spill o => (4, o)
  | .const _ => (5, 0)
  | .acc b => (6, b)
  | .accFrame o => (7, o)
  | .queue n q => (8, 8 * n + q)
  | .flight n p k => (9, 256 * n + (if p then 128 else 0) + k)

/-- Words of a location record. -/
def locWords (q : Nat × Loc) : List Nat :=
  (q.1 * 2 ^ 44 + q.2.code.1 * 2 ^ 40 + q.2.code.2) :: match q.2 with
    | .const v => [v.toNat]
    | _ => []

/-- Words of a point record. -/
def Point.words (p : Point) : List Nat :=
  (p.pos * 2 ^ 40 + p.noff * 2 ^ 24 + p.ty * 2 ^ 22 + p.locs.length) :: p.locs.flatMap locWords

/-- Bytes of a side table. -/
def tableBytes (ps : List Point) : List Byte := (ps.flatMap Point.words).flatMap (leBytes 8)

/-- Pages of an entry: its code page, and the pages of its side table (R255). -/
def entryPages (ps : List Point) : Nat := 1 + max 1 (((ps.flatMap Point.words).length * 8 + 65535) / 65536)

/-! ### The page map (R255; log 89) -/

/-- The entry that has a page, and which of its pages it is. -/
def State.pageOf (s : State) (page : Nat) : Option (TEntry × Nat) :=
  (s.tcache.find? fun e => e.page ≤ page && page < e.page + e.pages).map fun e => (e, page - e.page)

/-- Bytes of a page from an offset: code and table are followed by zeros. -/
def TEntry.pageBytes (e : TEntry) (j off n : Nat) : List Byte :=
  let bs := if j = 0 then e.code else (tableBytes e.points).drop (65536 * (j - 1))
  (List.range n).map fun i => (bs[off + i]?).getD 0

/-- Bytes at a cache address; none when a page is not mapped, or is a code page with an uncorrectable error (R257). -/
def State.cacheBytes (s : State) : Nat → Nat → Nat → Option (List Byte)
  | 0, _, _ => some []
  | fuel + 1, a, n =>
    if n = 0 then some []
    else
      let k := min n (65536 - a % 65536)
      match s.pageOf (a / 65536) with
      | none => none
      | some (e, j) =>
        if e.badCode && j = 0 then none
        else (State.cacheBytes s fuel (a + k) (n - k)).map fun r => e.pageBytes j (a % 65536) k ++ r

/-- Lowest number from which as many pages are free. -/
def State.newPage (s : State) (n : Nat) : Nat :=
  let free (p : Nat) : Bool := !(s.tcache.any fun e => e.page < p + n && p < e.page + e.pages)
  let at_ := 0 :: s.tcache.map fun e => e.page + e.pages
  match at_.filter free with
  | [] => 0
  | p :: r => r.foldl min p

end Sys2Proof.Machine
end

