-- ==== Sys2Proof/Machine/Bank.lean ====
section
/-! DEFINITION. Which splits use a swap bank, which bank the stub takes, and how a split parks (11 R282, R285, R286). -/

namespace Sys2Proof.Machine

/-- Key of the region at a split's position, for a split of any camp. -/
def State.splitKey (s : State) (c : Camp) (t : Troop) (p : Split) : Key :=
  match s.module? p.mh with
  | some m => keyAt (s.launch c.ref.lid) t c.core m p.func p.off (t.stepping p && p.sup.isNone)
  | none => ⟨0, false, p.func, 0, 0, 0, 0, 0, 0, 0, false⟩

/-- Whether a split's position lies in no bank: parked, or waiting for a translation. -/
def Split.outside (p : Split) : Bool :=
  match p.st with
  | .parked | .claim _ => true
  | _ => p.mask = 0

/-- Whether a split's position lies in a bank that holds a region. -/
def State.splitIn (s : State) (c : Camp) (t : Troop) (p : Split) (b : Fin 2) (x : Bank) : Bool :=
  !p.outside && match p.nat with
    | some n => n.bank = b
    | none => x.st = .valid && x.key = some (s.splitKey c t p)

/-- The splits whose position lies in a bank of a core. -/
def State.splitsIn (s : State) (k : CoreId) (b : Fin 2) : List (SplitRef × Split) :=
  let x := (s.coreOf k).bank b
  s.allCamps.flatMap fun c =>
    if c.issuesOn k then c.troops.flatMap fun t =>
      (t.splits.filter fun p => s.splitIn c t p b x).map fun p => (⟨⟨c.ref, t.mem⟩, p.sid⟩, p)
    else []

/-- Whether a bank is in use. -/
def State.bankUsed (s : State) (k : CoreId) (b : Fin 2) : Bool := !(s.splitsIn k b).isEmpty

/-- Whether a bank was INVALID for a key; one emptied for a re-translation keeps its tag (R285). -/
def Bank.lost (b : Bank) (key : Key) (mh : Nat) : Bool :=
  (b.st = .invalid || b.st = .empty) && (b.key = some key || b.key = some (key.native mh))

/-- The bank of a core that serves a split: one not in use; of two, the one that was INVALID for the key, else the one the split did not leave (R285). -/
def State.freeBank (s : State) (k : CoreId) (key : Key) (mh : Nat) (left : Option (Fin 2)) : Option (Fin 2) :=
  let c := s.coreOf k
  match s.bankUsed k 0, s.bankUsed k 1 with
  | false, false => if c.b0.lost key mh then some 0 else if c.b1.lost key mh then some 1 else if left = some 0 then some 1 else some 0
  | false, true => some 0
  | true, false => some 1
  | true, true => none

/-- The bank that holds the region of the focused split's last point. -/
def State.lastBank (s : State) : Option (Fin 2) :=
  let k := { s with sp := { s.sp with off := s.sp.lastPt } }.spKey
  match s.sp.nat with
  | some p => some p.bank
  | none => (s.coreOf s.cp.core).bankOf k s.sp.mh

/-- The bank INVALID for the focused split's region. -/
def State.invalidHere (s : State) : Bool :=
  let c := s.coreOf s.cp.core
  let bad (b : Bank) : Bool := b.st = .invalid && (b.key = some s.spKey || b.key = some (s.spKey.native s.sp.mh))
  bad c.b0 || bad c.b1

/-- Records a service in STUBV. -/
def State.served (s : State) (cause : Nat) : State :=
  { s with tr := { s.tr with stubv := stubVal s.tr.stubv cause s.sp.func s.sp.off } }

/-- The focused split parks at its point, out of a bank, and enters the stub: its bank INVALID, no bank free, or region absent (R284 to R286). -/
def State.parkFrom (s : State) (left : Option (Fin 2)) : State :=
  let p : State := { s with sp := { s.sp with st := .parked, left := left } }
  p.served (if p.invalidHere then 2
    else if ((p.coreOf p.cp.core).bankOf p.spKey p.sp.mh).isNone && p.bankUsed p.cp.core 0 && p.bankUsed p.cp.core 1 then 3
    else 1)

/-- The focused split parks out of the bank of its last point. -/
def State.park (s : State) : State := s.parkFrom s.lastBank

end Sys2Proof.Machine
end

