-- ==== Sys2Proof/Machine/Residency.lean ====
section
/-! DEFINITION. Residencies: pitch, fill, use, strike, pin, query (09 R230 to R237, 05 R122, 19 R427, R431 to R434). -/

namespace Sys2Proof

/-- Element type of a matrix operand format. -/
def MFmt.ty : MFmt → Ty
  | .dxb4 => .dxb4 | .dxb6 => .dxb6 | .dxb8 => .dxb8 | .dxb12 => .dxb12 | .dxb16 => .dxb16
  | .pl1 => .pl1 | .pl2 => .pl2 | .pl4 => .pl4 | .pl8 => .pl8 | .pl16 => .pl16

/-- Matrix format of a type with code 20 to 29 (R232). -/
def Ty.mfmt : Ty → Option MFmt
  | .dxb4 => some .dxb4 | .dxb6 => some .dxb6 | .dxb8 => some .dxb8 | .dxb12 => some .dxb12 | .dxb16 => some .dxb16
  | .pl1 => some .pl1 | .pl2 => some .pl2 | .pl4 => some .pl4 | .pl8 => some .pl8 | .pl16 => some .pl16
  | _ => none

end Sys2Proof

namespace Sys2Proof.Machine

/-! ### Handles and entries (R230) -/

/-- The rhandle value of a number and generation (11 R289). -/
def handleVal (num gen : Nat) : TVal := ⟨.rhandle, BitVec.ofNat 64 (num % 256 + 256 * (gen % 2 ^ 24))⟩

def hNum (v : Nat) : Nat := v % 256
def hGen (v : Nat) : Nat := fld v 8 24

/-- The residency of an entry. -/
def Camp.res? (c : Camp) (num : Nat) : Option Res := c.res.find? fun r => r.num = num

/-- The residency that an entry number, or a handle of the current generation, names (R236). -/
def Camp.named (c : Camp) (byNum : Bool) (x : Nat) : Option Res :=
  if byNum then c.res? x else (c.res? (hNum x)).filter fun r => r.gen = hGen x

/-- Puts a residency into its entry. -/
def Camp.putRes (c : Camp) (r : Res) : Camp := { c with res := r :: c.res.filter fun q => q.num != r.num }

/-- The next generation of an entry (22 R471). -/
def Camp.nextGen (c : Camp) (num : Nat) : Nat :=
  match c.gens.find? fun g => g.1 = num with
  | some g => if g.2 = 2 ^ 24 - 1 then 1 else g.2 + 1
  | none => 1

/-- Splits that wait for a tile of an entry are tried again. -/
def Split.untile (p : Split) (num : Nat) : Split :=
  match p.st with
  | .tile n _ => if n = num then { p with st := .ready } else p
  | _ => p

def Troop.untile (t : Troop) (num : Nat) : Troop := { t with splits := t.splits.map fun p => p.untile num }

def Camp.untile (c : Camp) (num : Nat) : Camp := { c with troops := c.troops.map fun t => t.untile num }

/-- Changes the focused camp, then lets the waiters of an entry go on. -/
def State.modEntry (s : State) (num : Nat) (f : Camp → Camp) : State :=
  { s with cp := (f s.cp).untile num, tr := s.tr.untile num }

/-! ### Source spans and watches (05 R122, R232) -/

/-- First line and the address above the last line of the source of a residency; none when every tile lies beyond the extents. -/
def TRec.span (r : TRec) (i0 i1 tk tn : Nat) : Option (Nat × Nat) :=
  let k1 := min (nth r.ext 0) (i0 + 128 * tk)
  let n1 := min (nth r.ext 1) (i1 + 128 * tn)
  if k1 ≤ i0 || n1 ≤ i1 then none
  else
    let w := r.fmt.width
    let els := [(r.bitAt [i0, i1] 0).1, (r.bitAt [i0, n1 - 1] 0).1,
      (r.bitAt [k1 - 1, i1] (w - 1)).1, (r.bitAt [k1 - 1, n1 - 1] (w - 1)).1]
    let prs := if isDxb r.fmt then [r.pairAt [i0, i1], r.pairAt [k1 - 1, n1 - 1] + 1] else []
    let all := els ++ prs
    let lo := all.foldl Nat.min (2 ^ 64)
    let hi := all.foldl Nat.max 0
    some (lo / 64 * 64, hi / 64 * 64 + 64)

/-- What a walk of a span finds: the physical spans in address order, and whether some line lies with a peer. -/
structure Walked where
  spans : List (Nat × Nat)
  peer : Bool
  deriving DecidableEq, Repr

/-- The walk of R427, page by page; `fuel` bounds the pages. -/
def State.walkSpan (s : State) (die : TlbUnit) (tree : Nat) (path : List Rcb) (hi : Nat) : Nat → Nat → State × Except LFault Walked
  | 0, _ => (s, .ok ⟨[], false⟩)
  | fuel + 1, va =>
    if hi ≤ va then (s, .ok ⟨[], false⟩)
    else
      let top := min hi ((va / 65536 + 1) * 65536)
      match s.engXlat die tree path needR va with
      | (t, .error e) => (t, .error e)
      | (t, .ok x) => match State.walkSpan t die tree path hi fuel top with
        | (u, .error e) => (u, .error e)
        | (u, .ok w) => (u, .ok (match x.tgt with
          | .phys p => { w with spans := (p, p + (top - va)) :: w.spans }
          | _ => { w with peer := true }))

/-- Walks the source of a residency; nothing to walk without a source byte. -/
def State.walkSource (s : State) (sp : Option (Nat × Nat)) : State × Except LFault Walked :=
  match sp with
  | none => (s, .ok ⟨[], false⟩)
  | some (lo, hi) => s.walkSpan s.cp.engine s.lch.tree s.lch.path hi ((hi - lo) / 65536 + 2) lo

/-- Watches in use in the package (05 R122). -/
def State.watches (s : State) : Nat := (s.allCamps.map fun c => (c.res.filter fun r => r.watch.isSome).length).sum

/-- XADDR of QUOTA (19 R434). -/
def quotaAddr (region need sub num : Nat) : W64 :=
  BitVec.ofNat 64 (region * 2 ^ 40 + need % 2 ^ 24 * 2 ^ 16 + sub * 2 ^ 12 + num)

/-- QUOTA when a budget refuses slots, or no watch is free; none when admitted. -/
def State.quota (s : State) (b : Budget) (need sub num : Nat) : Option State :=
  (s.refuser b need s.lch.path).map fun r => s.trapAll cQUOTA (quotaAddr r.region need sub num)

/-- QUOTA WATCH. -/
def State.watchQuota (s : State) (needs : Bool) (num : Nat) : Option State :=
  if needs && 4096 ≤ s.watches then some (s.trapAll cQUOTA (quotaAddr 0 0 3 num)) else none

/-! ### `res.pitch` (R231, R232) -/

/-- Operands of a pitch. -/
structure Pitch where
  trec : Nat
  i0 : Nat
  i1 : Nat
  tk : Nat
  tn : Nat
  num : Nat
  deriving DecidableEq, Repr

/-- RESARG of the operands alone. -/
def Camp.pitchArgs (c : Camp) (p : Pitch) : List Breach :=
  (if p.i0 % 32 != 0 then [⟨0x0B, 1, p.i0⟩] else []) ++
  (if p.tk < 1 || 256 < p.tk || 4096 < p.tk * p.tn then [⟨0x0B, 3, p.tk⟩] else []) ++
  (if p.tn < 1 || 256 < p.tn then [⟨0x0B, 4, p.tn⟩] else []) ++
  (if 255 < p.num || (c.res? p.num).isSome then [⟨0x0B, 5, p.num⟩] else [])

/-- TRECORD, or the RESARG rules on the record. -/
def recArgs (r : TRec) (trec : Nat) : List Breach :=
  if !r.ok then [⟨4, 0, 0⟩]
  else if r.fmt.mfmt.isNone || r.rank < 2 then [⟨0x0B, 0, trec⟩] else []

/-- Claims the entry and defines the handle; the tiles are then filled in ascending order. -/
def State.claimEntry (s : State) (p : Pitch) (sc : Scope) (r : TRec) (bs : List Byte) (watch : Option (List (Nat × Nat))) : State :=
  let gen := s.cp.nextGen p.num
  let e : Res := ⟨p.num, gen, BitVec.ofNat 64 p.trec, p.i0, p.i1, p.tk, p.tn, (r.fmt.mfmt).getD .pl1, sc, false, none, watch, [], bs,
    List.range (p.tk * p.tn), none⟩
  ({ s with cp := { s.cp.putRes e with gens := setNum p.num gen s.cp.gens } }).defLanes fun _ _ => (handleVal p.num gen, 0)

/-- The pitch of a source whose record is good: window of BASE, walk, peer rule, admission, watch. -/
def State.pitchSource (s : State) (p : Pitch) (sc : Scope) (r : TRec) (bs : List Byte) : State :=
  if tagOf r.base != 0 then s.trapOnce ⟨cWINDOW, 6, r.base⟩ 0
  else
    let sp := r.span p.i0 p.i1 p.tk p.tn
    match s.walkSource sp with
    | (s1, .error e) => s1.trapOnce e 0
    | (s1, .ok w) =>
      if w.peer then s1.operand 0x0B 0 p.trec
      else match s1.quota .rslots (p.tk * p.tn * ((r.fmt.mfmt).map MFmt.planes |>.getD 0)) 1 p.num with
        | some t => t
        | none => match s1.watchQuota sp.isSome p.num with
          | some t => t
          | none => s1.claimEntry p sc r bs (sp.map fun _ => w.spans)

/-- Takes the first operand cause, or the memory cause of the record. -/
def State.pitchFault (s : State) (bad : List Breach) (fs : List (LFault × Nat)) (k : State) : State := (s.operandTrap bad fs).getD k

/-- `res.pitch` with its operands. -/
def State.pitch (s : State) (sc : Scope) (p : Pitch) : State :=
  match s.useGrant [(accRecord, [(s.lead, p.trec)])] with
  | .done t => t
  | .go s _ =>
    let bad := s.cp.pitchArgs p
    match s.readRec p.trec with
    | .bad => s.pitchFault (⟨4, 0, 0⟩ :: bad) [] s
    | .fault f => s.pitchFault bad [(f, 0)] s
    | .peer k wa => s.recRequest k wa p.trec
    | .held n => s.holdFor n
    | .bytes bs =>
      let s1 := ({ s with sp := { s.sp with peerRec := none } } : State).noteSpan p.trec 64
      let r := TRec.ofBytes bs
      s1.pitchFault (recArgs r p.trec ++ bad) [] (if r.ok && (recArgs r p.trec ++ bad).isEmpty then s1.pitchSource p sc r bs else s1)

/-- `res.pitch`. -/
def execResPitch (sc : Scope) (tr i0 i1 tk tn num : Val) (s : State) : Out :=
  .next (s.afterStores s.sp.mask fun s => s.pitch sc ⟨s.scalar tr, s.scalar i0, s.scalar i1, s.scalar tk, s.scalar tn, s.scalar num⟩)

/-- `res.pitch.attach`: the handle of an empty entry has a free generation (log 24). -/
def execResPitchAttach (num : Val) (s : State) : Out :=
  let n := s.scalar num
  .next (if 255 < n then s.operand 0x0B 0 n
    else match s.cp.res? n with
      | some r => s.defLanes fun _ _ => (handleVal n r.gen, 0)
      | none => s.freed.defLanes fun _ _ => (handleVal n s.free.toNat, 0))

/-- Source span of a residency. -/
def Res.span (r : Res) : Option (Nat × Nat) := (TRec.ofBytes r.record).span r.i0 r.i1 r.tk r.tn

/-- `res.pitch.refill` of an entry that is not empty (R232, 19 R427). -/
def State.refill (s : State) (r : Res) : State :=
  match s.walkSource r.span with
  | (s1, .error e) => s1.trapOnce e 0
  | (s1, .ok w) =>
    if w.peer then s1.operand 0x0B 0 r.num
    else match s1.watchQuota (r.span.isSome && r.watch.isNone) r.num with
      | some t => t
      | none => (s1.modEntry r.num fun c => c.putRes { r with
          stale := none, watch := r.span.map fun _ => w.spans, tiles := [], todo := List.range (r.tk * r.tn) }).advance

/-- `res.pitch.refill`. -/
def execResPitchRefill (num : Val) (s : State) : Out :=
  let n := s.scalar num
  .next (s.afterStores s.sp.mask fun s => match s.cp.res? n with
    | some r => s.refill r
    | none => s.operand 0x0B 0 n)

/-! ### Strike, pin, query (R236, R237) -/

/-- `res.strike`. -/
def execResStrike (byNum : Bool) (x : Val) (s : State) : Out :=
  .next (match s.cp.named byNum (s.scalar x) with
    | some r => (s.modEntry r.num fun c => { c with res := c.res.filter fun q => q.num != r.num }).advance
    | none => s.advance)

/-- `res.pin`. -/
def execResPin (byNum : Bool) (x : Val) (s : State) : Out :=
  .next (match s.cp.named byNum (s.scalar x) with
    | some r =>
      if r.pin then s.advance
      else match s.quota .pslots r.slots 2 r.num with
        | some t => t
        | none => ({ s with cp := s.cp.putRes { r with pin := true } }).advance
    | none => s.advance)

/-- `res.unpin`. -/
def execResUnpin (byNum : Bool) (x : Val) (s : State) : Out :=
  .next (match s.cp.named byNum (s.scalar x) with
    | some r => ({ s with cp := s.cp.putRes { r with pin := false } }).advance
    | none => s.advance)

/-- The word that `res.query` defines (R237). -/
def Camp.queryWord (c : Camp) (byNum : Bool) (x : Nat) : Nat :=
  match c.named byNum x with
  | some r => 2 ^ 31 + boolN r.stale.isSome * 2 ^ 30 + boolN r.pin * 2 ^ 29 + x % 256 * 2 ^ 20 + r.slots
  | none => x % 256 * 2 ^ 20

/-- `res.query`. -/
def execResQuery (byNum : Bool) (x : Val) (s : State) : Out :=
  .next (s.defLanes fun _ _ => (mkVal .w32 (s.cp.queryWord byNum (s.scalar x)), 0))

/-! ### Filling a tile (R230, R232, R234) -/

/-- Physical address of an offset into the watched lines. -/
def watchPhys : List (Nat × Nat) → Nat → Option Nat
  | [], _ => none
  | (a, b) :: r, o => if o < b - a then some (a + o) else watchPhys r (o - (b - a))

/-- Physical address of a source byte, as the watch has it. -/
def Res.phys (r : Res) (lo va : Nat) : Option Nat := if va < lo then none else watchPhys (r.watch.getD []) (va - lo)

/-- Physical addresses of source bytes. -/
def Res.physAll (r : Res) (lo va n : Nat) : List Nat := (List.range n).map fun i => (r.phys lo (va + i)).getD 0

/-- Where a tile begins in dimensions 0 and 1. -/
def Res.origin (r : Res) (j : Nat) : Nat × Nat := (r.i0 + 128 * (j % r.tk), r.i1 + 128 * (j / r.tk))

/-- Source bytes of row `n` of a tile: none beyond the extents. -/
def Res.rowBytes (r : Res) (t : TRec) (lo j n : Nat) : List Nat :=
  let o := r.origin j
  let len := min 128 (nth t.ext 0 - o.1)
  if len = 0 || nth t.ext 1 ≤ o.2 + n then [] else r.physAll lo (t.bitAt [o.1, o.2 + n] 0).1 ((len * t.fmt.width + 7) / 8)

/-- Bytes of the pairs of a row. -/
def Res.rowPairs (r : Res) (t : TRec) (lo j n : Nat) : List Nat :=
  let o := r.origin j
  let len := min 128 (nth t.ext 0 - o.1)
  if !isDxb t.fmt || len = 0 || nth t.ext 1 ≤ o.2 + n then [] else r.physAll lo (t.pairAt [o.1, o.2 + n]) (len / 32 * 2)

/-- Cuts a row's bytes into patterns of `w` bits, `cnt` of them. -/
def cutBits (v w cnt : Nat) : List Nat := (List.range cnt).map fun k => fld v (w * k) w

/-- A tile read from its source: 128 rows of 128 patterns, then 4 pairs a row. -/
def State.readTile (s : State) (r : Res) (j use : Nat) (k : CoreId) : ResTile :=
  let t := TRec.ofBytes r.record
  let lo := (r.span.map Prod.fst).getD 0
  let num (bs : List Nat) : Nat := leNat (bs.map (memRead s.mem))
  let w := t.fmt.width
  let len := min 128 (nth t.ext 0 - (r.origin j).1)
  let cut (v : Nat) : Nat := v % 2 ^ (w * len)
  ⟨j, (List.range 128).flatMap fun n => cutBits (cut (num (r.rowBytes t lo j n))) w 128,
    (List.range 128).flatMap fun n => cutBits (num (r.rowPairs t lo j n)) 16 4, use, k⟩

/-- Bytes that a tile's fill reads. -/
def Res.tileBytes (r : Res) (j : Nat) : List Nat :=
  let t := TRec.ofBytes r.record
  let lo := (r.span.map Prod.fst).getD 0
  (List.range 128).flatMap fun n => r.rowBytes t lo j n ++ r.rowPairs t lo j n

/-- Plane-slots of a core's residency store (01 R14). -/
def storeSlots (k : CoreId) : Nat := if k.die < 6 then 1024 else 256

/-- A tile that a core's store holds, with what R234 looks at: class, last use, camp, entry, tile, slots. -/
structure Held where
  cls : Nat
  use : Nat
  camp : CampRef
  num : Nat
  j : Nat
  slots : Nat
  deriving DecidableEq, Repr

/-- Tiles in a core's store, seen from a camp that fills tile `j` of entry `num`. -/
def State.held (s : State) (k : CoreId) (own : CampRef) : List Held :=
  s.camps.flatMap fun c =>
    let on := c.resident && c.core = k
    c.res.flatMap fun r => (r.tiles.filter fun t => t.core = k).map fun t =>
      let cls := match on, r.pin with
        | false, false => 0
        | true, false => if c.ref = own then 2 else 1
        | false, true => 3
        | true, true => 4
      ⟨cls, t.use, c.ref, r.num, t.j, r.fmt.planes⟩

/-- Changes a residency of a camp. -/
def State.modRes (s : State) (c : CampRef) (num : Nat) (f : Res → Res) : State :=
  s.modCamp c fun k => { k with res := k.res.map fun r => if r.num = num then f r else r }

/-- Evicts a tile. -/
def State.evict (s : State) (h : Held) : State :=
  s.modRes h.camp h.num fun r => { r with tiles := r.tiles.filter fun t => t.j != h.j }

/-- Evicts in the order of R234 until `need` slots are free; the tile being filled stays. -/
def State.makeRoom (s : State) (k : CoreId) (own : CampRef) (num j need : Nat) : Nat → State
  | 0 => s
  | fuel + 1 =>
    let hs := s.held k own
    if (hs.map Held.slots).sum + need ≤ storeSlots k then s
    else match hs.filter fun h => !(h.camp = own && h.num = num && h.j = j) with
      | [] => s
      | h :: r =>
        let v := r.foldl (fun a b => if b.cls < a.cls || (b.cls = a.cls && b.use < a.use) then b else a) h
        State.makeRoom (s.evict v) k own num j need fuel

/-- Members at the latch are looked at again. -/
def State.pushRopes (s : State) (c : CampRef) : State :=
  match s.camps.find? fun k => k.ref = c with
  | none => s
  | some k => (k.troops.filter fun t => inRope t.rope).foldl (fun s t => s.push (.rendezvousMatch c t.ropeId)) s

/-- RESIDENCY TILE FILL: the next tile `j` of an entry, in ascending order, is read, unless its line is poisoned: then the residency becomes stale, SUB SOURCE (21 R466). -/
def State.tileFill (s : State) (c : CampRef) (num j : Nat) : State :=
  match s.camps.find? fun k => k.ref = c with
  | none => s
  | some k => match k.res? num with
    | none => s
    | some r =>
      if !k.resident || r.todo.head? != some j then s
      else
        let s1 :=
          if s.poisoned (r.tileBytes j) then s.modRes c num fun r => { r with stale := some (r.stale.getD 3), todo := [] }
          else
            let s0 := s.makeRoom k.core c num j r.fmt.planes 8192
            let t := s0.readTile r j (s0.coreOf k.core).issues k.core
            s0.modRes c num fun r => { r with
              tiles := t :: r.tiles.filter fun q => q.j != j, todo := r.todo.filter fun i => i != j }
        (s1.modCamp c fun k => k.untile num).pushRopes c

/-! ### Uses (R233) -/

/-- XADDR of STALE (19 R433). -/
def staleAddr (j sub gen num : Nat) : W64 := BitVec.ofNat 64 (j % 4096 * 2 ^ 36 + sub * 2 ^ 32 + gen * 2 ^ 8 + num)

/-- What a use of tile `j` by a handle finds: a STALE sub-code, a tile to wait for, or the tile. -/
inductive Use where
  | stale (sub : Nat)
  | wait (r : Res)
  | tile (t : ResTile)

/-- A use by the focused camp. -/
def Camp.useOf (c : Camp) (h j : Nat) : Use :=
  match (c.res? (hNum h)).filter fun r => r.gen = hGen h with
  | none => .stale 4
  | some r => match r.stale with
    | some sub => .stale sub
    | none => match r.tiles.find? fun t => t.j = j && t.core = c.core && !r.todo.contains j with
      | some t => .tile t
      | none => .wait r

/-- Asks for an evicted tile. -/
def Camp.askTile (c : Camp) (r : Res) (j : Nat) : Camp :=
  c.putRes { r with todo := if r.todo.contains j then r.todo else r.todo ++ [j] }

/-- Notes the use of a tile. -/
def Camp.touchTile (c : Camp) (num j use : Nat) : Camp :=
  { c with res := c.res.map fun r =>
      if r.num = num then { r with tiles := r.tiles.map fun t => if t.j = j then { t with use := use } else t } else r }

end Sys2Proof.Machine
end

