-- ==== Sys2Proof/Machine/Seats.lean ====
section
/-! DEFINITION. The split table and the rendezvous latches of a core (02 R34, R38, R51, 13 R327; log 87). -/

namespace Sys2Proof.Machine

/-- Entries of a core's split table (02 R34). -/
def tableSize (k : CoreId) : Nat := if k.die < 6 then 64 else 32

/-- Rendezvous latches of a core (02 R38). -/
def latchCount (k : CoreId) : Nat := if k.die < 6 then 8 else 4

/-- Whether a split is ready: not waiting, and not stopped unless it runs a handler (02 R51, 18 R414). -/
def Split.ready (p : Split) : Bool := p.st = .ready && (p.stop.isNone || p.sup.isSome) && p.mask != 0

/-- A split resident on a core, as the table sees it: its issue count and whether it is ready. -/
structure Row where
  ref : SplitRef
  ready : Bool
  issued : Nat
  seat : Seat
  deriving DecidableEq, Repr

/-- The splits resident on a core. -/
def State.rowsOn (s : State) (k : CoreId) : List Row :=
  s.camps.flatMap fun c => if c.issuesOn k then c.troops.flatMap fun t =>
    (t.splits.filter fun p => p.mask != 0).map fun p => ⟨⟨⟨c.ref, t.mem⟩, p.sid⟩, p.ready, p.issued, p.seat⟩
  else []

/-- The entry of a row. -/
def Row.entry? (r : Row) : Option Nat :=
  match r.seat with
  | .entry n => some n
  | _ => none

/-- Splits that come from one record hold its entry once: the first keeps it. -/
def dedupRows : List Nat → List Row → List Row
  | _, [] => []
  | used, r :: rest => match r.entry? with
    | none => r :: dedupRows used rest
    | some n =>
      if used.contains n then { r with seat := .none } :: dedupRows used rest
      else r :: dedupRows (n :: used) rest

/-- Lowest entry that no row holds. -/
def freeEntry (n : Nat) (rows : List Row) : Option Nat :=
  (List.range n).find? fun e => !(rows.any fun r => r.seat = .entry e)

/-- Gives a split's record a place. -/
def seatRow (x : SplitRef) (p : Seat) (rows : List Row) : List Row := rows.map fun r => if r.ref = x then { r with seat := p } else r

/-- The row that has waited longest without issue; the first of several. -/
def longest : List Row → Option Row
  | [] => none
  | r :: rest => some (rest.foldl (fun b x => if x.issued < b.issued then x else b) r)

/-- Whether a troop holds an entry. -/
def hasEntry (t : TroopRef) (rows : List Row) : Bool := rows.any fun r => r.ref.tr = t && r.entry?.isSome

/-- The record that gives way to one of a troop: the troop's longest waiting, else the longest waiting of a troop that holds several entries. -/
def giveWay (t : TroopRef) (rows : List Row) : Option Row :=
  match longest (rows.filter fun r => r.ref.tr = t && r.entry?.isSome) with
  | some r => some r
  | none => longest (rows.filter fun r => r.entry?.isSome && rows.any fun q => q.ref.tr = r.ref.tr && q.ref != r.ref && q.entry?.isSome)

/-- Puts a record into a free entry, or into that of the record that gives way. -/
def takeEntry (n : Nat) (x : Row) (rows : List Row) : List Row :=
  match freeEntry n rows with
  | some e => seatRow x.ref (.entry e) rows
  | none => match giveWay x.ref.tr rows with
    | some v => seatRow x.ref v.seat (seatRow v.ref .memory rows)
    | none => seatRow x.ref .memory rows

/-- Every split that a divergence or a placement brought gets an entry; the longest waiting split of its troop leaves the table when none is free (R34). -/
def seatNew (n : Nat) : Nat → List Row → List Row
  | 0, rows => rows
  | fuel + 1, rows => match rows.find? fun r => r.seat = .none with
    | none => rows
    | some x => seatNew n fuel (takeEntry n x rows)

/-- Every troop holds an entry: where none is left, the troop's longest waiting record comes back (R34). -/
def seatTroops (n : Nat) : Nat → List Row → List Row
  | 0, rows => rows
  | fuel + 1, rows => match longest (rows.filter fun r => !hasEntry r.ref.tr rows) with
    | none => rows
    | some x => seatTroops n fuel (takeEntry n x rows)

/-- The table of a core with every record in its place. -/
def seatAll (n : Nat) (rows : List Row) : List Row :=
  let a := dedupRows [] rows
  seatTroops n a.length (seatNew n a.length a)

/-- One record of reserved memory is exchanged at an aging step: for a free entry, for a record of its troop that is not ready, or for one issued since the last step (R34). -/
def exchangeOne (n since : Nat) (q : List Row × List SplitRef) (x : Row) : List Row × List SplitRef :=
  let put (e : Nat) (v : List SplitRef) : List Row × List SplitRef := (seatRow x.ref (.entry e) q.1, x.ref :: v ++ q.2)
  match freeEntry n q.1 with
  | some e => put e []
  | none =>
    let mine := q.1.filter fun r => r.ref.tr = x.ref.tr && r.entry?.isSome && !q.2.contains r.ref
    match (mine.find? fun r => !r.ready) <|> mine.find? fun r => since < r.issued with
    | some v => (seatRow x.ref v.seat (seatRow v.ref .memory q.1), x.ref :: v.ref :: q.2)
    | none => q

/-- The exchange of an aging step: ready records first. -/
def exchangeRows (n since : Nat) (rows : List Row) : List Row :=
  let out := rows.filter fun r => r.seat = .memory
  (((out.filter Row.ready) ++ out.filter fun r => !r.ready).foldl (exchangeOne n since) (rows, [])).1

/-- Changes the splits resident on a core. -/
def State.mapOn (s : State) (k : CoreId) (f : SplitRef → Split → Split) : State :=
  { s with camps := s.camps.map fun c =>
      if c.issuesOn k then
        { c with troops := c.troops.map fun t => ({ t with splits := t.splits.map fun p => f ⟨⟨c.ref, t.mem⟩, p.sid⟩ p } : Troop) }
      else c }

/-- Puts the records of a core where rows say. -/
def State.seatAs (s : State) (k : CoreId) (rows : List Row) : State :=
  s.mapOn k fun r p => match rows.find? fun x => x.ref = r with
    | some x => { p with seat := x.seat }
    | none => p

/-- The core's table is brought up to date before it issues. -/
def State.seatCore (s : State) (k : CoreId) : State :=
  let rows := s.rowsOn k
  let new := seatAll (tableSize k) rows
  if new = rows then s else s.seatAs k new

/-! ### Rendezvous latches (R38) -/

/-- The rope that the focused troop is in. -/
def Troop.ropeNow (t : Troop) : Option Nat := if inRope t.rope then some t.ropeId else none

/-- Serials of the ropes of a camp. -/
def Camp.ropes (c : Camp) : List Nat := (c.troops.filterMap Troop.ropeNow).eraseDups

/-- Lowest latches of a core for ropes that hold none. -/
def giveLatches (n : Nat) : List Nat → List (Nat × Nat) → List Nat → List (Nat × Nat)
  | [], own, _ => own
  | r :: rest, own, used =>
    if own.any fun x => x.1 = r then giveLatches n rest own used
    else match (List.range n).find? fun l => !used.contains l with
      | some l => giveLatches n rest (own ++ [(r, l)]) (l :: used)
      | none => giveLatches n rest own used

/-- Every rope of a camp on its core holds a latch, and no other does. -/
def State.relatch (s : State) (r : CampRef) : State :=
  match s.camps.find? fun c => c.ref = r with
  | none => s
  | some c =>
    let keep := c.latches.filter fun x => c.ropes.contains x.1
    let used := keep.map Prod.snd ++ (s.camps.filter fun x => x.ref != r && x.issuesOn c.core).flatMap fun x => x.latches.map Prod.snd
    s.modCamp r fun c => { c with latches := giveLatches (latchCount c.core) c.ropes keep used }

end Sys2Proof.Machine
end

