-- ==== Sys2Proof/Machine/Matrix.lean ====
section
/-! DEFINITION. The matrix array: accumulator tiles, products, normalisation, element access (03 R69 to R72, 04 R83, 09 R221 to R226, R229). -/

namespace Sys2Proof.Machine

/-! ### Elements and tiles (03 R70) -/

/-- The all-zero image. -/
def AccEl.zero : AccEl := ⟨0, 0, false, false, 0⟩

/-- What `acc.init` sets. -/
def AccEl.init (e : Int) (c : Nat) : AccEl := ⟨0, BitVec.ofInt 16 e, false, false, BitVec.ofNat 4 c⟩

/-- Bits [127:64] of the image. -/
def AccEl.hi (x : AccEl) : Nat := x.e.toNat + boolN x.s * 2 ^ 16 + boolN x.n * 2 ^ 17 + x.c.toNat * 2 ^ 20

/-- Sets the fields of bits [127:64]. -/
def AccEl.setHi (x : AccEl) (v : Nat) : AccEl :=
  { x with e := BitVec.ofNat 16 v, s := fld v 16 1 = 1, n := fld v 17 1 = 1, c := BitVec.ofNat 4 (fld v 20 4) }

/-- Element of a tile, numbered 128 m + n. -/
def Tile.el (t : Tile) (i : Nat) : AccEl := ((t.els.find? fun p => p.1 = i).map Prod.snd).getD t.dflt

/-- Puts an element into a list in rising order that omits the default. -/
def putEl (d : AccEl) (i : Nat) (x : AccEl) : List (Nat × AccEl) → List (Nat × AccEl)
  | [] => if x = d then [] else [(i, x)]
  | (j, y) :: r =>
    if j < i then (j, y) :: putEl d i x r
    else (if x = d then [] else [(i, x)]) ++ (if j = i then r else (j, y) :: r)

def Tile.put (t : Tile) (i : Nat) (x : AccEl) : Tile := { t with els := putEl t.dflt i x t.els }

/-- Changes every element from index `i`, `n` of them: those that differ from the default, and the status ORed. -/
def mapEls (d : AccEl) (f : Nat → AccEl → AccEl × W32) : Nat → Nat → List (Nat × AccEl) → List (Nat × AccEl) × W32
  | 0, _, _ => ([], 0)
  | n + 1, i, es =>
    let here := match es with
      | (j, x) :: r => if j = i then (x, r) else (d, es)
      | [] => (d, [])
    let y := f i here.1
    let t := mapEls d f n (i + 1) here.2
    (if y.1 = d then t.1 else (i, y.1) :: t.1, y.2 ||| t.2)

/-- Changes every element of a tile. -/
def Tile.mapAll (t : Tile) (f : Nat → AccEl → AccEl × W32) : Tile × W32 :=
  let r := mapEls t.dflt f 16384 0 t.els
  ({ t with els := r.1 }, r.2)

/-- What an acc value names (R222): slot, and the rope whose tile it is. -/
structure AccRef where
  slot : Nat
  rope : Option Nat
  deriving DecidableEq, Repr

/-- The payload of an acc value. -/
def AccRef.val (a : AccRef) : TVal :=
  ⟨.acc, BitVec.ofNat 64 (a.slot % 16 + (match a.rope with
    | some r => 16 + 256 * r
    | none => 0))⟩

def AccRef.ofNat (v : Nat) : AccRef := ⟨v % 16, if fld v 4 1 = 1 then some (v / 256) else none⟩

/-- Whether a tile is the one that a troop's acc value names. -/
def Tile.is (t : Tile) (mem : Nat) (a : AccRef) : Bool := t.slot = a.slot && t.rope = a.rope && (a.rope.isSome || t.mem = mem)

/-- The tile of an acc value; one that no `acc.init` has begun holds the all-zero image (R229). -/
def Camp.acc (c : Camp) (mem : Nat) (a : AccRef) : Tile :=
  (c.accs.find? fun t => t.is mem a).getD ⟨if a.rope.isSome then 0 else mem, a.rope, a.slot, AccEl.zero, []⟩

def Camp.putAcc (c : Camp) (mem : Nat) (a : AccRef) (t : Tile) : Camp := { c with accs := t :: c.accs.filter fun u => !u.is mem a }

/-- The tile of an acc value of the focused troop. -/
def State.accTile (s : State) (a : AccRef) : Tile := s.cp.acc s.tr.mem a

def State.putTile (s : State) (a : AccRef) (t : Tile) : State := { s with cp := s.cp.putAcc s.tr.mem a t }

/-- The acc operand of the executing split. -/
def State.accRef (s : State) (v : Val) : AccRef := AccRef.ofNat (s.scalar v)

/-- Whether an acc value names a tile of a rope that the troop is not in (R228, R229). -/
def Troop.gone (t : Troop) (a : AccRef) : Bool := a.rope.isSome && a.rope != t.ropeNow

/-- Whether the executing troop changes the tile: a rope tile changes only at POS 0 (R229). -/
def Troop.changes (t : Troop) (a : AccRef) : Bool := a.rope.isNone || ropePos t.rope = 0

/-- ROPE with a sub-code in the executing split's mask. -/
def State.ropeFault (s : State) (sub mem : Nat) : State := s.trapAll cROPE (ropeAddr sub mem)

/-- Sets status in every lane of a troop. -/
def Troop.raiseAll (t : Troop) (f : W32) : Troop := { t with lanes := t.lanes.map fun l => l.raise false f }

/-- Status of a matrix operation (17 R392): every lane of the troop, or of every member of the tile's rope; none in a handler (18 R398). -/
def State.raiseTile (s : State) (a : AccRef) (f : W32) : State :=
  if s.sup || f = 0 then s
  else match a.rope with
    | none => { s with tr := s.tr.raiseAll f }
    | some r => { s with
        tr := s.tr.raiseAll f
        cp := { s.cp with troops := s.cp.troops.map fun t => if t.ropeNow = some r then t.raiseAll f else t } }

/-- Defines the next value of a chain in the active lanes and goes on. -/
def State.defAcc (s : State) (a : AccRef) : State := s.defLanes fun _ _ => (a.val, 0)

/-! ### `acc.init` (R223) -/

/-- `acc.init`: in a rope, only the member at POS 0 sets the tile (R229). -/
def execAccInit (slot : Fin 8) (ceil : Fin 16) (e : Val) (s : State) : Out :=
  let x := readInt .i32 (s.scalar e)
  .next (if x < -32768 || 32767 < x then s.operand 0x07 0 (s.scalar e)
    else
      let a : AccRef := ⟨slot.val, s.tr.ropeNow⟩
      let t : Tile := ⟨if a.rope.isSome then 0 else s.tr.mem, a.rope, a.slot, AccEl.init x ceil.val, []⟩
      (if s.tr.changes a then s.putTile a t else s).defAcc a)

/-! ### Products (R71) -/

/-- Signed magnitude of a DXB pattern (R64). -/
def dxbSigned (k p : Nat) : Int := if fld p (k + 1) 1 = 1 then -(fld p 0 k : Int) else (fld p 0 k : Int)

/-- A block from its patterns and pair (R64, R69). -/
def mkBlk (f : MFmt) (ps : List Nat) (pair : Nat) : Blk :=
  let ty := f.ty
  if isDxb ty then
    let k := dxbK ty
    let e0 := pair % 256
    let e1 := pair / 256 % 256
    let term (e : Nat) : Int := (e : Int) - 127 - ((k : Int) - 1)
    let pick (q : Nat) : List Int := ps.map fun p => if fld p k 1 = q then dxbSigned k p else 0
    ⟨e0 = 255 || e1 = 255, term e0, term e1, pick 0, pick 1⟩
  else ⟨false, 0, 0, ps.map fun (p : Nat) => wrap ty.width p, []⟩

/-- Sum of the products of two lists. -/
def dot (a b : List Int) : Int := (List.zipWith (· * ·) a b).foldl (· + ·) 0

/-- Adds one partial sum at exponent `f` (R71). -/
def AccEl.addTerm (x : AccEl) (p f : Int) : AccEl × W32 :=
  if p = 0 then (x, 0)
  else
    let e := x.e.toInt
    let tooBig : Bool := (x.c.toNat : Int) < f - e
    let t : Int :=
      if tooBig then (if p < 0 then -(2 ^ 63 : Int) else (2 ^ 63 : Int))
      else if e ≤ f then p * (2 ^ (f - e).toNat : Int)
      else p / (2 ^ (e - f).toNat : Int)
    let g := x.gm.toInt + t
    let bad := tooBig || g != sat 64 g
    ({ x with gm := BitVec.ofInt 64 (sat 64 g), s := x.s || bad }, flagIf bad fAS)

/-- `add_block` of R71. -/
def AccEl.addBlock (x : AccEl) (a b : Blk) : AccEl × W32 :=
  if x.n then (x, 0)
  else if a.nan || b.nan then ({ x with n := true }, fAS ||| fNV)
  else
    [(dot a.q0 b.q0, a.t0 + b.t0), (dot a.q0 b.q1, a.t0 + b.t1), (dot a.q1 b.q0, a.t1 + b.t0), (dot a.q1 b.q1, a.t1 + b.t1)].foldl
      (fun r p => let y := r.1.addTerm p.1 p.2; (y.1, r.2 ||| y.2)) (x, 0)

/-- Adds the products of matching blocks in ascending K order. -/
def AccEl.addRow (x : AccEl) (as bs : List Blk) : AccEl × W32 :=
  (as.zip bs).foldl (fun r p => let y := r.1.addBlock p.1 p.2; (y.1, r.2 ||| y.2)) (x, 0)

/-- Adds a product into a tile: rows of blocks of both operands. -/
def Tile.addProduct (t : Tile) (as bs : List (List Blk)) : Tile × W32 :=
  t.mapAll fun i x => x.addRow ((as[i / 128]?).getD []) ((bs[i % 128]?).getD [])

/-- Element `j` of row `r` of an operand tile at a scratchpad offset (04 R83). -/
def planeEl (scr : List Host.Cell) (b planes r j : Nat) : Nat :=
  ((List.range planes).map fun p => 2 ^ p * fld (memRead scr (b + 512 * p + 4 * r + j / 8)).toNat (j % 8) 1).sum

/-- Block of row `r` of the operand tile at a scratchpad offset. -/
def planeBlk (scr : List Host.Cell) (b : Nat) (f : MFmt) (r : Nat) : Blk :=
  let w := f.ty.width
  mkBlk f ((List.range 32).map fun j => planeEl scr b w r j) (memNat scr (b + 512 * w + 2 * r) 2)

/-- Rows of `t` consecutive operand tiles. -/
def planeRows (scr : List Host.Cell) (b t : Nat) (f : MFmt) : List (List Blk) :=
  (List.range 128).map fun r => (List.range t).map fun c => planeBlk scr (b + c * planeFoot f.ty) f r

/-- Rows of the first `t` K blocks of a residency tile. -/
def resRows (x : ResTile) (t : Nat) (f : MFmt) : List (List Blk) :=
  (List.range 128).map fun n => (List.range t).map fun c =>
    mkBlk f (((x.els.drop (128 * n + 32 * c)).take 32)) ((x.pairs[4 * n + c]?).getD 0)

/-! ### `mma` and `mma.res` (R224, R225) -/

/-- MMAOPND of an address (R224). -/
def addrBreach (scratch : Nat) (f : MFmt) (t index a : Nat) : List Breach :=
  if tagOf a != 0xFD || a % 256 != 0 || scratch < offOf a + t * planeFoot f.ty then [⟨0x0A, index, a⟩] else []

/-- MMAOPND breaches of an operation of the focused camp. -/
def State.mmaBreaches (s : State) (m : MOp) : List Breach :=
  addrBreach s.lch.scratch m.fa m.t 1 m.pa ++
  if m.res then
    match s.cp.named false m.b with
    | none => []
    | some r => (if r.fmt != m.fb then [⟨0x0A, 2, m.b⟩] else []) ++ (if r.tk * r.tn ≤ m.j then [⟨0x0A, 3, m.j⟩] else [])
  else addrBreach s.lch.scratch m.fb m.t 2 m.b

/-- Where the weight operand stands: ready rows, a STALE fault, or a tile to wait for. -/
inductive Weights where
  | rows (bs : List (List Blk))
  | stale (x : W64)
  | wait (r : Res)

/-- The weight operand of an operation of the focused camp (R233). -/
def State.weights (s : State) (m : MOp) : Weights :=
  if m.res then
    match s.cp.useOf m.b m.j with
    | .stale sub => .stale (staleAddr m.j sub (hGen m.b) (hNum m.b))
    | .wait r => .wait r
    | .tile t => .rows (resRows t m.t m.fb)
  else .rows (planeRows s.cp.scr (offOf m.b) m.t m.fb)

/-- Magnitude planes that an operand reads (R221). -/
def magPlanes (f : MFmt) : Nat := if isDxb f.ty then dxbK f.ty else f.ty.width

/-- Rows of a native operation that land later, quarter by quarter (11 R276). Of two operations in flight on one tile, each lands by its own count, so a later shorter one lands first: 03 R71 has them add in program order and the spec does not say which holds (DESIGN CHOICE, log 35). -/
def mopPends (m : MOp) (as bs : List (List Blk)) (op : Nat) (own : Bool) (was : Option Tile) : List MPend :=
  (List.range 4).map fun q =>
    ⟨5 + m.t * ((magPlanes m.fa * magPlanes m.fb + 7) / 8) + q, m.acc, q, (as.drop (32 * q)).take 32, bs, op, own, was⟩

/-- Rows of the activation operand. -/
def State.actRows (s : State) (m : MOp) : List (List Blk) := planeRows s.cp.scr (offOf m.pa) m.t m.fa

/-- Notes the use of the residency tile of an operation. -/
def State.usesTile (s : State) (m : MOp) : State :=
  if m.res then { s with cp := s.cp.touchTile (hNum m.b) m.j (s.coreOf s.cp.core).issues } else s

/-- Adds the product of an operation into the tile its acc operand names, with its status. -/
def State.multiplyNow (s : State) (m : MOp) (bs : List (List Blk)) : State :=
  let a := AccRef.ofNat m.acc
  let r := (s.accTile a).addProduct (s.actRows m) bs
  ((s.usesTile m).putTile a r.1).raiseTile a r.2

/-- The product of an operation: at once in portable code, in native code its rows land later (11 R276). -/
def State.multiply (s : State) (m : MOp) (bs : List (List Blk)) : State :=
  if s.sp.nat.isSome then
    let s1 := s.usesTile m
    { s1 with
      sp := { s1.sp with mp := s1.sp.mp ++ mopPends m (s.actRows m) bs s.cp.nextOrb true none }
      cp := { s1.cp with nextOrb := s1.cp.nextOrb + 1 } }
  else s.multiplyNow m bs

/-- What an operation of a troop in no rope does before its product: a fault, a wait, or the weight rows. -/
def State.mmaReady (s : State) (m : MOp) : Prep (List (List Blk)) :=
  match s.operandTrap (s.mmaBreaches m) [] with
  | some t => .done t
  | none =>
    if s.tr.gone (AccRef.ofNat m.acc) then .done (s.ropeFault 6 0)
    else match s.weights m with
      | .stale x => .done (s.trapAll cSTALE x)
      | .wait r => .done { s with cp := s.cp.askTile r m.j, sp := { s.sp with st := .tile r.num m.j } }
      | .rows bs => .go s bs

/-- A matrix operation of a troop in no rope. -/
def State.mmaAlone (s : State) (m : MOp) : State :=
  match s.mmaReady m with
  | .done t => t
  | .go s bs => (s.multiply m bs).defAcc (AccRef.ofNat m.acc)

/-! ### `acc.norm` (R72) -/

/-- Smallest `d` from a start with |round(GM / 2^d)| below 2^47. -/
def normShift (g : Int) : Nat → Nat → Nat
  | 0, d => d
  | fuel + 1, d => if (roundAt .ne false g.natAbs 0 false d).1 < 2 ^ 47 then d else normShift g fuel (d + 1)

/-- One element. -/
def AccEl.norm (x : AccEl) : AccEl × W32 :=
  if x.n then (x, 0)
  else
    let g := x.gm.toInt
    let d := normShift g 64 0
    let r : Nat := (roundAt .ne false g.natAbs 0 false d).1
    if 32767 < x.e.toInt + d then ({ x with n := true }, fAS)
    else ({ x with gm := BitVec.ofInt 64 (if g < 0 then -(r : Int) else r), e := BitVec.ofInt 16 (x.e.toInt + d) }, 0)

/-- `acc.norm`. -/
def execAccNorm (a : Val) (s : State) : Out :=
  let r := s.accRef a
  .next (if s.tr.gone r then s.ropeFault 6 0
    else if s.tr.changes r then
      let t := (s.accTile r).mapAll fun _ x => x.norm
      ((s.putTile r t.1).raiseTile r t.2).defAcc r
    else s.defAcc r)

/-! ### Element access (R226) -/

/-- Operand breaches of the lanes, each with its lane, in ascending order: OPERAND in the lanes that fail; none when all are good. -/
def State.laneTrap (s : State) (sub : Nat) (f : Lane → Option (Nat × Nat)) : Option State :=
  let bad := (lanesOf s.tr.width s.sp.mask).filterMap fun i => (f (s.tr.lane i)).map fun b => (i, b)
  match bad with
  | [] => none
  | (_, ix, v) :: _ => some (s.takeTrap cOPERAND (maskOf (bad.map Prod.fst)) (operandAddr v ix sub))

/-- ACCINDEX of a lane. -/
def Lane.badIndex (l : Lane) (row col : Val) : Option (Nat × Nat) :=
  if 127 < l.nat row then some (1, l.nat row) else if 127 < l.nat col then some (2, l.nat col) else none

/-- Element number that a lane names. -/
def Lane.elIx (l : Lane) (row col : Val) : Nat := 128 * l.nat row + l.nat col

/-- What an access of the focused split finds first: ACCINDEX, or a tile that is gone. -/
def State.accFault (s : State) (a : AccRef) (row col : Val) : Option State :=
  match s.laneTrap 0x08 fun l => l.badIndex row col with
  | some t => some t
  | none => if s.tr.gone a then some (s.ropeFault 6 0) else none

/-- Value form of `acc.rd` (R62, R72): pattern and status. -/
def AccEl.read (x : AccEl) (ty : Ty) (rm : Rm) : Nat × W32 :=
  let g := x.gm.toInt
  if ty.isF then
    if x.n then ((fmtOf ty).qnan, 0) else roundInt (fmtOf ty) rm g x.e.toInt false
  else if x.n then (0, fNV)
  else
    let r := roundAt rm (g < 0) g.natAbs x.e.toInt false 0
    let n : Int := if g < 0 then -(r.1 : Int) else r.1
    let c := sat ty.width n
    (wrapu ty.width c, if c != n then fNV else flagIf r.2 fIX)

/-- `acc.rd`, value form. -/
def execAccRd (ty : Ty) (rm : Rm) (a row col : Val) (s : State) : Out :=
  let r := s.accRef a
  .next ((s.accFault r row col).getD (s.defLanes fun _ l =>
    let v := ((s.accTile r).el (l.elIx row col)).read ty rm
    (mkVal ty v.1, v.2)))

/-- `acc.rd.w64`. -/
def execAccRdWord (hi : Bool) (a row col : Val) (s : State) : Out :=
  let r := s.accRef a
  .next ((s.accFault r row col).getD (s.defLanes fun _ l =>
    let x := (s.accTile r).el (l.elIx row col)
    (mkVal .w64 (if hi then x.hi else x.gm.toNat), 0)))

/-- Value form of `acc.wr`: the element, and status. -/
def AccEl.write (x : AccEl) (ty : Ty) (rm : Rm) (v : Nat) : AccEl × W32 :=
  let f := fmtOf ty
  if f.isNan v then ({ x with n := true }, fAS)
  else if f.isInf v then
    ({ x with gm := BitVec.ofInt 64 (if f.sign v then -(2 ^ 63 : Int) else 2 ^ 63 - 1), s := true }, fAS)
  else
    let r := roundAt rm (f.sign v) (f.sig v) (f.ex v - x.e.toInt) false 0
    let n : Int := if f.sign v then -(r.1 : Int) else r.1
    let c := sat 64 n
    ({ x with gm := BitVec.ofInt 64 c, s := x.s || c != n }, flagIf (c != n) fAS)

/-- Writes the elements that the active lanes name, the highest lane last; the status goes to the writing lanes. -/
def State.writeEls (s : State) (a : AccRef) (row col : Val) (f : Lane → AccEl → AccEl × W32) : State :=
  if !s.tr.changes a then s.defAcc a
  else
    let t := s.accTile a
    let put (u : Tile) (i : Nat) : Tile :=
      let l := s.tr.lane i
      u.put (l.elIx row col) (f l (t.el (l.elIx row col))).1
    ({ s with cp := s.cp.putAcc s.tr.mem a ((lanesOf s.tr.width s.sp.mask).foldl put t) }).defLanes fun _ l =>
      (a.val, (f l (t.el (l.elIx row col))).2)

/-- `acc.wr`, value form. -/
def execAccWr (ty : Ty) (rm : Rm) (a row col v : Val) (s : State) : Out :=
  let r := s.accRef a
  .next ((s.accFault r row col).getD (s.writeEls r row col fun l x => x.write ty rm (l.nat v)))

/-- ACCHI of a lane. -/
def Lane.badHi (l : Lane) (v : Val) : Option (Nat × Nat) :=
  if fld (l.nat v) 18 2 != 0 || fld (l.nat v) 24 40 != 0 then some (3, l.nat v) else none

/-- `acc.wr` of a word: ACCINDEX before ACCHI (17 R388). -/
def execAccWrWord (hi : Bool) (a row col v : Val) (s : State) : Out :=
  let r := s.accRef a
  .next (match s.laneTrap 0x08 fun l => l.badIndex row col with
    | some t => t
    | none => match s.laneTrap 0x09 fun l => if hi then l.badHi v else none with
      | some t => t
      | none =>
        if s.tr.gone r then s.ropeFault 6 0
        else s.writeEls r row col fun l x => (if hi then x.setHi (l.nat v) else { x with gm := BitVec.ofNat 64 (l.nat v) }, 0))

end Sys2Proof.Machine
end

