-- ==== Sys2Proof/Machine/Rope.lean ====
section
/-! DEFINITION. Ropes: formation, the rendezvous latch, joint operations, release (02 R37 to R40, 09 R227 to R229, 17 R390). -/

namespace Sys2Proof.Machine

/-- Sub-codes of ROPE (17 R390). -/
def rPARTIAL : Nat := 1
def rMISMATCH : Nat := 2
def rEXITED : Nat := 3
def rFORMARG : Nat := 4
def rBUSY : Nat := 5
def rNOTILE : Nat := 6
def rNOROPE : Nat := 7

/-! ### Members -/

/-- Whether a split waits at the latch. -/
def Split.atLatch (p : Split) : Option Joint :=
  match p.st with
  | .rendezvous j => some j
  | _ => none

/-- Member set of a `rope.form` at which a split waits. -/
def Split.formsWith (p : Split) : Option W32 :=
  match p.st with
  | .forming m => some m
  | _ => none

/-- The split of a troop that waits at the latch, with its operation. -/
def Troop.latch (t : Troop) : Option (Nat × Joint) := t.splits.findSome? fun p => p.atLatch.map fun j => (p.sid, j)

/-- The split of a troop that waits in `rope.form`, with its set. -/
def Troop.forms (t : Troop) : Option (Nat × W32) := t.splits.findSome? fun p => p.formsWith.map fun m => (p.sid, m)

/-- Members of a rope of a camp, by position. -/
def Camp.members (c : Camp) (rope : Nat) : List Troop :=
  match c.troops.find? fun t => t.ropeNow = some rope with
  | none => []
  | some t => (ropeMembers t.rope).filterMap fun m => c.troops.find? fun u => u.mem = m

/-- Takes ROPE in the split of a troop, the lists being whole before and after. -/
def State.ropeTrapAt (s : State) (r : SplitRef) (sub mem : Nat) : State :=
  match s.focusOn r with
  | none => s
  | some f => (({ f with sp := { f.sp with st := .ready } }).ropeFault sub mem).unfocus

/-- A ROPE fault of a member: at once at the latch, else at its next rendezvous. -/
def State.ropeTell (s : State) (c : CampRef) (t : Troop) (sub mem : Nat) : State :=
  match t.latch with
  | some (sid, _) => s.ropeTrapAt ⟨⟨c, t.mem⟩, sid⟩ sub mem
  | none => s.modTroop ⟨c, t.mem⟩ fun t => { t with rfault := some (sub, mem) }

/-- The rope is dissolved: ROPE is 0 in its members, its tiles cease to exist. -/
def Camp.dissolve (c : Camp) (rope : Nat) : Camp :=
  { c with
    troops := c.troops.map fun t => if t.ropeNow = some rope then { t with rope := 0, ropeId := 0, rfault := none, rtaken := false } else t
    accs := c.accs.filter fun t => t.rope != some rope, latches := c.latches.filter fun x => x.1 != rope }

/-! ### Reaching a rendezvous (R39, R390) -/

/-- Takes a ROPE fault that waits for this rendezvous; a member that takes EXITED lets the rope be looked at. -/
def State.takeWaiting (s : State) (f : Nat × Nat) : State :=
  let ex := f.1 = rEXITED
  let s1 := { s with tr := { s.tr with rfault := none, rtaken := s.tr.rtaken || ex } }
  let s2 := if ex then s1.push (.rendezvousMatch s1.cp.ref s1.tr.ropeId) else s1
  s2.ropeFault f.1 f.2

/-- PARTIAL in this split; the other members take it at their matched rendezvous. -/
def State.partialFault (s : State) : State :=
  let me := s.tr.mem
  let c := s.cp.ref
  let r := s.spRef
  let others := s.cp.troops.filter fun t => t.ropeNow = s.tr.ropeNow && s.tr.ropeNow.isSome
  let s1 := others.foldl (fun s t => s.ropeTell c t rPARTIAL me) s.unfocus
  match s1.focusOn r with
  | some f => f.ropeFault rPARTIAL me
  | none => s1

/-- A member reaches its next rendezvous: PRIV in a handler, a fault that waits, PARTIAL, NOTILE; else it waits at the latch. -/
def State.reach (s : State) (op sx : Nat) (j : Joint) : State :=
  if s.sup then s.priv op sx
  else
    let a : AccRef := match j with
      | .op m => AccRef.ofNat m.acc
      | .free => ⟨0, s.tr.ropeNow⟩
    let bad := match j with
      | .op m => if ropePos s.tr.rope = 0 then s.operandTrap (s.mmaBreaches m) [] else none
      | .free => none
    match bad, s.tr.rfault with
    | some t, _ => t
    | none, some f => s.takeWaiting f
    | none, none =>
      if !s.converged then s.partialFault
      else if a.rope.isNone || a.rope != s.tr.ropeNow then s.ropeFault rNOTILE 0
      else ({ s with sp := { s.sp with st := .rendezvous j } }).push (.rendezvousMatch s.cp.ref s.tr.ropeId)

/-- A matrix operation of the focused split, its operands read. -/
def State.mmaOp (s : State) (op sx : Nat) (m : MOp) : State :=
  if inRope s.tr.rope then s.reach op sx (.op m) else s.mmaAlone m

/-- `mma`. -/
def execMma (fa fb : MFmt) (t : Fin 4) (a pa pb : Val) (s : State) : Out :=
  .next (s.mmaOp 0xD1 (fa.code * 16 + fb.code) ⟨fa, fb, t.val + 1, s.scalar a, s.scalar pa, false, s.scalar pb, 0, false⟩)

/-- `mma.res`. -/
def execMmaRes (fa fb : MFmt) (t : Fin 4) (a pa h j : Val) (s : State) : Out :=
  .next (s.mmaOp 0xD2 (fa.code * 16 + fb.code) ⟨fa, fb, t.val + 1, s.scalar a, s.scalar pa, true, s.scalar h, s.scalar j, false⟩)

/-- `rope.free` (R227). -/
def execRopeFree (s : State) : Out :=
  .next (if s.sup then s.priv 0xD7 0
    else if inRope s.tr.rope then s.reach 0xD7 0 .free
    else s.ropeFault rNOROPE 0)

/-! ### The match (R39, R228) -/

/-- Whether two matched rendezvous agree: opcode, formats, K, tile, residency handle. -/
def Joint.agrees : Joint → Joint → Bool
  | .free, .free => true
  | .op a, .op b => a.fa = b.fa && a.fb = b.fb && a.t = b.t && a.res = b.res &&
      (a.ign || b.ign || (a.acc = b.acc && (!a.res || a.b = b.b)))
  | _, _ => false

/-- The first store of lanes of a troop that has not committed. -/
def State.pendingTroop (s : State) (r : TroopRef) : Option Nat := s.stores.findIdx? fun p => p.by_ = some r

/-- A member goes on after its rendezvous: it defines the next acc value, or only advances; a native one goes on inside its bundle, and counts the rows `ps` of the operation (11 R276). -/
def State.pass (s : State) (r : SplitRef) (j : Joint) (ps : List MPend) : State :=
  match s.focusOn r with
  | none => s
  | some f =>
    let f := { f with sp := { f.sp with st := .ready } }
    (if f.sp.nat.isSome then { f with sp := { f.sp with matched := true, mp := f.sp.mp ++ ps } }
    else match j with
      | .op m => f.setCtx.defAcc (AccRef.ofNat m.acc)
      | .free => f.setCtx.advance).unfocus

/-- The product of a joint operation, read by the member at POS 0, and what each native member counts of it: with every member native the rows land by the count of POS 0; with a portable member among them they land at once, and each native member sees them when its own count has run out. -/
def State.jointProduct (f : State) (m : MOp) (bs : List (List Blk)) (native : Bool) : State × List MPend :=
  if native then (f.multiply m bs, mopPends m (f.actRows m) bs f.cp.nextOrb false none)
  else
    let u := f.multiplyNow m bs
    ({ u with cp := { u.cp with nextOrb := u.cp.nextOrb + 1 } },
      mopPends m [] [] f.cp.nextOrb false (some (f.accTile (AccRef.ofNat m.acc))))

/-- Whether every waiting member runs native code. -/
def State.allNative (s : State) (ws : List (SplitRef × Joint)) : Bool := ws.all fun w => (s.split? w.1).any fun p => p.nat.isSome

/-- All members wait and agree on a joint operation: it executes once, from the member at POS 0, or that member takes OPERAND or STALE while the others stay. -/
def State.jointOp (s : State) (c : CampRef) (rope : Nat) (ws : List (SplitRef × Joint)) (m : MOp) : State :=
  match ws with
  | [] => s
  | (r, _) :: _ => match s.focusOn r with
    | none => s
    | some f =>
      let up : State := { f with sp := { f.sp with st := .ready } }
      match up.operandTrap (f.mmaBreaches m) [] with
      | some t => t.unfocus
      | none => match f.weights m with
        | .stale x => (up.trapAll cSTALE x).unfocus
        | .wait r => ({ f with cp := f.cp.askTile r m.j } : State).unfocus
        | .rows bs => match ws.findSome? fun w => s.pendingTroop w.1.tr with
          | some n => (f.unfocus.push (.storeCommit n)).push (.rendezvousMatch c rope)
          | none =>
            let native := s.allNative ws
            let u := f.jointProduct m bs native
            ws.foldl (fun s w => s.pass w.1 w.2 (if native && w.1 = r then [] else u.2)) u.1.unfocus

/-- MISMATCH in every member, naming the lowest other member whose instruction differs. -/
def State.mismatch (s : State) (ws : List (SplitRef × Joint)) : State :=
  ws.foldl (fun s w =>
    match ws.find? fun x => !w.2.agrees x.2 with
    | some x => s.ropeTrapAt w.1 rMISMATCH x.1.tr.mem
    | none => s) s

/-- A member has ended (EXITED): members at the latch take the fault, the others will; the rope is dissolved when all have. -/
def State.ropeExited (s : State) (c : CampRef) (rope : Nat) (ms : List Troop) (x : Nat) : State :=
  let left := ms.filter fun t => t.live != 0
  let s1 := left.foldl (fun s t =>
    match t.latch with
    | some (sid, _) => (s.modTroop ⟨c, t.mem⟩ fun t => { t with rtaken := true }).ropeTrapAt ⟨⟨c, t.mem⟩, sid⟩ rEXITED x
    | none => s.modTroop ⟨c, t.mem⟩ fun t => { t with rfault := some (rEXITED, x) }) s
  if left.all fun t => t.rtaken || t.latch.isSome then s1.modCamp c fun k => k.dissolve rope else s1

/-- RENDEZVOUS MATCH of a rope. -/
def State.rendezvous (s0 : State) (c : CampRef) (rope : Nat) : State :=
  let s := s0.unfocus
  match s.camps.find? fun k => k.ref = c with
  | none => s
  | some k =>
    let ms := k.members rope
    match ms.find? fun t => t.live = 0 with
    | some x => s.ropeExited c rope ms x.mem
    | none =>
      let ws := ms.filterMap fun t => t.latch.map fun l => ((⟨⟨c, t.mem⟩, l.1⟩ : SplitRef), l.2)
      if ms.isEmpty || ws.length != ms.length then s
      else if ws.any fun w => !(ws.all fun x => w.2.agrees x.2) then s.mismatch ws
      else match ws with
        | (_, .op m) :: _ => s.jointOp c rope ws m
        | _ => (ws.foldl (fun s w => s.pass w.1 w.2 []) s).modCamp c fun k => k.dissolve rope

/-! ### `rope.form` (R227) -/

/-- Members of a set, in ascending order. -/
def setMembers (m : Nat) : List Nat := (List.range 32).filter fun i => fld m i 1 = 1

/-- The ROPE register of the member at a position (02 R37). -/
def ropeReg (ms : List Nat) (pos : Nat) : W32 :=
  BitVec.ofNat 32 (2 ^ 31 + ms.length * 2 ^ 28 + pos * 2 ^ 24 + (ms.mapIdx fun i m => m % 16 * 2 ^ (4 * i)).sum)

/-- `rope.form`. -/
def execRopeForm (mem : Val) (s : State) : Out :=
  let ms := setMembers (s.scalar mem)
  let set : W32 := BitVec.ofNat 32 (s.scalar mem)
  .next (if s.sup then s.priv 0xD6 0
    else match s.tr.rfault with
      | some f => s.takeWaiting f
      | none =>
        if ms.length < 2 || 6 < ms.length || !ms.contains s.tr.mem || (ms.any fun m => s.lch.campsize ≤ m) then s.ropeFault rFORMARG 0
        else if inRope s.tr.rope then s.ropeFault rBUSY s.tr.mem
        else if !s.converged then
          let me := s.tr.mem
          let c := s.cp.ref
          let r := s.spRef
          let s1 := (s.cp.troops.filter fun t => ms.contains t.mem).foldl (fun s t =>
            match t.forms with
            | some (sid, m) => if m = set then s.ropeTrapAt ⟨⟨c, t.mem⟩, sid⟩ rPARTIAL me else s
            | none => s.modTroop ⟨c, t.mem⟩ fun t => { t with rfault := some (rPARTIAL, me) }) s.unfocus
          match s1.focusOn r with
          | some f => f.ropeFault rPARTIAL me
          | none => s1
        else ({ s with sp := { s.sp with st := .forming set } }).push (.ropeFormed s.cp.ref set))

/-- One member of the rope that forms: ROPE, and the split goes on. -/
def State.joinRope (s : State) (c : CampRef) (ms : List Nat) (rope : Nat) (m pos : Nat) : State :=
  match ((s.troop? ⟨c, m⟩).bind fun t => t.forms) with
  | none => s
  | some (sid, _) => match s.focusOn ⟨⟨c, m⟩, sid⟩ with
    | none => s
    | some f =>
      let f1 := { f with
        sp := { f.sp with st := .ready }
        tr := { f.tr with rope := ropeReg ms pos, ropeId := rope, rfault := none, rtaken := false } }
      (if f1.sp.nat.isSome then { f1 with sp := { f1.sp with matched := true } } else f1.setCtx.advance).unfocus

/-- ROPE FORMED for one set: faults of R390, or the rope when every listed troop forms it. -/
def State.formSet (s : State) (c : CampRef) (set : W32) : State :=
  match s.camps.find? fun k => k.ref = c with
  | none => s
  | some k =>
    let ms := setMembers set.toNat
    let listed := k.troops.filter fun t => ms.contains t.mem
    let mine := listed.filterMap fun t => t.forms.bind fun f => if f.2 = set then some (t.mem, f.1) else none
    let other := listed.filterMap fun t => t.forms.bind fun f => if f.2 != set then some (t.mem, f.1) else none
    let trap (s : State) (x : Nat × Nat) (sub mem : Nat) : State := s.ropeTrapAt ⟨⟨c, x.1⟩, x.2⟩ sub mem
    if mine.isEmpty then s
    else match listed.find? fun t => t.live = 0 with
      | some x => mine.foldl (fun s y => trap s y rEXITED x.mem) s
      | none => match listed.find? fun t => inRope t.rope || other.any fun o => o.1 = t.mem with
        | some b =>
          let s1 := mine.foldl (fun s y => trap s y rBUSY b.mem) s
          other.foldl (fun s y => trap s y rBUSY ((mine.map Prod.fst).headD 0)) s1
        | none =>
          if mine.length != ms.length then s
          else
            let s1 := s.modCamp c fun k => { k with nextRope := k.nextRope + 1 }
            ((ms.mapIdx fun i m => (i, m)).foldl (fun s x => s.joinRope c ms k.nextRope x.2 x.1) s1).relatch c

/-- ROPE FORMED: a set, or every set that troops of the camp form when a troop has ended. -/
def State.ropeForming (s0 : State) (c : CampRef) (set : W32) : State :=
  let s := s0.unfocus
  if set != 0 then s.formSet c set
  else match s.camps.find? fun k => k.ref = c with
    | none => s
    | some k => ((k.troops.filterMap fun t => t.forms.map Prod.snd).eraseDups).foldl (fun s m => s.formSet c m) s

end Sys2Proof.Machine
end

