-- ==== Sys2Proof/Machine/Stream.lean ====
section
/-! DEFINITION. Stream loops (06 R142 to R145). -/

namespace Sys2Proof.Machine

/-- The first `sloop.end` of the running function after the executing instruction: number of its first result, offset after it. -/
def State.loopEnd (s : State) : Nat × Nat :=
  match s.module? s.sp.mh with
  | none => (0, s.ctx.next)
  | some m => match (m.items s.sp.func).find? fun a => s.sp.off < a.off && (match a.item with
      | .instr (.sloopEnd _) => true
      | _ => false) with
    | some a => (a.val, a.off + 4 * a.len)
    | none => (0, s.ctx.next)

/-- `sloop` (R142): the carried values take their initial values; a trip count of 0 passes the loop, and its own tuple, which no iteration has, is free (log 94). -/
def execSloop (t : Val) (specs : List StreamSpec) (bases inits : List Val) (s : State) : Out :=
  let n := s.scalar t
  .next (if n = 0 then
      let e := s.loopEnd
      let open_ (l : Lane) : List TVal := inits.map fun v => ofImage (l.val v).ty s.free.toNat
      { s.freed with
        tr := { s.tr with lanes := onLanes s.sp.mask (fun _ l =>
          (l.defines s.ctx.dst (open_ l)).defines e.1 (inits.map l.val)) s.tr.lanes }
        sp := { s.sp with off := e.2 } }
    else
      let s1 := s.doLanes fun _ l => l.defines s.ctx.dst (inits.map l.val)
      { s1 with sp := { s1.sp with loop := some ⟨n, 0, s.ctx.next, s.ctx.dst, inits.length, specs, bases, []⟩ } })

/-- Stride and extent of pair `d` of a stream; absent pairs count as 0 and 1 (R144). -/
def specPair (x : StreamSpec) (d : Nat) : Int × Nat := ((x.pairs[d]?).map fun p => (p.1.toInt, p.2.toNat)).getD (0, 1)

/-- Byte offset of element `i` (R144). -/
def specOffset (x : StreamSpec) (i : Nat) : Int :=
  let e0 := (specPair x 0).2
  let e1 := (specPair x 1).2
  (i % e0 : Nat) * (specPair x 0).1 + (i / e0 % e1 : Nat) * (specPair x 1).1 + (i / (e0 * e1) % (specPair x 2).2 : Nat) * (specPair x 2).1

/-- Address of the current element of stream `k` in a lane. -/
def Loop.addr (p : Loop) (k : Nat) (l : Lane) : Nat :=
  match p.specs[k]?, p.bases[k]? with
  | some x, some b => wrapu 64 ((l.nat b : Int) + specOffset x p.i)
  | _, _ => 0

/-- The element that a lane reads where its own stores of the iteration have written: the bytes before them (R145). -/
def State.oldElem (s : State) (p : Loop) (l : Nat) (ps : List Spot) (ty : Ty) : Option TVal :=
  let ks := ps.flatMap fun q => spotKeys q ty.bytes
  let old (k : Nat) : Option Byte := (p.olds.find? fun o => o.1 = l && o.2.1 = k).map fun o => o.2.2
  if (ks.any fun k => (old k).isSome) then some (mkVal ty (leNat (ks.map fun k => (old k).getD (s.keyByte k)))) else none

/-- Puts such elements in the place of what a load has just defined. -/
def State.withOlds (s : State) (t : State) (p : Loop) (ty : Ty) (a : Lane → Nat) : State :=
  let elem (i : Nat) : Option TVal := match s.check i (a (s.tr.lane i)) ⟨ty.bytes, 1, ty.bytes, needR, 0⟩ with
    | .ok ps => s.oldElem p i ps ty
    | .error _ => none
  let give (i : Nat) (l : Lane) : Lane := ((elem i).map fun v => l.setVal s.ctx.dst v).getD l
  if p.olds.isEmpty || t.sp.off != s.ctx.next then t
  else { t with tr := { t.tr with lanes := onLanes s.sp.mask give t.tr.lanes } }

/-- `sget` (R144): a relaxed load of the current element, bound before the iteration's stores (R145). -/
def execSget (ty : Ty) (k : Nat) (s : State) : Out :=
  .next (match s.sp.loop with
    | some p => s.withOlds (s.loadAt ty 1 .rlx (p.addr k)) p ty (p.addr k)
    | none => s.advance)

/-- `sput`: a relaxed store to the current element. -/
def execSput (ty : Ty) (k : Nat) (v : Val) (s : State) : Out :=
  .next (match s.sp.loop with
    | some p => s.storeAt ty 1 .rlx (p.addr k) fun l => [l.nat v]
    | none => s.advance)

/-- `sloop.end`: the next iteration with the next carried values, or the results. -/
def execSloopEnd (vs : List Val) (s : State) : Out :=
  .next (match s.sp.loop with
    | none => s.advance
    | some p =>
      if p.i + 1 < p.t then
        { s with
          tr := { s.tr with lanes := onLanes s.sp.mask (fun _ l => l.defines p.dst (vs.map l.val)) s.tr.lanes }
          sp := { s.sp with off := p.body, loop := some { p with i := p.i + 1, olds := [] } } }
      else
        let s1 := s.doLanes fun _ l => l.defines s.ctx.dst (vs.map l.val)
        { s1 with sp := { s1.sp with loop := none } })

end Sys2Proof.Machine
end

