-- ==== Sys2Proof/Machine/NatRegs.lean ====
section
/-! DEFINITION. Registers, guards, scalars, queues and landings of native code (11 R267 to R277, 12 R288 to R292). -/

namespace Sys2Proof.Machine

/-! ### Lane registers and guards (R268, R270) -/

/-- Register k of a lane. -/
def Lane.reg (l : Lane) (k : Nat) : W32 := ((l.k.find? fun p => p.1 = k).map Prod.snd).getD 0

def Lane.setReg (l : Lane) (k : Nat) (v : W32) : Lane :=
  { l with k := if v = 0 then l.k.filter fun p => p.1 != k else setNum k v l.k }

/-- Guard g of a lane: g0 reads 1 and g1 reads 0. -/
def Lane.guard (l : Lane) (g : Nat) : Bool := if g = 0 then true else if g = 1 then false else l.g.getLsbD g

def Lane.setGuard (l : Lane) (g : Nat) (b : Bool) : Lane :=
  if g < 2 then l
  else { l with g := if b then l.g ||| BitVec.ofNat 16 (2 ^ g) else l.g &&& ~~~BitVec.ofNat 16 (2 ^ g) }

/-- Lanes in which an operation acts (R270). -/
def State.adm (s : State) (gd : Nat) : Mask :=
  maskOf ((lanesOf s.tr.width s.sp.mask).filter fun i => (s.tr.lane i).guard gd)

/-- Scalar register n of a split. -/
def Split.scalar (p : Split) (n : Nat) : Nat := (((p.scal.find? fun x => x.1 = n).map Prod.snd).getD 0).toNat

/-! ### Sources (R268, R272) -/

/-- The head entry of a load-return queue. -/
def Split.head (p : Split) (q : Nat) : Option QEnt := (p.lq.find? fun e => e.1 = q).map Prod.snd

/-- An entry's value in a lane; zero in a lane the load did not act in. -/
def QEnt.val (e : QEnt) (l : Nat) : Nat := (((e.vals.find? fun p => p.1 = l).map Prod.snd).getD 0).toNat

/-- A register source of a lane. -/
def State.src? (s : State) (i r : Nat) (wide : Bool) : Nat :=
  if r < 120 then
    let l := s.tr.lane i
    (l.reg r).toNat + (if wide then 2 ^ 32 * (l.reg (r + 1)).toNat else 0)
  else
    let v := ((s.sp.head (r - 120)).map fun e => e.val i).getD 0
    if wide then v else v % 2 ^ 32

/-- Whether a register source is legal for the troop (R268). -/
def State.okSrc (s : State) (r : Nat) (wide : Bool) : Bool :=
  if r < 120 then (if wide then r % 2 = 0 && r + 1 < s.tr.budget else r < s.tr.budget) else true

/-- Whether a register destination is legal: no latch. -/
def State.okDst (s : State) (r : Nat) (wide : Bool) : Bool := r < 120 && s.okSrc r wide

/-! ### Landings (R273) -/

/-- Results for register k, and k + 1 of a pair: image values by lane. -/
def regFlights (lat k : Nat) (wide : Bool) (vs : List (Nat × Nat)) : List Flight :=
  ⟨lat, .reg k, vs.map fun v => (v.1, BitVec.ofNat 32 v.2)⟩ ::
    (if wide then [⟨lat, .reg (k + 1), vs.map fun v => (v.1, BitVec.ofNat 32 (v.2 / 2 ^ 32))⟩] else [])

/-- A result for an even guard and its complement. -/
def guardFlights (lat g : Nat) (vs : List (Nat × Bool)) : List Flight :=
  [⟨lat, .guard g, vs.map fun v => (v.1, if v.2 then 1 else 0)⟩, ⟨lat, .guard (g + 1), vs.map fun v => (v.1, if v.2 then 0 else 1)⟩]

/-- A result for a scalar register: its two halves. -/
def scalarFlight (lat n v : Nat) : Flight := ⟨lat, .scalar n, [(0, BitVec.ofNat 32 v), (1, BitVec.ofNat 32 (v / 2 ^ 32))]⟩

def Flight.lane? (f : Flight) (i : Nat) : Option W32 := (f.vals.find? fun p => p.1 = i).map Prod.snd

/-- Lands one result in the lanes of the focused split. -/
def State.landOne (s : State) (f : Flight) : State :=
  match f.dst with
  | .reg k => { s with tr := { s.tr with lanes := onLanes s.sp.mask (fun i l => (f.lane? i).elim l fun v => l.setReg k v) s.tr.lanes } }
  | .guard g => { s with tr := { s.tr with
      lanes := onLanes s.sp.mask (fun i l => (f.lane? i).elim l fun v => l.setGuard g (v.getLsbD 0)) s.tr.lanes } }
  | .scalar n =>
    let v := ((f.lane? 0).getD 0).toNat + 2 ^ 32 * ((f.lane? 1).getD 0).toNat
    { s with sp := { s.sp with scal := setNum n (BitVec.ofNat 64 v) s.sp.scal } }

/-- Lands what is due at the end of the last bundle, in issue order: the later one stands (R273). -/
def State.landDue (s : State) : State :=
  let due := s.sp.fl.filter fun f => f.left = 0
  due.foldl (fun s f => s.landOne f) { s with sp := { s.sp with fl := s.sp.fl.filter fun f => f.left != 0 } }

/-- One bundle of the split has ended. -/
def Flight.tick (f : Flight) : Flight := { f with left := f.left - 1 }

/-- Puts results in flight. -/
def State.fly (s : State) (fs : List Flight) : State := { s with sp := { s.sp with fl := s.sp.fl ++ fs } }

/-! ### Queues (R272) -/

/-- Appends an entry to a queue. -/
def State.enqueue (s : State) (q : Nat) (e : QEnt) : State := { s with sp := { s.sp with lq := s.sp.lq ++ [(q, e)] } }

/-- Entries that a queue holds. -/
def Split.queued (p : Split) (q : Nat) : Nat := (p.lq.filter fun e => e.1 = q).length

/-- Drops the head of a queue. -/
def popQueue (q : Nat) : List (Nat × QEnt) → List (Nat × QEnt)
  | [] => []
  | e :: r => if e.1 = q then r else e :: popQueue q r

/-- Changes the i-th entry of a queue. -/
def nthQueue (f : QEnt → QEnt) (q : Nat) : Nat → List (Nat × QEnt) → List (Nat × QEnt)
  | _, [] => []
  | i, e :: r =>
    if e.1 = q then (match i with
      | 0 => (q, f e.2) :: r
      | j + 1 => e :: nthQueue f q j r)
    else e :: nthQueue f q i r

/-- RESULT_LANDING: what is due lands before the split's next bundle. -/
def execResultLanding (r : SplitRef) (s : State) : Out :=
  .next (match s.focusOn r with
    | some f => f.landDue.unfocus
    | none => s)

/-- Whether an entry's values have all returned, so that it can land. -/
def QEnt.complete (e : QEnt) : Bool := !e.landed && e.reqs.isEmpty && e.cmd.isNone

/-- LOAD_RESPONSE: the i-th entry of a queue becomes landed (R272). -/
def execLoadResponse (r : SplitRef) (q : Fin 8) (i : Nat) (s : State) : Out :=
  .next (s.unfocus.modSplit r fun p =>
    { p with lq := nthQueue (fun e => if e.complete then { e with landed := true } else e) q.val i p.lq })

/-! ### Matrix rows (R276) -/

/-- After rows have landed in a tile: the copy of a split whose own count has not run out keeps the tile as it was. -/
def MPend.seen (p : MPend) (t : Tile) (q : MPend) : MPend :=
  if q.op = p.op && q.quarter = p.quarter && q.was.isNone then { q with was := some t, own := false } else q

/-- Marks the copies of landed rows that the camp's other splits hold. -/
def State.rowsSeen (s : State) (p : MPend) (t : Tile) : State :=
  let mark (x : Split) : Split := { x with mp := x.mp.map (p.seen t) }
  let all (r : Troop) : Troop := { r with splits := r.splits.map mark }
  { s with tr := all s.tr, cp := { s.cp with troops := s.cp.troops.map all } }

/-- Lands the rows of one quarter of an operation. -/
def State.landRows (s : State) (p : MPend) : State :=
  let a := AccRef.ofNat p.acc
  let t := s.accTile a
  let r := t.mapAll fun i x =>
    if i / 4096 = p.quarter then x.addRow ((p.as[i / 128 % 32]?).getD []) ((p.bs[i % 128]?).getD []) else (x, 0)
  ((s.putTile a r.1).raiseTile a r.2).rowsSeen p t

/-- An element of a tile as the split's own counts show it: rows that have landed too early for it are as they were, rows that are due for it and still to land are added (11 R276). -/
def State.elemSeen (s : State) (a : AccRef) (t : Tile) (i : Nat) : AccEl :=
  let ms := s.sp.mp.filter fun p => p.acc = a.val.nat && p.quarter = i / 4096
  match (ms.filter fun p => p.left != 0).findSome? MPend.was with
  | some u => u.el i
  | none => (ms.filter fun p => p.left = 0 && p.was.isNone).foldl (fun x p =>
      (x.addRow ((p.as[i / 128 % 32]?).getD []) ((p.bs[i % 128]?).getD [])).1) (t.el i)

/-- Applies a write of `acci`, `accn` or `pwr`; the elements of rows that land at the same time are the array's (R276). -/
def State.landWrite (s : State) (w : PWrite) : State :=
  let a := AccRef.ofNat w.acc
  let t := s.accTile a
  let busy (i : Nat) : Bool := s.sp.mp.any fun p => p.left = 0 && p.acc = w.acc && p.quarter = i / 4096
  match w.whole with
  | some d =>
    let u : Tile := { t with dflt := d, els := w.els }
    if s.sp.mp.any fun p => p.left = 0 && p.acc = w.acc then
      s.putTile a (u.mapAll fun i x => (if busy i then t.el i else x, 0)).1
    else s.putTile a u
  | none => s.putTile a (w.els.foldl (fun u e => if busy e.1 then u else u.put e.1 e.2) t)

/-- Lands the rows that satisfy a condition. -/
def State.landRowsIf (s : State) (f : MPend → Bool) : State :=
  let due := s.sp.mp.filter f
  due.foldl (fun s p => s.landRows p) { s with sp := { s.sp with mp := s.sp.mp.filter fun p => !f p } }

/-- Lands everything that the matrix array and the ports still owe the split. -/
def State.drainRows (s : State) : State :=
  let ws := s.sp.pw
  let u := s.landRowsIf fun p => p.was.isNone
  (ws.foldl (fun s w => s.landWrite w) { u with sp := { u.sp with mp := [], pw := [] } })

/-- Rows that are due for a split: those that it lands, and copies of landed ones that its count has reached. -/
def MPend.ready (p : MPend) : Bool := p.left = 0 && (p.own || p.was.isSome)

/-- Lands the rows whose count has run out. -/
def State.rowsDue (s : State) : State :=
  let u := s.landRowsIf fun p => p.left = 0 && p.own && p.was.isNone
  { u with sp := { u.sp with mp := u.sp.mp.filter fun p => !p.ready } }

/-- Whether a split has stopped issuing for a trap. -/
def Split.trapping (p : Split) : Bool :=
  match p.st with
  | .trap _ => true
  | _ => false

/-- MATRIX_ROW_LANDING: the rows due at the end of the last bundle land; all of them when a trap waits for them (17 R393). -/
def execMatrixRowLanding (r : SplitRef) (s : State) : Out :=
  .next (match s.focusOn r with
    | some f => (if f.sp.trapping then f.drainRows else f.rowsDue).unfocus
    | none => s)

/-! ### Portable instructions inside native operations -/

/-- Marker of an activation that holds only the operands of one native operation. -/
def tmpMark : Nat := 2 ^ 40

def tmpFrame (vs : List TVal) : Frame := ⟨tmpMark, 0, 0, 0, 0, 0, false, vs.mapIdx fun i v => (i, v), false⟩

/-- First result number and next position inside an operation. -/
def natCtx : Ctx := ⟨100, 2 ^ 24⟩

/-- Removes a marked activation. -/
def dropTmp (fs : List Frame) : List Frame := fs.filter fun f => f.mh != tmpMark

def Lane.dropTmp (l : Lane) : Lane :=
  { l with frames := Machine.dropTmp l.frames, saved := l.saved.map fun v => { v with frames := Machine.dropTmp v.frames } }

/-- Puts operands in the lanes of a mask and restricts the split to them. -/
def State.withArgs (s : State) (m : Mask) (args : Nat → List TVal) : State :=
  { s with
    ctx := natCtx
    sp := { s.sp with mask := m }
    tr := { s.tr with lanes := onLanes m (fun i l => { l with frames := tmpFrame (args i) :: l.frames }) s.tr.lanes } }

/-- Takes the operands away again. -/
def State.dropArgs (s : State) : State := { s with tr := { s.tr with lanes := s.tr.lanes.map Lane.dropTmp } }

/-- Runs a portable instruction that defines values in the lanes of a mask: the state after it, and its first result by lane. -/
def State.viaLanes (s : State) (m : Mask) (args : Nat → List TVal) (run : State → Out) : State × List (Nat × TVal) :=
  match run (s.withArgs m args) with
  | .next t =>
    ({ t.dropArgs with ctx := s.ctx, sp := { t.sp with mask := s.sp.mask, off := s.sp.off } },
      (lanesOf s.tr.width m).map fun i => (i, (t.tr.lane i).val natCtx.dst))
  | _ => (s, [])

/-- What the check or the effect of a slot comes to: the machine as the slot leaves it, or a stop (a trap or a wait) before it acts. -/
inductive Act where
  | go (s : State)
  | stop (s : State)

/-- Runs a portable instruction that acts for the whole split: it goes on when the instruction has completed; the result as the lead lane has it. -/
def State.viaSplit (s : State) (args : List TVal) (run : State → State) (k : State → TVal → State) : Act :=
  let t := run (s.withArgs s.sp.mask fun _ => args)
  if t.focused = s.focused && t.sp.off = natCtx.next && t.sp.st = .ready then
    let v := (t.tr.lane t.lead).val natCtx.dst
    .go (k { t.dropArgs with ctx := s.ctx, sp := { t.sp with off := s.sp.off } } v)
  else .stop { t.dropArgs with ctx := s.ctx }

end Sys2Proof.Machine
end

