-- ==== Sys2Proof/Machine/NatMap.lean ====
section
/-! DEFINITION. Between portable values and the locations of native code: side tables, frames, translation switches, transfers (10 R248 to R258, 11 R282 to R284, 12 R309 to R312). -/

namespace Sys2Proof.Machine

/-! ### Regions in banks -/

/-- The bank in which a native split runs. -/
def State.natBank (s : State) : Option Bank := s.sp.nat.map fun p => (s.coreOf s.cp.core).bank p.bank

/-- Side table of the region that the split runs. -/
def State.natEntry (s : State) : Option TEntry :=
  (s.natBank.bind Bank.key).bind fun k => s.tcache.find? fun e => e.key = k

/-- Key of the ORIGIN 1 region that holds a position of the split's module (R238). -/
def State.natKeyAt (s : State) (func off : Nat) : Key :=
  ({ s with sp := { s.sp with func := func, off := off } }).spKey.native s.sp.mh

/-- A VALID bank that holds the native region of a position. -/
def State.natBankFor (s : State) (func off : Nat) : Option (Fin 2) :=
  let k := s.natKeyAt func off
  let c := s.coreOf s.cp.core
  if c.b0.st = .valid && c.b0.key = some k then some 0 else if c.b1.st = .valid && c.b1.key = some k then some 1 else none

/-- Side table of the native region that holds a position. -/
def State.entryFor (s : State) (func off : Nat) : Option TEntry :=
  let k := s.natKeyAt func off
  s.tcache.find? fun e => e.key = k

def TEntry.pointAt (e : TEntry) (off : Nat) : Option Point := e.points.find? fun p => p.pos = off
def TEntry.pointOf (e : TEntry) (noff : Nat) : Option Point := e.points.find? fun p => p.noff = noff

/-! ### Frame slots (R251, 18 R397) -/

/-- Frame pointer of the split. -/
def Split.fp (p : Split) : Nat := p.scalar 31

/-- Tile slot whose image lies at an offset of the running function's frame. -/
def State.imageSlot (s : State) (o : Nat) : Nat :=
  let m := s.frameMapOf s.sp.mh s.sp.func
  (m.images[(o - m.imageBase) / m.image]?).getD 0

/-- The image of an element as a number (03 R70). -/
def AccEl.toNat (x : AccEl) : Nat := x.gm.toNat + 2 ^ 64 * x.hi

/-- An element from its image, whose reserved bits are ignored. -/
def AccEl.ofNat (v : Nat) : AccEl := (⟨BitVec.ofNat 64 v, 0, false, false, 0⟩ : AccEl).setHi (v / 2 ^ 64)

/-- Reads the tile image at a frame offset into the tile of its slot. -/
def State.loadImage (s : State) (o : Nat) : State :=
  let a : AccRef := ⟨s.imageSlot o, none⟩
  let el (e : Nat) : AccEl := AccEl.ofNat (leNat ((List.range 16).map fun b =>
    ((s.privPhys s.tr.proot (backing s.tr.width 0 (s.sp.fp + o) + 16 * e + b)).map (memRead s.mem)).getD 0))
  s.putTile a ((⟨s.tr.mem, none, a.slot, AccEl.zero, []⟩ : Tile).mapAll fun e _ => (el e, 0)).1

/-- Writes the tile of a slot as an image at a frame offset. -/
def State.storeImage (s : State) (o : Nat) : State :=
  let t := s.accTile ⟨s.imageSlot o, none⟩
  s.commit ((List.range 16384).flatMap fun e =>
    ((List.range 16).zip (leBytes 16 (t.el e).toNat)).filterMap fun b =>
      (s.privPhys s.tr.proot (backing s.tr.width 0 (s.sp.fp + o) + 16 * e + b.1)).map fun a => (a, b.2))

/-! ### Reading locations (R254) -/

/-- The tile that a bank group holds: that of the troop's rope when it is in one and the rope has begun it, else its own. -/
def State.groupRef (s : State) (g : Nat) : AccRef :=
  match s.tr.ropeNow with
  | some r => if s.cp.accs.any fun t => t.slot = g && t.rope = some r then ⟨g, some r⟩ else ⟨g, none⟩
  | none => ⟨g, none⟩

/-- The n-th pending entry of a queue. -/
def Split.entry (p : Split) (n q : Nat) : Option QEnt := (((p.lq.filter fun e => e.1 = q)[n]?)).map Prod.snd

/-- A value in flight to register k that lands after n more bundles. -/
def Split.inFlight (p : Split) (n k i : Nat) : Option W32 :=
  (p.fl.filter fun f => f.dst = .reg k && f.left = n && (f.lane? i).isSome).getLast?.bind fun f => f.lane? i

/-- The value at a location in a lane of the focused split. -/
def State.readLoc (s : State) (i : Nat) (ty : Ty) (loc : Loc) : TVal :=
  let l := s.tr.lane i
  let get (n k : Nat) : Nat := ((s.sp.inFlight n k i).getD (l.reg k)).toNat
  match loc with
  | .reg k => ofImage ty (l.reg k).toNat
  | .pair k => ofImage ty ((l.reg k).toNat + 2 ^ 32 * (l.reg (k + 1)).toNat)
  | .scalar n => ofImage ty (s.sp.scalar n)
  | .guard g => mkB (l.guard g)
  | .spill o => ofImage ty (s.frameRead i (s.sp.fp + o) 8)
  | .const v => ofImage ty v.toNat
  | .acc b => (s.groupRef (b / 4)).val
  | .accFrame o => AccRef.val ⟨s.imageSlot o, none⟩
  | .queue n q => ofImage ty (((s.sp.entry n q).map fun e => e.val i).getD 0)
  | .flight n p k => ofImage ty (get n k + (if p then 2 ^ 32 * get n (k + 1) else 0))

/-- Types of the values of a function of the running module. -/
def State.tysOf (s : State) (func : Nat) : List Ty :=
  match s.module? s.sp.mh with
  | some m => valTys m.rtypes (m.items func)
  | none => []

/-- The stream loop that holds an offset: its instruction's item, its body. -/
def State.loopAt (s : State) (off : Nat) : Option At :=
  match s.module? s.sp.mh with
  | none => none
  | some m =>
    let is := m.items s.sp.func
    match (loopSpans none is).find? fun p => p.1 < off && off < p.2 with
    | some p => is.find? fun a => a.off = p.1
    | none => none

/-- The loop record of a split at a point, from its values and the iteration index. -/
def State.loopOf (s : State) (idx : Nat) : Option Loop :=
  match s.loopAt s.sp.off with
  | some a => match a.item with
    | .instr (.sloop t specs bases inits) =>
      some ⟨(s.tr.lane s.lead).nat t, idx, a.off + 4 * a.len, a.val, inits.length, specs, bases, []⟩
    | _ => none
  | none => none

/-- The values that locations give, in one lane. -/
def State.readLocs (s : State) (func i : Nat) (ls : List (Nat × Loc)) : List (Nat × TVal) :=
  let ts := s.tysOf func
  (ls.filter fun q => q.1 != iterVal).map fun q => (q.1, s.readLoc i ((ts[q.1]?).getD .void) q.2)

/-- Images that locations name, read into their tiles. -/
def State.readImages (s : State) (ls : List (Nat × Loc)) : State :=
  ls.foldl (fun s q => match q.2 with
    | .accFrame o => s.loadImage o
    | _ => s) s

/-- Gives the running activation of each lane its values. -/
def State.setVals (s : State) (f : Nat → List (Nat × TVal)) : State :=
  { s with tr := { s.tr with lanes := onLanes s.sp.mask (fun i l => { l with frames := match l.frames with
      | [] => []
      | x :: r => { x with vals := f i } :: r }) s.tr.lanes } }

/-- The split leaves native code at the point of its position: every value of the locations goes to its activation (R258). -/
def State.unmap (s : State) (ls : List (Nat × Loc)) : State :=
  let s0 := s.landDue.drainRows.readImages ls
  let s1 := s0.setVals fun i => s0.readLocs s0.sp.func i ls
  let idx := (ls.find? fun q => q.1 = iterVal).map fun q => (s0.readLoc s0.lead .w32 q.2).nat
  { s1 with sp := { s1.sp with
      nat := none, lq := [], fl := [], matched := false, arrived := false, word := none
      loop := match idx with
        | some n => s1.loopOf n
        | none => none } }

/-! ### The allocation of R250 as a map -/

/-- Locations of a point under the scan of R250, for a region that no native section supplies. -/
def State.scanAt (s : State) (func off : Nat) : List (Nat × Loc) :=
  match s.module? s.sp.mh with
  | none => []
  | some m => (scanMap m.rtypes (m.items func) s.tr.budget s.tr.tiles s.tr.width).locs m.rtypes off

/-- Locations of a point of the running module: of its native region, else of the scan. -/
def State.locsAt (s : State) (func off : Nat) : List (Nat × Loc) :=
  match (s.entryFor func off).bind fun e => e.pointAt off with
  | some p => p.locs
  | none => s.scanAt func off

/-- Locations of parameters and results, from the callee's frame pointer (12 R312): one for each type. -/
def argLocs (b : Nat) : List Ty → List (Interval × Nat) → Nat → List Loc
  | [], _, _ => []
  | t :: r, used, slot =>
    let u := tyUnits t
    if t = .acc then .acc 0 :: argLocs b r used slot
    else match (if u = 0 then none else freeReg (b - 2) u used) with
      | some k => (if u = 2 then .pair k else .reg k) :: argLocs b r (used ++ [(⟨0, 0, 0, u⟩, k)]) slot
      | none => .spill slot :: argLocs b r used (slot + 8)

/-- Values of types at the places of parameters or results. -/
def State.readArgs (s : State) (i : Nat) (ts : List Ty) : List TVal :=
  (ts.zip (argLocs s.tr.budget ts [] 16)).map fun q => s.readLoc i q.1 q.2

/-! ### Entering native code (R249, R258) -/

/-- Puts a value of a lane at a location of the focused split. -/
def State.putLoc (s : State) (i : Nat) (v : TVal) (loc : Loc) : State :=
  let n := v.image
  let two (l : Lane) (k : Nat) : Lane := (l.setReg k (BitVec.ofNat 32 n)).setReg (k + 1) (BitVec.ofNat 32 (n / 2 ^ 32))
  match loc with
  | .reg k => s.onLane i fun l => l.setReg k (BitVec.ofNat 32 n)
  | .pair k => s.onLane i fun l => two l k
  | .guard g => s.onLane i fun l => l.setGuard g (n % 2 = 1)
  | .scalar x => if i = s.lead then { s with sp := { s.sp with scal := setNum x (BitVec.ofNat 64 n) s.sp.scal } } else s
  | .spill o => s.frameWrite i (s.sp.fp + o) 8 n
  | .flight m p k => s.fly (regFlights m k p [(i, n)])
  | _ => s

/-- Entries of the load-return queues that a point expects, all landed (18 R399). -/
def State.queueLocs (s : State) (ts : List Ty) (ls : List (Nat × Loc)) : List (Nat × QEnt) :=
  let at_ (q n : Nat) : Option (Nat × QEnt) := ls.findSome? fun x => match x.2 with
    | .queue n' q' =>
      if n = n' && q = q' then
        some (q, ⟨true, (ts[x.1]?).getD .void, (lanesOf s.tr.width s.sp.mask).map fun i =>
          (i, BitVec.ofNat 64 ((s.tr.lane i).val x.1).image), none, []⟩)
      else none
    | _ => none
  (List.range 8).flatMap fun q => (List.range 16).filterMap fun n => at_ q n

/-- The split enters native code at a point of an entry: every value goes to its location (R258). -/
def State.mapIn (s : State) (b : Fin 2) (p : Point) : State :=
  let ts := s.tysOf s.sp.func
  let val (i v : Nat) : TVal := if v = iterVal then mkVal .w32 ((s.sp.loop.map Loop.i).getD 0) else (s.tr.lane i).val v
  let s1 := p.locs.foldl (fun t q => match q.2 with
    | .accFrame o => t.storeImage o
    | loc => (lanesOf t.tr.width t.sp.mask).foldl (fun t i => t.putLoc i (val i q.1) loc) t) s
  let lq := s.queueLocs ts p.locs
  { s1 with sp := { s1.sp with nat := some ⟨b, p.noff, none, p.noff, s1.sp.fl, lq, false⟩, lq := lq, lastPt := p.pos } }

/-- Enters the native region of the split's position, when a bank holds it and the position is one of its points. -/
def State.enterNative (s : State) : Option State :=
  match s.natBankFor s.sp.func s.sp.off, (s.entryFor s.sp.func s.sp.off).bind fun e => e.pointAt s.sp.off with
  | some b, some p => some (s.mapIn b p)
  | _, _ => none

/-- The split goes on at a bundle of a bank with its registers as they are. -/
def State.jumpNative (s : State) (func off : Nat) (b : Fin 2) (noff : Nat) : State :=
  { s with sp := { s.sp with func := func, off := off, nat := some ⟨b, noff, none, noff, s.sp.fl, s.sp.lq, false⟩ } }

/-! ### Transfers at the end of a delay bundle (12 R309 to R312) -/

/-- Moves the split within its bank. -/
def State.goBundle (s : State) (t : Nat) : State :=
  { s with sp := { s.sp with nat := s.sp.nat.map fun p => { p with off := t, pend := none, due := false } } }

/-- Join offset of a native group (12 R310): the portable point that its join bundle begins; beyond any code when it begins none; none for the function end. -/
def State.natJoin (s : State) (j : Option Nat) : Option Nat :=
  j.map fun n => ((s.natEntry.bind fun e => e.pointOf n).map Point.pos).getD (2 ^ 24)

/-- `brc`: the lanes of `m` go to the target, the others to the next bundle. -/
def State.branchTo (s : State) (t next : Nat) (m : Mask) (j : Option Nat) : State :=
  let yes := s.sp.mask &&& m
  let no := s.sp.mask &&& ~~~m
  if no = 0 then s.goBundle t
  else if yes = 0 then s.goBundle next
  else
    let g : Group := ⟨s.tr.nextId, s.sp.group, s.sp.mh, s.sp.func, s.natJoin j, depthKey s.sup (s.tr.depth s.sp.mask), j⟩
    let mine : Split := { s.partOf (s.goBundle t).sp yes true with sid := g.gid + 1, group := g.gid }
    let other : Split := { s.partOf (s.goBundle next).sp no false with sid := g.gid + 2, group := g.gid }
    { s with
      sp := mine
      tr := { s.tr with splits := s.tr.splits ++ [other], groups := g :: s.tr.groups, nextId := g.gid + 3 } }

/-- The other bank (R282). -/
def otherBank (b : Fin 2) : Fin 2 := if b = 0 then 1 else 0

/-- The other bank, when it is VALID with the tag of a function and ENTRY (R284, 15 R370). -/
def State.otherHolds (s : State) (func entry : Nat) : Option (Fin 2) :=
  s.sp.nat.bind fun p =>
    let b := (s.coreOf s.cp.core).bank (otherBank p.bank)
    if b.st = .valid && b.key = some { s.natKeyAt func entry with entry := entry } then some (otherBank p.bank) else none

/-- Whether the other bank is LOADING. -/
def State.otherLoading (s : State) : Bool :=
  s.sp.nat.any fun p => ((s.coreOf s.cp.core).bank (otherBank p.bank)).st = .loading

/-- `brsw`: into the other bank when it is VALID with the expected tag; else the split parks at the target point for the stub. -/
def State.switchTo (s : State) (t entry off : Nat) : State :=
  match s.otherHolds s.sp.func entry with
  | some b => s.jumpNative s.sp.func off b t
  | none =>
    let s1 : State := { s with sp := { s.sp with off := off } }
    (s1.unmap (s.locsAt s.sp.func off)).parkFrom (s.sp.nat.map NPos.bank)

/-- What the caller keeps across a call: the values of its return point that lie in its frame, in scalars, in tiles or are constants. -/
def State.keptVals (s : State) (func ret i : Nat) : List (Nat × TVal) :=
  let ls := match (s.entryFor func ret).bind fun e => e.pointAt ret with
    | some p => p.locs
    | none => s.scanAt func ret
  s.readLocs func i (ls.filter fun q => match q.2 with
    | .reg _ | .pair _ | .guard _ | .queue _ _ | .flight _ _ _ => false
    | _ => true)

/-- A transfer to a point of a function as by `brsw` (R312): into the other bank with the registers as they are, where `keep` allows it; else the split parks at the point, its values those of its activation. -/
def State.arriveAt (s : State) (func off : Nat) (keep : Bool) : State :=
  match s.otherHolds func (s.natKeyAt func off).entry, (s.entryFor func off).bind fun e => e.pointAt off with
  | some b, some p =>
    if keep then s.jumpNative func off b p.noff
    else ({ s with sp := { s.sp with func := func, off := off, nat := none, lq := [], fl := [] } }).parkFrom (s.sp.nat.map NPos.bank)
  | _, _ => ({ s with sp := { s.sp with func := func, off := off, nat := none, lq := [], fl := [] } }).parkFrom (s.sp.nat.map NPos.bank)

/-- Result number of the call at an offset. -/
def State.callDst (s : State) (off : Nat) : Nat :=
  match s.itemAt s.sp.mh s.sp.func off with
  | some a => a.val
  | none => 0

/-- Result number of the call that ends at an offset of a function. -/
def State.callDstBefore (s : State) (func off : Nat) : Nat :=
  match s.module? s.sp.mh with
  | some m => (((m.items func).find? fun a => a.off + 4 * a.len = off).map At.val).getD 0
  | none => 0

/-- Parameter types of a function. -/
def State.paramTys (s : State) (f : Nat) : List Ty :=
  match s.module? s.sp.mh with
  | some m => match (m.block f 0).item with
    | .block ps => ps.map fun c => (Ty.ofCode c).getD .void
    | .instr _ => []
  | none => []

/-- The end of a `call`'s delay bundle: an activation of the callee with the parameters of its registers, entered at its first point. -/
def State.enterCallee (s : State) (f ret fp : Nat) : State :=
  let ts := s.paramTys f
  let dst := s.callDst s.sp.off
  let p0 := ((s.module? s.sp.mh).map fun m => (m.block f 0).val).getD 0
  let caller := s.sp.func
  let off := s.sp.off
  let s1 : State := { s.setVals (fun i => s.keptVals caller ret i) with
    sp := { s.sp with scal := setNum 31 (BitVec.ofNat 64 fp) s.sp.scal } }
  let args (i : Nat) : List (Nat × TVal) := (s1.readArgs i ts).mapIdx fun j v => (p0 + j, v)
  let s2 : State := { s1 with tr := { s1.tr with lanes := onLanes s1.sp.mask (fun i l =>
      { l with frames := ⟨s1.sp.mh, f, off, ret, dst, fp, false, args i, true⟩ :: l.frames }) s1.tr.lanes } }
  s2.arriveAt f 0 true

/-- Whether the caller of the running activation ran native code under the present BUDGET and TILES, by the link's word, so that `ret` needs no translation switch (13 R338). -/
def State.sameMap (s : State) (link : Nat) : Bool :=
  s.topFrame.nat && fld link 40 7 = s.tr.budget && fld link 47 3 = s.tr.tiles

/-- The end of a `ret`'s delay bundle: the results go to the caller, at the return point of the link; under another key, or where the caller ran portable code, the return is a translation switch from the caller's values (13 R338). The split waits there when its group ends with the function. -/
def State.leaveCallee (s : State) (fp link : Nat) : State :=
  let func := fld link 24 16
  let off := link % 2 ^ 24
  let ts := s.rtypes s.sp.mh s.sp.func
  let w := s.endsHere
  let vs := (lanesOf s.tr.width s.sp.mask).map fun i => (i, s.readArgs i ts)
  let keep := s.sameMap link
  let res (i : Nat) : List TVal := ((vs.find? fun q => q.1 = i).map Prod.snd).getD []
  let pop (i : Nat) (l : Lane) : Lane :=
    match l.frames with
    | f :: g :: r => ({ l with frames := g :: r } : Lane).defines f.resNum (res i)
    | [f] => ({ l with frames := [{ f with func := func, vals := [] }] } : Lane).defines (s.callDstBefore func off) (res i)
    | [] => l
  let s1 : State := { s with
    tr := { s.tr with lanes := onLanes s.sp.mask pop s.tr.lanes }
    sp := { s.sp with scal := setNum 31 (BitVec.ofNat 64 fp) s.sp.scal } }
  if w then
    ({ s1 with sp := { s1.sp with func := func, off := off, nat := none, lq := [], fl := [], st := .join } }).settle
  else s1.arriveAt func off keep

/-- Lanes that have done `ret` in the function of launch or in a handler leave (12 R312). -/
def State.endLanes (s : State) : State :=
  if s.sup then s.supExit else s.leaveLanes s.sp.mask

/-- A branch takes effect at the end of its delay bundle (11 R275); `next` is the bundle after it. -/
def State.takeBranch (s : State) (b : NBr) (next : Nat) : State :=
  match b with
  | .go t => s.goBundle t
  | .cond t m j => s.branchTo t next m j
  | .sw t e o => s.switchTo t e o
  | .call f r fp => s.enterCallee f r fp
  | .ret fp (some l) => s.leaveCallee fp l
  | .ret _ none => s.endLanes

/-- Whether a branch goes by way of the other bank, and so waits while that bank is LOADING; a `brsw` that parks also waits for its queue entries (R258, R284, R312). -/
def State.bankWait (s : State) (b : NBr) : Bool :=
  match b with
  | .sw _ e _ => s.otherLoading || ((s.otherHolds s.sp.func e).isNone && s.sp.lq.any fun x => !x.2.landed)
  | .call _ _ _ | .ret _ (some _) => s.otherLoading
  | _ => false

/-- The end of a branch's delay bundle: the branch is taken, or waits for its bank. -/
def State.branchDue (s : State) (b : NBr) (next : Nat) : State :=
  if s.bankWait b then { s with sp := { s.sp with nat := s.sp.nat.map fun p => { p with due := true } } }
  else s.takeBranch b next

/-! ### The end of a bundle (11 R265, R272, R273) -/

/-- Counts a bundle for everything in flight, and applies the port writes that land at its end. -/
def State.tickFlights (s : State) : State :=
  let s1 : State := { s with sp := { s.sp with
    fl := s.sp.fl.map Flight.tick
    mp := s.sp.mp.map fun p => { p with left := p.left - 1 } } }
  let ws := s1.sp.pw.map fun w => { w with left := w.left - 1 }
  (ws.filter fun w => w.left = 0).foldl (fun t w => t.landWrite w)
    { s1 with sp := { s1.sp with pw := ws.filter fun w => w.left != 0 } }

/-- Ends the bundle in progress: pops, counts, and the branch that waited for it. -/
def State.endBundle (s : State) (b : Bundle) : State :=
  let lq := (List.range 8).foldl (fun l q => if b.hdr.pm.getLsbD q then popQueue q l else l) s.sp.lq
  let s1 := ({ s with bnd := none, sp := { s.sp with lq := lq, matched := false, arrived := false, word := none, peerRec := none } }).tickFlights
  match s1.sp.nat with
  | none => s1
  | some p =>
    let next := p.off + b.size
    match p.pend with
    | none => { s1 with sp := { s1.sp with nat := some { p with off := next, pend := b.br } } }
    | some br =>
      -- landings at the end of the delay bundle precede the transfer
      s1.landDue.branchDue br next

/-- A slot has acted: the next one follows, or the bundle ends. -/
def State.slotDone (s : State) : State :=
  match s.bnd with
  | none => s
  | some b =>
    if s.sp.mask = 0 then { s with bnd := none }
    else match b.rest with
      | _ :: k :: r => { s with bnd := some { b with rest := k :: r } }
      | _ => s.endBundle b

/-- Whether a slot that stopped is to be tried again when the agenda is done: the split stands where it stood. -/
def State.retries (s t : State) : Bool :=
  t.focused && t.sp.st = .ready && t.sp.nat = s.sp.nat && t.sp.mask = s.sp.mask && t.sp.sid = s.sp.sid &&
  t.sp.sup = s.sp.sup && !t.todo.isEmpty

/-- Completes the step of a slot; one that stops abandons its bundle, unless it only waits for the agenda. -/
def State.finish (s : State) (a : Act) : State :=
  match a with
  | .go t => t.slotDone
  | .stop t => { t with bnd := if s.retries t then s.bnd else if s.bnd.isSome then none else t.bnd }

/-! ### Illegal bundles (17 R384, R385) -/

/-- The machine fault ILLBUNDLE: nothing issues, the bank becomes INVALID, the event is posted, the split's lanes take the cause. -/
def State.illBundle (s : State) : State :=
  match s.sp.nat with
  | none => { s with bnd := none }
  | some p =>
    let k := s.natBank.bind Bank.key
    let x := ((k.map Key.func).getD s.sp.func) * 2 ^ 48 + ((k.map Key.entry).getD 0) * 2 ^ 24 + p.off
    let s1 := s.modCore s.cp.core fun c => c.setBank p.bank { c.bank p.bank with st := .invalid }
    let s2 := s1.postLeaf s.cp.ref.lid 0x04 cILLBUNDLE s.src (s.evBody x s.sp.func s.sp.lastPt 0)
    ({ s2 with bnd := none }).trapAll cILLBUNDLE (BitVec.ofNat 64 x)

end Sys2Proof.Machine
end

