-- ==== Sys2Proof/Machine/NatAlu.lean ====
section
/-! DEFINITION. The A slots of native code (12 R291, R293 to R299): each operation is the portable instruction that its qualifier names, on registers. -/

namespace Sys2Proof.Machine

/-! ### Qualifiers (11 R269, 12 R291) -/

/-- A qualifier literal. -/
structure Qual where
  ty : Nat
  md : Nat
  sx : Nat
  aux : Nat
  deriving DecidableEq, Repr

def Qual.ofNat (w : Nat) : Qual := ⟨fld w 26 6, fld w 22 4, fld w 14 8, fld w 0 14⟩

/-- The qualifier of a slot, or the default of its operation. -/
def NSlot.q (k : NSlot) (d : Qual) : Qual := (k.qual.map Qual.ofNat).getD d

def Qual.za (q : Qual) : Bool := fld q.aux 13 1 = 1
def Qual.ib (q : Qual) : Bool := fld q.aux 12 1 = 1
def Qual.xc (q : Qual) : Bool := fld q.aux 11 1 = 1
def Qual.c (q : Qual) : Nat := fld q.aux 0 7

/-- The type that the qualifier names. -/
def Qual.type (q : Qual) : Ty := (Ty.ofCode q.ty).getD .void

/-- Whether TY names values of 64 bits. -/
def Qual.wide (q : Qual) : Bool := wideTy q.type

/-- The slot that is acting; one outside a bundle has no literals. -/
def State.slot (s : State) (i : Instr) : NSlot := ((s.bnd.bind fun b => b.rest.head?)).getD ⟨0, i, none, []⟩

/-- The value of literals, low word first. -/
def litVal : List Nat → Nat
  | [] => 0
  | w :: r => w + 2 ^ 32 * litVal r

/-! ### Sources -/

/-- A source of an A slot with the type code that reads it. -/
inductive ASrc where
  | reg (r : Nat) (ty : Nat)
  | lit (v : Nat) (ty : Nat)
  | guard (g : Nat)
  deriving DecidableEq, Repr

def tyOfCode (c : Nat) : Ty := (Ty.ofCode c).getD .void

/-- The value of a source in a lane. -/
def State.asrc (s : State) (i : Nat) : ASrc → TVal
  | .reg r c => ofImage (tyOfCode c) (s.src? i r (wideTy (tyOfCode c)))
  | .lit v c => ofImage (tyOfCode c) v
  | .guard g => mkB ((s.tr.lane i).guard g)

/-- Whether a source is legal. -/
def State.okASrc (s : State) : ASrc → Bool
  | .reg r c => s.okSrc r (wideTy (tyOfCode c))
  | .lit _ _ => true
  | .guard g => g < 16

/-- Destinations: register or pair, guard pair, or a guard's choice made in every lane of the split. -/
inductive ADst where
  | reg (k : Nat) (ty : Nat)
  | guards (g : Nat)
  deriving DecidableEq, Repr

def State.okADst (s : State) : ADst → Bool
  | .reg k c => s.okDst k (wideTy (tyOfCode c))
  | .guards g => 2 ≤ g && g ≤ 14 && g % 2 = 0

/-- What an A slot does: a portable instruction on sources, a destination, its latency; `all` for `sel`, which acts in every lane. -/
structure APlan where
  i : Instr
  args : List ASrc
  dst : ADst
  lat : Nat
  all : Bool
  deriving DecidableEq, Repr

/-- A plan when the portable instruction accepts the fields. -/
def mkPlan (op ty md sx : Nat) (args : List ASrc) (dst : ADst) (lat : Nat) : Option APlan :=
  if (Ty.ofCode ty).isSome && fieldsOk op ty md args.length sx then
    match build op ty md sx (List.range args.length) [] with
    | .ok i => some ⟨i, args, dst, lat, false⟩
    | .error _ => none
  else none

/-- First source: SA, or zero with ZA. -/
def srcA (n : NOp) (q : Qual) (ty : Nat) : Option ASrc :=
  if q.za then (if n.sa = 0 then some (.lit 0 ty) else none) else some (.reg n.sa.toNat ty)

/-- Second source: SB, or the literal with IB. -/
def srcB (n : NOp) (q : Qual) (lits : List Nat) (ty : Nat) : Option ASrc :=
  if q.ib then (if n.sb = 0 then some (.lit (litVal lits) ty) else none) else some (.reg n.sb.toNat ty)

/-- Third source: DST, or register C with XC. -/
def srcC (n : NOp) (q : Qual) (ty : Nat) : ASrc := .reg (if q.xc then q.c else n.dst.toNat) ty

/-- AUX has its reserved bits zero, and C only with XC. -/
def Qual.auxOk (q : Qual) : Bool := fld q.aux 7 4 = 0 && (q.xc || q.c = 0)

/-- An operation on a and b. -/
def planAB (op : Nat) (n : NOp) (q : Qual) (lits : List Nat) (sx tyB : Nat) (dst : ADst) (lat : Nat) : Option APlan :=
  if !q.auxOk || q.xc then none
  else match srcA n q q.ty, srcB n q lits tyB with
    | some a, some b => mkPlan op q.ty q.md sx [a, b] dst lat
    | _, _ => none

/-- An operation on a alone: SB and IB are zero. -/
def planA1 (op : Nat) (n : NOp) (q : Qual) (dst : ADst) (lat : Nat) : Option APlan :=
  if !q.auxOk || q.xc || q.ib || n.sb != 0 then none
  else (srcA n q q.ty).bind fun a => mkPlan op q.ty q.md 0 [a] dst lat

/-- Destination register of the qualifier's type. -/
def regDst (n : NOp) (q : Qual) : ADst := .reg n.dst.toNat q.ty

/-- The unsigned, and the signed, integer type of a width (shifts of R293). -/
def toUnsigned (c : Nat) : Nat := if 2 ≤ c && c ≤ 5 then c + 4 else c
def toSigned (c : Nat) : Nat := if 6 ≤ c && c ≤ 9 then c - 4 else c

/-- Type code of w32. -/
def cW32 : Nat := 8

/-- A three-operand operation on a, b and c in an order. -/
def planABC (op : Nat) (n : NOp) (q : Qual) (lits : List Nat) (order : ASrc → ASrc → ASrc → List ASrc) (lat : Nat) : Option APlan :=
  if !q.auxOk then none
  else match srcA n q q.ty, srcB n q lits q.ty with
    | some a, some b => mkPlan op q.ty q.md q.sx (order a b (srcC n q q.ty)) (regDst n q) lat
    | _, _ => none

/-- `bfx` with position b and length k(C). -/
def planBfx (n : NOp) (q : Qual) (lits : List Nat) : Option APlan :=
  if !q.auxOk || !q.xc then none
  else match srcA n q q.ty, srcB n q lits cW32 with
    | some a, some b => mkPlan 0x29 q.ty q.md 0 [a, b, .reg q.c cW32] (regDst n q) 1
    | _, _ => none

/-- `bfi`: receiver k(DST), source a, position b, length k(C). -/
def planBfi (n : NOp) (q : Qual) (lits : List Nat) : Option APlan :=
  if !q.auxOk || !q.xc then none
  else match srcA n q q.ty, srcB n q lits cW32 with
    | some a, some b => mkPlan 0x2A q.ty q.md 0 [.reg n.dst.toNat q.ty, a, b, .reg q.c cW32] (regDst n q) 1
    | _, _ => none

/-- Latency of the float operations (11 R275). -/
def fltLat (q : Qual) : Nat := if q.ty = 13 then 8 else 4

/-- Whether `cvt` accepts a source and destination type (07 R168). -/
def cvtPair (src dst : Nat) : Bool :=
  src != dst && ((cI src && cI dst) || (cI src && dst = 1) || (src = 1 && cI dst) || (cF src && cI dst) || (cI src && cF dst) ||
    (cF src && cF dst) || (cP src && cP dst))

/-- Variants 0 to 2 of `cvt` (R296). -/
def planCvt (n : NOp) (q : Qual) : Option APlan :=
  let v := fld q.aux 6 2
  let src := fld q.aux 0 6
  let a : ASrc := .reg n.sa.toNat src
  if fld q.aux 8 6 != 0 || n.sb != 0 || q.sx != 0 then none
  else if v = 0 then (if cvtPair src q.ty && (q.md < 4 || (cI src && cI q.ty)) then mkPlan 0x70 q.ty q.md 0 [a] (regDst n q) 4 else none)
  else if v = 1 then (if src = q.ty then mkPlan 0x53 q.ty q.md 0 [a] (regDst n q) 4 else none)
  else if v = 2 then (if q.ty = cW32 then mkPlan 0x52 src q.md 0 [a] (regDst n q) 4 else none)
  else none

/-- Portable opcodes of the functions of `sfu`, with whether they take b (R298). -/
def sfuOp (sx : Nat) : Option (Nat × Bool) :=
  match sx with
  | 0 => some (0x44, true)
  | 1 => some (0x45, false)
  | 2 => some (0x46, false)
  | 3 => some (0x47, false)
  | 4 => some (0x48, false)
  | 5 => some (0x49, false)
  | 6 => some (0x4A, false)
  | 7 => some (0x4B, false)
  | 8 => some (0x4C, false)
  | 9 => some (0x16, true)
  | 10 => some (0x17, true)
  | _ => none

def planSfu (n : NOp) (q : Qual) (lits : List Nat) : Option APlan :=
  let lat := if q.wide then 24 else 12
  match sfuOp q.sx with
  | some (op, true) => planAB op n q lits 0 q.ty (regDst n q) lat
  | some (op, false) => planA1 op n q (regDst n q) lat
  | none => none

/-- `lane` (R299); `f` chooses the formats that no field of the syllable names, of `dxb.pack` and `dxb.unpack`. -/
def planLane (n : NOp) (q : Qual) (f : Nat) : Option APlan :=
  let sel := fld q.aux 10 4
  let reg (r : BitVec 7) (c : Nat) : ASrc := .reg r.toNat c
  let z := n.sb = 0
  let flt := 10 + f % 4
  if fld q.aux 0 10 != 0 then none
  else match sel with
    | 0 => mkPlan 0x80 q.ty q.md q.sx [reg n.sa q.ty, reg n.sb cW32] (regDst n q) 4
    | 1 => if z then mkPlan 0x81 q.ty q.md q.sx [.guard n.sa.toNat] (.guards n.dst.toNat) 4 else none
    | 2 => if z then mkPlan 0x82 q.ty q.md q.sx [.guard n.sa.toNat] (regDst n q) 4 else none
    | 3 => if z then mkPlan 0x83 q.ty q.md q.sx [reg n.sa q.ty] (regDst n q) 4 else none
    | 4 => if z then mkPlan 0x84 q.ty q.md q.sx [reg n.sa q.ty] (regDst n q) 4 else none
    | 5 => if z then mkPlan 0x85 q.ty q.md q.sx [reg n.sa 9] (regDst n q) 4 else none
    | 6 =>
      if q.sx = 0 then (if z then mkPlan 0x74 q.ty q.md q.sx [reg n.sa flt] (regDst n q) 4 else none)
      else mkPlan 0x74 q.ty q.md q.sx [reg n.sa flt, reg n.sb cW32] (.reg n.dst.toNat cW32) 4
    | 7 => mkPlan 0x75 q.ty q.md q.sx [reg n.sa (20 + f % 5), reg n.sb cW32] (regDst n q) 4
    | _ => none

/-- `sel` (R294): the guard chooses in every lane. -/
def planSel (n : NOp) (q : Qual) (lits : List Nat) : Option APlan :=
  if !q.auxOk || q.xc then none
  else match srcA n q q.ty, srcB n q lits q.ty with
    | some a, some b => (mkPlan 0x2C q.ty q.md q.sx [.guard n.gd.toNat, a, b] (regDst n q) 1).map fun p => { p with all := true }
    | _, _ => none

/-- The default qualifiers of the integer and float operations (R293 to R297). -/
def dI32 : Qual := ⟨4, 0, 0, 0⟩
def dF32 : Qual := ⟨12, 0, 0, 0⟩
def dW32 : Qual := ⟨8, 0, 0, 0⟩

/-- Operations with a sub-operation, by portable opcode: on a and b, or on a alone. -/
def planSub (n : NOp) (q : Qual) (lits : List Nat) (two : List Nat) (one : List Nat) (lat : Nat) : Option APlan :=
  match two[q.sx]? with
  | some op => planAB op n q lits 0 q.ty (regDst n q) lat
  | none => match one[q.sx - two.length]? with
    | some op => planA1 op n q (regDst n q) lat
    | none => none

/-- The plan of an A-slot operation; none when a field holds what it does not accept. -/
def aPlan (k : NSlot) (f : Nat) : Option APlan :=
  let l := k.lits
  let i := k.q dI32
  let x := k.q dF32
  let guards (n : NOp) : ADst := .guards n.dst.toNat
  match k.op with
  | .natIadd n => planSub n i l [0x11, 0x1C] [] 1
  | .natIsub n => planSub n i l [0x12, 0x1D] [] 1
  | .natImul n => planSub n i l [0x13, 0x14] [] 1
  | .natImad n => planABC 0x15 n i l (fun a b c => [a, b, c]) 1
  | .natAnd n => planSub n i l [0x1E] [0x25, 0x26, 0x27, 0x28] 1
  | .natOr n => if i.sx = 1 then planBfi n i l else planSub n i l [0x1F] [] 1
  | .natXor n => planSub n i l [0x20] [] 1
  | .natShl n =>
    if i.sx = 0 then planAB 0x22 n i l 0 cW32 (regDst n i) 1
    else if i.sx = 1 then planAB 0x24 n i l 0 cW32 (regDst n i) 1 else none
  | .natShr n =>
    let u := { i with ty := toUnsigned i.ty }
    if i.sx = 0 then planAB 0x23 n u l 0 cW32 (regDst n i) 1 else if i.sx = 1 then (planBfx n u l).map fun p => { p with dst := regDst n i } else none
  | .natSar n =>
    let u := { i with ty := toSigned i.ty }
    if i.sx = 0 then planAB 0x23 n u l 0 cW32 (regDst n i) 1 else if i.sx = 1 then (planBfx n u l).map fun p => { p with dst := regDst n i } else none
  | .natMin n => planSub n i l [0x1A] [] 1
  | .natMax n => planSub n i l [0x1B] [] 1
  | .natSel n => planSel n (k.q dW32) l
  | .natIcmp n => if k.qual.isSome then planAB 0x2B n i l i.sx i.ty (guards n) 1 else none
  | .natFadd n => planSub n x l [0x40, 0x41] [] (fltLat x)
  | .natFmul n => planSub n x l [0x42] [] (fltLat x)
  | .natFma n => planABC 0x43 n x l (fun a b c => [a, b, c]) (fltLat x)
  | .natFmad n => planABC 0x43 n x l (fun a b c => [c, a, b]) (fltLat x)
  | .natFcmp n => if k.qual.isSome then planAB 0x51 n x l x.sx x.ty (guards n) 2 else none
  | .natFmin n => planSub n x l [0x4D] [0x4F, 0x50] 2
  | .natFmax n => planSub n x l [0x4E, 0x54] [] 2
  | .natCvt n => if k.qual.isSome then planCvt n i else none
  | .natSfu n => if k.qual.isSome then planSfu n i l else none
  | .natLane n => if k.qual.isSome then planLane n i f else none
  | _ => none

/-- The portable instructions that A slots carry out. -/
def runScalarOp (i : Instr) : State → Out :=
  match i with
  | .add t a b => execAdd t a b
  | .sub t a b => execSub t a b
  | .mul t a b => execMul t a b
  | .mulhi t a b => execMulhi t a b
  | .mad t a b c => execMad t a b c
  | .div t a b => execDiv t a b
  | .rem t a b => execRem t a b
  | .min t a b => execMin t a b
  | .max t a b => execMax t a b
  | .addsat t a b => execAddsat t a b
  | .subsat t a b => execSubsat t a b
  | .and t a b => execAnd t a b
  | .or t a b => execOr t a b
  | .xor t a b => execXor t a b
  | .shl t a b => execShl t a b
  | .shr t a b => execShr t a b
  | .rotl t a b => execRotl t a b
  | .popc t a => execPopc t a
  | .clz t a => execClz t a
  | .ctz t a => execCtz t a
  | .brev t a => execBrev t a
  | .bfx t a p l => execBfx t a p l
  | .bfi t a b p l => execBfi t a b p l
  | .cmp t c a b => execCmp t c a b
  | .sel t c a b => execSel t c a b
  | .fadd t r a b => execFadd t r a b
  | .fsub t r a b => execFsub t r a b
  | .fmul t r a b => execFmul t r a b
  | .fma t r a b c => execFma t r a b c
  | .fdiv t r a b => execFdiv t r a b
  | .fsqrt t r a => execFsqrt t r a
  | .frsq t r a => execFrsq t r a
  | .frcp t r a => execFrcp t r a
  | .fexp2 t a => execFexp2 t a
  | .flog2 t a => execFlog2 t a
  | .fsin t a => execFsin t a
  | .fcos t a => execFcos t a
  | .ftanh t a => execFtanh t a
  | .fmin t a b => execFmin t a b
  | .fmax t a b => execFmax t a b
  | .fabs t a => execFabs t a
  | .fneg t a => execFneg t a
  | .fcmp t c a b => execFcmp t c a b
  | .fclass t a => execFclass t a
  | .fround t r a => execFround t r a
  | .fcopysign t a b => execFcopysign t a b
  | .cvt t c r a => execCvt t c r a
  | .shfl t m g v d => execShfl t m g v d
  | .vote o c => execVote o c
  | .ballot w c => execBallot w c
  | .redux t o r v => execRedux t o r v
  | .scan t o r e v => execScan t o r e v
  | .rand w x => execRand w x
  | .dxbPackElem t x => execDxbPackElem t x
  | .dxbPackScale t h x o => execDxbPackScale t h x o
  | .dxbUnpack t r h e c => execDxbUnpack t r h e c
  | _ => fun s => .next s

/-- Performs a plan: operands are read, results are in flight (11 R273). -/
def State.runPlan (s : State) (gd : Nat) (p : APlan) : State :=
  let m := if p.all then s.sp.mask else s.adm gd
  let r := s.viaLanes m (fun i => p.args.map (s.asrc i)) (runScalarOp p.i)
  match p.dst with
  | .reg k c => r.1.fly (regFlights p.lat k (wideTy (tyOfCode c)) (r.2.map fun v => (v.1, (ofImage (tyOfCode c) v.2.nat).image)))
  | .guards g => r.1.fly (guardFlights p.lat g (r.2.map fun v => (v.1, v.2.nat % 2 = 1)))

/-- Whether a plan's registers are legal. -/
def State.okPlan (s : State) (p : APlan) : Bool := p.args.all s.okASrc && s.okADst p.dst

/-! ### `cvt` variant 3, `mov`, `movi` (R296, R297) -/

/-- The accumulator element that k(SA) and k(SB) hold. -/
def State.accArg (s : State) (i : Nat) (n : NOp) : AccEl :=
  let hi := s.src? i n.sb.toNat false
  ⟨BitVec.ofNat 64 (s.src? i n.sa.toNat true), BitVec.ofNat 16 hi, fld hi 16 1 = 1, fld hi 17 1 = 1, BitVec.ofNat 4 (fld hi 20 4)⟩

/-- Whether a slot is the accumulator variant of `cvt` with legal fields: from, and to, an accumulator. -/
def accCvt (q : Qual) : Option Bool :=
  let src := fld q.aux 0 6
  if fld q.aux 6 2 != 3 || fld q.aux 8 6 != 0 || q.sx != 0 || 4 ≤ q.md then none
  else if src = 32 then (if q.ty = 4 || q.ty = 5 || cF q.ty then some true else none)
  else if q.ty = 32 && cF src then some false else none

/-- `cvt` between an accumulator image and a number, latency 4. -/
def State.cvtAcc (s : State) (n : NOp) (q : Qual) (from_ : Bool) : State :=
  let ls := lanesOf s.tr.width (s.adm n.gd.toNat)
  let rm := Rm.ofCode (q.md % 4)
  if from_ then
    let rs := ls.map fun i => (i, (s.accArg i n).read q.type rm)
    let s1 := rs.foldl (fun t r => t.onLane r.1 fun l => l.raise s.sup r.2.2) s
    s1.fly (regFlights 4 n.dst.toNat q.wide (rs.map fun r => (r.1, (mkVal q.type r.2.1).image)))
  else
    let ty := tyOfCode (fld q.aux 0 6)
    let old (i : Nat) : AccEl :=
      { s.accArg i n with gm := BitVec.ofNat 64 (s.src? i n.dst.toNat true) }
    let rs := ls.map fun i => (i, (old i).write ty rm (ofImage ty (s.src? i n.sa.toNat (wideTy ty))).nat)
    let s1 := rs.foldl (fun t r => t.onLane r.1 fun l => l.raise s.sup r.2.2) s
    let hi (i : Nat) (x : AccEl) : Nat :=
      s.src? i n.sb.toNat false ||| (boolN x.s * 2 ^ 16) ||| (boolN x.n * 2 ^ 17)
    s1.fly (regFlights 4 n.dst.toNat true (rs.map fun r => (r.1, r.2.1.gm.toNat)) ++
      regFlights 4 n.sb.toNat false (rs.map fun r => (r.1, hi r.1 r.2.1)))

/-- Registers of the accumulator variant. -/
def State.okCvtAcc (s : State) (n : NOp) (q : Qual) (from_ : Bool) : Bool :=
  if from_ then s.okSrc n.sa.toNat true && s.okSrc n.sb.toNat false && s.okDst n.dst.toNat q.wide
  else s.okSrc n.sa.toNat (wideTy (tyOfCode (fld q.aux 0 6))) && s.okDst n.sb.toNat false && s.okDst n.dst.toNat true

/-- Legal fields of `mov`. -/
def State.okMov (s : State) (n : NOp) (q : Qual) : Bool :=
  cV q.ty && q.md = 0 && (q.aux = 0 || (q.aux = 2 ^ 13 && n.sa = 0)) && n.sb = 0 && s.okDst n.dst.toNat q.wide &&
  (match q.sx with
   | 0 => q.za || s.okSrc n.sa.toNat q.wide
   | 1 => n.sa.toNat < 32
   | 2 => n.sa.toNat < 16 && !q.wide
   | _ => false)

/-- `mov`: register, scalar or guard, or zero with ZA, to a register in the form of TY, latency 1 (R289, R291). -/
def State.mov (s : State) (n : NOp) (q : Qual) : State :=
  let v (i : Nat) : Nat := if q.za then 0 else match q.sx with
    | 0 => s.src? i n.sa.toNat q.wide
    | 1 => s.sp.scalar n.sa.toNat
    | _ => boolN ((s.tr.lane i).guard n.sa.toNat)
  s.fly (regFlights 1 n.dst.toNat q.wide ((lanesOf s.tr.width (s.adm n.gd.toNat)).map fun i => (i, (ofImage q.type (v i)).image)))

/-- `movi`: one literal, or two into a pair. -/
def State.movi (s : State) (n : NOp) (lits : List Nat) : State :=
  s.fly (regFlights 1 n.dst.toNat n.q ((lanesOf s.tr.width (s.adm n.gd.toNat)).map fun i => (i, litVal lits)))

/-! ### A slots -/

/-- Whether an A slot is legal on the troop's budget. -/
def State.okA (s : State) (k : NSlot) : Bool :=
  match k.op with
  | .natMov n => s.okMov n (k.q dW32)
  | .natMovi n => n.sa = 0 && n.sb = 0 && s.okDst n.dst.toNat n.q
  | .natCvt n => match (if k.qual.isSome then accCvt (k.q dI32) else none) with
    | some d => s.okCvtAcc n (k.q dI32) d
    | none => (aPlan k 0).any s.okPlan
  | _ => (aPlan k 0).any s.okPlan

/-- The lane operation of a slot, with the formats of `dxb.pack` and `dxb.unpack` free (log 24). -/
def State.laneSlot (s : State) (k : NSlot) (n : NOp) : State :=
  match aPlan k s.free.toNat with
  | some p => ({ s.runPlan n.gd.toNat p with freeCnt := s.freeCnt + 1 })
  | none => s

/-- The effect of an A slot: an illegal one is a machine fault. -/
def State.runA (s : State) (n : NOp) (k : NSlot) : State :=
  if !s.okA k then s.illBundle
  else match aPlan k 0 with
    | some p => (s.runPlan n.gd.toNat p).slotDone
    | none => s.slotDone

def execNatIadd (n : NOp) (s : State) : Out := .next (s.runA n (s.slot (.natIadd n)))
def execNatIsub (n : NOp) (s : State) : Out := .next (s.runA n (s.slot (.natIsub n)))
def execNatImul (n : NOp) (s : State) : Out := .next (s.runA n (s.slot (.natImul n)))
def execNatImad (n : NOp) (s : State) : Out := .next (s.runA n (s.slot (.natImad n)))
def execNatAnd (n : NOp) (s : State) : Out := .next (s.runA n (s.slot (.natAnd n)))
def execNatOr (n : NOp) (s : State) : Out := .next (s.runA n (s.slot (.natOr n)))
def execNatXor (n : NOp) (s : State) : Out := .next (s.runA n (s.slot (.natXor n)))
def execNatShl (n : NOp) (s : State) : Out := .next (s.runA n (s.slot (.natShl n)))
def execNatShr (n : NOp) (s : State) : Out := .next (s.runA n (s.slot (.natShr n)))
def execNatSar (n : NOp) (s : State) : Out := .next (s.runA n (s.slot (.natSar n)))
def execNatMin (n : NOp) (s : State) : Out := .next (s.runA n (s.slot (.natMin n)))
def execNatMax (n : NOp) (s : State) : Out := .next (s.runA n (s.slot (.natMax n)))
def execNatSel (n : NOp) (s : State) : Out := .next (s.runA n (s.slot (.natSel n)))
def execNatIcmp (n : NOp) (s : State) : Out := .next (s.runA n (s.slot (.natIcmp n)))
def execNatFadd (n : NOp) (s : State) : Out := .next (s.runA n (s.slot (.natFadd n)))
def execNatFmul (n : NOp) (s : State) : Out := .next (s.runA n (s.slot (.natFmul n)))
def execNatFma (n : NOp) (s : State) : Out := .next (s.runA n (s.slot (.natFma n)))
def execNatFmad (n : NOp) (s : State) : Out := .next (s.runA n (s.slot (.natFmad n)))
def execNatFcmp (n : NOp) (s : State) : Out := .next (s.runA n (s.slot (.natFcmp n)))
def execNatFmin (n : NOp) (s : State) : Out := .next (s.runA n (s.slot (.natFmin n)))
def execNatFmax (n : NOp) (s : State) : Out := .next (s.runA n (s.slot (.natFmax n)))
def execNatSfu (n : NOp) (s : State) : Out := .next (s.runA n (s.slot (.natSfu n)))

/-- `cvt` (R296). -/
def execNatCvt (n : NOp) (s : State) : Out :=
  let k := s.slot (.natCvt n)
  .next (match (if k.qual.isSome then accCvt (k.q dI32) else none) with
    | some d => if s.okCvtAcc n (k.q dI32) d then (s.cvtAcc n (k.q dI32) d).slotDone else s.illBundle
    | none => s.runA n k)

/-- `mov` (R297). -/
def execNatMov (n : NOp) (s : State) : Out :=
  let k := s.slot (.natMov n)
  .next (if s.okA k then (s.mov n (k.q dW32)).slotDone else s.illBundle)

/-- `movi` (R297). -/
def execNatMovi (n : NOp) (s : State) : Out :=
  let k := s.slot (.natMovi n)
  .next (if s.okA k then (s.movi n k.lits).slotDone else s.illBundle)

/-- `lane` (R299). -/
def execNatLane (n : NOp) (s : State) : Out :=
  let k := s.slot (.natLane n)
  .next (if s.okA k then (s.laneSlot k n).slotDone else s.illBundle)

end Sys2Proof.Machine
end

