-- ==== Sys2Proof/Machine/NatMem.lean ====
section
/-! DEFINITION. The M slot of native code (12 R300 to R303, 11 R272). -/

namespace Sys2Proof.Machine

/-! ### Fields -/

/-- The default qualifier of the memory operations (R300). -/
def dMem : Qual := ⟨8, 0, 5, 0⟩

/-- The default qualifier of `fnc` (R303). -/
def dFnc : Qual := ⟨0, 4, 5, 0⟩

/-- Element count log2 of the qualifier. -/
def Qual.sub (q : Qual) : Nat := q.sx / 16

/-- Whether the qualifier claims an offset literal. -/
def Qual.off (q : Qual) : Bool := fld q.sx 3 1 = 1

/-- Whether the qualifier asks for the frame form. -/
def Qual.frame (q : Qual) : Bool := fld q.aux 13 1 = 1

/-- Registers that one value takes. -/
def Qual.step (q : Qual) : Nat := if q.wide then 2 else 1

/-- Whether n values in consecutive registers or pairs lie within the budget. -/
def State.okRun (s : State) (r n : Nat) (q : Qual) : Bool :=
  if r < 120 then (r % q.step = 0) && r + n * q.step ≤ s.tr.budget else n = 1

/-- Fields of a load or store: order and scope as the portable instruction accepts them, the address form. -/
def State.okMem (s : State) (n : NOp) (q : Qual) (load : Bool) (frame : Bool) : Bool :=
  let c := 2 ^ q.sub
  (if load then fieldsOk (if q.sub = 0 then 0x90 else 0x92) q.ty q.md 1 q.sx
   else fieldsOk (if q.sub = 0 then 0x91 else 0x93) q.ty q.md (1 + c) q.sx) &&
  (if q.aux = 2 ^ 13 then frame && q.off && n.sa = 0 else q.aux = 0 && s.okSrc n.sa.toNat true)

/-- Effective address of a lane: the pair SA and the offset, or the frame form (R300). -/
def State.natEa (s : State) (n : NOp) (q : Qual) (lits : List Nat) (i : Nat) : Nat :=
  let base := if q.frame then privVa s.sp.fp else s.src? i n.sa.toNat true
  if q.off then wrapu 64 ((base : Int) + wrap 32 (litVal lits)) else base

/-- Order that the qualifier names. -/
def Qual.ord (q : Qual) : Ord := (Ord.ofCode q.md).getD .rlx

/-- Admitted lanes with their addresses. -/
def State.natEas (s : State) (n : NOp) (q : Qual) (lits : List Nat) : List (Nat × Nat) :=
  (lanesOf s.tr.width (s.adm n.gd.toNat)).map fun i => (i, s.natEa n q lits i)

/-- Windows that an operation accepts (R301). -/
def inWindow (only : Option Nat) (a : Nat) : Bool := only.all fun t => tagOf a = t

/-- Checks of 08 R180 with the window rule of R301, which takes part in the first of them. -/
def State.natPrepare (s : State) (a : Acc) (only : Option Nat) (eas : List (Nat × Nat)) : Prep (List (Nat × List Spot)) :=
  if eas.all fun q => inWindow only q.2 then s.prepare a eas
  else .done (s.trapLanes (eas.filterMap fun q =>
    if inWindow only q.2 then (windowErr s.tr.width s.lch.scratch q.2 a.span).map fun e => (q.1, ⟨cWINDOW, e, q.2⟩)
    else some (q.1, ⟨cWINDOW, 1, q.2⟩)) a.acc)

/-! ### Loads -/

/-- Values of each element, by lane, as images. -/
def natVals (s : State) (ty : Ty) (ps : List (Nat × List Spot)) (e : Nat) : List (Nat × Nat) :=
  ps.map fun q => (q.1, (((s.loadVals ty q.2)[e]?).getD ⟨ty, 0⟩).image)

/-- Requests of a lane's peer elements for entries of a queue: the state, and which request each element waits for. -/
def State.askPeers (s : State) (ty : Ty) (l ea : Nat) (kind : AccKind) (acc : Nat) : Nat → List Spot → State × List (Nat × Nat)
  | _, [] => (s, [])
  | e, .peer k wa :: r =>
    let seen := (s.tr.lane l).seen
    match s.request k wa (ea + e * ty.bytes) ty.bytes (.queue s.trRef l) kind seen with
    | some s1 =>
      let t := State.askPeers s1 ty l ea kind acc (e + 1) r
      (t.1, (e, s.nextReq) :: t.2)
    | none => State.askPeers ((s.linkFault k wa).onLane l fun x => x.fail (some 5) (ea + e * ty.bytes) acc) ty l ea kind acc (e + 1) r
  | e, _ :: r => State.askPeers s ty l ea kind acc (e + 1) r

/-- Requests of all lanes. -/
def State.askAll (s : State) (ty : Ty) (kind : Nat → AccKind) (acc : Nat) :
    List ((Nat × List Spot) × (Nat × Nat)) → State × List (Nat × Nat)
  | [] => (s, [])
  | (p, ea) :: r =>
    let a := s.askPeers ty p.1 ea.2 (kind p.1) acc 0 p.2
    let b := State.askAll a.1 ty kind acc r
    (b.1, a.2 ++ b.2)

/-- Appends entries for the elements of a load, each with the requests it waits for (R272). -/
def State.appendEntries (s : State) (q : Nat) (ty : Ty) (vals : Nat → List (Nat × Nat)) (reqs : List (Nat × Nat)) (n : Nat) : State :=
  (List.range n).foldl (fun t e => t.enqueue q
    ⟨false, ty, (vals e).map fun v => (v.1, BitVec.ofNat 64 v.2), none, (reqs.filter fun r => r.1 = e).map Prod.snd⟩) s

/-- A load of `count` elements in the admitted lanes; `fin` puts the values where they go. -/
def State.natLoad (s : State) (n : NOp) (q : Qual) (lits : List Nat) (only : Option Nat) (fin : State → List ((Nat × List Spot) × (Nat × Nat)) → State) : Act :=
  let a : Acc := ⟨q.type.bytes, 2 ^ q.sub, q.type.bytes, needR, 0⟩
  let eas := s.natEas n q lits
  match s.natPrepare a only eas with
  | .done t => .stop t
  | .go s1 ps => match s1.waitFirst q.ord q.type.bytes ps with
    | some t => .stop t
    | none => .go (fin ((s1.noteAll a.span eas).exchange q.ord (s1.adm n.gd.toNat)) (ps.zip eas))

/-- Registers take the elements at latency 6. -/
def State.toRegs (s : State) (n : NOp) (q : Qual) (ps : List (Nat × List Spot)) : State :=
  s.fly ((List.range (2 ^ q.sub)).flatMap fun e => regFlights 6 (n.dst.toNat + e * q.step) q.wide (natVals s q.type ps e))

/-- A queue takes the elements, one entry each. -/
def State.toQueue (s : State) (n : NOp) (q : Qual) (ps : List ((Nat × List Spot) × (Nat × Nat))) : State :=
  let r := s.askAll q.type (fun _ => .load) 0 ps
  r.1.appendEntries (n.dst.toNat - 120) q.type (natVals s q.type (ps.map Prod.fst)) r.2 (2 ^ q.sub)

/-- A frame-form load of a handler reads its trap area (18 R397); past 4,096 bytes it takes WINDOW. -/
def State.areaLoad (s : State) (n : NOp) (q : Qual) (lits : List Nat) : Act :=
  let w := q.type.bytes
  let o := offOf (s.natEa n q lits 0)
  if 4096 < o + w * 2 ^ q.sub then .stop (s.frameTrap o)
  else .go (s.appendEntries (n.dst.toNat - 120) q.type (fun e =>
    (lanesOf s.tr.width (s.adm n.gd.toNat)).map fun i => (i, (mkVal q.type (s.frameRead i (o + e * w) w)).image)) [] (2 ^ q.sub))

/-! ### Stores -/

/-- Patterns that a lane stores. -/
def State.storeSrc (s : State) (n : NOp) (q : Qual) (i : Nat) : List Nat :=
  (List.range (2 ^ q.sub)).map fun e => s.src? i (n.sb.toNat + e * q.step) q.wide

/-- A store of elements in the admitted lanes. -/
def State.natStore (s : State) (n : NOp) (q : Qual) (lits : List Nat) (only : Option Nat) : Act :=
  let w := q.type.bytes
  let a : Acc := ⟨w, 2 ^ q.sub, w, needW, 1⟩
  let eas := s.natEas n q lits
  match s.natPrepare a only eas with
  | .done t => .stop t
  | .go s1 ps => match s1.storeWait q.ord w s1.sp.mask ps with
    | some t => .stop t
    | none =>
      let s2 := (s1.noteAll a.span eas).exchange q.ord (s1.adm n.gd.toNat)
      let val (l : Nat) : List Nat := (s.storeSrc n q l).map fun v => v % 2 ^ (8 * w)
      let cells := dropShadowed (ps.map fun p => (p.1, storeCells w p.2 (val p.1)))
      let s3 := ps.foldl (fun t p => t.scratchStores w p.2 (val p.1)) s2
      let s4 := { s3 with stores := s3.stores ++ s3.newStores q.ord cells }
      .go ((ps.zip eas).foldl (fun t p => t.sendStores w p.1.1 p.2.2 0 p.1.2 (val p.1.1)) s4)

/-- A frame-form store of a handler writes its trap area. -/
def State.areaStore (s : State) (n : NOp) (q : Qual) (lits : List Nat) : Act :=
  let w := q.type.bytes
  let o := offOf (s.natEa n q lits 0)
  if 4096 < o + w * 2 ^ q.sub then .stop (s.frameTrap o)
  else .go (s.frameStore ((lanesOf s.tr.width (s.adm n.gd.toNat)).flatMap fun i =>
    ((List.range (2 ^ q.sub)).zip (s.storeSrc n q i)).map fun v => ⟨i, o + v.1 * w, w, v.2⟩))

/-! ### Atomics (R302) -/

/-- Whether an atomic's qualifier and registers are legal. -/
def State.okAtg (s : State) (n : NOp) (q : Qual) : Bool :=
  let cas := q.sub = 7
  fieldsOk 0x94 q.ty q.md (if cas then 3 else 2) q.sx && s.okSrc n.sa.toNat true && s.okSrc n.sb.toNat q.wide &&
  (if cas then q.aux < 128 && s.okSrc q.aux q.wide else q.aux = 0) && 120 ≤ n.dst.toNat

/-- `atg` (R302): the old values arrive as one queue entry. -/
def State.natAtom (s : State) (n : NOp) (q : Qual) (lits : List Nat) : Act :=
  match AtomOp.ofCode q.sub with
  | none => .go s
  | some op =>
    let ty := q.type
    let a : Acc := ⟨ty.bytes, 1, ty.bytes, if s.lch.det && isFadd op then needRec else needA, 2⟩
    let eas := s.natEas n q lits
    match s.prepare a eas with
    | .done t => .stop t
    | .go s1 ps => match s1.waitFirst q.ord ty.bytes ps with
      | some t => .stop t
      | none =>
        let m := s1.adm n.gd.toNat
        let args (i : Nat) : List TVal := [ofImage ty (s.src? i n.sb.toNat q.wide), ofImage ty (s.src? i q.aux q.wide)]
        let s2 := ((s1.noteAll a.span eas).exchange q.ord m).withArgs m args
        let back (t : State) : State := { t.dropArgs with ctx := s1.ctx, sp := { t.sp with mask := s1.sp.mask } }
        if s2.lch.det && isFadd op then
          .go ((back (s2.recordOrb ty (faddRm op) 0 eas)).appendEntries (n.dst.toNat - 120) ty (fun _ => eas.map fun e => (e.1, 0)) [] 1)
        else
          let r := s2.atomLanes op ty 0 (some 1) ps
          let arg (l j : Nat) : W64 := (((args l)[j]?).getD (⟨ty, 0⟩ : TVal)).v
          let kind (l : Nat) : AccKind := .amo op ty (arg l 0) (arg l 1)
          let p := (back r.1).askAll ty kind 2 (ps.zip eas)
          .go (p.1.appendEntries (n.dst.toNat - 120) ty (fun _ => r.2.map fun v => (v.1, (mkVal ty v.2).image)) p.2 1)

/-! ### Fences and hints (R303) -/

/-- Whether `fnc` has legal fields. -/
def State.okFnc (s : State) (n : NOp) (q : Qual) : Bool :=
  if q.aux = 2 ^ 13 then fieldsOk 0xF5 q.ty q.md 2 q.sx && n.dst = 0 && s.okSrc n.sa.toNat true && s.okSrc n.sb.toNat true
  else q.aux = 0 && fieldsOk 0x95 q.ty q.md 0 q.sx && n.dst = 0 && n.sa = 0 && n.sb = 0

/-- A fence at an order: it waits for the lanes' stores. -/
def State.natFence (s : State) (o : Ord) (m : Mask) : Act :=
  match s.fenceWait o m with
  | some t => .stop t
  | none =>
    if o == .sc then
      let t : State := { s with sp := { s.sp with mask := m } }
      .go { t.takeStamp t.fenceStamp with sp := s.sp }
    else .go (s.exchange o m)

/-- Operands of a lane: the pairs SA and SB. -/
def State.pairArgs (s : State) (n : NOp) (i : Nat) : List TVal :=
  [⟨.addr, BitVec.ofNat 64 (s.src? i n.sa.toNat true)⟩, ⟨.w64, BitVec.ofNat 64 (s.src? i n.sb.toNat true)⟩]

/-- `fnc`: a fence, or `tlb.inv`. -/
def State.runFnc (s : State) (n : NOp) (q : Qual) : Act :=
  let m := s.adm n.gd.toNat
  if m = 0 then .go s
  else if q.frame then
    if !s.sup then .stop (s.priv 0xF5 q.sx)
    else match s.fenceWait .ar m with
      | some t => .stop t
      | none => .go (s.viaLanes m (s.pairArgs n) (execTlbInv (q.sx = 3) 0 1)).1
  else s.natFence q.ord m

/-- Whether `prf` has legal fields. -/
def State.okPrf (s : State) (n : NOp) (q : Qual) : Bool :=
  if q.aux = 2 ^ 13 then fieldsOk 0x97 q.ty q.md 2 q.sx && n.dst = 0 && s.okSrc n.sa.toNat true && s.okSrc n.sb.toNat true
  else q.aux = 0 && fieldsOk 0x96 q.ty q.md 1 q.sx && n.dst = 0 && n.sb = 0 && s.okSrc n.sa.toNat true

/-- `prf`: no value depends on a prefetch; `tier` sets the counters of granules. -/
def State.runPrf (s : State) (n : NOp) (q : Qual) : Act :=
  if q.frame then .go (s.viaLanes (s.adm n.gd.toNat) (s.pairArgs n) (execTier (q.sx = 1) 0 1)).1 else .go s

/-! ### The slot -/

/-- The default qualifier of `prf`: a hint has TY 0. -/
def dPrf : Qual := ⟨0, 0, 0, 0⟩

/-- Whether an M slot is legal on the troop's budget. -/
def State.okM (s : State) (k : NSlot) : Bool :=
  let q := k.q dMem
  let c := 2 ^ q.sub
  let latch (n : NOp) : Bool := 120 ≤ n.dst.toNat
  match k.op with
  | .natLds n => s.okMem n q true false && n.sb = 0 && n.dst.toNat < 120 && s.okRun n.dst.toNat c q
  | .natLdg n => s.okMem n q true false && n.sb = 0 && latch n
  | .natLdp n => s.okMem n q true true && n.sb = 0 && latch n
  | .natSts n => s.okMem n q false false && n.dst = 0 && s.okRun n.sb.toNat c q
  | .natStg n => s.okMem n q false false && n.dst = 0 && s.okRun n.sb.toNat c q
  | .natStp n => s.okMem n q false true && n.dst = 0 && s.okRun n.sb.toNat c q
  | .natAtg n => s.okAtg n q
  | .natPrf n => s.okPrf n (k.q dPrf)
  | .natFnc n => s.okFnc n (k.q dFnc)
  | _ => false

/-- Queue entries that a load appends, and its queue (R272, R301). -/
def NSlot.appends (k : NSlot) : Option (Nat × Nat) :=
  match k.op with
  | .natLdg n | .natLdp n => some (n.dst.toNat - 120, 2 ^ (k.q dMem).sub)
  | .natAtg n => some (n.dst.toNat - 120, 1)
  | _ => none

/-- The effect of a legal M slot. -/
def State.actM (s : State) (k : NSlot) : Act :=
  let q := k.q dMem
  match k.op with
  | .natLds n => s.natLoad n q k.lits (some 0xFD) fun t ps => t.toRegs n q (ps.map Prod.fst)
  | .natLdg n => s.natLoad n q k.lits none fun t ps => t.toQueue n q ps
  | .natLdp n => if q.frame && s.sup then s.areaLoad n q k.lits else s.natLoad n q k.lits (some 0xFC) fun t ps => t.toQueue n q ps
  | .natSts n => s.natStore n q k.lits (some 0xFD)
  | .natStg n => s.natStore n q k.lits none
  | .natStp n => if q.frame && s.sup then s.areaStore n q k.lits else s.natStore n q k.lits (some 0xFC)
  | .natAtg n => s.natAtom n q k.lits
  | .natPrf n => s.runPrf n (k.q dPrf)
  | .natFnc n => s.runFnc n (k.q dFnc)
  | _ => .go s

/-- An M slot: an illegal one is a machine fault. -/
def State.runM (s : State) (k : NSlot) : State := if s.okM k then s.finish (s.actM k) else s.illBundle

def execNatLds (n : NOp) (s : State) : Out := .next (s.runM (s.slot (.natLds n)))
def execNatSts (n : NOp) (s : State) : Out := .next (s.runM (s.slot (.natSts n)))
def execNatLdg (n : NOp) (s : State) : Out := .next (s.runM (s.slot (.natLdg n)))
def execNatStg (n : NOp) (s : State) : Out := .next (s.runM (s.slot (.natStg n)))
def execNatAtg (n : NOp) (s : State) : Out := .next (s.runM (s.slot (.natAtg n)))
def execNatLdp (n : NOp) (s : State) : Out := .next (s.runM (s.slot (.natLdp n)))
def execNatStp (n : NOp) (s : State) : Out := .next (s.runM (s.slot (.natStp n)))
def execNatPrf (n : NOp) (s : State) : Out := .next (s.runM (s.slot (.natPrf n)))
def execNatFnc (n : NOp) (s : State) : Out := .next (s.runM (s.slot (.natFnc n)))

end Sys2Proof.Machine
end

