-- ==== Sys2Proof/Machine/Overlay.lean ====
section
/-! DEFINITION. Swap banks and overlay commands (11 R281 to R283, 19 R431, 22 R473). -/

namespace Sys2Proof.Machine

/-- The entry whose code page has a number. -/
def State.pageEntry (s : State) (page : Nat) : Option TEntry := s.tcache.find? fun e => e.page = page

/-! ### Overlay commands (R283) -/

/-- Puts bytes into a bank's code at an offset. -/
def putCode (c : List Byte) (off : Nat) (bs : List Byte) : List Byte :=
  (c.take off ++ List.replicate (off - c.length) 0) ++ bs ++ c.drop (off + bs.length)

/-- A command that is applied to a bank: it begins a load unless the bank is LOADING with its tag and TOTAL. -/
def Bank.load (b : Bank) (key : Key) (total : Nat) (cmd : Nat × Nat × Nat × W32 × CampRef) : Bank :=
  if b.st = .loading && b.key = some key && b.total = total then { b with ovl := b.ovl ++ [cmd] }
  else ⟨.loading, some key, total, [], [], [cmd], false⟩

/-- Starts an overlay of a core's bank: dropped when the bank is in use, or VALID with the tag and TOTAL. -/
def State.overlay (s : State) (k : CoreId) (b : Fin 2) (key : Key) (total : Nat) (cmd : Nat × Nat × Nat × W32 × CampRef) : State :=
  let x := (s.coreOf k).bank b
  if s.bankUsed k b || (x.st = .valid && x.key = some key && x.total = total) then s
  else s.modCore k fun c => c.setBank b ((c.bank b).load key total cmd)

/-- Lines that a command marks. -/
def lineSpan (boff len : Nat) : List Nat := (List.range (len / 64)).map fun i => boff / 64 + i

/-- Whether a command succeeds: its pages are mapped and sound, it fits bank and TOTAL, its checksum matches (R283, 19 R431). -/
def State.ovlOk (s : State) (die : Nat) (x : Bank) (cmd : Nat × Nat × Nat × W32 × CampRef) : Option (List Byte) :=
  let (src, len, boff, sum, _) := cmd
  (s.cacheBytes 2 src len).bind fun bs =>
    if bankBytes die < boff + len || 64 * x.total < boff + len || adler 1 bs != sum.toNat then none else some bs

/-- The bank after one command has ended. -/
def State.ovlEnd (s : State) (die : Nat) (x : Bank) : Bank :=
  match x.ovl with
  | [] => x
  | cmd :: r =>
    if x.st != .loading then { x with ovl := r }
    else match s.ovlOk die x cmd with
      | none => { x with st := .invalid, ovl := r, bad := true }
      | some bs =>
        let marks := (x.marks ++ lineSpan cmd.2.2.1 cmd.2.1).eraseDups
        let full := (List.range x.total).all fun i => marks.contains i
        { x with ovl := r, marks := marks, code := putCode x.code cmd.2.2.1 bs, st := if full then .valid else .loading }

/-- Overlays of one key that failed in a row on a core (21 R460). -/
def Core.countOvl (c : Core) (x : Bank) : Core :=
  if x.st = .invalid then
    (if c.failKey = x.key then { c with fails := c.fails + 1 } else { c with fails := 1, failKey := x.key })
  else if x.st = .valid && c.failKey = x.key then { c with fails := 0, failKey := none }
  else c

/-- OVERLAY_COMPLETE: the oldest command of a bank ends. -/
def execOverlayComplete (k : CoreId) (b : Fin 2) (s : State) : Out :=
  let x := (s.coreOf k).bank b
  let y := s.ovlEnd k.die x
  .next (if x.ovl.isEmpty then s else s.modCore k fun c => ((c.setBank b y).countOvl (if x.st = .loading then y else { y with st := .empty })))

/-! ### `ovl` (12 R307) -/

/-- OVLMISS of the cluster's fault-injection register for an `ovl` (22 R473): whether it fires. -/
def State.finjMiss (s : State) : State × Bool :=
  let k := s.cp.core
  match s.clusters.find? fun c => c.die = k.die && c.cl = k.cl with
  | none => (s, false)
  | some c =>
    let v := c.finj.toNat
    if v % 2 = 0 || fld v 1 2 != 2 || fld v 24 4 != k.core then (s, false)
    else
      let set (x : Cluster) : State := { s with clusters := s.clusters.map fun y => if y.die = x.die && y.cl = x.cl then x else y }
      if c.finjSeen < fld v 32 8 then (set { c with finjSeen := c.finjSeen + 1 }, false)
      else (set { c with finj := c.finj &&& ~~~1, finjSeen := 0 }, true)

/-- A page number that no page map holds. -/
def noPage : Nat := 2 ^ 32

/-- `ovl` with its two scalars: the other bank, tagged as the translator recorded with the code page. -/
def State.ovlCmd (s : State) (a b : Nat) : State :=
  match s.sp.nat with
  | none => s
  | some p =>
    let src := a % 2 ^ 48
    let f := s.finjMiss
    let page := src / 65536
    let tag := match s.pageEntry page with
      | some e => e.key
      | none => ⟨0, false, 0, 0, 0, 0, 0, 0, 0, 0, false⟩
    f.1.overlay s.cp.core (if p.bank = 0 then 1 else 0) tag (a / 2 ^ 48)
      ((if f.2 then noPage * 65536 else src), fld b 0 16, fld b 16 16, BitVec.ofNat 32 (b / 2 ^ 32), s.cp.ref)

end Sys2Proof.Machine
end

