-- ==== Sys2Proof/Machine/NatMatrix.lean ====
section
/-! DEFINITION. The X and P slots of native code (11 R276 to R278, 12 R304 to R308, R318). -/

namespace Sys2Proof.Machine

/-! ### Fields -/

/-- Whether DST names the first bank of a group within the troop's grant (12 R304, 11 R278). -/
def State.okGroup (s : State) (n : NOp) : Bool := n.dst.toNat % 4 = 0 && n.dst.toNat < 16 && n.dst.toNat / 4 < s.tr.tiles

/-- Tile group of DST. -/
def bankGroup (n : NOp) : Nat := n.dst.toNat / 4

/-- Default qualifiers of the X slot (R304). -/
def dMma : Qual := ⟨32, 3, 0x22, 0⟩
def dAcc : Qual := ⟨32, 0, 0, 0⟩
def dCmd : Qual := ⟨0, 0, 5, 0⟩
def dPitch : Qual := ⟨34, 0, 5, 0⟩
def dStrike : Qual := ⟨0, 0, 0, 0⟩

/-- The variant that AUX[13:12] selects, the rest of AUX being zero. -/
def Qual.var (q : Qual) : Option Nat := if fld q.aux 0 12 = 0 then some (fld q.aux 12 2) else none

/-- Operand count of a command: its fixed operands and those that SX and MD add. -/
def cmdOps (base : Nat) (q : Qual) : Nat := base + fld q.sx 3 1 + fld q.sx 4 1 + q.md % 2 + q.md / 2 % 2

/-- Portable opcode and operand count of a copy-engine slot (R305). -/
def cmdForm (k : NSlot) : Option (Nat × Nat × Qual × NOp) :=
  let q := k.q dCmd
  match k.op with
  | .natCopy n =>
    if q.aux = 2 ^ 13 then some (0xC2, cmdOps 3 q, q, n) else if q.aux = 0 then some (0xC0, cmdOps 3 q, q, n) else none
  | .natTcopy n => if 1 ≤ q.aux && q.aux ≤ 5 then some (0xC1, cmdOps (2 + q.aux) q, q, n) else none
  | _ => none

/-- Portable fields of `rpitch` (R304, R305): the operand count. -/
def pitchOps (q : Qual) : Nat := if q.sx = 8 || q.sx = 16 then 1 else 6

/-- Whether an X slot is legal on the troop's grant. -/
def State.okX (s : State) (k : NSlot) : Bool :=
  let sc (r : BitVec 7) : Bool := r.toNat < 32
  let latch (n : NOp) (on : Bool) : Bool := if on then 120 ≤ n.dst.toNat else n.dst = 0
  match k.op with
  | .natMma n =>
    let q := k.q dMma
    fieldsOk 0xD1 q.ty q.md 3 q.sx && q.aux = 0 && s.okGroup n && sc n.sa && sc n.sb
  | .natMmar n =>
    let q := k.q dMma
    fieldsOk 0xD2 q.ty q.md 4 q.sx && q.aux = 0 && s.okGroup n && sc n.sa && sc n.sb
  | .natAccn n =>
    let q := k.q dAcc
    fieldsOk 0xD3 q.ty q.md 1 q.sx && q.aux = 0 && s.okGroup n && n.sa = 0 && n.sb = 0
  | .natTcopy _ | .natCopy _ => match cmdForm k with
    | some (op, c, q, n) => fieldsOk op q.ty q.md c q.sx && n.sa.toNat + c ≤ 32 && n.sb = 0 && latch n (q.ty = 9)
    | none => false
  | .ovl n => k.qual.isNone && n.dst = 0 && sc n.sa && sc n.sb
  | .natRpitch n =>
    let q := k.q dPitch
    fieldsOk 0xE0 q.ty q.md (pitchOps q) q.sx && q.aux = 0 && n.sa.toNat + pitchOps q ≤ 32 && n.sb = 0 && latch n (q.sx != 16)
  | .natRstrike n =>
    let q := k.q dStrike
    match q.var with
    | some v => fieldsOk (0xE1 + v) q.ty q.md 1 q.sx && sc n.sa && n.sb = 0 && latch n (v = 3)
    | none => false
  | .natAcci n =>
    let q := k.q dAcc
    n.sb = 0 && match q.var with
    | some 0 => fieldsOk 0xD0 q.ty q.md 1 q.sx && s.okGroup n && sc n.sa
    | some 1 => (q.ty = 0 || q.ty = 32) && q.md = 0 && q.sx = 0 && n.dst = 0 && sc n.sa
    | some 2 => (q.ty = 0 || q.ty = 32) && q.md = 0 && q.sx = 0 && n.dst = 0 && n.sa = 0
    | _ => false
  | _ => false

/-! ### Effects -/

/-- The guard of a once-acting slot admits a lane (R290). -/
def State.once (s : State) (gd : Nat) : Bool := s.adm gd != 0

/-- A scalar as an operand of 64 bits. -/
def State.sarg (s : State) (r : Nat) : TVal := ⟨.w64, BitVec.ofNat 64 (s.sp.scalar r)⟩

/-- An entry with one value in every lane of the split. -/
def State.uniform (s : State) (q : Nat) (ty : Ty) (v : Nat) (cmd : Option Nat) : State :=
  s.enqueue q ⟨false, ty, (lanesOf s.tr.width s.sp.mask).map fun i => (i, BitVec.ofNat 64 v), cmd, []⟩

/-- The operation of an `mma` or `mmar` slot: a member of a rope not at POS 0 gives no operands. -/
def State.natMop (s : State) (n : NOp) (q : Qual) (res : Bool) : MOp :=
  let fa := (MFmt.ofCode (q.sx / 16)).getD .dxb4
  let fb := (MFmt.ofCode (q.sx % 16)).getD .dxb4
  let ign := inRope s.tr.rope && ropePos s.tr.rope != 0
  if ign then ⟨fa, fb, q.md + 1, (AccRef.val ⟨0, s.tr.ropeNow⟩).nat, 0, res, 0, 0, true⟩
  else
    let b := s.sp.scalar n.sb.toNat
    ⟨fa, fb, q.md + 1, (s.groupRef (bankGroup n)).val.nat, s.sp.scalar n.sa.toNat, res, if res then b % 2 ^ 32 else b,
      if res then fld b 32 12 else 0, false⟩

/-- `mma`, `mmar` (R306); a joint operation that has been performed is done. -/
def State.natMultiply (s : State) (n : NOp) (q : Qual) (res : Bool) : Act :=
  if s.sp.matched then .go s
  else s.viaSplit [] (fun t => t.mmaOp (if res then 0xD2 else 0xD1) q.sx (s.natMop n q res)) fun t _ => t

/-- `accn`: reads at issue, writes eight bundles after its own. -/
def State.natNorm (s : State) (n : NOp) : Act :=
  let a := s.groupRef (bankGroup n)
  if s.tr.gone a then .stop (s.ropeFault 6 0)
  else if !s.tr.changes a then .go s
  else
    let t := (s.accTile a).mapAll fun _ x => x.norm
    let s1 := s.raiseTile a t.2
    .go { s1 with sp := { s1.sp with pw := s1.sp.pw ++ [⟨9, a.val.nat, some t.1.dflt, t.1.els⟩] } }

/-- `acci` as `acc.init`: every element at the end of its bundle; on a rope tile at POS 0 alone. -/
def State.natInit (s : State) (n : NOp) (q : Qual) : Act :=
  let a : AccRef := ⟨(bankGroup n), s.tr.ropeNow⟩
  if !s.tr.changes a then .go s
  else
    let e := wrap 16 (s.sp.scalar n.sa.toNat)
    .go { s with sp := { s.sp with pw := s.sp.pw ++ [⟨1, a.val.nat, some (AccEl.init e (q.sx % 16)), []⟩] } }

/-- `acci` in its three forms (R306). -/
def State.runAcci (s : State) (n : NOp) (q : Qual) : Act :=
  match q.var with
  | some 0 => s.natInit n q
  | some 1 =>
    if s.sp.matched then .go s
    else s.viaSplit [⟨.w32, BitVec.ofNat 64 (s.sp.scalar n.sa.toNat % 2 ^ 16)⟩] (fun t => match execRopeForm 0 t with
      | .next u => u
      | _ => t) fun t _ => t
  | _ =>
    if s.sp.matched then .go s
    else s.viaSplit [] (fun t => match execRopeFree t with
      | .next u => u
      | _ => t) fun t _ => t

/-- The command of a decoded copy-engine instruction, which does not wait for its status. -/
def State.engineCmd (s : State) (i : Instr) : State :=
  match i with
  | .copy _ sc d f l bw cv w => s.beforeIssue fun t => t.copyCmd false sc d f l bw cv w
  | .tcopy v _ sc a b os bw cv w => s.beforeIssue fun t => t.tcopyCmd v false sc a b os bw cv w
  | .copyRemote _ sc d f l lc bw cv w => s.beforeIssue fun t => t.remoteCmd false sc d f l lc bw cv w
  | _ => s

/-- `copy`, `copy.remote`, `tcopy` (R305): with TY w64 the status arrives in a queue. -/
def State.natCommand (s : State) (k : NSlot) : Act :=
  match cmdForm k with
  | none => .go s
  | some (op, c, q, n) =>
    match build op q.ty q.md q.sx (List.range c) [] with
    | .error _ => .go s
    | .ok i =>
      s.viaSplit ((List.range c).map fun j => s.sarg (n.sa.toNat + j)) (fun t => t.engineCmd i) fun t _ =>
        if q.ty != 9 then t
        else
          let id := t.cp.nextCmd - 1
          let lq := n.dst.toNat - 120
          let u : State := { t with cp := { t.cp with cmds := t.cp.cmds.dropLast ++ (t.cp.cmds.getLast?.map fun (x : CopyCmd) => { x with lq := some lq }).toList } }
          u.uniform lq .w64 0 (some id)

/-- What an instruction of the residency group leaves. -/
def outState (o : Out) (s : State) : State :=
  match o with
  | .next t => t
  | _ => s

/-- `rpitch` (R305): the handle arrives in a queue. -/
def State.natPitch (s : State) (n : NOp) (q : Qual) : Act :=
  let args := (List.range (pitchOps q)).map fun j => s.sarg (n.sa.toNat + j)
  let lq := n.dst.toNat - 120
  if q.sx = 16 then s.viaSplit args (fun t => outState (execResPitchRefill 0 t) t) fun t _ => t
  else if q.sx = 8 then s.viaSplit args (fun t => outState (execResPitchAttach 0 t) t) fun t v => t.uniform lq .rhandle v.nat none
  else s.viaSplit args (fun t => outState (execResPitch ((Scope.ofCode q.sx).getD .sys) 0 1 2 3 4 5 t) t) fun t v =>
    t.uniform lq .rhandle v.nat none

/-- `rstrike` (R308). -/
def State.natStrike (s : State) (n : NOp) (q : Qual) : Act :=
  let by_ := q.sx = 1
  let args := [s.sarg n.sa.toNat]
  match q.var with
  | some 0 => s.viaSplit args (fun t => outState (execResStrike by_ 0 t) t) fun t _ => t
  | some 1 => s.viaSplit args (fun t => outState (execResPin by_ 0 t) t) fun t _ => t
  | some 2 => s.viaSplit args (fun t => outState (execResUnpin by_ 0 t) t) fun t _ => t
  | _ => s.viaSplit args (fun t => outState (execResQuery by_ 0 t) t) fun t v => t.uniform (n.dst.toNat - 120) .w32 v.nat none

/-- Guard of an operation. -/
def Instr.nop : Instr → Option NOp
  | .natMma n | .natMmar n | .natAccn n | .natTcopy n | .natCopy n | .ovl n | .natRpitch n | .natRstrike n | .natAcci n
  | .natBr n | .natBrc n | .brsw n | .natCall n | .natRet n | .ifence n | .join n | .natExit n | .natTrap n | .bwait n
  | .barr n | .srd n | .natYield n | .point n | .sadd n | .smov n | .scmp n => some n
  | _ => none

/-- Queue entries that a slot appends at issue, and their queue: a load's elements, an atomic's old values, a status, a handle, a query word (R272, R301, R305, R308). -/
def NSlot.entries (k : NSlot) : Option (Nat × Nat) :=
  let one (n : NOp) (on : Bool) : Option (Nat × Nat) := if on && 120 ≤ n.dst.toNat then some (n.dst.toNat - 120, 1) else none
  match k.op with
  | .natCopy n | .natTcopy n => one n ((k.q dCmd).ty = 9)
  | .natRpitch n => one n ((k.q dPitch).sx != 16)
  | .natRstrike n => one n ((k.q dStrike).var = some 3)
  | _ => k.appends

/-- Guard number of a slot. -/
def NSlot.gd (k : NSlot) : Nat := ((Instr.nop k.op).map fun n => n.gd.toNat).getD 0

/-- The effect of a legal X slot. -/
def State.actX (s : State) (k : NSlot) : Act :=
  if !s.once k.gd then .go s
  else match k.op with
    | .natMma n => s.natMultiply n (k.q dMma) false
    | .natMmar n => s.natMultiply n (k.q dMma) true
    | .natAccn n => s.natNorm n
    | .natTcopy _ | .natCopy _ => s.natCommand k
    | .ovl n => .go (s.ovlCmd (s.sp.scalar n.sa.toNat) (s.sp.scalar n.sb.toNat))
    | .natRpitch n => s.natPitch n (k.q dPitch)
    | .natRstrike n => s.natStrike n (k.q dStrike)
    | .natAcci n => s.runAcci n (k.q dAcc)
    | _ => .go s

/-- An X slot: an illegal one is a machine fault. -/
def State.runX (s : State) (k : NSlot) : State := if s.okX k then s.finish (s.actX k) else s.illBundle

def execNatMma (n : NOp) (s : State) : Out := .next (s.runX (s.slot (.natMma n)))
def execNatMmar (n : NOp) (s : State) : Out := .next (s.runX (s.slot (.natMmar n)))
def execNatAccn (n : NOp) (s : State) : Out := .next (s.runX (s.slot (.natAccn n)))
def execNatTcopy (n : NOp) (s : State) : Out := .next (s.runX (s.slot (.natTcopy n)))
def execNatCopy (n : NOp) (s : State) : Out := .next (s.runX (s.slot (.natCopy n)))
def execOvl (n : NOp) (s : State) : Out := .next (s.runX (s.slot (.ovl n)))
def execNatRpitch (n : NOp) (s : State) : Out := .next (s.runX (s.slot (.natRpitch n)))
def execNatRstrike (n : NOp) (s : State) : Out := .next (s.runX (s.slot (.natRstrike n)))
def execNatAcci (n : NOp) (s : State) : Out := .next (s.runX (s.slot (.natAcci n)))

/-! ### The P slot (11 R277, R278) -/

/-- Element number that a lane uses on a bank and row: column (l + 32 CO) mod 128. -/
def portEl (bank row co l : Nat) : Nat := 128 * (32 * (bank % 4) + row) + (l + 32 * co) % 128

/-- Whether a P syllable is legal: ports enabled, quad, banks of the grant, unused fields, one port for each bank. -/
def State.okP (s : State) (re we : Bool) (p : POp) : Bool :=
  let bank (b : BitVec 4) : Bool := b.toNat / 4 < s.tr.tiles
  p.kq.toNat < 30 && 4 * p.kq.toNat + 4 ≤ s.tr.budget &&
  (if re then bank p.rb else p.rb = 0 && p.rr = 0) && (if we then bank p.wb else p.wb = 0 && p.wr = 0) &&
  !(re && we && p.rb = p.wb)

/-- Register j of a quad in a lane. -/
def State.quad (s : State) (i : Nat) (p : POp) : Nat :=
  ((List.range 4).map fun j => 2 ^ (32 * j) * ((s.tr.lane i).reg (4 * p.kq.toNat + j)).toNat).sum

/-- The read port: images into the quad at latency 3. -/
def State.portRead (s : State) (p : POp) : State :=
  let a := s.groupRef (p.rb.toNat / 4)
  let t := s.accTile a
  let im (l : Nat) : Nat := (s.elemSeen a t (portEl p.rb.toNat p.rr.toNat p.co.toNat l)).toNat
  let ls := lanesOf s.tr.width (s.adm p.gd.toNat)
  s.fly ((List.range 4).map fun j =>
    ⟨3, .reg (4 * p.kq.toNat + j), ls.map fun l => (l, BitVec.ofNat 32 (im l / 2 ^ (32 * j)))⟩)

/-- The write port: the quad as read at issue, at the end of the bundle, the highest lane last; on a rope tile at POS 0 alone. -/
def State.portWrite (s : State) (p : POp) : State :=
  let a := s.groupRef (p.wb.toNat / 4)
  if !s.tr.changes a then s
  else
    let ls := lanesOf s.tr.width (s.adm p.gd.toNat)
    let els := ls.map fun l => (portEl p.wb.toNat p.wr.toNat p.co.toNat l, AccEl.ofNat (s.quad l p))
    { s with sp := { s.sp with pw := s.sp.pw ++ [⟨1, a.val.nat, none, els⟩] } }

/-- A P slot: an illegal one is a machine fault. -/
def State.runP (s : State) (re we : Bool) (p : POp) : State :=
  if !s.okP re we p then s.illBundle
  else
    let s1 := if we then s.portWrite p else s
    (if re then s1.portRead p else s1).slotDone

def execPrd (p : POp) (s : State) : Out := .next (s.runP true false p)
def execPwr (p : POp) (s : State) : Out := .next (s.runP false true p)
def execPrdPwr (p : POp) (s : State) : Out := .next (s.runP true true p)

end Sys2Proof.Machine
end

