-- ==== Sys2Proof/Machine/Xret.lean ====
section
/-! DEFINITION. Return from an exception (08 R207, 18 R399, R402). -/

namespace Sys2Proof.Machine

/-- Results of a skipped instruction that continue an operand: the acc operand of a consumer, the carried values of a stream loop. -/
def skipKeeps : Instr → List Val
  | .mma _ _ _ a _ _ | .mmaRes _ _ _ a _ _ _ | .accNorm a | .accWr _ _ a _ _ _ | .accWrWord _ a _ _ _ => [a]
  | _ => []

/-- Types of the results of a skipped instruction, carried values taking those of their operands. -/
def skipTys (rt : Nat → List Ty) (l : Lane) : Instr → List Ty
  | .sloop _ _ _ vs | .sloopEnd vs => vs.map fun v => (l.val v).ty
  | i => i.resTys rt

/-- Defines what a skipped instruction leaves: an acc chain goes on, any other result is all zero. -/
def Lane.skip (l : Lane) (rt : Nat → List Ty) (dst : Nat) (i : Instr) : Lane :=
  match skipKeeps i with
  | a :: _ => l.define dst (l.val a)
  | [] => l.zeros dst (skipTys rt l i)

/-- A skipped `acc.init` names its tile and sets it to the all-zero image, on a rope tile only at POS 0. -/
def State.skipInit (s : State) (slot : Nat) (dst : Nat) : State :=
  let a : AccRef := ⟨slot, s.tr.ropeNow⟩
  let t : Tile := ⟨if a.rope.isSome then 0 else s.tr.mem, a.rope, a.slot, AccEl.zero, []⟩
  let s1 := if s.tr.changes a then s.putTile a t else s
  { s1 with tr := { s1.tr with lanes := onLanes s1.sp.mask (fun _ l => l.define dst a.val) s1.tr.lanes } }

/-- Goes past the instruction at the split's position without its effect. -/
def State.skipHere (s : State) : State :=
  match s.itemAt s.sp.mh s.sp.func s.sp.off with
  | some ⟨off, len, dst, .instr (.accInit k _ _)⟩ =>
    let s1 := s.skipInit k.val dst
    { s1 with sp := { s1.sp with off := off + 4 * len } }
  | some ⟨off, len, dst, .instr i⟩ =>
    { s with
      tr := { s.tr with lanes := onLanes s.sp.mask (fun _ l => l.skip (s.rtypes s.sp.mh) dst i) s.tr.lanes }
      sp := { s.sp with off := off + 4 * len } }
  | some ⟨off, len, _, .block _⟩ => { s with sp := { s.sp with off := off + 4 * len } }
  | none => s

/-- The split stands in portable code at its position: a native one leaves its registers. -/
def State.toPortable (s : State) : State :=
  if s.sp.nat.isSome then s.unmap (s.locsAt s.sp.func s.sp.off) else s

/-- RETURN FROM EXCEPTION, next form: after a late trap the instruction at XPC has yet to issue (18 R404). -/
def State.nextTrap (s : State) (x : Sup) : State :=
  let s1 := s.resumeTrap x
  if x.cause.getLsbD 11 then s1 else s1.toPortable.skipHere

/-- `xret` (R207): PRIV in user mode; a form that the cause does not allow raises the cause again. -/
def State.xret (s : State) (next : Bool) : State :=
  match s.sp.sup with
  | none => s.priv 0xF4 (boolN next)
  | some x =>
    if next then (if x.cause.getLsbD 10 then s.nextTrap x else s.raiseAgain x)
    else if x.cause.getLsbD 9 then s.retryTrap x else s.raiseAgain x

/-- `xret.retry`. -/
def execXretRetry (s : State) : Out := .next (s.xret false)

/-- `xret.next`. -/
def execXretNext (s : State) : Out := .next (s.xret true)

end Sys2Proof.Machine
end

