-- ==== Sys2Proof/Machine/Yield.lean ====
section
/-! DEFINITION. `yield` (08 R206, 13 R326, R327). -/

namespace Sys2Proof.Machine

/-- Whether a region or an ancestor is suspended (14 R358). -/
def State.isSuspended (s : State) (l : Launch) : Bool := s.suspended.any fun n => inPath n l.path

/-- The cap in force in tenths of a W (14 R351). -/
def State.capNow (s : State) : Nat :=
  if s.floor then min 19000 ((s.tenants.map fun t => (s.rcbAt t.root).floorE).sum) else 10 * s.cap

/-- Whether a camp waits for a place. -/
def State.waiting (s : State) (c : Camp) : Bool :=
  s.ember = .running && !s.isSuspended (s.launch c.ref.lid) &&
  (!c.shed || s.power < 90 * s.capNow) && match c.place with
    | .queued | .packed | .image _ => true
    | _ => false

/-- Whether a camp waits to be placed on a core: queued, packed, or held as an image that the core's kind can run. -/
def State.waitsFor (s : State) (k : CoreId) (c : Camp) : Bool :=
  s.waiting c && match c.place with
    | .image j => dieKind j.die = dieKind k.die
    | _ => true

/-- Whether a ready camp of equal or higher effective priority waits for the focused camp's core. -/
def State.offerTaken (s : State) : Bool :=
  s.camps.any fun c => s.waitsFor s.cp.core c && effPrio s.lch.path ≤ effPrio (s.launch c.ref.lid).path

/-- Asks for the focused camp to be taken off its core, and with it every camp of a COHORT launch (02 R48). -/
def State.takeoffs (s : State) : State :=
  let s1 := s.push (.campTakeoff s.cp.ref)
  if s.lch.cohort then
    (s1.camps.filter fun c => c.ref.lid = s.cp.ref.lid && c.resident).foldl (fun t c => t.push (.campTakeoff c.ref)) s1
  else s1

/-- The executing split goes to the end of its core's waiting order. -/
def State.backOfLine (s : State) : State :=
  { s with sp := { s.sp with aged := false, yielded := false, issued := (s.coreOf s.cp.core).issues } }

/-- `yield`: the camp is taken off, or the split goes on with a result. -/
def State.yieldAs (s : State) (k : State → Bool → State) : State :=
  if s.sup then s.priv 0xF3 0
  else if s.sp.yielded then k s.backOfLine true
  else if s.offerTaken then { s with sp := { s.sp with yielded := true } }.takeoffs
  else k s.backOfLine false

/-- `yield`. -/
def execYield (s : State) : Out := .next (s.yieldAs fun t b => t.defB1 b)

end Sys2Proof.Machine
end

