-- ==== Sys2Proof/Machine/NatCtl.lean ====
section
/-! DEFINITION. The C slot of native code (12 R309 to R317, 11 R275, R284). -/

namespace Sys2Proof.Machine

/-! ### Fields -/

/-- Target of a branch syllable in bytes (R309). -/
def branchTarget (n : NOp) : Nat := 4 * (n.dst.toNat * 2 ^ 14 + n.sa.toNat * 2 ^ 7 + n.sb.toNat)

/-- An even guard g2 to g14. -/
def evenGuard (g : BitVec 7) : Bool := 2 ≤ g.toNat && g.toNat ≤ 14 && g.toNat % 2 = 0

/-- Default qualifiers of the C slot (R313 to R317). -/
def dZero : Qual := ⟨0, 0, 0, 0⟩
def dWait : Qual := ⟨0, 0, 0, 2 ^ 12⟩
def dSrd : Qual := ⟨8, 0, 0, 0⟩
def dScalar : Qual := ⟨9, 0, 0, 0⟩

/-- Variant of a barrier or trap slot: AUX[13:12]. -/
def Qual.v (q : Qual) : Nat := fld q.aux 12 2

/-- The fields that an operation without operands leaves zero. -/
def plain (n : NOp) : Bool := n.dst = 0 && n.sa = 0 && n.sb = 0

/-- Literal i of a slot, zero when it has none. -/
def NSlot.lit (k : NSlot) (i : Nat) : Nat := (k.lits[i]?).getD 0

/-- Whether every value literal is below a bound. -/
def NSlot.litsBelow (k : NSlot) (b : Nat) : Bool := k.lits.all fun w => w < b

/-- Whether a slot that must have GD = 0 and no qualifier has them. -/
def NSlot.bare (k : NSlot) (n : NOp) : Bool := k.qual.isNone && n.gd = 0

/-- Base of a section that `srd` numbers 0x10 to 0x12 read (R315). -/
def State.moduleBase (s : State) (i : Nat) : Nat :=
  match s.module? s.sp.mh with
  | some m => (if i = 0 then m.dbase else if i = 1 then m.cbase else m.tbase).toNat
  | none => 0

/-- Legal fields of `srd`. -/
def State.okSrd (s : State) (n : NOp) (q : Qual) : Bool :=
  let a := n.sa.toNat
  if q.aux = 2 ^ 13 then
    n.dst = 0 &&
    (if a = 0x0E then q.ty = 8 && q.md = 0 && q.sx = 0 && s.okSrc n.sb.toNat false
     else q.sx = 0 && fieldsOk 0xF1 q.ty q.md 1 a && s.okSrc n.sb.toNat q.wide)
  else
    q.aux = 0 && n.sb = 0 && s.okDst n.dst.toNat q.wide &&
    (if 0x10 ≤ a && a ≤ 0x12 then q.ty = 9 && q.md = 0 && q.sx = 0
     else fieldsOk 0xF0 q.ty q.md 0 a && (q.sx = 0 || (q.sx = 1 && a = 6)))

/-- Whether AUX and the two sources of a scalar operation are legal: ZA with SA 0, IB with SB 0 (R291, R317). -/
def okScalars (n : NOp) (q : Qual) : Bool :=
  fld q.aux 0 12 = 0 && (if q.za then n.sa = 0 else n.sa.toNat < 32) && (if q.ib then n.sb = 0 else n.sb.toNat < 32)

/-- Whether s(DST), s(SA), s(SB) and AUX of `sadd` are legal (R317). -/
def okSadd (n : NOp) (q : Qual) : Bool := q.ty = 9 && q.md = 0 && q.sx ≤ 5 && n.dst.toNat < 32 && okScalars n q

/-- Legal fields of `smov`: its first source, a scalar or a register, may read as zero (R291, R317). -/
def State.okSmov (s : State) (n : NOp) (q : Qual) : Bool :=
  q.md = 0 && n.sb = 0 && n.dst.toNat < 32 &&
  (match q.sx with
   | 0 => q.ty = 9 && (if q.aux = 2 ^ 13 then n.sa = 0 else q.aux = 0 && n.sa.toNat < 32)
   | 1 => cV q.ty && (if q.aux = 2 ^ 13 then n.sa = 0 else q.aux = 0 && s.okSrc n.sa.toNat q.wide)
   | 2 => q.ty = 9 && q.aux = 0 && n.sa = 0
   | _ => false)

/-- Legal fields of `scmp` (R317). -/
def okScmp (n : NOp) (q : Qual) : Bool :=
  (q.ty = 5 || q.ty = 9 || q.ty = 14) && fieldsOk 0x2B q.ty q.md 2 q.sx && evenGuard n.dst && okScalars n q

/-- Whether a C slot is legal. -/
def State.okC (s : State) (k : NSlot) : Bool :=
  let sc (r : BitVec 7) : Bool := r.toNat < 32
  match k.op with
  | .natBr n => k.bare n
  | .natBrc _ => k.qual.isNone && k.litsBelow (2 ^ 21)
  | .brsw n => k.bare n && k.litsBelow (2 ^ 24)
  | .natCall n => k.bare n && plain n && k.lit 0 < 2 ^ 28 && k.lit 1 < 2 ^ 24
  | .natRet n | .join n | .point n => k.bare n && plain n
  | .ifence n => k.bare n && evenGuard n.dst && sc n.sa && n.sb = 0 && k.litsBelow (2 ^ 24)
  | .natExit n => k.qual.isNone && plain n
  | .natTrap n =>
    let q := k.q dZero
    plain n && fld q.aux 0 12 = 0 && q.ty = 0 && q.md = 0 &&
    (match q.v with
     | 0 => q.sx < 256
     | 1 => q.sx = 0
     | 2 => q.sx ≤ 1
     | _ => 1 ≤ q.sx)
  | .barr n =>
    let q := k.q dZero
    fld q.aux 0 12 = 0 && sc n.sa && sc n.sb && q.ty = 0 && q.md = 0 &&
    (if q.v = 3 then q.sx ≤ 5 else q.sx = 0) && (n.dst = 0 || (q.v = 0 && evenGuard n.dst))
  | .bwait n =>
    let q := k.q dWait
    fld q.aux 0 12 = 0 && sc n.sa && q.ty = 0 && q.md = 0 && q.sx = 0 &&
    (match q.v with
     | 0 => n.sb.toNat < 16 && n.dst = 0
     | 1 => n.sb = 0 && n.dst = 0
     | 2 => n.sb.toNat < 16 && evenGuard n.dst
     | _ => false)
  | .srd n => s.okSrd n (k.q dSrd)
  | .natYield n => k.qual.isNone && evenGuard n.dst && n.sa = 0 && n.sb = 0
  | .sadd n => okSadd n (k.q dScalar)
  | .smov n => s.okSmov n (k.q dScalar)
  | .scmp n => k.qual.isSome && okScmp n (k.q dScalar)
  | _ => false

/-- Whether an operation branches at the end of its delay bundle (11 R275). -/
def branches : Instr → Bool
  | .natBr _ | .natBrc _ | .brsw _ | .natCall _ | .natRet _ => true
  | _ => false

/-! ### Effects -/

/-- Waits for the first of the entries that has not landed (11 R272). -/
def State.awaitEntries (s : State) (es : List QEnt) : State :=
  match es.find? fun e => !e.landed with
  | some e => match e.cmd, e.reqs with
    | some c, _ => { s with sp := { s.sp with st := .command c } }
    | none, r :: _ => { s with sp := { s.sp with st := .peer r } }
    | none, [] => s
  | none => s

/-- The branch that the bundle in progress will take. -/
def State.setBr (s : State) (b : NBr) : State := { s with bnd := s.bnd.map fun x => { x with br := some b } }

/-- A uniform result for a guard and its complement, at latency 1. -/
def State.flyGuard (s : State) (g : Nat) (b : Bool) : State :=
  s.fly (guardFlights 1 g ((lanesOf s.tr.width s.sp.mask).map fun i => (i, b)))

/-- `ifence`: it waits while the bank loads, before its bundle issues. -/
def State.natIfence (s : State) (k : NSlot) (n : NOp) : Act :=
  if s.otherLoading && s.bnd.isNone then .stop s
  else
    let f := if n.sa = 0 then s.sp.func else s.sp.scalar n.sa.toNat % 2 ^ 16
    .go (s.flyGuard n.dst.toNat (s.otherHolds f (k.lit 0)).isSome)

/-- `call` (R312): the link is written at the call. -/
def State.natCall (s : State) (k : NSlot) : Act :=
  let f := k.lit 0 / 2 ^ 12
  let ret := k.lit 1
  let nfp := s.sp.fp + 16 * (k.lit 0 % 2 ^ 12)
  let link := linkWord s.sp.fp s.sp.func ret s.tr.budget s.tr.tiles
  if s.frameLimit < nfp + s.frameOf s.sp.mh f then .stop (s.frameTrap nfp)
  else match s.frameReady nfp 16 with
    | .done t => .stop t
    | .go t _ => .go ((t.frameStore (t.linkWrites nfp link)).setBr (.call f ret nfp))

/-- What precedes the exit of lanes: in user mode the reports of 18 R407. -/
def State.leaving (s : State) (m : Mask) (k : State → Act) : Act :=
  if s.sup then k s
  else match s.gate m with
    | some t => .stop t
    | none => k s

/-- The branch of `ret` from the link at s31. -/
def State.retFrom (s : State) : Act :=
  let w := s.frameRead s.lead (s.sp.fp + 8) 8
  let up := s.frameRead s.lead s.sp.fp 8
  if w % 2 ^ 24 = 0xFFFFFF then s.leaving s.sp.mask fun t => .go (t.setBr (.ret up none))
  else .go (s.setBr (.ret up (some w)))

/-- `ret` (R312). -/
def State.natRet (s : State) : Act :=
  if s.sup then s.retFrom
  else match s.prepare ⟨8, 2, 8, needR, 3⟩ ((lanesOf s.tr.width s.sp.mask).map fun l => (l, privVa s.sp.fp)) with
    | .done t => .stop t
    | .go t _ => t.retFrom

/-- `join` (R310): a split whose group joins at this bundle waits; where the bundle begins a point it waits there in portable form. -/
def State.natJoinHere (s : State) : Act :=
  match s.sp.nat, s.tr.group? s.sp.group with
  | some p, some g =>
    if g.nat = some p.off && g.mh = s.sp.mh && g.func = s.sp.func && g.depth = depthKey s.sup (s.tr.depth s.sp.mask) then
      match s.natEntry.bind fun e => e.pointOf p.off with
      | some q =>
        if s.sp.lq.any fun e => !e.2.landed then .stop (s.awaitEntries (s.sp.lq.map Prod.snd))
        else
          let t : State := { s with sp := { s.sp with off := q.pos } }
          let u := t.unmap q.locs
          .stop ({ u with sp := { u.sp with st := .join } }).settle
      | none => .stop ({ s with sp := { s.sp with st := .join } }).settle
    else .go s
  | _, _ => .go s

/-- Some lanes of a handler leave; the trap area goes with the last. -/
def State.supLeave (s : State) (m : Mask) : State :=
  if s.sp.mask &&& ~~~m = 0 then s.supExit
  else
    let bits := s.tr.reportBits m
    let reason := if bits &&& fAS != 0 then cHEADROOM else cSTICKY
    (if bits = 0 then s
     else s.postLeaf s.cp.ref.lid 0x06 reason s.src (s.evBody 0 s.sp.func s.sp.off bits.toNat)).leaveLanes m

/-- `exit` (R313). -/
def State.natExit (s : State) (n : NOp) : Act :=
  let m := s.adm n.gd.toNat
  if m = 0 then .go s
  else s.leaving m fun t => .go (if t.sup then t.supLeave m else t.leaveLanes m)

/-- `trap` in its four forms (R313). -/
def State.natTrap (s : State) (q : Qual) : Act :=
  match q.v with
  | 0 => .stop (s.trapAll cTRAP (BitVec.ofNat 64 q.sx))
  | 1 =>
    if s.attached && !s.sup && !s.sp.passBrk then .stop (s.stopHere .brk)
    else .go { s with sp := { s.sp with passBrk := false } }
  | 2 => .stop (s.xret (q.sx = 1))
  | _ => .stop (s.trapAll cBRX (BitVec.ofNat 64 q.sx))

/-! ### Barriers (R314) -/

/-- A portable barrier instruction on scalars: it goes on when the portable one does. -/
def State.natBarrier (s : State) (n : NOp) (b : TVal) (run : State → Out) (k : State → TVal → State) : Act :=
  s.viaSplit [⟨.barref, BitVec.ofNat 64 (s.sp.scalar n.sa.toNat)⟩, b] (fun t => outState (run t) t) k

/-- Leaves the phase of an arrival in a guard pair. -/
def State.phaseTo (s : State) (n : NOp) (b : Bool) : State := if n.dst = 0 then s else s.flyGuard n.dst.toNat b

/-- A wait whose phase may have been reached already. -/
def State.natWait (s : State) (a : Nat) (now ref : Bool) : Act :=
  if now != ref then .go s.acquired
  else .stop { s with sp := { s.sp with st := .barrier (BitVec.ofNat 64 a) ref, word := none } }

/-- `barr`: arrivals and `bar.init`. -/
def State.natBarr (s : State) (n : NOp) (q : Qual) : Act :=
  let a := s.sp.scalar n.sa.toNat
  let e : TVal := ⟨.w32, BitVec.ofNat 64 (s.sp.scalar n.sb.toNat % 2 ^ 32)⟩
  if s.sp.arrived then .go s
  else match s.sp.word, q.v with
    | some _, 3 => .go s
    | some w, 0 => .go ((s.noteArrival a (fld w 63 1 = 1)).phaseTo n (fld w 63 1 = 1))
    | some w, _ => (s.noteArrival a (fld w 63 1 = 1)).natWait a (fld w 63 1 = 1) (fld w 63 1 = 1)
    | none, 0 => s.natBarrier n e (execBarArrive 0 (some 1)) fun t v => t.phaseTo n (v.nat % 2 = 1)
    | none, 1 => s.natBarrier n e (execBarSync 0 (some 1)) fun t _ => t
    | none, 2 => s.natBarrier n e (execStepSync 0 (some 1)) fun t _ => t
    | none, _ => s.natBarrier n e (execBarInit ((Scope.ofCode q.sx).getD .sys) 0 1) fun t _ => t

/-- `bwait`: waits and `bar.try`. -/
def State.natBwait (s : State) (n : NOp) (q : Qual) : Act :=
  let a := s.sp.scalar n.sa.toNat
  let ph := (s.tr.lane ((lanesOf s.tr.width (s.adm n.gd.toNat)).headD 0)).guard n.sb.toNat
  let on (w : Nat) : Bool := fld w 63 1 = 1
  let last (now : Bool) : Bool := s.refPhase a none now
  if s.sp.arrived then .go s
  else match s.sp.word, q.v with
    | some w, 0 => s.natWait a (on w) ph
    | some w, 1 => s.natWait a (on w) (last (on w))
    | some w, _ => .go ((if on w != ph then s.acquired else s).flyGuard n.dst.toNat (on w != ph))
    | none, 0 => s.natBarrier n (mkB ph) (execBarWait 0 (some 1)) fun t _ => t
    | none, 1 => s.natBarrier n (mkB ph) (execBarWait 0 none) fun t _ => t
    | none, _ => s.natBarrier n (mkB ph) (execBarTry 0 1) fun t v => t.flyGuard n.dst.toNat (v.nat % 2 = 1)

/-! ### Registers and scalars (R315, R317) -/

/-- `srd`, the reading form. -/
def State.srdRead (s : State) (n : NOp) (q : Qual) : Act :=
  let a := n.sa.toNat
  let ls := lanesOf s.tr.width s.sp.mask
  let give (t : State) (f : Nat → Nat) : State := t.fly (regFlights 1 n.dst.toNat q.wide (ls.map fun i => (i, f i)))
  if 0x10 ≤ a && a ≤ 0x12 then .go (give s fun _ => s.moduleBase (a - 0x10))
  else if q.sx = 1 then
    match s.fenceWait .sc s.sp.mask with
    | some t => .stop t
    | none => .go (give (s.takeStamp s.fenceStamp) fun _ => s.fenceStamp.toNat)
  else match SysReg.ofCode a with
    | some r => .go (give s fun i => s.sysReg r i)
    | none => .go s

/-- `srd`, the writing form. -/
def State.srdWrite (s : State) (n : NOp) (q : Qual) : Act :=
  let m := s.adm n.gd.toNat
  let a := n.sa.toNat
  let args (i : Nat) : List TVal := [⟨q.type, BitVec.ofNat 64 (s.src? i n.sb.toNat q.wide)⟩]
  if m = 0 then .go s
  else if a = 0x0E then .go (s.viaLanes m args (execOpReq 0)).1
  else if !s.sup then .stop (s.priv 0xF1 a)
  else .go (s.viaLanes m args (if a = 0x0A then execSysWrXstat 0 else execSysWrStubv 0)).1

/-- Scalar arithmetic (R317). -/
def scalarOp (sx a b : Nat) : Nat :=
  match sx with
  | 0 => (a + b) % 2 ^ 64
  | 1 => (a + 2 ^ 64 - b % 2 ^ 64) % 2 ^ 64
  | 2 => if 64 ≤ b then 0 else a * 2 ^ b % 2 ^ 64
  | 3 => a ||| b
  | 4 => a &&& b
  | _ => if 64 ≤ b then 0 else a / 2 ^ b

/-- First scalar operand: s(SA), or zero with ZA. -/
def State.scalarA (s : State) (n : NOp) (q : Qual) : Nat := if q.za then 0 else s.sp.scalar n.sa.toNat

/-- Second scalar operand: s(SB), or two literals with IB. -/
def State.scalarB (s : State) (k : NSlot) (n : NOp) (q : Qual) : Nat := if q.ib then litVal k.lits else s.sp.scalar n.sb.toNat

def State.natSmov (s : State) (k : NSlot) (n : NOp) (q : Qual) : State :=
  match q.sx with
  | 0 => s.fly [scalarFlight 1 n.dst.toNat (s.scalarA n q)]
  | 1 => match (lanesOf s.tr.width (s.adm n.gd.toNat)).head? with
    | some i => s.fly [scalarFlight 1 n.dst.toNat (if q.za then 0 else s.src? i n.sa.toNat q.wide)]
    | none => s
  | _ => s.fly [scalarFlight 1 n.dst.toNat (litVal k.lits)]

/-- `scmp`: one comparison for the split, through the portable `cmp`. -/
def State.natScmp (s : State) (k : NSlot) (n : NOp) (q : Qual) : State :=
  let args : List TVal := [mkVal q.type (s.scalarA n q), mkVal q.type (s.scalarB k n q)]
  let r := s.viaLanes s.sp.mask (fun _ => args) (execCmp q.type ((Cc.ofCode q.md).getD .eq) 0 1)
  s.flyGuard n.dst.toNat ((r.2.head?.map fun (v : Nat × TVal) => decide (v.2.nat % 2 = 1)).getD false)

/-! ### The slot -/

/-- The effect of a legal C slot (R290: `brc`, `exit` and the write form of `srd` look at the guard lane by lane). -/
def State.actC (s : State) (k : NSlot) : Act :=
  match k.op with
  | .natBr n => .go (s.setBr (.go (branchTarget n)))
  | .natBrc n =>
    .go (s.setBr (.cond (branchTarget n) (s.adm n.gd.toNat) (if k.lit 0 = 0x1FFFFF then none else some (4 * k.lit 0))))
  | .brsw n => .go (s.setBr (.sw (branchTarget n) (k.lit 0) (k.lit 1)))
  | .natCall _ => s.natCall k
  | .natRet _ => s.natRet
  | .ifence n => s.natIfence k n
  | .join _ => s.natJoinHere
  | .natExit n => s.natExit n
  | .point _ =>
    if s.bnd.isSome || s.sp.lq.all fun e => e.2.landed then .go s else .stop (s.awaitEntries (s.sp.lq.map Prod.snd))
  | .srd n =>
    let q := k.q dSrd
    if q.aux = 2 ^ 13 then s.srdWrite n q else if s.once n.gd.toNat then s.srdRead n q else .go s
  | .natTrap n => if s.once n.gd.toNat then s.natTrap (k.q dZero) else .go s
  | .barr n => if s.once n.gd.toNat then s.natBarr n (k.q dZero) else .go s
  | .bwait n => if s.once n.gd.toNat then s.natBwait n (k.q dWait) else .go s
  | .natYield n =>
    if !s.once n.gd.toNat then .go s
    else if s.sup || (!s.sp.yielded && s.offerTaken) then .stop (s.yieldAs fun t _ => t)
    else .go (s.yieldAs fun t b => t.flyGuard n.dst.toNat b)
  | .sadd n =>
    if s.once n.gd.toNat then
      .go (s.fly [scalarFlight 1 n.dst.toNat (scalarOp (k.q dScalar).sx (s.scalarA n (k.q dScalar)) (s.scalarB k n (k.q dScalar)))])
    else .go s
  | .smov n => if s.once n.gd.toNat then .go (s.natSmov k n (k.q dScalar)) else .go s
  | .scmp n => if s.once n.gd.toNat then .go (s.natScmp k n (k.q dScalar)) else .go s
  | _ => .go s

/-- A C slot: an illegal one is a machine fault. -/
def State.runC (s : State) (k : NSlot) : State := if s.okC k then s.finish (s.actC k) else s.illBundle

def execNatBr (n : NOp) (s : State) : Out := .next (s.runC (s.slot (.natBr n)))
def execNatBrc (n : NOp) (s : State) : Out := .next (s.runC (s.slot (.natBrc n)))
def execBrsw (n : NOp) (s : State) : Out := .next (s.runC (s.slot (.brsw n)))
def execNatCall (n : NOp) (s : State) : Out := .next (s.runC (s.slot (.natCall n)))
def execNatRet (n : NOp) (s : State) : Out := .next (s.runC (s.slot (.natRet n)))
def execIfence (n : NOp) (s : State) : Out := .next (s.runC (s.slot (.ifence n)))
def execJoin (n : NOp) (s : State) : Out := .next (s.runC (s.slot (.join n)))
def execNatExit (n : NOp) (s : State) : Out := .next (s.runC (s.slot (.natExit n)))
def execNatTrap (n : NOp) (s : State) : Out := .next (s.runC (s.slot (.natTrap n)))
def execBwait (n : NOp) (s : State) : Out := .next (s.runC (s.slot (.bwait n)))
def execBarr (n : NOp) (s : State) : Out := .next (s.runC (s.slot (.barr n)))
def execSrd (n : NOp) (s : State) : Out := .next (s.runC (s.slot (.srd n)))
def execNatYield (n : NOp) (s : State) : Out := .next (s.runC (s.slot (.natYield n)))
def execPoint (n : NOp) (s : State) : Out := .next (s.runC (s.slot (.point n)))
def execSadd (n : NOp) (s : State) : Out := .next (s.runC (s.slot (.sadd n)))
def execSmov (n : NOp) (s : State) : Out := .next (s.runC (s.slot (.smov n)))
def execScmp (n : NOp) (s : State) : Out := .next (s.runC (s.slot (.scmp n)))

end Sys2Proof.Machine
end

