-- ==== Sys2Proof/Machine/NatHeader.lean ====
section
/-! DEFINITION. Bundles: parsing, illegal bundles, issue (11 R265 to R280, 17 R384). -/

namespace Sys2Proof.Machine

/-! ### Syllables and literals (R265, R266, R269) -/

/-- Slot kinds of a template in their order, A0 to P. -/
def slotKinds (tm : Nat) : List Nat := (List.range 6).filter fun j => tm.testBit (5 - j)

/-- The slot of a kind. -/
def slotOf : Nat → Slot
  | 0 => .a0
  | 1 => .a1
  | 2 => .m
  | 3 => .x
  | 4 => .c
  | _ => .p

/-- Value literals that an operation claims under its qualifier (R269, 12 R291, R297, R300, R309, R317). -/
def valueLits (op : Instr) (qual : Option Nat) : Nat :=
  let q := (qual.map Qual.ofNat).getD ⟨0, 0, 0, 0⟩
  let ib := if qual.isSome && q.ib then (if q.wide then 2 else 1) else 0
  let off := if qual.isSome && q.off then 1 else 0
  match op with
  | .natMovi n => if n.q then 2 else 1
  | .natMov _ | .natCvt _ | .natLane _ => 0
  | .natIadd _ | .natIsub _ | .natImul _ | .natImad _ | .natAnd _ | .natOr _ | .natXor _ | .natShl _ | .natShr _ | .natSar _
  | .natMin _ | .natMax _ | .natSel _ | .natIcmp _ | .natFadd _ | .natFmul _ | .natFma _ | .natFmad _ | .natFcmp _
  | .natFmin _ | .natFmax _ | .natSfu _ => ib
  | .natLds _ | .natSts _ | .natLdg _ | .natStg _ | .natAtg _ | .natLdp _ | .natStp _ => off
  | .natBrc _ | .ifence _ => 1
  | .brsw _ | .natCall _ => 2
  | .sadd _ | .scmp _ => if qual.isSome && q.ib then 2 else 0
  | .smov _ => if qual.isSome && q.sx = 2 then 2 else 0
  | _ => 0

/-- Whether the syllable of a slot is qualified: P has no such bit, and Q selects the width of `movi`. -/
def qualified (kind w : Nat) (op : Instr) : Bool :=
  match op with
  | .natMovi _ => false
  | _ => kind != 5 && fld w 30 1 = 1

/-- Gives the literals to the slots in order; none when they do not add up. -/
def claim : List (Nat × Nat × Instr) → List Nat → Option (List NSlot)
  | [], [] => some []
  | [], _ :: _ => none
  | (k, w, op) :: r, ls =>
    let q := if qualified k w op then ls.head? else none
    let ls1 := if qualified k w op then ls.drop 1 else ls
    if qualified k w op && q.isNone then none
    else
      let n := valueLits op q
      if ls1.length < n then none
      else (claim r (ls1.drop n)).map fun ss => ⟨k, op, q, ls1.take n⟩ :: ss

/-- Decodes the syllables of a bundle's slots. -/
def syllables : List (Nat × Nat) → Option (List (Nat × Nat × Instr))
  | [] => some []
  | (k, w) :: r => match decodeSyl (slotOf k) w, syllables r with
    | some i, some is => some ((k, w, i) :: is)
    | _, _ => none

/-- Word of a bank's code at a byte offset; beyond the code it is zero. -/
def Bank.word (b : Bank) (o : Nat) : Nat := leNat ((List.range 4).map fun i => (b.code[o + i]?).getD 0)

/-- Bytes of a bundle. -/
def Hdr.bytes (h : Hdr) : Nat := 4 * (1 + (slotKinds h.tm.toNat).length + h.lc.toNat)

/-- Whether the stop bits of a header and its syllables are placed as R266 says. -/
def stopsOk (h : Hdr) (ws : List Nat) : Bool :=
  if ws.isEmpty then h.st
  else !h.st && (ws.dropLast.all fun w => fld w 31 1 = 0) && (ws.getLast?.all fun w => fld w 31 1 = 1)

/-- The slots of the bundle whose header stands at an offset of a bank; none when its encoding is illegal (R280). -/
def Bank.bundle (b : Bank) (die off : Nat) (h : Hdr) : Option (List NSlot) :=
  let ks := slotKinds h.tm.toNat
  let n := ks.length
  let ws := (List.range n).map fun i => b.word (off + 4 * (1 + i))
  let ls := (List.range h.lc.toNat).map fun i => b.word (off + 4 * (1 + n + i))
  if bankBytes die < off + Hdr.bytes h || !stopsOk h ws || (6 ≤ die && ks.contains 1) || h.lc = 3 then none
  else (syllables (ks.zip ws)).bind fun ss => claim ss ls

/-! ### Legality on the troop (R280) -/

/-- Whether a slot is legal. -/
def State.okSlot (s : State) (k : NSlot) : Bool :=
  match k.kind, k.op with
  | _, .prd p => s.okP true false p
  | _, .pwr p => s.okP false true p
  | _, .prdPwr p => s.okP true true p
  | 2, _ => s.okM k
  | 3, _ => s.okX k
  | 4, _ => s.okC k
  | _, _ => s.okA k

/-- Banks that a P slot accesses. -/
def portBanks : Instr → List Nat
  | .prd p => [p.rb.toNat]
  | .pwr p => [p.wb.toNat]
  | .prdPwr p => [p.rb.toNat, p.wb.toNat]
  | _ => []

/-- Tile group that an X slot names. -/
def NSlot.bankOf (k : NSlot) : Option Nat :=
  match k.op with
  | .natMma n | .natMmar n | .natAccn n => some (bankGroup n)
  | .natAcci n => if (k.q dAcc).v = 0 then some (bankGroup n) else none
  | _ => none

/-- Whether a P port and the X slot meet in a bank (R278). -/
def clash (ss : List NSlot) : Bool :=
  ss.any fun p => (portBanks p.op).any fun b => ss.any fun x => x.bankOf = some (b / 4)

/-- Whether the slots of a bundle may issue on the split. -/
def State.okBundle (s : State) (ss : List NSlot) : Bool :=
  ss.all s.okSlot && !clash ss && !((s.sp.nat.any fun p => p.pend.isSome) && ss.any fun k => branches k.op)

/-! ### What a bundle waits for (R272) -/

/-- Latches among register numbers. -/
def latchesOf (rs : List Nat) : List Nat := (rs.filter fun r => 120 ≤ r).map fun r => r - 120

/-- Queues whose heads a slot reads. -/
def NSlot.latches (k : NSlot) : List Nat :=
  match k.op with
  | .natMov n => if (k.q dW32).sx = 0 then latchesOf [n.sa.toNat] else []
  | .natCvt n => match accCvt (k.q dI32) with
    | some true => latchesOf [n.sa.toNat, n.sb.toNat]
    | some false => latchesOf [n.sa.toNat]
    | none => latchesOf [n.sa.toNat]
  | .natLds n | .natLdg n | .natLdp n | .natSts n | .natStg n | .natStp n | .natPrf n | .natFnc n => latchesOf [n.sa.toNat, n.sb.toNat]
  | .natAtg n => latchesOf [n.sa.toNat, n.sb.toNat, (k.q dMem).aux]
  | .smov n => if (k.q dScalar).sx = 1 then latchesOf [n.sa.toNat] else []
  | .srd n => if (k.q dSrd).aux = 2 ^ 13 then latchesOf [n.sb.toNat] else []
  | _ => if k.kind ≤ 1 then
      (match aPlan k 0 with
       | some p => latchesOf (p.args.filterMap fun a => match a with
          | .reg r _ => some r
          | _ => none)
       | none => [])
    else []

/-- The queues whose heads must have landed: those read and those popped. -/
def heads (h : Hdr) (ss : List NSlot) : List Nat :=
  ((List.range 8).filter fun q => h.pm.getLsbD q) ++ ss.flatMap NSlot.latches

/-- Waits until the heads have landed; none when they have. -/
def State.headWait (s : State) (qs : List Nat) : Option State :=
  match qs.find? fun q => (s.sp.head q).all fun e => !e.landed with
  | none => none
  | some q => match s.sp.head q with
    | some e => some (s.awaitEntries [e])
    | none => some s

/-- Whether the queues have room for what the bundle's slots append (R272). -/
def State.room (s : State) (ss : List NSlot) : Bool :=
  let es := ss.filterMap NSlot.entries
  (List.range 8).all fun q => s.sp.queued q + ((es.filter fun e => e.1 = q).map Prod.snd).sum ≤ 16 || es.all fun e => e.1 != q

/-- What stops a slot before its bundle issues: a trap, or a wait. -/
def State.slotStop (s : State) (k : NSlot) : Option State :=
  match (match k.kind with
    | 2 => s.actM k
    | 3 => s.actX k
    | 4 => s.actC k
    | _ => .go s) with
  | .stop t => some t
  | .go _ => none

/-! ### Charge (14 R345) -/

/-- Bits of the magnitudes of a matrix format (09 R221). -/
def magBits (c : Nat) : Nat :=
  match MFmt.ofCode c with
  | some f => if c < 5 then f.planes - 2 else f.planes
  | none => 0

/-- Weight of a slot's operation. -/
def NSlot.weight (k : NSlot) : Nat :=
  let q := (k.qual.map Qual.ofNat).getD ⟨0, 0, 0, 0⟩
  let mm : Nat := ((q.md + 1) * magBits (q.sx / 16) * magBits (q.sx % 16) + 3) / 4
  match k.op with
  | .natFadd _ | .natFmul _ | .natFma _ | .natFmad _ | .natFmin _ | .natFmax _ => if k.qual.isSome && q.type == .f64 then 6 else 2
  | .natFcmp _ | .natCvt _ | .natLane _ => 2
  | .natSfu _ => 8
  | .natLds _ | .natSts _ => 2
  | .natPrf _ | .natFnc _ => 1
  | .natLdg _ | .natStg _ | .natLdp _ | .natStp _ | .natAtg _ => 3
  | .natMma _ | .natMmar _ => mm
  | .prdPwr _ => 2
  | .prd _ | .pwr _ => 1
  | _ => if k.kind = 3 then 4 else 1

/-- Guard of an operation. -/
def guardOf : Instr → Nat
  | .prd p | .pwr p | .prdPwr p => p.gd.toNat
  | .natIadd n | .natIsub n | .natImul n | .natImad n | .natAnd n | .natOr n | .natXor n | .natShl n | .natShr n | .natSar n
  | .natMin n | .natMax n | .natSel n | .natIcmp n | .natFadd n | .natFmul n | .natFma n | .natFmad n | .natFcmp n
  | .natFmin n | .natFmax n | .natCvt n | .natMov n | .natMovi n | .natSfu n | .natLane n | .natLds n | .natSts n
  | .natLdg n | .natStg n | .natAtg n | .natLdp n | .natStp n | .natPrf n | .natFnc n => n.gd.toNat
  | _ => 0

/-- Charge of a slot on the focused split. -/
def State.slotCharge (s : State) (k : NSlot) : Nat :=
  if k.kind = 4 then 0
  else if k.kind = 3 then 32 * k.weight
  else (lanesOf s.tr.width (s.adm (guardOf k.op))).length * k.weight

/-- Charge of a bundle. -/
def State.bundleCharge (s : State) (ss : List NSlot) : Nat := (ss.map s.slotCharge).sum

def State.clusterOf (s : State) (k : CoreId) : Cluster :=
  (s.clusters.find? fun c => c.die = k.die && c.cl = k.cl).getD (Cluster.reset k.die k.cl)

def State.modCluster (s : State) (k : CoreId) (f : Cluster → Cluster) : State :=
  { s with clusters := f (s.clusterOf k) :: s.clusters.filter fun c => !(c.die = k.die && c.cl = k.cl) }

/-- Adds a charge to the cluster's record, and to the camp's share of its core's window (R345, R346). -/
def State.addCharge (s : State) (n : Nat) : State :=
  let k := s.cp.core
  let r := s.cp.ref
  if n = 0 then s
  else (s.modCluster k fun c => { c with c := c.c + n }).modCore k fun c =>
    { c with charge := match c.charge.find? fun q => q.1 = r with
        | some _ => c.charge.map fun q => if q.1 = r then (r, q.2 + n) else q
        | none => (r, n) :: c.charge }

/-! ### Issue -/

/-- The bundle begins a portable point: the split stands there, and a trap goes back to here (18 R403). -/
def State.atNatPoint (s : State) : State :=
  match s.sp.nat with
  | some p =>
    if p.pend.isSome then s
    else match s.natEntry.bind fun e => e.pointOf p.off with
      | some q => { s with sp := { s.sp with
          off := q.pos, lastPt := q.pos, nat := some { p with ptOff := p.off, ptFl := s.sp.fl, ptLq := s.sp.lq } } }
      | none => s
  | none => s

/-- Counts an issue of the focused split on its core. -/
def State.countIssue (s : State) : State :=
  let n := (s.coreOf s.cp.core).issues + 1
  { s with sp := { s.sp with issued := n, aged := false } }.modCore s.cp.core fun c =>
    { c with issues := n, sinceAge := c.sinceAge + 1 }

/-- Whether a C slot of the bundle posts an operating point of its own, which stands over the header's (14 R343, R315). -/
def State.postsPoint (s : State) (ss : List NSlot) : Bool :=
  ss.any fun k => match k.op with
    | .srd n => (k.q dSrd).aux = 2 ^ 13 && n.sa.toNat = 0x0E &&
        (lanesOf s.tr.width (s.adm n.gd.toNat)).head?.any fun i => s.src? i n.sb.toNat false ≤ 7
    | _ => false

/-- A legal bundle issues unless it waits or a slot stops it: its slots act one by one. -/
def State.issueBundle (s : State) (h : Hdr) (ss : List NSlot) : State :=
  match s.headWait (heads h ss) with
  | some t => t
  | none =>
    if !s.room ss then s
    else match ss.findSome? s.slotStop with
      | some t => t
      | none =>
        let s0 := (s.addCharge (s.bundleCharge ss)).countIssue
        let s1 := if h.oe && !s0.postsPoint ss then s0.opRequest h.op.toNat else s0
        let b : Bundle := ⟨h, Hdr.bytes h, ss, none⟩
        if ss.isEmpty then s1.endBundle b else { s1 with bnd := some b }

/-- The header of the bundle at the split's native position: what is due has landed, and an illegal bundle is a machine fault. -/
def State.startBundle (s : State) (h : Hdr) : State :=
  match s.sp.nat, s.natBank with
  | some p, some b =>
    let s1 := s.landDue
    match b.bundle s.cp.core.die p.off h with
    | none => s1.illBundle
    | some ss =>
      if !s1.okBundle ss then s1.illBundle
      else (if h.pp then s1.atNatPoint else s1).issueBundle h ss
  | _, _ => s

/-- The header syllable (R265). -/
def execHeader (h : Hdr) (s : State) : Out := .next (s.startBundle h)

end Sys2Proof.Machine
end

