-- ==== Sys2Proof/Machine/Verify.lean ====
section
/-! DEFINITION. The verifier: the reason and offset at which a function fails (17 R379 to R382, 06 R128 to R147, 03 R73, 09 R222). -/

namespace Sys2Proof

/-- Operand types that an instruction accepts, by operand, before the arguments of edges (07 to 09, the Operands columns). -/
def Instr.wants (i : Instr) : List (Nat → Bool) :=
  let is (t : Ty) : Nat → Bool := fun c => c = t.code
  let rep (n : Nat) (f : Nat → Bool) : List (Nat → Bool) := List.replicate n f
  let opt (v : Option Val) (t : Ty) : List (Nat → Bool) := rep v.toList.length (is t)
  match i with
  | .cbr _ _ _ => [is .b1]
  | .switch ty _ _ _ => [is ty]
  | .brx _ _ => [is .w32]
  | .add t _ _ | .sub t _ _ =>
    [is t, if t = .addr then fun c => c = Ty.i64.code || c = Ty.w64.code else is t]
  | .mul t _ _ | .mulhi t _ _ | .div t _ _ | .rem t _ _ | .min t _ _ | .max t _ _
  | .addsat t _ _ | .subsat t _ _ | .and t _ _ | .or t _ _ | .xor t _ _ | .cmp t _ _ _ | .fadd t _ _ _ | .fsub t _ _ _
  | .fmul t _ _ _ | .fdiv t _ _ _ | .fmin t _ _ | .fmax t _ _ | .fcmp t _ _ _ | .fcopysign t _ _ => rep 2 (is t)
  | .mad t _ _ _ | .fma t _ _ _ _ => rep 3 (is t)
  | .neg t _ | .abs t _ | .not t _ | .popc t _ | .clz t _ | .ctz t _ | .brev t _ | .fsqrt t _ _ | .frsq t _ _ | .frcp t _ _
  | .fexp2 t _ | .flog2 t _ | .fsin t _ | .fcos t _ | .ftanh t _ | .fabs t _ | .fneg t _ | .fclass t _ | .fround t _ _
  | .unpack t _ | .redux t _ _ _ | .scan t _ _ _ _ | .sput t _ _ => [is t]
  | .shl t _ _ | .shr t _ _ | .rotl t _ _ | .shfl t _ _ _ _ => [is t, is .w32]
  | .bfx t _ _ _ => [is t, is .w32, is .w32]
  | .bfi t _ _ _ _ => [is t, is t, is .w32, is .w32]
  | .sel t _ _ _ => [is .b1, is t, is t]
  | .cvt t _ _ _ => [fun c =>
      c != t.code && ((cI c && cI t.code) || (cI c && t = .b1) || (c = 1 && cI t.code) || (cF c && cI t.code) ||
        (cI c && cF t.code) || (cF c && cF t.code) || (cP c && cP t.code))]
  | .bitcast t _ => [fun c => cMem c && ((Ty.ofCode c).map Ty.width) = some t.width]
  | .pack t _ _ => rep 2 (is (match t with
      | .x2f16 => .f16
      | .x2bf16 => .bf16
      | .w32 => .w16
      | _ => .w32))
  | .dxbPackElem _ _ => [cF]
  | .dxbPackScale _ _ _ _ => [cF, is .w32]
  | .dxbUnpack _ _ _ _ _ => [cD, is .w32]
  | .vote _ _ | .ballot _ _ => [is .b1]
  | .rand _ _ => [is .w64]
  | .ld _ _ | .ldv _ _ _ | .prefetch _ _ => [is .addr]
  | .st t _ _ => [is .addr, is t]
  | .stv t n _ _ => is .addr :: rep (2 ^ n) (is t)
  | .atom t _ _ _ n => is .addr :: is t :: opt n t
  | .tier _ _ _ | .tlbInv _ _ _ => [is .addr, is .w64]
  | .barInit _ _ _ => [is .barref, is .w32]
  | .barArrive _ n | .barSync _ n | .stepSync _ n => is .barref :: opt n .w32
  | .barWait _ p => is .barref :: opt p .b1
  | .barTry _ _ => [is .barref, is .b1]
  | .copy _ _ _ _ _ b c w => [is .addr, is .addr, is .w64] ++ opt b .barref ++ opt c .w32 ++ opt w .w32
  | .tcopy _ _ _ _ _ os b c w => [is .addr, is .trec] ++ rep os.length (is .w32) ++ opt b .barref ++ opt c .w32 ++ opt w .w32
  | .copyRemote _ _ _ _ _ l b c w =>
    [is .addr, is .addr, is .w64] ++ opt l .w64 ++ opt b .barref ++ opt c .w32 ++ opt w .w32
  | .accInit _ _ _ => [is .i32]
  | .mma _ _ _ _ _ _ => [is .acc, is .addr, is .addr]
  | .mmaRes _ _ _ _ _ _ _ => [is .acc, is .addr, is .rhandle, is .w32]
  | .accNorm _ => [is .acc]
  | .accRd _ _ _ _ _ | .accRdWord _ _ _ _ => [is .acc, is .w32, is .w32]
  | .accWr t _ _ _ _ _ => [is .acc, is .w32, is .w32, is t]
  | .accWrWord _ _ _ _ _ => [is .acc, is .w32, is .w32, is .w64]
  | .ropeForm _ | .resPitchAttach _ | .resPitchRefill _ | .sysWrXstat _ | .opReq _ => [is .w32]
  | .resPitch _ _ _ _ _ _ _ => is .trec :: rep 5 (is .w32)
  | .resStrike n _ | .resPin n _ | .resUnpin n _ | .resQuery n _ => [if n then is .w32 else is .rhandle]
  | .sloop _ _ bs is' => is .w32 :: (rep bs.length (is .addr) ++ rep is'.length fun _ => true)
  | .sloopEnd vs => rep vs.length fun _ => true
  | .sysWrStubv _ => [is .w64]
  | _ => []

end Sys2Proof

namespace Sys2Proof.Machine

/-- A word group of a function as the verifier sees it: a BLOCK record, or an instruction with its own failure when it has one. -/
structure VItem where
  off : Nat
  len : Nat
  val : Nat
  /-- type codes of the values it defines, 0 for a type that cannot be told -/
  defs : List Nat
  uses : List Val
  /-- edges of a terminator -/
  edges : Option (List Edge)
  blk : Bool
  ins : Option Instr
  raw : Raw
  err : Option Nat
  deriving DecidableEq, Repr

/-- A failure: offset, reason. -/
abbrev VErr := Nat × Nat

/-- Reason codes of R382 for what one instruction's words show. -/
def vReason : DecErr → Nat
  | .opcode => 0x01
  | .fields => 0x02
  | .osize => 0x03
  | .extword => 0x04
  | .type => 0x05
  | .truncated => 0x07
  | .stream => 0x08
  | .branchCount => 0x02

/-! ### Decoding in order (R379) -/

/-- Whether TY says that an opcode defines values. -/
def rawDefs (r : Raw) : List Nat :=
  if r.op = 0x92 then List.replicate (2 ^ (r.sx / 16 % 8)) r.ty
  else if r.op = 0x73 then [0, 0]
  else if r.op = 0xE8 then List.replicate (r.sx / 16) 0
  else if r.op = 0xEB then List.replicate r.cnt 0
  else if r.op = 0x03 || r.op = 0x91 || r.op = 0x93 || r.op = 0xEA || r.op = 0xF1 || r.ty = 0 then []
  else [0]

/-- Edges that the extension words of a terminator name, as far as they can be told. -/
def rawEdges (r : Raw) : Option (List Edge) :=
  if r.op = 0x06 || r.op = 0x07 then some []
  else if 0x01 ≤ r.op && r.op ≤ 0x04 then
    some ((if r.op = 0x03 then r.ext.drop r.sx else r.ext).map fun w => ⟨w / 2 ^ 16, List.replicate (fld w 8 8) 0⟩)
  else none

/-- Type code of a value defined so far. -/
def tyAt (ts : List Nat) (v : Nat) : Nat := (ts[v]?).getD 0

/-- Types that an instruction defines, carried values taking those of their operands. -/
def insDefs (rt : Nat → List Ty) (ts : List Nat) : Instr → List Nat
  | .sloop _ _ _ vs | .sloopEnd vs => vs.map (tyAt ts)
  | i => (i.resTys rt).map Ty.code

/-- The BLOCK record of raw words: its parameter types and whether a field breaks R131, or a type R135. -/
def blockItem (off val : Nat) (r : Raw) : VItem :=
  let tys := blockTys r.sx r.ext
  let bytes := (blockTys (4 * r.ext.length) r.ext)
  let bad := r.ty != 0 || r.md != 0 || r.ops.isNone || (bytes.any fun b => 64 ≤ b) || (bytes.drop r.sx).any fun b => b != 0
  let value (c : Nat) : Bool := cV c || c = 32 || c = 34
  ⟨off, r.size, val, tys, [], none, true, none, r,
    if !(tys.all value) then some 0x05 else if bad then some 0x07 else none⟩

/-- One item. -/
def vItem (rt : Nat → List Ty) (off val : Nat) (ts : List Nat) (r : Raw) : VItem :=
  if r.op = 0 then blockItem off val r
  else match r.decode with
    | .ok i => ⟨off, r.size, val, insDefs rt ts i, i.uses, instrEdges i, false, some i, r, none⟩
    | .error e => ⟨off, r.size, val, rawDefs r, [], rawEdges r, false, none, r, some (vReason e)⟩

/-- Items in order, and the failure at the word that ends decoding. Words that end inside an instruction end it without a failure of their own. -/
def vItems (rt : Nat → List Ty) : Nat → Nat → Nat → List Nat → List Nat → List VItem × Option VErr × Bool
  | 0, _, _, _, _ => ([], none, true)
  | fuel + 1, off, val, ts, ws =>
    match ws with
    | [] => ([], none, true)
    | _ =>
      match parseRaw ws with
      | .error .truncated => ([], none, false)
      | .error e => ([], some (off, vReason e), true)
      | .ok r =>
        let x := vItem rt off val ts r
        let n := vItems rt fuel (off + 4 * r.size) (val + x.defs.length) (ts ++ x.defs) (ws.drop r.size)
        (x :: n.1, n.2)

/-- Groups items into blocks; items before the first BLOCK record form a group of their own. -/
def vBlocks (is : List VItem) : List (List VItem) :=
  (is.foldr (fun x (bs : List (List VItem)) => match bs with
    | b :: r => if x.blk then [] :: (x :: b) :: r else (x :: b) :: r
    | [] => if x.blk then [[], [x]] else [[x]]) []).filter fun b => !b.isEmpty

/-! ### Dominance (R133) -/

/-- Successors of each block as bit sets. -/
def vSuccs (nb : Nat) (bs : List (List VItem)) : List Nat :=
  bs.map fun b => (b.flatMap fun x => (x.edges.getD []).map Edge.blk).foldl (fun m t => if t < nb then m ||| 2 ^ t else m) 0

/-- One round of the dominator equations. -/
def domRound (nb : Nat) (succs dom : List Nat) : List Nat :=
  dom.mapIdx fun b _ =>
    if b = 0 then 1
    else
      let preds := (List.range nb).filter fun p => ((succs[p]?).getD 0).testBit b
      (preds.foldl (fun m p => m &&& (dom[p]?).getD 0) (2 ^ nb - 1)) ||| 2 ^ b

/-- Dominator sets. -/
def domSets (nb : Nat) (succs : List Nat) : List Nat :=
  (List.range (nb + 1)).foldl (fun d _ => domRound nb succs d)
    (succs.mapIdx fun b _ => if b = 0 then 1 else 2 ^ nb - 1)

/-- What the checks of one function look at. -/
structure VCtx where
  m : Module
  f : Nat
  bs : List (List VItem)
  nb : Nat
  /-- decoding reached the end of the code -/
  whole : Bool
  tys : List Nat
  /-- block and index in it of each value's definition -/
  at_ : List (Nat × Nat)
  dom : List Nat
  deriving DecidableEq, Repr

def VCtx.ty (c : VCtx) (v : Nat) : Nat := tyAt c.tys v

/-- Whether a use at index `j` of block `b` is dominated by the definition of `v`; a value not yet seen is judged only when the code is whole. -/
def VCtx.dominated (c : VCtx) (b j v : Nat) : Bool :=
  match c.at_[v]? with
  | none => !c.whole
  | some (db, dj) => if db = b then dj < j else ((c.dom[b]?).getD 0).testBit db

/-! ### Rules on one instruction -/

/-- Parameter types of a block. -/
def VCtx.params (c : VCtx) (b : Nat) : List Nat := ((c.bs[b]?).bind fun x => x.head?.map VItem.defs).getD []

/-- Parameter types of a function of the module: those of its first BLOCK record. -/
def Module.params (m : Module) (f : Nat) : List Nat :=
  match parseRaw (m.words f) with
  | .ok r => if r.op = 0 then blockTys r.sx r.ext else []
  | .error _ => []

/-- Edges: an unknown block, an argument count, an argument type. -/
def VCtx.edgeErrs (c : VCtx) (x : VItem) : List Nat :=
  (x.edges.getD []).flatMap fun e =>
    (if e.blk = 0 || (c.whole && c.nb ≤ e.blk) then [0x07] else []) ++
    (if e.blk < c.nb && (c.params e.blk).length != e.args.length then [0x04] else []) ++
    (if e.blk < c.nb && x.ins.isSome && ((c.params e.blk).zip e.args).any fun p => c.ty p.2 != 0 && p.1 != c.ty p.2 then [0x06] else [])

/-- Length of a section's image. -/
def Module.secLen (m : Module) : Sec → Nat
  | .data => m.dlen
  | .const => m.clen
  | .tensor => 64 * m.ntens

/-- `call` (08 R195, R198). -/
def VCtx.callErrs (c : VCtx) (g : Nat) (args : List Val) : List Nat :=
  let ts := args.map c.ty
  let me := c.m.func c.f
  let to_ := c.m.func g
  (if ts.any fun t => t = 32 || t = 34 then [0x05] else []) ++
  (if c.m.funcs.length ≤ g || (c.m.params g).length != ts.length || ((c.m.params g).zip ts).any (fun p => p.2 != 0 && p.1 != p.2) ||
      me.wmin < to_.wmin || to_.wmax < me.wmax then [0x0C] else [])

/-- `ret`: results by number and type, none of them acc or rhandle (R136). -/
def VCtx.retErrs (c : VCtx) (vs : List Val) : List Nat :=
  let rt := ((c.m.func c.f).rtypes).map Ty.code
  (if rt.length != vs.length then [0x02] else []) ++
  (if vs.any fun v => c.ty v = 32 || c.ty v = 34 then [0x05] else []) ++
  (if (rt.zip vs).any fun p => c.ty p.2 != 0 && p.1 != c.ty p.2 then [0x05] else [])

/-- Rules of particular instructions. -/
def VCtx.insErrs (c : VCtx) (i : Instr) : List Nat :=
  match i with
  | .call g args => c.callErrs g args
  | .ret vs => c.retErrs vs
  | .constSymbol _ sec o =>
    if c.m.secLen sec ≤ o.toNat || (sec = .tensor && o.toNat % 64 != 0) then [0x04] else []
  | .cvt _ true _ a => if cI (c.ty a) || c.ty a = 0 then [] else [0x02]
  | _ => []

/-- All failures of one item at index `j` of block `b`. -/
def VCtx.itemErrs (c : VCtx) (b j : Nat) (x : VItem) : List Nat :=
  let nv := (c.m.func c.f).nval
  let own := match x.err, x.ins with
    | some e, _ => (match x.raw.decode with
      | .error .branchCount => if (c.edgeErrs x).any fun y => y = 0x04 || y = 0x07 then [] else [0x02]
      | _ => [e])
    | none, _ => []
  let types := match x.ins with
    | some i => if (i.wants.zip x.uses).any fun p => c.ty p.2 != 0 && !p.1 (c.ty p.2) then [0x05] else []
    | none => []
  own ++ types ++
  (if x.uses.any fun v => nv ≤ v then [0x03] else []) ++
  (if x.uses.any fun v => !c.dominated b j v then [0x06] else []) ++
  c.edgeErrs x ++ (match x.ins with
    | some i => c.insErrs i
    | none => [])

/-! ### Blocks, values, limits -/

/-- Terminators: exactly one, at the end; the block in which decoding stopped is not judged (R379). -/
def VCtx.blockErrs (c : VCtx) (b : Nat) (xs : List VItem) : List Nat :=
  let last := c.nb = b + 1
  let body := xs.filter fun x => !x.blk
  let mid := body.dropLast.any fun x => x.edges.isSome
  let open_ := !(body.getLast?.any fun x => x.edges.isSome)
  (if mid || (open_ && (c.whole || !last)) then [0x07] else []) ++
  (if b = 0 && !(xs.head?.any VItem.blk) then [0x07] else []) ++
  (if b = 0 && (c.m.func c.f).entry && (c.params 0).any (fun t => t = 32 || t = 34) then [0x0C] else [])

/-- NVAL (R132) and the limits of R130. -/
def VCtx.sizeErrs (c : VCtx) (is : List VItem) : List VErr :=
  let fn := c.m.func c.f
  let tooMany := is.find? fun x => fn.nval < x.val + x.defs.length
  (match tooMany with
   | some x => [(x.off, 0x07)]
   | none => if c.whole && c.tys.length < fn.nval then [(fn.clen, 0x07)] else []) ++
  ((is.find? fun x => 2 ^ 24 < x.off + 4 * x.len).toList.map fun x => (x.off, 0x0B)) ++
  (((is.filter VItem.blk)[65536]?).toList.map fun x => (x.off, 0x0B))

/-! ### Stream loops (06 R142, R143, 10 R247) -/

/-- Instructions that a loop's body may hold. -/
def bodyOk (i : Instr) : Bool :=
  match i with
  | .ld _ m => m.ord = .rlx
  | .st _ m _ => m.ord = .rlx
  | .sget _ _ | .sput _ _ _ => true
  | .accInit _ _ _ | .mma .. | .mmaRes .. | .accNorm _ | .accRd .. | .accRdWord .. | .accWr .. | .accWrWord .. => true
  | i => match i.parts with
    | some p => (0x10 ≤ p.op && p.op ≤ 0x85)
    | none => false

/-- Failures of the loops of one block, with the loop that is open: its item, streams and carried types. -/
def VCtx.loopErrs (c : VCtx) : Option (VItem × List StreamSpec × List Val) → List (Nat × Nat) → List VItem → List VErr
  | none, _, [] => []
  | some (l, _, _), _, [] => if c.whole then [(l.off, 0x08)] else []
  | none, _, x :: r =>
    match x.ins with
    | some (.sloop _ specs _ vs) => VCtx.loopErrs c (some (x, specs, vs)) [] r
    | some (.sloopEnd _) | some (.sget _ _) | some (.sput _ _ _) => (x.off, 0x08) :: VCtx.loopErrs c none [] r
    | _ => VCtx.loopErrs c none [] r
  | some (l, specs, vs), used, x :: r =>
    let acc (k : Nat) (ty : Ty) (out : Bool) : List VErr :=
      match specs[k]? with
      | some s => if s.ety = ty && s.out = out then [] else [(x.off, 0x08)]
      | none => [(x.off, 0x08)]
    match x.ins with
    | some (.sloopEnd ends) =>
      let full := (List.range specs.length).all fun k => (used.filter fun u => u.1 = k).length = 1
      (if full && x.off + 4 * x.len - l.off ≤ 1792 then [] else [(l.off, 0x08)]) ++
      (if ends.length != vs.length then [(x.off, 0x02)]
       else if (vs.zip ends).any fun p => c.ty p.1 != 0 && c.ty p.2 != 0 && c.ty p.1 != c.ty p.2 then [(x.off, 0x05)] else []) ++
      VCtx.loopErrs c none [] r
    | some (.sget ty k) => acc k ty false ++ VCtx.loopErrs c (some (l, specs, vs)) ((k, 0) :: used) r
    | some (.sput ty k _) => acc k ty true ++ VCtx.loopErrs c (some (l, specs, vs)) ((k, 1) :: used) r
    | some i => (if bodyOk i then [] else [(x.off, 0x08)]) ++ VCtx.loopErrs c (some (l, specs, vs)) used r
    | none => VCtx.loopErrs c (some (l, specs, vs)) used r

/-- A stream loop: the first value of its carried tuple, the first value of its body and of its end, and the offsets of both. -/
structure LoopRange where
  tuple : Nat
  first : Nat
  past : Nat
  start : Nat
  stop : Nat
  deriving DecidableEq, Repr

/-- Whether an item stands in the body or is its end. -/
def LoopRange.holds (r : LoopRange) (x : VItem) : Bool := r.start < x.off && x.off ≤ r.stop

/-- The loops of a function, in order. -/
def loopRanges : Option (Nat × Nat × Nat) → List VItem → List LoopRange
  | _, [] => []
  | none, x :: r => match x.ins with
    | some (.sloop _ _ _ inits) => loopRanges (some (x.val, x.val + inits.length, x.off)) r
    | _ => loopRanges none r
  | some (t, v, o), x :: r => match x.ins with
    | some (.sloopEnd _) => ⟨t, v, x.val, o, x.off⟩ :: loopRanges none r
    | _ => loopRanges (some (t, v, o)) r

/-- Uses of a body's values outside it. -/
def VCtx.scopeErrs (c : VCtx) : List VErr :=
  let is := c.bs.flatten
  (loopRanges none is).flatMap fun r =>
    (is.filter fun x => (x.off < r.start || r.stop < x.off) && x.uses.any fun v => r.first ≤ v && v < r.past).map fun x => (x.off, 0x08)

/-! ### Accumulator slots (09 R222) -/

/-- Equations of the slots of acc values, in code order. -/
def VCtx.slotEqs (c : VCtx) : List SlotEq :=
  c.bs.flatten.flatMap fun x =>
    ((x.edges.getD []).flatMap fun e => match (c.bs[e.blk]?).bind List.head? with
      | some t => (e.args.zip ((List.range t.defs.length).map fun i => t.val + i)).map fun p => ⟨p.2, none, p.1⟩
      | none => []) ++ ((x.ins.map fun i => slotEqsIn i x.val).getD [])

/-- Slots of the acc values of a function. -/
def VCtx.slots (c : VCtx) : List (Nat × Nat) := if c.tys.any fun t => t = 32 then solveSlots c.slotEqs else []

def slotOfVal (sl : List (Nat × Nat)) (v : Nat) : Option Nat := (sl.find? fun p => p.1 = v).map Prod.snd

/-- Arguments of acc type whose slot is not their parameter's, and carried values that change slot. -/
def VCtx.slotErrs (c : VCtx) (sl : List (Nat × Nat)) : List VErr :=
  let differ (a b : Nat) : Bool := match slotOfVal sl a, slotOfVal sl b with
    | some x, some y => x != y
    | _, _ => false
  let edges := c.bs.flatten.filter fun x => (x.edges.getD []).any fun e =>
    match (c.bs[e.blk]?).bind List.head? with
    | some t => (e.args.mapIdx fun i a => (a, t.val + i)).any fun p => differ p.1 p.2
    | none => false
  let loops := (c.bs.flatten.foldl (fun (p : List Val × List VErr) x => match x.ins with
    | some (.sloop _ _ _ vs) => (vs, p.2)
    | some (.sloopEnd vs) => ([], if (p.1.zip vs).any fun q => differ q.1 q.2 then (x.off, 0x09) :: p.2 else p.2)
    | _ => p) ([], [])).2
  (edges.map fun x => (x.off, 0x09)) ++ loops

/-- The acc operand that an instruction consumes. -/
def consumed : Instr → Option Val
  | .mma _ _ _ a _ _ | .mmaRes _ _ _ a _ _ _ | .accNorm a | .accWr _ _ a _ _ _ | .accWrWord _ a _ _ _ => some a
  | _ => none

/-- Blocks reachable from the end of a block, not through the block that defines the value. -/
def reachFrom (nb : Nat) (succs : List Nat) (b stop : Nat) : Nat :=
  (List.range (nb + 1)).foldl (fun m _ => (bitsOf nb m).foldl (fun m t => if t = stop then m else m ||| (succs[t]?).getD 0) m)
    ((succs[b]?).getD 0)

/-- Reads of an acc value that its consumer reaches: later in the block, in a block reached, or in a further iteration of a stream loop. -/
def VCtx.linearErrs (c : VCtx) : List VErr :=
  let succs := vSuccs c.nb c.bs
  let items := (c.bs.mapIdx fun b xs => xs.mapIdx fun j x => (b, j, x)).flatten
  let ranges := loopRanges none c.bs.flatten
  items.flatMap fun (b, j, x) => match x.ins.bind consumed with
    | none => []
    | some v =>
      let db := ((c.at_[v]?).map Prod.fst).getD c.nb
      let reach := reachFrom c.nb succs b db
      let again := ranges.find? fun r => r.holds x && v < r.tuple
      (items.filter fun (ub, uj, u) => u.uses.contains v &&
        ((ub = b && (j < uj || reach.testBit b && db != b)) || (ub != b && reach.testBit ub && !(ub = db)) ||
          (again.any fun r => r.holds u && ub = b))).map fun y => (y.2.2.off, 0x09)

/-- Liveness of values: sets at the ends of the blocks. -/
def VCtx.liveOut (c : VCtx) : List Nat :=
  let n := c.tys.length
  let succs := vSuccs c.nb c.bs
  let ud := c.bs.map fun xs => xs.foldr (fun x (p : Nat × Nat) =>
    let d := valSet ((List.range x.defs.length).map fun i => x.val + i)
    (valSet (x.uses.filter fun v => v < n) ||| setMinus n p.1 d, d ||| p.2)) (0, 0)
  let ins := (List.range (c.nb + 1)).foldl (fun v _ => liveRound c.nb n succs ud v) (ud.map fun _ => 0)
  succs.map fun sc => (bitsOf c.nb sc).foldl (fun m t => m ||| (ins[t]?).getD 0) 0

/-- Whether two acc values of a set share a slot. -/
def sharing (sl : List (Nat × Nat)) (live : Nat) : Bool :=
  let ks := (sl.filter fun p => live.testBit p.1).map Prod.snd
  ks.eraseDups.length != ks.length

/-- Program points at which two live acc values share a slot. -/
def VCtx.clashErrs (c : VCtx) (sl : List (Nat × Nat)) : List VErr :=
  if sl.isEmpty then []
  else
    let n := c.tys.length
    let outs := c.liveOut
    let ranges := loopRanges none c.bs.flatten
    (c.bs.mapIdx fun b xs => (xs.foldr (fun x (p : Nat × List VErr) =>
      let held := valSet ((ranges.filter fun r => r.start ≤ x.off && x.off < r.stop).flatMap fun r =>
        (sl.filter fun s => s.1 < r.tuple && c.bs.flatten.any fun u =>
          r.start < u.off && u.off < r.stop && u.uses.contains s.1).map Prod.fst)
      let errs := if sharing sl (p.1 ||| held) then [(x.off, 0x09)] else []
      let d := valSet ((List.range x.defs.length).map fun i => x.val + i)
      (valSet (x.uses.filter fun v => v < n) ||| setMinus n p.1 d, errs ++ p.2)) ((outs[b]?).getD 0, [])).2).flatten

/-! ### Static headroom (03 R73) -/

/-- Bound t and ceiling c of acc values. -/
abbrev Heads := List (Nat × Nat × Nat)

def headOf (h : Heads) (v : Nat) : Nat × Nat := ((h.find? fun p => p.1 = v).map Prod.snd).getD (0, 0)

def headSet (h : Heads) (v : Nat) (x : Nat × Nat) : Heads := setNum v (min x.1 64, x.2) h

/-- The bound at a merge: the largest t of the edges (03 R73), and the largest ceiling, which R73 leaves open (DESIGN CHOICE, log 34). -/
def headMax (h : Heads) (v : Nat) (x : Nat × Nat) : Heads :=
  headSet h v (max (headOf h v).1 x.1, max (headOf h v).2 x.2)

/-- u of a matrix operation of t operand tiles. -/
def headU (fa fb : MFmt) (t ceil : Nat) : Nat :=
  (if t = 1 then 5 else if t = 2 then 6 else 7) + magPlanes fa + magPlanes fb + ceil

/-- After a matrix operation. -/
def headMma (h : Heads) (fa fb : MFmt) (t : Nat) (a : Val) : Nat × Nat :=
  let x := headOf h a
  let u := headU fa fb t x.2
  (if x.1 = 0 then u else max x.1 u + 1, x.2)

/-- One instruction outside loops' ends: the bounds, and the matrix operations beyond 63. -/
def headStep (h : Heads) (x : VItem) : Heads × List VErr :=
  let after (p : Nat × Nat) : Heads × List VErr := (headSet h x.val p, if 63 < p.1 then [(x.off, 0x0A)] else [])
  match x.ins with
  | some (.accInit _ c _) => (headSet h x.val (0, c.val), [])
  | some (.mma fa fb t a _ _) => after (headMma h fa fb (t.val + 1) a)
  | some (.mmaRes fa fb t a _ _ _) => after (headMma h fa fb (t.val + 1) a)
  | some (.accNorm a) => (headSet h x.val (47, (headOf h a).2), [])
  | some (.accWr _ _ a _ _ _) | some (.accWrWord _ a _ _ _) => (headSet h x.val (63, (headOf h a).2), [])
  | _ => (h, [])

/-- Items in order without loops. -/
def headRun (h : Heads) (xs : List VItem) : Heads × List VErr :=
  xs.foldl (fun (p : Heads × List VErr) x => let r := headStep p.1 x
                                             (r.1, p.2 ++ r.2)) (h, [])

/-- A loop of n iterations, or of any number when the trip count is no constant: the carried values start each. -/
def headLoop (l : Nat) (body : List VItem) (ends : List Val) (known : Bool) : Nat → Heads → List VErr → Heads × List VErr
  | 0, h, es => (h, es)
  | n + 1, h, es =>
    let r := headRun h body
    let next := ends.mapIdx fun i v => (l + i, headOf r.1 v)
    let h1 := next.foldl (fun h p => if known then headSet h p.1 p.2 else headMax h p.1 p.2) r.1
    headLoop l body ends known n h1 (es ++ r.2)

/-- A block's items with its stream loops; `tc` gives the constants. -/
def headBlock (tc : Nat → Option Nat) : Nat → Heads → List VItem → Heads × List VErr
  | 0, h, _ => (h, [])
  | _, h, [] => (h, [])
  | fuel + 1, h, x :: r =>
    match x.ins with
    | some (.sloop t _ _ vs) =>
      let body := r.takeWhile fun y => match y.ins with
        | some (.sloopEnd _) => false
        | _ => true
      let rest := r.drop body.length
      let h0 := (vs.mapIdx fun i v => (x.val + i, headOf h v)).foldl (fun h p => headSet h p.1 p.2) h
      match rest with
      | y :: r2 => match y.ins with
        | some (.sloopEnd es) =>
          let n := ((tc t).map fun n => min n 130).getD 130
          let q := headLoop x.val body es (tc t).isSome n h0 []
          let h1 := (vs.mapIdx fun i _ => (y.val + i, headOf q.1 (x.val + i))).foldl (fun h p => headSet h p.1 p.2) q.1
          let z := headBlock tc fuel h1 r2
          (z.1, q.2 ++ z.2)
        | _ => (h0, [])
      | [] => (headRun h0 body).1 |> fun h => (h, [])
    | _ =>
      let q := headStep h x
      let z := headBlock tc fuel q.1 r
      (z.1, q.2 ++ z.2)

/-- One pass over the function: merges take the largest of their edges. -/
def VCtx.headPass (c : VCtx) (tc : Nat → Option Nat) (h : Heads) : Heads × List VErr :=
  c.bs.foldl (fun (p : Heads × List VErr) xs =>
    let r := headBlock tc (xs.length + 1) p.1 xs
    let h1 := (xs.flatMap fun x => x.edges.getD []).foldl (fun h e =>
      match (c.bs[e.blk]?).bind List.head? with
      | some t => (e.args.mapIdx fun i a => (a, t.val + i)).foldl (fun h q =>
          if c.ty q.1 = 32 then headMax h q.2 (headOf h q.1) else h) h
      | none => h) r.1
    (h1, p.2 ++ r.2)) (h, [])

/-- Failures of the static bound. -/
def VCtx.headErrs (c : VCtx) : List VErr :=
  if !(c.tys.any fun t => t = 32) then []
  else
    let tc (v : Nat) : Option Nat := c.bs.flatten.findSome? fun x => match x.ins with
      | some (.const _ k) => if x.val = v then some k.toNat else none
      | _ => none
    let params := ((c.bs.flatMap fun xs => ((xs.head?.map VItem.defs).getD [])).filter fun t => t = 32).length
    ((List.range (65 * params + 1)).foldl (fun (p : Heads × List VErr) _ => c.headPass tc p.1) ([], [])).2

/-! ### The verifier -/

/-- Lowest offset, and among failures at one offset the lowest reason. -/
def worst : List VErr → Option VErr
  | [] => none
  | e :: r => some (r.foldl (fun b x => if x.1 < b.1 || (x.1 = b.1 && x.2 < b.2) then x else b) e)

/-- The failure of a function (R379): reason and offset; none when it verifies. -/
def verify (m : Module) (f : Nat) : Option (Nat × Nat) :=
  let ws := m.words f
  let (is, stop, clean) := vItems m.rtypes ws.length 0 0 [] ws
  let bs := vBlocks is
  let nb := bs.length
  let ats := (bs.mapIdx fun b xs => (xs.mapIdx fun j x => x.defs.map fun _ => (b, j)).flatten).flatten
  let c : VCtx := ⟨m, f, bs, nb, stop.isNone, is.flatMap VItem.defs, ats, domSets nb (vSuccs nb bs)⟩
  let sl := c.slots
  let all := stop.toList ++
    (bs.mapIdx fun b xs => (xs.mapIdx fun j x => (c.itemErrs b j x).map fun e => (x.off, e)).flatten).flatten ++
    (bs.mapIdx fun b xs => (c.blockErrs b xs ++ (if b + 1 = nb && !clean then [0x07] else [])).map fun e =>
      (((xs.head?.map VItem.off).getD 0), e)).flatten ++
    (if bs.isEmpty && stop.isNone then [(0, 0x07)] else []) ++
    c.sizeErrs is ++ bs.flatMap (c.loopErrs none []) ++ c.scopeErrs ++ c.slotErrs sl ++ c.linearErrs ++ c.clashErrs sl ++ c.headErrs
  (worst all).map fun e => (e.2, e.1)

end Sys2Proof.Machine
end

