-- ==== Sys2Proof/Machine/Translate.lean ====
section
/-! DEFINITION. The translator, its cache, the resident stub and translation switches (10 R238 to R264, 11 R285, R286, 17 R380, 19 R431, 21 R460). -/

namespace Sys2Proof.Machine

/-! ### Entries and their events -/

/-- Points of the region of a key. -/
def Module.regionPoints (m : Module) (k : Key) : List (Nat × Nat) :=
  let is := m.items k.func
  let die := if k.kind = 1 then 0 else 6
  let r := regionOf is k.runlim die k.entry
  (pointsOf is k.runlim k.step).filter fun p => r.1 ≤ p.1 && p.1 < r.2

/-- Bits [511:216] of a translator event (R263). -/
def trBody (e : TEntry) (time oldb : Nat) : Nat :=
  let k := e.key
  k.func + k.entry * 2 ^ 16 + k.tiles * 2 ^ 56 + boolN k.origin * 2 ^ 59 + k.kind * 2 ^ 60 + k.rev * 2 ^ 68 + k.wlog2 * 2 ^ 72 +
    k.budget * 2 ^ 76 + k.runlim * 2 ^ 83 + boolN k.step * 2 ^ 96 + oldb * 2 ^ 97 + e.points.length % 2 ^ 16 * 2 ^ 104 +
    (if k.origin then 0 else min e.spills.length 65535) * 2 ^ 120 + min time (2 ^ 32 - 1) * 2 ^ 136 +
    (if k.origin then 0 else k.hash.toNat % 2 ^ 128 * 2 ^ 168)

/-- Source number of the troop context that a reference names. -/
def State.srcOf (s : State) (r : SplitRef) : Nat :=
  match s.camp? r.tr.camp with
  | some c => s.csrc c.core (((c.troops.find? fun t => t.mem = r.tr.mem).map Troop.ctx).getD 0)
  | none => s.gsrc srcSched

/-- Posts a translator event to the ring of the leaf of a troop. -/
def State.postTr (s : State) (r : SplitRef) (kind reason body : Nat) : State :=
  s.post (s.launch r.tr.camp.lid).path ⟨kind, reason, s.srcOf r, 0, body⟩

/-- EVICT carries no time and no spills. -/
def evictBody (e : TEntry) : Nat := trBody { e with spills := [] } 0 0

/-! ### The cache (R255, R256) -/

/-- The entry that a request finds: ORIGIN 1 of the module handle first (R238). -/
def State.cached (s : State) (k : Key) (mh : Nat) : Option TEntry :=
  match s.tcache.find? fun e => e.key = k.native mh && !e.old with
  | some e => some e
  | none => s.tcache.find? fun e => e.key = k && !e.old

/-- Whether a bank holds an entry's code. -/
def Bank.holds (b : Bank) (k : Key) : Bool := (b.st = .valid || b.st = .loading) && b.key = some k

/-- Whether a camp held as a native image names an entry. -/
def State.imageNames (s : State) (k : Key) : Bool :=
  s.camps.any fun c => match c.place with
    | .image _ => c.troops.any fun t => t.splits.any fun p =>
        s.splitKey c t p = k || (s.splitKey c t p).native p.mh = k
    | _ => false

/-- Whether an entry is pinned (R255); a discarded one by the banks that still hold it (R260). -/
def State.pinned (s : State) (e : TEntry) : Bool :=
  if e.old then e.keep.any fun q => ((s.coreOf q.1).bank q.2).holds e.key
  else (s.cores.any fun c => c.b0.holds e.key || c.b1.holds e.key) || s.imageNames e.key || s.claims.any fun c => c.key = e.key

/-- Removes an entry and frees its pages. -/
def State.dropEntry (s : State) (e : TEntry) : State :=
  { s with tcache := s.tcache.filter fun x => x.page != e.page, tcFree := s.tcFree + e.pages }

/-- Discarded entries that no bank holds any more leave the cache. -/
def State.sweep (s : State) : State := (s.tcache.filter fun e => e.old && !s.pinned e).foldl State.dropEntry s

/-- The unpinned entry hit least recently. -/
def State.lru (s : State) : Option TEntry :=
  match s.tcache.filter fun e => !s.pinned e with
  | [] => none
  | e :: r => some (r.foldl (fun b x => if x.use < b.use then x else b) e)

/-- Evicts entries until `n` pages are free: the state, and the entries in eviction order; none while every entry is pinned (R256). -/
def State.evictTo (n : Nat) : Nat → State → Option (State × List TEntry)
  | 0, s => if n ≤ s.tcFree then some (s, []) else none
  | fuel + 1, s =>
    if n ≤ s.tcFree then some (s, [])
    else match s.lru with
      | none => none
      | some e => (State.evictTo n fuel (s.dropEntry e)).map fun r => (r.1, e :: r.2)

/-- Room for `n` pages. -/
def State.cacheRoom (s : State) (n : Nat) : Option (State × List TEntry) := State.evictTo n s.tcache.length s.sweep

/-- Header of a bundle that only begins a portable point: PP, no slots (11 R265). -/
def pointHeader : Nat := 0x80000400

/-- An entry made by translation: its code has a bundle for each point, and stands for the portable instructions that follow it (log 7); its side table is that of the scan (R250 to R253). -/
def State.makeEntry (s : State) (m : Module) (k : Key) : TEntry :=
  let die := if k.kind = 1 then 0 else 6
  let is := m.items k.func
  let sm := scanMap m.rtypes is k.budget k.tiles (2 ^ k.wlog2)
  let ps : List Point := (m.regionPoints k).mapIdx fun i p => ⟨p.1, 4 * i, p.2, sm.locs m.rtypes p.1⟩
  ⟨k, s.newPage (entryPages ps), entryPages ps, (regionOf is k.runlim die k.entry).2, ps,
    ps.flatMap fun _ => leBytes 4 pointHeader, sm.frame.spillSlots, sm.frame.imageBase, s.tcUse, false, false, false, []⟩

/-- Enters an entry in the cache. -/
def State.addEntry (s : State) (e : TEntry) : State :=
  { s with tcache := e :: s.tcache, tcFree := s.tcFree - e.pages, tcUse := s.tcUse + 1 }

/-- Notes a hit; the first hit of an ORIGIN 1 entry posts TRANSLATE reason 1 (R264). -/
def State.hitEntry (s : State) (r : SplitRef) (e : TEntry) : State :=
  let s1 : State := { s with
    tcUse := s.tcUse + 1
    tcache := s.tcache.map fun x => if x.page = e.page then { x with use := s.tcUse, hit := true } else x }
  if e.key.origin && !e.hit then s1.postTr r 0x01 1 (trBody e 0 0) else s1

/-! ### Verification failures (17 R380, R381) -/

/-- XADDR of XLATE. -/
def xlateAddr (reason func off : Nat) : W64 := BitVec.ofNat 64 (off + func * 2 ^ 32 + reason * 2 ^ 56)

/-- A remembered failure of a function. -/
def State.vfail? (s : State) (hash : BitVec 256) (func : Nat) : Option VFail :=
  s.vfails.find? fun v => v.hash = hash && v.func = func

/-- XLATE in the focused split's lanes at its point. -/
def State.raiseXlate (s : State) (v : VFail) : State :=
  ({ s with sp := { s.sp with st := .ready } }).trapAll cXLATE (xlateAddr v.reason v.ffunc v.off)

/-! ### Requests (R240) -/

/-- The focused split enters a bank. -/
def State.enterBank (s : State) (b : Fin 2) : State :=
  { s with sp := { s.sp with st := .ready, nat := s.sp.nat.map fun p => { p with bank := b } } }

/-- The lines of an entry's code. -/
def TEntry.lines (e : TEntry) : Nat := max 1 ((e.code.length + 63) / 64)

/-- The stub's overlay of an entry into a bank: one command for the whole region, which belongs to the core and to no camp. -/
def State.stubOverlay (s : State) (k : CoreId) (b : Fin 2) (e : TEntry) : State :=
  let n := 64 * e.lines
  s.overlay k b e.key e.lines (e.page * 65536, n, 0, BitVec.ofNat 32 (adler 1 (e.pageBytes 0 0 n)), ⟨0, 0⟩)

/-- Whether the focused troop has yet to switch to its camp's budget or tile grant. -/
def State.switching (s : State) : Bool := s.cp.budget != s.tr.budget || s.cp.tiles != s.tr.tiles

/-- Posts the RETRANSLATE of a camp's budget change after the first request for the new key (R264). -/
def State.postSwitch (s : State) (e : TEntry) : State :=
  match s.cp.oldb with
  | some b => if s.switching then s else { s.postTr s.spRef 0x03 0 (trBody e 0 b) with cp := { s.cp with oldb := none } }
  | none => s

/-- The focused split waits on a claim, or makes one. -/
def State.claimKey (s : State) (again : Bool) : State :=
  let k := s.spKey
  match s.claims.find? fun c => c.key = k with
  | some c => { s with
      claims := s.claims.map fun x => if x.n = c.n then { x with waiters := x.waiters ++ [s.spRef] } else x
      sp := { s.sp with st := .claim c.n } }
  | none => { s with
      claims := s.claims ++ [⟨s.nextClaim, k, s.sp.mh, s.cp.core.die, s.cp.core.cl, s.stamp.toNat, s.spRef, [], again, s.cp.core.core⟩]
      nextClaim := s.nextClaim + 1
      sp := { s.sp with st := .claim s.nextClaim } }

/-- A request for the focused split's region. -/
def State.requestRegion (s : State) : State :=
  let k := s.spKey
  match s.vfail? k.hash k.func, s.module? s.sp.mh with
  | some v, _ => s.raiseXlate v
  | none, none => s
  | none, some m =>
    if s.invalidHere then s.claimKey true
    else match s.cached k s.sp.mh with
      | none => s.claimKey false
      | some e =>
        match (if e.key.origin && !e.hit then verify m k.func else none) with
        | some (reason, off) =>
          let v : VFail := ⟨k.hash, k.func, reason, k.func, off⟩
          ({ s with vfails := v :: s.vfails }).raiseXlate v
        | none =>
          let s1 := (s.hitEntry s.spRef e).postSwitch e
          match (s1.coreOf s1.cp.core).bankOf k s1.sp.mh with
          | some b => s1.enterBank b
          | none => match s1.freeBank s1.cp.core k s1.sp.mh s1.sp.left with
            | some b => s1.stubOverlay s1.cp.core b e
            | none => s1

/-- TRANSLATION_REQUEST: for a split that is parked. -/
def execTranslationRequest (r : SplitRef) (s : State) : Out :=
  .next (match s.focusOn r with
    | some f => if f.sp.st = .parked then f.requestRegion.unfocus else s
    | none => s)

/-! ### Completion of a translation -/

/-- Frees the splits that waited on a claim: the stub serves them again, or they take XLATE. -/
def State.serveWaiters (s : State) (n : Nat) (v : Option VFail) : List SplitRef → State
  | [] => s
  | r :: rest =>
    let s1 := match s.focusOn r with
      | none => s
      | some f =>
        if f.sp.st != .claim n then s
        else match v with
          | some v => if f.cp.resident then (f.raiseXlate v).unfocus
                      else { f with sp := { f.sp with st := .parked } }.unfocus
          | none => { f with sp := { f.sp with st := .parked } }.unfocus
    State.serveWaiters s1 n v rest

/-- The banks of a core that hold a key. -/
def Core.holders (c : Core) (k : Key) : List (CoreId × Fin 2) :=
  (if c.b0.holds k then [(c.id, 0)] else []) ++ if c.b1.holds k then [(c.id, 1)] else []

/-- Discards an entry: it leaves the cache, or stays pinned to the banks that hold it (R260). -/
def State.discardEntry (s : State) (e : TEntry) : State :=
  match s.cores.flatMap fun c => c.holders e.key with
  | [] => s.dropEntry e
  | hs => { s with tcache := s.tcache.map fun x => if x.page = e.page then { x with old := true, keep := hs } else x }

/-- The entry of a claim is discarded before a re-translation (R260); the INVALID banks of the cores that asked for it are empty, with their tag. -/
def State.discard (s : State) (c : Claim) : State :=
  let mine (k : Option Key) : Bool := k = some c.key || k = some (c.key.native c.mh)
  let ks := (c.by_ :: c.waiters).filterMap fun r => (s.camp? r.tr.camp).map Camp.core
  let s1 := (s.tcache.filter fun e => !e.old && mine (some e.key)).foldl State.discardEntry s
  { s1 with cores := s1.cores.map fun k =>
      let clear (b : Bank) : Bank := if b.st = .invalid && mine b.key then { b with st := .empty } else b
      if ks.contains k.id then { k with b0 := clear k.b0, b1 := clear k.b1 } else k }

/-- Keys of the regions of other functions that a region overlays: the entries of those it calls, in order (15 R372). -/
def Module.calleeKeys (m : Module) (k : Key) : List Key :=
  let is := m.items k.func
  let r := regionOf is k.runlim (if k.kind = 1 then 0 else 6) k.entry
  ((is.filterMap fun a => match a.item with
    | .instr (.call f _) => if r.1 ≤ a.off && a.off < r.2 && f != k.func then some f else none
    | _ => none).eraseDups).map fun f => { k with func := f, entry := 0 }

/-- Whether a key is used as it stands, or is not waited on: cached, being made higher in the chain, claimed by another request, or known to fail (R372, R380). -/
def State.asItIs (s : State) (c : Claim) (chain : List Key) (k : Key) : Bool :=
  (s.cached k c.mh).isSome || chain.contains k || (s.claims.any fun x => x.key = k && x.n != c.n) || (s.vfail? k.hash k.func).isSome

/-- What a translation has made so far: the state, the entries made and those evicted, each in order. -/
structure Made where
  st : State
  made : List TEntry
  out : List TEntry

/-- Makes the entry of one key; none while the cache has no room (R256). -/
def Made.entry (x : Made) (m : Module) (k : Key) : Option Made :=
  (x.st.cacheRoom (x.st.makeEntry m k).pages).map fun r =>
    let e := r.1.makeEntry m k
    ⟨r.1.addEntry e, x.made ++ [e], x.out ++ r.2⟩

/-- Makes the entries of regions that a claim's region overlays, depth first (R372). A function that fails verification is remembered, and its region gets no entry. -/
def Made.keys (c : Claim) (m : Module) : Nat → List Key → Made → List Key → Option Made
  | 0, _, x, _ => some x
  | fuel + 1, chain, x, ks => ks.foldl (fun y k => y.bind fun x =>
      if x.st.asItIs c chain k then some x
      else match verify m k.func with
        | some (reason, off) => some { x with st := { x.st with vfails := ⟨k.hash, k.func, reason, k.func, off⟩ :: x.st.vfails } }
        | none => (Made.keys c m fuel (k :: chain) x (m.calleeKeys k)).bind fun z => z.entry m k) (some x)

/-- The events of a request, in the order of R264: EVICT, then TRANSLATE, or RETRANSLATE for the region translated anew. -/
def Made.post (x : Made) (c : Claim) : State :=
  let s1 := x.out.foldl (fun t e => t.postTr c.by_ 0x02 (if e.key.runlim = t.runlim then 0 else 1) (evictBody e)) x.st
  x.made.foldl (fun t e =>
    let body := trBody e (t.stamp.toNat - c.time) 0
    if c.again && e.key = c.key then t.postTr c.by_ 0x03 1 body else t.postTr c.by_ 0x01 0 body) s1

/-- TRANSLATE: a claim's translation completes (R240): installed, or XLATE in every split that waits; while no page can be freed the claim waits (R256). -/
def execTranslate (n : Nat) (s : State) : Out :=
  let u := s.unfocus
  .next (match u.claims.find? fun c => c.n = n with
    | none => u
    | some c =>
      let free (t : State) : State := { t with claims := t.claims.filter fun x => x.n != n }
      match u.module? c.mh with
      | none => (free u).serveWaiters n none (c.by_ :: c.waiters)
      | some m => match verify m c.key.func with
        | some (reason, off) =>
          let v : VFail := ⟨c.key.hash, c.key.func, reason, c.key.func, off⟩
          (free { u with vfails := v :: u.vfails }).serveWaiters n (some v) (c.by_ :: c.waiters)
        | none =>
          match (Made.keys c m (m.funcs.length + 1) [c.key] ⟨if c.again then u.discard c else u, [], []⟩ (m.calleeKeys c.key)).bind
              fun x => x.entry m c.key with
          | none => u
          | some x => (free (x.post c)).serveWaiters n none (c.by_ :: c.waiters))

/-! ### Translation switches (R258, R259) -/

/-- The troop is on the new key once none of its splits runs native code of the old one; the first troop of the camp notes the event. -/
def State.switchTroop (s : State) : State :=
  if s.sp.nat.isSome || s.tr.splits.any fun p => p.nat.isSome then s
  else
    let first := s.cp.troops.all fun t => t.budget != s.cp.budget || t.tiles != s.cp.tiles
    { s with
      cp := { s.cp with oldb := if first then some s.tr.budget else s.cp.oldb }
      tr := { s.tr with budget := s.cp.budget, tiles := s.cp.tiles, stubv := stubVal s.tr.stubv 4 s.sp.func s.sp.off }
      sp := { s.sp with st := .parked } }

/-- TRANSLATION_SWITCH: the split at its point leaves the old map once its queue entries have landed (R258). -/
def execTranslationSwitch (r : SplitRef) (s : State) : Out :=
  .next (match s.focusOn r with
    | some f => if f.switching && f.sp.lq.all (fun e => e.2.landed) then f.toPortable.switchTroop.unfocus else s
    | none => s)

/-! ### The resident stub (11 R285, R286) -/

/-- The split has entered the stub that RQ asked for; RQ clears with the last. -/
def State.answerRq (s : State) : State :=
  let s1 : State := { s with sp := { s.sp with rq := false } }
  if s1.tr.splits.any fun p => p.rq then s1
  else { s1 with tr := { s1.tr with stubv := s1.tr.stubv &&& ~~~1 } }

/-- Whether a split waits at a portable point, its queue entries landed, so that the stub may park it. -/
def Split.parkable (p : Split) : Bool :=
  (p.rewind.lq.all fun e => e.2.landed) && (p.stop.isSome || match p.st with
    | .barrier _ _ | .rendezvous _ | .forming _ | .join | .claim _ | .converge _ => true
    | _ => false)

/-- Parks the splits of a bank: native ones leave their registers at their points. -/
def State.vacate (s : State) (k : CoreId) (b : Fin 2) : State :=
  let rs := (s.splitsIn k b).map Prod.fst
  let s1 := rs.foldl (fun t r => match t.focusOn r with
    | some f => ({ f with sp := f.sp.rewind }).toPortable.unfocus
    | none => t) s
  s1.modCore k fun c => c.setBank b Bank.reset

/-- A bank all of whose splits wait: the one whose splits have waited longest. -/
def State.takeable (s : State) (k : CoreId) : Option (Fin 2) :=
  let ok (b : Fin 2) : Bool := (s.splitsIn k b).all fun p => p.2.parkable
  let age (b : Fin 2) : Nat := (s.splitsIn k b).foldl (fun m p => max m p.2.issued) 0
  match ok 0, ok 1 with
  | true, true => if age 1 < age 0 then some 1 else some 0
  | true, false => some 0
  | false, true => some 1
  | false, false => none

/-- The machine fault OVLREPEAT (21 R460); the manual gives it no XADDR (log 24). -/
def State.ovlRepeat (s : State) : State :=
  let a := s.free
  let s1 := s.freed.modCore s.cp.core fun c => { c with fails := 0, failKey := none }
  let s2 := s1.postLeaf s.cp.ref.lid 0x04 cOVLREPEAT s.src (s.evBody a.toNat s.sp.func s.sp.off 0)
  ({ s2 with sp := { s2.sp with st := .ready } }).trapAll cOVLREPEAT a

/-- Whether three overlays of the split's region have failed in a row on its core. -/
def State.repeated (s : State) : Bool :=
  let c := s.coreOf s.cp.core
  3 ≤ c.fails && (c.failKey = some s.spKey || c.failKey = some (s.spKey.native s.sp.mh))

/-- The service of the focused parked split (R285). -/
def State.serve (s : State) : State :=
  let k := s.spKey
  let core := s.cp.core
  if s.repeated then s.ovlRepeat
  else if s.sp.rq then s.answerRq.requestRegion
  else match (s.coreOf core).bankOf k s.sp.mh with
    | some b => if s.cp.oldb.isSome then s.requestRegion else s.enterBank b
    | none =>
      if s.invalidHere then s.requestRegion
      else match s.freeBank core k s.sp.mh s.sp.left with
        | some _ => s.requestRegion
        | none =>
          let r := s.spRef
          let u := s.unfocus
          match u.takeable core with
          | none => s
          | some b => match (u.vacate core b).focusOn r with
            | some f => f.requestRegion
            | none => s

/-- Whether the stub can serve a parked split now, seen with the split in the focus. -/
def State.servable (s : State) : Bool :=
  let core := s.cp.core
  s.repeated || s.sp.rq || ((s.coreOf core).bankOf s.spKey s.sp.mh).isSome || s.invalidHere ||
  (s.freeBank core s.spKey s.sp.mh s.sp.left).isSome || (s.unfocus.takeable core).isSome

/-- STUB_SERVICE. -/
def execStubService (r : SplitRef) (s : State) : Out :=
  .next (match s.focusOn r with
    | some f => if f.sp.st = .parked && f.cp.resident then f.serve.unfocus else s
    | none => s)

end Sys2Proof.Machine
end

