-- ==== Sys2Proof/Machine/Fail.lean ====
section
/-! DEFINITION. Camps that leave their cores, camps that fail, and dies that are fenced (13 R328 to R331, 20 R448, 21 R461 to R464). -/

namespace Sys2Proof.Machine

/-! ### Leaving a core -/

/-- What leaving a core does to a split: its map grant is void (19 R422), and what only waited on the core is tried again. -/
def Split.offCore (p : Split) : Split :=
  let st := match p.st with
    | .pool _ | .tile _ _ | .srcReads => .ready
    | .command 0 => .ready
    | st => st
  { p with st := st, grant := false, denied := false }

/-- Unpinned tiles are evicted, a refill in progress is abandoned (R235, R435). -/
def Res.offCore (r : Res) : Res :=
  { r with tiles := if r.pin then r.tiles else [] }

def Troop.offCore (t : Troop) : Troop := { t with splits := t.splits.map Split.offCore }

/-- A command off its core carries no recorded fault: after the restore its walk starts again (19 R426). -/
def CopyCmd.offCore (x : CopyCmd) : CopyCmd :=
  if x.stopAt.isSome then { x with stopAt := none, codes := x.codes.filter fun c => c != 2 } else x

/-- A camp off its core: the bundle boundary at which each split stopped is in its native position, with what is in flight. -/
def Camp.leave (c : Camp) (p : Place) : Camp :=
  { c with
    place := p, troops := c.troops.map Troop.offCore, res := c.res.map Res.offCore, cmds := c.cmds.map CopyCmd.offCore
    bad := false }

/-- A trap whose entry is in progress completes first when nothing holds it (20 R448). -/
def State.enterTraps (s : State) (c : CampRef) : State :=
  match s.camps.find? fun k => k.ref = c with
  | none => s
  | some k =>
    let rs : List SplitRef := k.troops.flatMap fun t => t.splits.filterMap fun p => match p.st with
      | .trap _ => some ⟨⟨c, t.mem⟩, p.sid⟩
      | _ => none
    rs.foldl (fun t r => match t.focusOn r with
      | none => t
      | some f => match f.sp.st, (f.tenantOf f.lch).bind Tenant.handler with
        | .trap q, some (mh, fn) =>
          if f.trapFree != 0 && f.sp.landed && !f.statusDue then (f.enterHandler mh fn q).unfocus else f.unfocus
        | _, _ => f.unfocus) s

/-- A bank without the overlay commands of a camp (R328, 12 R307); one that no command loads any more is EMPTY (DESIGN CHOICE, log 92). -/
def Bank.dropOvl (b : Bank) (c : CampRef) : Bank :=
  let l := b.ovl.filter fun x => x.2.2.2.2 != c
  if l = b.ovl then b else if b.st = .loading && l.isEmpty then { b with st := .empty, ovl := l } else { b with ovl := l }

/-- A core that a camp leaves: budgets are raised at the next boundary, the request in the mailbox is discarded, the camp's overlay commands are dropped (R326, R328, R331). -/
def Core.campOff (x : Core) (c : CampRef) (now : Nat) : Core :=
  { x with left := true, idle := now, mail := none, b0 := x.b0.dropOvl c, b1 := x.b1.dropOvl c }

/-- Takes a camp off its core with a native image (R328). -/
def State.offNative (s : State) (c : CampRef) : State :=
  let u := (s.unfocus).enterTraps c
  match u.camps.find? fun k => k.ref = c with
  | none => u
  | some k => match k.place with
    | .on j => (u.modCamp c fun k => k.leave (.image j)).modCore j fun x => x.campOff c u.stamp.toNat
    | _ => u

/-- Asks for a portable pack of a camp (R330): one on its core runs to its points; one that holds a native image will do so when it is restored. -/
def State.offPack (s : State) (c : CampRef) : State :=
  s.modCamp c fun k => match k.place with
    | .on j => { k with place := .packing j }
    | .image _ => { k with wants := true }
    | _ => k

/-- The camps of a launch that have not ended. -/
def State.campsOf (s : State) (lid : Nat) : List Camp := s.camps.filter fun c => c.ref.lid = lid && c.place != .ended && c.place != .moved

/-- A pack of a camp, and of every camp of its COHORT launch (02 R48). -/
def State.packOff (s : State) (c : CampRef) : State :=
  if (s.launch c.lid).cohort then (s.campsOf c.lid).foldl (fun t k => t.offPack k.ref) s else s.offPack c

/-- Takes a camp off its core: with a native image, or, for a COHORT launch, every camp of it at its next points, so that they leave and return together (02 R48). -/
def State.takeOff (s : State) (c : CampRef) : State :=
  if (s.launch c.lid).cohort then s.unfocus.packOff c else s.offNative c

/-- CAMP_TAKEOFF. -/
def execCampTakeoff (c : CampRef) (s : State) : Out := .next (s.takeOff c)

/-! ### Standing at a point (13 R330) -/

/-- Whether the focused split's position is a portable point at which nothing of the point is left undone. -/
def State.atSpot (s : State) : Bool :=
  match s.sp.nat with
  | none => s.atPoint
  | some p => p.pend.isNone && (s.natEntry.bind fun e => e.pointOf p.off).isSome && !s.sp.matched && !s.sp.arrived &&
      s.sp.word.isNone

/-- Whether every value of a load-return queue has landed (10 R254). -/
def Split.queuesLanded (p : Split) : Bool := p.lq.all fun e => e.2.landed

/-- Whether a late fault waits in a lane of the focused split (18 R404). -/
def State.lateDue (s : State) : Bool := (lanesOf s.tr.width s.sp.mask).any fun l => (s.tr.lane l).late.isSome

/-- Whether the focused split stands at a portable point, in user mode, as a pack needs it. -/
def State.standing (s : State) : Bool :=
  !s.sup && !s.lateDue && s.sp.queuesLanded && match s.sp.st with
    | .join => true
    | .peer _ | .trap _ => false
    | .command n => n = 0 && s.atSpot
    | _ => s.atSpot

/-- The splits of a camp. -/
def Camp.splitRefs (c : Camp) : List SplitRef := c.troops.flatMap fun t => t.splits.map fun p => ⟨⟨c.ref, t.mem⟩, p.sid⟩

/-- Whether every split of a camp stands at a point. -/
def State.allStand (s : State) (c : Camp) : Bool := c.splitRefs.all fun r => (s.focusOn r).any State.standing

/-! ### Failed camps (21 R461, R462) -/

/-- The residency table that a restart goes back to: entries of the pack, with the marks that their watches have recorded since (R462). -/
def Camp.oldRes (c : Camp) (p : Pack) : List Res :=
  p.res.map fun r => match c.res.find? fun q => q.num = r.num && q.gen = r.gen with
    | some q => { r with tiles := [], todo := [], watch := q.watch, since := none, stale := match r.stale with
        | some x => some x
        | none => q.since }
    | none => { r with tiles := [], todo := [], since := none, watch := none, stale := if r.watch.isSome then some (r.stale.getD 2) else r.stale }

/-- Private pages mapped since the pack stay mapped (04 R86). -/
def Troop.keepPages (t : Troop) (old : List Troop) : Troop :=
  match old.find? fun u => u.mem = t.mem with
  | some u => { t with proot := u.proot, hwm := u.hwm, pages := u.pages }
  | none => t

/-- A camp as its last pack has it, off its core. -/
def Camp.restart (c : Camp) (p : Pack) : Camp :=
  { c with
    place := .packed, troops := p.troops.map fun t => t.keepPages c.troops, scr := p.scr, res := c.oldRes p
    accs := p.tiles, cmds := p.cmds, orb := p.orb, oldb := none, wants := false, bad := c.bad && c.place = .packed }

/-- A camp as before its first placement. -/
def Camp.afresh (c : Camp) : Camp :=
  { c with
    place := .queued, troops := [], scr := [], res := [], accs := [], cmds := [], orb := [], oldb := none
    wants := false, dry := false, bad := false }

/-- Whether a request was sent by a camp. -/
def PeerReq.ofCamp (q : PeerReq) (c : CampRef) : Bool :=
  match q.by_ with
  | .load r _ _ _ _ _ | .amo r _ _ _ | .barrier r => r.tr.camp = c
  | .queue t _ | .store t _ => t.camp = c
  | .granule k _ _ | .orb k _ => k = c
  | .host _ | .sched _ | .flag _ => false

/-- Discards the state of a camp and makes it wait for its restart. -/
def State.restartCamp (s : State) (c : CampRef) : State :=
  match s.camps.find? fun k => k.ref = c with
  | none => s
  | some k =>
    let s0 : State := { s with trapFree := s.trapFree + k.trapAreas, reqs := s.reqs.filter fun q => !q.ofCamp c }
    let s1 := if k.resident then s0.modCore k.core fun x => x.campOff c s.stamp.toNat else s0
    match k.pack with
    | some p => s1.modCamp c fun k => k.restart p
    | none => (s1.freePrivate k).modCamp c Camp.afresh

/-- Reason codes of CAMPFAIL (21 R458). -/
def failReason (fdp fails : Nat) : Nat := if fdp = 1 then (if 3 ≤ fails then 4 else 1) else fdp

/-- A CAMPFAIL event. -/
def State.campFailEv (s : State) (c : Camp) (reason cause : Nat) : State :=
  s.postLeaf c.ref.lid 0x0D reason (s.gsrc srcSched)
    ⟨(c.pack.map fun p => p.stamp.toNat).getD 0, 0, 0, c.ref.camp, 0, cause⟩

/-- A camp fails with a cause: discarded without entering a handler, then restarted or killed as the fault-domain policy says (R461). -/
def State.failCamp (s0 : State) (c : CampRef) (cause : Nat) : State :=
  let s := s0.unfocus
  match s.camps.find? fun k => k.ref = c with
  | none => s
  | some k =>
    if k.place = .ended || k.place = .moved || k.place = .queued then s
    else
      let l := s.launch c.lid
      let s1 := s.modCamp c fun k => { k with fails := k.fails + 1 }
      let reason := failReason (effFdp l.path) (k.fails + 1)
      let s2 := s1.campFailEv k reason cause
      if reason = 1 then
        (if l.cohort then (s2.campsOf c.lid).foldl (fun t j => t.restartCamp j.ref) s2 else s2.restartCamp c)
      else if reason = 3 then
        let par := (l.path.head?.map Rcb.parent).getD 0
        let ls := (s2.launches.filter fun m => !m.done && inPath par m.path).map Launch.lid
        ls.foldl State.killLaunch s2
      else s2.killLaunch c.lid

/-- A lane of a camp dies (18 R409, R411): LANEDEATH is posted, and the camp fails when it was the troop's last live lane. -/
def State.laneDies (s0 : State) (t : TroopRef) (l code : Nat) : State :=
  let s := s0.unfocus
  match s.troop? t with
  | none => s
  | some u =>
    if !inMask u.live l then s
    else
      let b : Mask := maskOf [l]
      let freed := u.splits.any fun p => p.mask = b && p.sup.isSome && !(u.splits.any fun q => q.sid != p.sid && q.sup = p.sup)
      let s1 := ({ s with trapFree := s.trapFree + boolN freed }).modTroop t fun u =>
        ({ u with dead := u.dead ||| b, newDead := u.newDead ++ [l] }).leave b
      let func := ((u.splits.find? fun p => inMask p.mask l).map fun p => (p.func, p.lastPt)).getD (0, 0)
      let src := ((s.camp? t.camp).map fun k => s.csrc k.core u.ctx).getD (s.gsrc srcSched)
      let s2 := s1.postLeaf t.camp.lid 0x07 0 src ⟨0, func.2, func.1, t.camp.camp, t.mem, l % 1024 + 1024 * code⟩
      if u.live &&& ~~~b = 0 then s2.failCamp t.camp cDEADLANE
      else
        let s3 := s2.modTroop t fun u => u.settle
        (s3.push (.ropeFormed t.camp 0)).push (.rendezvousMatch t.camp u.ropeId)

/-! ### Fencing (21 R463) -/

def State.dieOf (s : State) (d : Nat) : Die := (s.dies.find? fun x => x.die = d).getD (Die.reset d)

def State.modDie (s : State) (d : Nat) (f : Die → Die) : State :=
  { s with dies := s.dies.map fun x => if x.die = d then f x else x }

/-- Native images that no enabled die can run any more fail (20 R447). -/
def State.orphans (s : State) (cause : Nat) : State :=
  let ok (kind : Nat) : Bool := s.dies.any fun d => !d.fenced && dieKind d.die = kind
  let cs := (s.camps.filter fun c => match c.place with
    | .image j => !ok (dieKind j.die)
    | _ => false).map Camp.ref
  cs.foldl (fun t c => t.failCamp c cause) s

/-- The claims of a die's translator are released and their waiters request again (R463). -/
def State.releaseClaims (s : State) (d : Nat) : State :=
  let cs := s.claims.filter fun c => c.die = d
  let s1 : State := { s with claims := s.claims.filter fun c => c.die != d }
  cs.foldl (fun t c => t.serveWaiters c.n none (c.by_ :: c.waiters)) s1

/-- A FENCE event. -/
def State.fenceEv (s : State) (trigger d : Nat) : Ev := ⟨0x0C, trigger, s.gsrc srcMgmt, 0, EvBody.pack ⟨0, 0, 0, 0, 0, d⟩⟩

/-- DIE FENCE: ports close, unacknowledged writes are dropped, camps fail, the die's cores leave placement. -/
def State.fenceDie (s0 : State) (d trigger : Nat) : State :=
  let s := s0.unfocus
  if (s.dieOf d).fenced || 8 ≤ d then s
  else
    let cs := (s.camps.filter fun c => c.resident && c.core.die = d).map Camp.ref
    let roots := ((cs.map fun c => (s.launch c.lid).root)).eraseDups
    let s0 : State := { s with
      stores := s.stores.filter fun p => p.die != d
      tlbs := s.tlbs.filter fun t => t.unit.die? != some d
      cores := s.cores.map fun c => if c.id.die = d then { Core.reset c.id with cur := c.cur, tgt := c.cur } else c }
    let s1 := s0.modDie d fun x => { x with fenced := true, queue := [] }
    let s2 := s1.releaseClaims d
    let s3 := s2.postOwner (s2.fenceEv trigger d)
    let s4 := roots.foldl (fun t r => t.post (t.rootPath r) (t.fenceEv trigger d)) s3
    (cs.foldl (fun t c => t.failCamp c trigger) s4).orphans trigger

/-- THERMAL: the junction reached 115 degrees (14 R344, R460). -/
def execThermal (die : Nat) (s : State) : Out := .next (s.fenceDie die 0x29)

/-- HANG: no heartbeat for 100 us. -/
def execHang (die : Nat) (s : State) : Out := .next (s.fenceDie die 0x2A)

end Sys2Proof.Machine
end

