-- ==== Sys2Proof/Machine/Self.lean ====
section
/-! DEFINITION. Steps that the machine takes by itself: commits, landings, waits that end, troops and launches that end (95; 05 R101, R192, 08 R199, 13 R324, R327). -/

namespace Sys2Proof.Machine

/-! ### STORE COMMIT (04 R101, R102, 05 R112) -/

/-- Whether two stores share a byte. -/
def Pending.overlaps (a b : Pending) : Bool := a.bytes.any fun x => b.bytes.any fun y => x.1 = y.1

/-- Whether an earlier store commits before a later one: the same core or troop writes the same byte, or the later one releases. -/
def Pending.precedes (a b : Pending) : Bool :=
  (a.core = b.core || (a.by_.isSome && a.by_ = b.by_)) && a.overlaps b ||
  releases b.ord && a.by_.isSome && a.by_ = b.by_

/-- The first store that has to commit for the one at a position: itself, when none precedes it. -/
def firstDue (ps : List Pending) : Nat → Nat → Nat
  | 0, n => n
  | fuel + 1, n =>
    match ps[n]? with
    | none => n
    | some p => match (ps.take n).findIdx? fun a => a.precedes p with
      | some m => firstDue ps fuel m
      | none => n

/-- Commits the store at a position; the acknowledgement brings the lane the SEEN of the Groundsheet (05 R114). -/
def State.commitAt (s : State) (n : Nat) : State :=
  match s.stores[n]? with
  | none => s
  | some p =>
    let g := maxW s.gseen p.seen
    let t := { s with stores := s.stores.eraseIdx n, gseen := g }.commit p.bytes
    match p.by_ with
    | none => t
    | some r => t.onTroop r fun u => { u with lanes := u.lanes.mapIdx fun i x => if i = p.lane then { x with seen := maxW x.seen g } else x }

/-- STORE_COMMIT: the Groundsheet acknowledges a store; where one has to commit before it, that one. -/
def execStoreCommit (n : Nat) (s : State) : Out := .next (s.commitAt (firstDue s.stores n n))

/-! ### Engines, residencies, ropes -/

/-- GRANULE_LANDING. -/
def execGranuleLanding (c : CampRef) (cmd g : Nat) (s : State) : Out := .next (s.unfocus.granuleStep c cmd g)

/-- COMMAND_COMPLETE. -/
def execCommandComplete (c : CampRef) (cmd : Nat) (s : State) : Out := .next (s.unfocus.commandEnd c cmd)

/-- RESIDENCY_TILE_FILL. -/
def execResidencyTileFill (c : CampRef) (num tile : Nat) (s : State) : Out := .next (s.unfocus.tileFill c num tile)

/-- RENDEZVOUS_MATCH. -/
def execRendezvousMatch (c : CampRef) (rope : Nat) (s : State) : Out := .next (s.rendezvous c rope)

/-- ROPE_FORMED. -/
def execRopeFormed (c : CampRef) (mem : BitVec 32) (s : State) : Out := .next (s.ropeForming c mem)

/-! ### BARRIER WAIT END (08 R192, R194) -/

/-- The focused split has seen the phase change: the wait ends, an acquire for its lanes. -/
def State.endWait (s : State) : State :=
  let t : State := { s with sp := { s.sp with st := .ready } }
  if s.sp.nat.isSome then { t.acquired with sp := { t.acquired.sp with arrived := true } }
  else t.setCtx.acquired.advance

/-- The phase of the word a waiting split names, when it can be read here. -/
def State.phaseAt (s : State) (a : Nat) : Option Bool :=
  match s.wordSpot s.cp a with
  | some p => let v := s.readPlace p 8; some (fld v 63 1 = 1)
  | none => none

/-- Peer place of the word, when it lies in another package. -/
def State.wordPeer (s : State) (a : Nat) : Option (Nat × Nat) :=
  match tagOf a with
  | 0x00 => match s.xlat (.core s.cp.core) s.lch.tree a with
    | .ok x => match x.tgt with
      | .peer k wa => some (k, wa)
      | _ => none
    | .error _ => none
  | _ => none

/-- Whether a poll of the focused split's word is out. -/
def State.polling (s : State) : Bool := s.reqs.any fun q => q.by_ = .barrier s.spRef

/-- One look at the word of the focused split's wait. -/
def State.lookAt (s : State) (a : Nat) (ref : Bool) : State :=
  match s.phaseAt a, s.wordPeer a with
  | some ph, _ => if ph != ref then s.endWait else s
  | none, some (k, wa) =>
    if s.polling then s else (s.request k wa a 8 (.barrier s.spRef) .load ((s.tr.lane s.lead).seen)).getD s
  | none, none => s

/-- BARRIER_WAIT_END: a waiting split looks at its word; the wait ends only by a completion that it observes. -/
def execBarrierWaitEnd (r : SplitRef) (s : State) : Out :=
  .next (match s.focusOn r with
    | none => s
    | some f => match f.sp.st with
      | .barrier a ref => if f.cp.resident then (f.lookAt a.toNat ref).unfocus else s
      | _ => s)

/-- Whether that step changes something, seen with the split in the focus. -/
def State.waitOver (s : State) : Bool :=
  match s.sp.st with
  | .barrier a ref => match s.phaseAt a.toNat, s.wordPeer a.toNat with
    | some ph, _ => ph != ref
    | none, some (k, _) => !s.polling && (s.linkTo k).isSome
    | none, none => false
  | _ => false

/-! ### AGING STEP (13 R327) -/

/-- An aging step: the splits of the core that were ready at each of its last 64 issues without issuing age, and records change places with those in reserved memory (02 R34). -/
def State.ageCore (s : State) (k : CoreId) : State :=
  let c := s.coreOf k
  let age (p : Split) : Split :=
    { p with aged := p.aged || (p.ready && !p.waited && p.issued + 64 ≤ c.issues), waited := false }
  let s1 := s.mapOn k fun _ p => age p
  (s1.seatAs k (exchangeRows (tableSize k) (c.issues - c.sinceAge) (seatAll (tableSize k) (s1.rowsOn k)))).modCore k
    fun c => { c with sinceAge := 0 }

/-- AGING_STEP: due after every 64 bundle issues of the core. -/
def execAgingStep (k : CoreId) (s : State) : Out :=
  .next (if (s.coreOf k).sinceAge < 64 then s else s.unfocus.ageCore k)

/-! ### TRAP ENTRY (18 R397) -/

/-- Enters the handler for the focused split that waits for it, when its landings and status are complete and a trap area is free. -/
def State.trapEnter (s : State) : State :=
  match s.sp.st, (s.tenantOf s.lch).bind Tenant.handler with
  | .trap q, some (mh, fn) => if s.trapFree != 0 && s.sp.landed && !s.statusDue then s.enterHandler mh fn q else s
  | _, _ => s

/-- Whether that step changes something. -/
def State.trapDue (s : State) : Bool :=
  match s.sp.st with
  | .trap _ => ((s.tenantOf s.lch).bind Tenant.handler).isSome && s.trapFree != 0 && s.sp.landed && !s.statusDue
  | _ => false

/-- TRAP_ENTRY. -/
def execTrapEntry (r : SplitRef) (s : State) : Out :=
  .next (match s.focusOn r with
    | some f => if f.cp.resident then f.trapEnter.unfocus else s
    | none => s)

/-! ### TROOP END (02 R54, 08 R199) -/

/-- Whether a troop has ended: no live lane, and everything its lanes issued is acknowledged. -/
def State.troopDone (s : State) (c : Camp) (t : Troop) : Bool :=
  t.live = 0 && !(s.stores.any fun p => p.by_ = some ⟨c.ref, t.mem⟩) && !(c.cmds.any fun x => x.mem = t.mem) &&
  !(s.reqs.any fun q => match q.by_ with
    | .load r _ _ _ _ _ | .amo r _ _ _ | .barrier r => r.tr = ⟨c.ref, t.mem⟩
    | .queue r _ | .store r _ => r = ⟨c.ref, t.mem⟩
    | .granule k _ _ => k = c.ref
    | .orb k o => k = c.ref && o.mem = t.mem
    | .host _ | .sched _ | .flag _ => false)

/-- Whether a camp has ended. -/
def State.campDone (s : State) (c : Camp) : Bool :=
  c.place != .ended && !c.troops.isEmpty && c.troops.all fun t => s.troopDone c t

/-- TROOP_END: with its last troop the camp ends, and with its last camp the launch. -/
def execTroopEnd (t : TroopRef) (s : State) : Out :=
  let u := s.unfocus
  .next (match u.camps.find? fun c => c.ref = t.camp with
    | none => u
    | some c =>
      if u.campDone c then
        let e := u.endCamp t.camp
        if e.allEnded t.camp.lid then e.push (.launchCompletion t.camp.lid) else e
      else u)

end Sys2Proof.Machine
end

