-- ==== Sys2Proof/Machine/Place.lean ====
section
/-! DEFINITION. Placement of camps (02 R36, R45, R48, 13 R325, R326, 15 R366, R367, 20 R443 to R446). -/

namespace Sys2Proof.Machine

/-! ### Resources of a core (02 R36, 10 R250) -/

/-- Troop contexts, scratchpad bytes, register-file bytes and tiles. -/
structure Res4 where
  ctx : Nat
  scr : Nat
  reg : Nat
  tile : Nat
  deriving DecidableEq, Repr

def Res4.add (a b : Res4) : Res4 := ⟨a.ctx + b.ctx, a.scr + b.scr, a.reg + b.reg, a.tile + b.tile⟩
def Res4.sub (a b : Res4) : Res4 := ⟨a.ctx - b.ctx, a.scr - b.scr, a.reg - b.reg, a.tile - b.tile⟩
def Res4.le (a b : Res4) : Bool := a.ctx ≤ b.ctx && a.scr ≤ b.scr && a.reg ≤ b.reg && a.tile ≤ b.tile

/-- What an idle core of a kind holds (01 R14). -/
def coreAll (kind : Nat) : Res4 := if kind = 1 then ⟨16, 1048576, 524288, 4⟩ else ⟨8, 524288, 131072, 2⟩

/-- What a camp of a launch takes under a budget and tile grant. -/
def Launch.needs (l : Launch) (b g : Nat) : Res4 := ⟨l.campsize, l.scratch, l.campsize * b * l.width * 4, l.campsize * g⟩

/-- Tile grant of a launch: one when its module holds an instruction of the matrix group (10 R250; log 26). -/
def State.tileGrant (s : State) (l : Launch) : Nat := boolN (((s.module? l.mh).map Module.matrix).getD false)

/-- Least budget of a launch (02 R36). -/
def Launch.minBudget (l : Launch) : Nat := max 8 l.rmin

/-- Largest budget and tile grant of a camp and its troops: registers and tiles of a change are claimed before it and given back after it (10 R259). -/
def Camp.mostRegs (c : Camp) : Nat := c.troops.foldl (fun b t => max b t.budget) c.budget
def Camp.mostTiles (c : Camp) : Nat := c.troops.foldl (fun g t => max g t.tiles) c.tiles

/-- What a placed camp holds; the context of a troop that has ended is free (08 R199). -/
def State.holds (s : State) (c : Camp) : Res4 :=
  let n := (s.launch c.ref.lid).needs c.mostRegs c.mostTiles
  { n with ctx := n.ctx - (c.troops.filter fun t => s.troopDone c t).length }

/-- What is free on a core, but for the camps given. -/
def State.freeOn (s : State) (k : CoreId) (drop : List CampRef) : Res4 :=
  let on := s.allCamps.filter fun c => c.issuesOn k && !drop.contains c.ref
  on.foldl (fun r c => r.sub (s.holds c)) (coreAll (dieKind k.die))

/-- The largest budget up to 120, rounded down to a multiple of 8, that a camp can be granted within `r` (02 R36). -/
def Launch.grant (l : Launch) (r : Res4) (g : Nat) : Option Nat :=
  let b := min 120 (r.reg / (l.campsize * l.width * 4)) / 8 * 8
  if (l.needs l.minBudget g).le r && l.minBudget ≤ b then some b else Option.none

/-- Whether a native image may be restored on a core: one of its kind (13 R329); another than its own only from a portable point of every split (01 R18). -/
def State.imageGoes (s : State) (c : Camp) (j k : CoreId) : Bool := dieKind j.die = dieKind k.die && (j = k || s.allStand c)

/-- The budget with which a core can hold a waiting camp, the camps of `drop` being gone: a native image needs its own kind and what it held (13 R329); an area of the save area is reserved at the budget granted (20 R443). -/
def State.fitOn (s : State) (k : CoreId) (c : Camp) (drop : List CampRef) : Option Nat :=
  let l := s.launch c.ref.lid
  let r := s.freeOn k drop
  if s.dies.any fun d => d.die = k.die && d.fenced then none
  else match c.place with
    | .image j => if s.imageGoes c j k && (l.needs c.mostRegs c.mostTiles).le r then some c.budget else none
    | _ =>
      let g := s.tileGrant l
      (l.grant r g).filter fun b => s.saveFits c (s.saveNeed l b g)

/-! ### Budgets of the region tree (02 R45) -/

/-- Distinct cores on which camps of the subtree of a node are resident, but for those of `drop`. -/
def State.coresOf (s : State) (node : Nat) (drop : List CampRef) : List CoreId :=
  (s.allCamps.filterMap fun c =>
    if c.resident && !drop.contains c.ref && inPath node (s.launch c.ref.lid).path then some c.core else none).eraseDups

/-- The node nearest the leaf whose CORES refuses a core. -/
def State.coreRefuser (s : State) (k : CoreId) (drop : List CampRef) : List Rcb → Option Rcb
  | [] => none
  | r :: rest =>
    let ks := s.coresOf r.addr drop
    if ks.contains k || ks.length + 1 ≤ s.effBudget .cores (r :: rest) then State.coreRefuser s k drop rest else some r

/-- Whether the launch links of a camp can be mapped (15 R366): one page for each troop under PAGES, with its tables from the fast pool. -/
inductive Links where
  | ok
  | budget (r : Rcb)
  | dry
  deriving DecidableEq, Repr

def State.linksFor (s : State) (c : Camp) : Links :=
  let l := s.launch c.ref.lid
  if c.place != .queued then .ok
  else match s.refuser .pages l.campsize l.path with
    | some r => .budget r
    | none => if s.fast.count < 4 * l.campsize then .dry else .ok

/-! ### Order and choice (13 R325) -/

/-- Rank of a launch: effective priority, regions whose energy is spent below every other. -/
def State.rank (s : State) (l : Launch) : Nat :=
  effPrio l.path + (if s.spent.any fun n => inPath n l.path then 0 else 256)

/-- Whether the first of two waiting camps comes before the second. -/
def State.before (s : State) (a b : Camp) : Bool :=
  let ra := s.rank (s.launch a.ref.lid)
  let rb := s.rank (s.launch b.ref.lid)
  rb < ra || (ra = rb && (a.ref.lid < b.ref.lid || (a.ref.lid = b.ref.lid && a.ref.camp < b.ref.camp)))


/-- Whether a cluster holds translation-cache entries of a launch: a bank of one of its cores names its module (log 26). -/
def State.clusterHas (s : State) (k : CoreId) (l : Launch) : Bool :=
  let h := ((s.module? l.mh).map Module.hash).getD 0
  let names (b : Bank) : Bool := match b.key with
    | some q => (b.st = .valid || b.st = .loading) && (q.hash = h || (q.origin && q.hash = BitVec.ofNat 256 l.mh))
    | none => false
  s.cores.any fun c => c.id.die = k.die && c.id.cl = k.cl && (names c.b0 || names c.b1)

/-- Position of a core in the preferences, lowest first. -/
def State.coreKey (s : State) (l : Launch) (n : Nat) : Nat :=
  let k := coreNum n
  ((boolN (6 ≤ k.die) * 2 + boolN (!s.clusterHas k l)) * 32 + (16 - (s.freeOn k []).ctx)) * 1024 + n

/-- The core on which a camp is placed, with its budget. -/
def State.choice (s : State) (c : Camp) : Option (CoreId × Nat) :=
  let l := s.launch c.ref.lid
  let ok := (List.range 544).filterMap fun n =>
    match s.fitOn (coreNum n) c [], s.coreRefuser (coreNum n) [] l.path with
    | some b, none => some (n, b)
    | _, _ => none
  match ok with
  | [] => none
  | x :: r =>
    let best := r.foldl (fun (a : Nat × (Nat × Nat)) y => let ky := s.coreKey l y.1; if ky < a.1 then (ky, y) else a) (s.coreKey l x.1, x)
    some (coreNum best.2.1, best.2.2)

/-- A camp resident on a core with a budget: its area is reserved, its splits have no entries yet, its ropes take their latches (20 R443, 02 R34, R38). -/
def State.put (s : State) (c : CampRef) (k : CoreId) (b g : Nat) : State :=
  ((s.reserve c (s.saveNeed (s.launch c.lid) b g)).modCamp c fun x => { x with
    place := if x.wants then .packing k else .on k, budget := b, tiles := g, wants := false, shed := false, latches := []
    troops := x.troops.map fun t => { t with splits := t.splits.map fun p => { p with seat := .none, waited := false } } }).relatch c

/-- Camps of a COHORT launch that are off their cores, in order. -/
def State.cohortLeft (s : State) (lid : Nat) : List Camp :=
  let cs := (s.campsOf lid).filter fun c => !c.resident
  (List.range (cs.foldl (fun m c => max m (c.ref.camp + 1)) 0)).filterMap fun i => cs.find? fun c => c.ref.camp = i

/-- Where the camps of a list go, one after the other, with their budgets; the first that no core can hold ends it. -/
def State.planAll (s : State) : List Camp → Except (State × Camp) (List (Camp × CoreId × Nat))
  | [] => .ok []
  | c :: r =>
    match s.choice c with
    | some (k, b) => (State.planAll (s.put c.ref k b (s.tileGrant (s.launch c.ref.lid))) r).map fun l => (c, k, b) :: l
    | none => .error (s, c)

/-- Launch links of the queued camps of a list, together (15 R366). -/
def State.linksAll (s : State) (cs : List Camp) : Links :=
  match cs.filter fun c => c.place = .queued with
  | [] => .ok
  | c :: r =>
    let l := s.launch c.ref.lid
    let n := l.campsize * (r.length + 1)
    match s.refuser .pages n l.path with
    | some x => .budget x
    | none => if s.fast.count < 4 * n then .dry else .ok

/-- The camps that are placed with a waiting one: itself, or for a COHORT launch all that are off their cores, together (13 R325, 02 R48). -/
def State.placedWith (s : State) (c : Camp) : List Camp :=
  if (s.launch c.ref.lid).cohort then s.cohortLeft c.ref.lid else [c]

/-- Whether a waiting camp can be placed now; the first of a COHORT launch stands for all. -/
def State.placeable (s : State) (c : Camp) : Bool :=
  let cs := s.placedWith c
  cs.all (fun x => s.waiting x) && s.linksAll cs = .ok && (cs.head?.map Camp.ref) = some c.ref && match s.planAll cs with
    | .ok _ => true
    | .error _ => false

/-- Whether a camp that could be placed comes before this one. -/
def State.outOfTurn (s : State) (c : Camp) : Bool :=
  s.camps.any fun x => x.ref != c.ref && s.waiting x && s.before x c && s.placeable x

/-! ### Room on a core (13 R326) -/

/-- Resident camps of a core with strictly lower effective priority than a rank, lowest first, then latest admitted. -/
def State.victims (s : State) (k : CoreId) (prio : Nat) : List Camp :=
  let cs := s.camps.filter fun c => c.place = .on k && effPrio (s.launch c.ref.lid).path < prio
  let ins (x : Camp) (l : List Camp) : List Camp :=
    let less (a b : Camp) : Bool :=
      let pa := effPrio (s.launch a.ref.lid).path
      let pb := effPrio (s.launch b.ref.lid).path
      pa < pb || (pa = pb && (b.ref.lid < a.ref.lid || (a.ref.lid = b.ref.lid && b.ref.camp < a.ref.camp)))
    (l.takeWhile fun y => less y x) ++ x :: l.dropWhile fun y => less y x
  cs.foldr ins []

/-- Lowers the register budgets of the lower-priority camps of a core to their least. -/
def State.lowerOn (s : State) (k : CoreId) (prio : Nat) : State :=
  (s.victims k prio).foldl (fun t c => t.modCamp c.ref fun x => { x with budget := min x.budget (s.launch c.ref.lid).minBudget }) s

/-- The same, with the troops counted as switched. -/
def State.loweredOn (s : State) (k : CoreId) (prio : Nat) : State :=
  (s.victims k prio).foldl (fun t c => t.modCamp c.ref fun x =>
    let b := min x.budget (s.launch c.ref.lid).minBudget
    { x with budget := b, troops := x.troops.map fun u => { u with budget := min u.budget b } }) s

/-- The first core on which lowering budgets frees enough. -/
def State.lowerCore (s : State) (c : Camp) : Option CoreId :=
  let l := s.launch c.ref.lid
  let p := effPrio l.path
  ((List.range 544).find? fun n =>
    let k := coreNum n
    (s.coreRefuser k [] l.path).isNone && !(s.victims k p).isEmpty && ((s.loweredOn k p).fitOn k c []).isSome).map coreNum

/-- Sublists of `n` members, those with the earliest members first. -/
def picks {α : Type} : Nat → List α → List (List α)
  | 0, _ => [[]]
  | _ + 1, [] => []
  | n + 1, x :: r => ((picks n r).map fun l => x :: l) ++ picks (n + 1) r

/-- Fewest camps whose taking off frees enough on a core; among as many, those of lowest priority and latest admission. -/
def State.fewest (s : State) (c : Camp) (k : CoreId) : Option (List CampRef) :=
  let l := s.launch c.ref.lid
  let vs := (s.victims k (effPrio l.path)).map Camp.ref
  (List.range vs.length).findSome? fun n => (picks (n + 1) vs).find? fun d =>
    (s.fitOn k c d).isSome && (s.coreRefuser k d l.path).isNone

/-- The camps that are taken off for a camp that cannot be placed: on the core that needs the fewest, ties to the lowest. -/
def State.preempts (s : State) (c : Camp) : Option (List CampRef) :=
  ((List.range 544).filterMap fun n => s.fewest c (coreNum n)).foldl (fun b d => match b with
    | none => some d
    | some e => if d.length < e.length then some d else b) none

/-- Whether camps that already run to their points for a pack will free enough for a camp on some core. -/
def State.spaceComes (s : State) (c : Camp) : Bool :=
  let l := s.launch c.ref.lid
  (List.range 544).any fun n =>
    let k := coreNum n
    let d := (s.camps.filter fun x => x.place = .packing k).map Camp.ref
    !d.isEmpty && (s.fitOn k c d).isSome && (s.coreRefuser k d l.path).isNone

/-- What makes room for a camp that no core can hold now: the core whose budgets are lowered, or the camps to take off (R326). -/
def State.roomFor (s : State) (c : Camp) : Option CoreId × List CampRef :=
  if s.spaceComes c then (none, [])
  else match s.lowerCore c with
    | some k => (some k, [])
    | none => (none, (s.preempts c).getD [])

/-- Lowers budgets, or takes camps off with their COHORT launches. -/
def State.makeSpace (s : State) (prio : Nat) (r : Option CoreId × List CampRef) : State :=
  match r.1 with
  | some k => s.lowerOn k prio
  | none => r.2.foldl State.takeOff s

/-! ### Launch state (13 R366, R367, 06 R129) -/

/-- A parameter from its slot of the argument block. -/
def paramVal (t : Ty) (slot : W64) : TVal := ⟨t, BitVec.ofNat 64 (slot.toNat % 2 ^ (if t = .b1 then 1 else t.width))⟩

/-- Parameter types of a function of a module. -/
def Module.paramTys (m : Module) (f : Nat) : List Ty :=
  match (m.block f 0).item with
  | .block ps => ps.map fun c => (Ty.ofCode c).getD .void
  | .instr _ => []

/-- The activation of a launch. -/
def State.entryFrame (s : State) (l : Launch) : Frame :=
  let ts := ((s.module? l.mh).map fun m => m.paramTys l.func).getD []
  ⟨l.mh, l.func, 0, 0xFFFFFF, 0, 0, true, ts.mapIdx fun j t => (j, paramVal t ((l.args[j]?).getD 0)), false⟩

/-- Mask of all lanes of a width. -/
def fullMask (w : Nat) : Mask := BitVec.ofNat 1024 (2 ^ w - 1)

/-- A troop of a launch at its entry. -/
def State.newTroop (s : State) (l : Launch) (mem b g ctx : Nat) : Troop :=
  let ln : Lane := { Lane.reset with frames := [s.entryFrame l] }
  { Troop.reset with
    mem := mem, live := fullMask l.width, lanes := List.replicate l.width ln
    splits := [{ Split.reset with mask := fullMask l.width, mh := l.mh, func := l.func }]
    budget := b, tiles := g, ctx := ctx }

/-- Troop contexts of a core that no troop of a resident camp holds, in order. -/
def State.freeCtx (s : State) (k : CoreId) : List Nat :=
  let used := (s.allCamps.filter fun c => c.issuesOn k).flatMap fun c => (c.troops.filter fun t => !s.troopDone c t).map Troop.ctx
  (List.range 16).filter fun n => !used.contains n

/-- Writes the launch link of a troop, whose backing page 0 is mapped first. -/
def State.launchLink (s : State) (l : Launch) (t : Troop) : State × Troop :=
  let r := s.mapPrivate l.path 0 0
  let u : Troop := { t with proot := r.2.2.1, hwm := 1, pages := r.2.2.2 }
  let bs := linkBytes 0 0 0xFFFFFF t.budget t.tiles
  let cells := (List.range l.width).flatMap fun i =>
    (List.range 16).map fun o => ((r.1.privPhys u.proot (backing l.width i o)).getD 0, (bs[o]?).getD 0)
  (r.1.commit cells, u)

/-- The troops of a camp at launch, their links written. -/
def State.launchTroops (s : State) (l : Launch) : List Troop → State × List Troop
  | [] => (s, [])
  | t :: r =>
    let a := s.launchLink l t
    let b := State.launchTroops a.1 l r
    (b.1, a.2 :: b.2)

/-- Contents of the scratchpads of `m` camps at their first placement: free values (log 2). The i-th camp's bytes lie from 2^20 · i. -/
def State.freeScratch (s : State) (m n : Nat) : List (Nat × Byte) :=
  ((List.range m).flatMap fun i => (List.range n).map fun o => (2 ^ 20 * i + o, (Config.freeWord (s.freeCnt + n * i + o)).setWidth 8)).filter
    fun c => c.2 != 0

/-- The part of a list of scratchpad contents that is for the i-th camp. -/
def scratchPart (scr : List (Nat × Byte)) (i n : Nat) : List (Nat × Byte) :=
  scr.filterMap fun c => if 2 ^ 20 * i ≤ c.1 && c.1 < 2 ^ 20 * i + n then some (c.1 - 2 ^ 20 * i, c.2) else none

/-- Enters a queued camp at its launch state; `scr` is what its scratchpad holds. -/
def State.launchCamp (s : State) (c : Camp) (k : CoreId) (b : Nat) (scr : List (Nat × Byte)) : State :=
  let l := s.launch c.ref.lid
  let g := s.tileGrant l
  let ctxs := s.freeCtx k
  let r := s.launchTroops l ((List.range l.campsize).map fun m => s.newTroop l m b g ((ctxs[m]?).getD 0))
  (r.1.modCamp c.ref fun x => { x with
    troops := r.2, scr := memWriteAll [] scr, dry := false }).put c.ref k b g

/-- Reads a launch's RCBs again (02 R46): budgets, priority, policy, ring and RMIN take effect; what admission fixed stays (log 90). -/
def State.reread (s : State) (lid : Nat) : State :=
  match s.path (s.launch lid).leaf with
  | some p => s.modLaunch lid fun l => { l with rcbs := p.map (fun r => (r.addr, r.v)), rmin := (p.headD ⟨0, 0⟩).rmin }
  | none => s

/-- A core that is gated gets a wake request; one in its hold stays up (14 R349). -/
def State.wakeCore (s : State) (k : CoreId) : State :=
  match (s.coreOf k).pow with
  | .up => s.modCore k fun c => { c with idle := s.stamp.toNat }
  | .gated => (s.modCore k fun c => { c with pow := .waking }).modDie k.die fun d => { d with queue := d.queue ++ [(k, s.stamp.toNat)] }
  | .offing _ => s.modCore k fun c => { c with wake := true }
  | .waking => s

/-- Posts POOLDRY for a placement that an empty fast pool holds back, once (15 R366). -/
def State.placeDry (s : State) (c : Camp) : State :=
  if c.dry then s
  else (s.poolDry (s.launch c.ref.lid).path false).modCamp c.ref fun x => { x with dry := true }

/-- Puts each camp of a plan on its core; those whose core is gated wake it. -/
def State.enterAll (s : State) (enter : State → Camp → CoreId → Nat → Nat → State) (plan : List (Camp × CoreId × Nat)) : State :=
  (plan.mapIdx fun i q => (i, q)).foldl (fun t q => (enter t q.2.1 q.2.2.1 q.2.2.2 q.1).wakeCore q.2.2.1) s

/-- The scheduler's decision about a waiting camp, named with the core on which the event puts it: `enter` puts a camp on a core with a budget, the i-th of those that are placed together. -/
def State.decide (s0 : State) (c : CampRef) (k : CoreId) (enter : State → Camp → CoreId → Nat → Nat → State) : State :=
  let s := s0.unfocus.reread c.lid
  match s.camps.find? fun x => x.ref = c with
  | none => s
  | some x =>
    let cs := s.placedWith x
    if !s.waiting x || (s.path (s.launch c.lid).leaf).isNone || s.outOfTurn x then s
    else if s.linksAll cs = .dry then s.placeDry x
    else if s.linksAll cs != .ok || !cs.all (fun y => s.waiting y) || (cs.head?.map Camp.ref) != some c then s
    else match s.planAll cs with
      | .ok plan => if (plan.head?.map fun q => q.2.1) = some k then s.enterAll enter plan else s
      | .error (t, y) => s.makeSpace (effPrio (s.launch c.lid).path) (t.roomFor y)

/-! ### Waiting long, shedding (20 R445, R446) -/

/-- The node nearest the leaf whose budget refuses a camp; none when resources are short. -/
def State.refusing (s : State) (c : Camp) : Option Rcb :=
  let l := s.launch c.ref.lid
  match s.linksFor c with
  | .budget r => some r
  | _ =>
    let ns := (List.range 544).filter fun n => (s.fitOn (coreNum n) c []).isSome
    if ns.isEmpty || ns.any fun n => (s.coreRefuser (coreNum n) [] l.path).isNone then none
    else (ns.head?).bind fun n => s.coreRefuser (coreNum n) [] l.path

/-- PLACEWAIT: the first camp of a launch has been queued for 100 ms. -/
def execPlacewait (lid : Nat) (s : State) : Out :=
  let l := s.launch lid
  .next (match s.camp? ⟨lid, 0⟩ with
    | some c =>
      if c.place = .queued && !l.placewait && !l.done && l.admitted + 100000000 ≤ s.stamp.toNat then
        (s.postLeaf lid 0x0B 4 (s.gsrc srcSched) ⟨((s.refusing c).map Rcb.region).getD 0, 0, 0, 0, 0, 0⟩).modLaunch lid
          fun l => { l with placewait := true }
      else s
    | none => s)

/-- The camp that is shed next: lowest effective priority, then latest admitted. -/
def State.shedNext (s : State) : Option Camp :=
  match s.camps.filter fun c => match c.place with
    | .on _ => true
    | _ => false with
  | [] => none
  | x :: r => some (r.foldl (fun a b =>
      let pa := effPrio (s.launch a.ref.lid).path
      let pb := effPrio (s.launch b.ref.lid).path
      if pb < pa || (pa = pb && (a.ref.lid < b.ref.lid || (a.ref.lid = b.ref.lid && a.ref.camp < b.ref.camp))) then b else a) x)

/-- Whether shedding is due: every running core at OP0 for 10 ms, power above the cap, and 100 us since the last. -/
def State.sheds (s : State) : Bool :=
  100 * s.capNow < s.power && (s.atOp0.any fun t => t + 10000000 ≤ s.stamp.toNat) && s.lastShed + 100000 ≤ s.stamp.toNat

/-- SHED: the camp is taken off with a pack, and every camp of a COHORT launch with it. -/
def execShed (c : CampRef) (s : State) : Out :=
  let u := s.unfocus
  .next (match u.shedNext with
    | some x =>
      if u.sheds && x.ref = c then
        let lids := if (u.launch c.lid).cohort then (u.campsOf c.lid).map Camp.ref else [c]
        let t := (lids.foldl (fun t r => t.modCamp r fun k => { k with shed := true }) u).packOff c
        { t.postLeaf c.lid 0x0B 5 (t.gsrc srcSched) ⟨0, 0, 0, c.camp, 0, 0⟩ with lastShed := t.stamp.toNat }
      else u
    | none => u)

end Sys2Proof.Machine
end

