-- ==== Sys2Proof/Machine/Launch.lean ====
section
/-! DEFINITION. Queues, launch records, admission and completion (13 R320 to R324, 20 R436 to R442). -/

namespace Sys2Proof.Machine

/-! ### Queues (13 R320, R321) -/

/-- A queue whose descriptor has never been written. -/
def Queue.reset (q : Nat) : Queue := ⟨q, 0, 0, 0, 0, 0, 0, 0, 0, false, false, false, [], none, false, false, [], false, none⟩

def State.queueOf (s : State) (q : Nat) : Queue := (s.queues.find? fun x => x.q = q).getD (Queue.reset q)

def State.modQueue (s : State) (q : Nat) (f : Queue → Queue) : State :=
  { s with queues := f (s.queueOf q) :: s.queues.filter fun x => x.q != q }

/-- Difference modulo 2^32. -/
def diff32 (a b : W32) : Nat := (a - b).toNat

/-- The master bound to a tenant root, when it is bound. -/
def State.masterOf (s : State) (root : Nat) : Option Nat := (s.tenants.find? fun t => t.root = root).map Tenant.master

/-- Root of the path of an RCB. -/
def State.rootOf (s : State) (a : Nat) : Option Nat := (s.path a).bind fun p => p.getLast?.map Rcb.addr

/-- Whether a master owns the package or is bound to the tenant of an RCB (14 R352, R358). -/
def State.entitled (s : State) (m a : Nat) : Bool :=
  s.owner = some m || (s.rootOf a).any fun r => s.masterOf r = some m

/-- Every waiting queue loads its flag again. -/
def State.reloadAll (s : State) : State :=
  { s with queues := s.queues.map fun q => if q.waiting.isSome then { q with reload := true } else q }

/-- Unmaps a queue: a record waiting on its flag is abandoned (20 R436). -/
def Queue.unmap (q : Queue) : Queue :=
  { q with mapped := false, waiting := none, reload := false, got := [], gotBad := false, ask := none }

/-- An invalid RCB at BIND unmaps the queue until its next descriptor write. -/
def State.badBind (s : State) (q : Nat) : State := s.modQueue q fun x => { x.unmap with badBind := true }

/-- The scheduler acts on a NOTIFY value (20 R438). -/
def State.actNotify (s : State) (q : Nat) (v : W32) : State :=
  let x := s.queueOf q
  if diff32 v x.doneN ≤ 2 ^ x.qlog2 then s.modQueue q fun x => { x with write := v }
  else match s.path x.bind.toNat with
    | some p => s.post (p.getLast?.toList) ⟨0x0B, 1, s.gsrc srcSched, 0, EvBody.pack ⟨x.doneN.toNat, 0, 0, 0, 0, v.toNat⟩⟩
    | none => (s.badBind q).modQueue q fun x => { x with pendw := v, pv := true }

/-- A NOTIFY write: acted on while the queue is mapped, else kept (13 R321, 20 R437). -/
def State.notifyWrite (s : State) (m q : Nat) (v : W32) : State :=
  let x := s.queueOf q
  let s1 := s.reloadAll
  if 4096 ≤ q || !x.v || !s.entitled m x.bind.toNat then s1
  else if x.mapped then s1.actNotify q v
  else s1.modQueue q fun x => { x with pendw := v, pv := true }

/-- NOTIFY. -/
def execNotify (m q : Nat) (v : W32) (s : State) : Out := .next (s.notifyWrite m q v)

/-- Maps a queue again: a kept value is acted on now (20 R437). -/
def State.remap (s : State) (q : Nat) : State :=
  let x := s.queueOf q
  if x.mapped || !x.v || x.badBind then s
  else
    let s1 := s.modQueue q fun x => { x with mapped := true, pv := false }
    if x.pv then s1.actNotify q x.pendw else s1

/-! ### Accesses of the scheduler (20 R441) -/

/-- Bytes that the scheduler reads as an agent of a tenant root; none when a page, a permission or a poisoned line fails. -/
def State.schedRead (s : State) (path : List Rcb) (a n : Nat) : State × Option (List Byte) :=
  let tree := (path.getLast?.map Rcb.tree).getD 0
  match s.engSpots .mgmt 0 tree path needR ((List.range n).map fun i => a + i) with
  | (t, .error _) => (t, none)
  | (t, .ok ps) =>
    let bs := ps.filterMap fun p => match p.2 with
      | .phys (b :: _) => some (memRead t.mem b)
      | _ => none
    (t, if bs.length = n then some bs else none)

/-- What a read for a queue ends in: its bytes, a failure, or a wait for a peer. -/
inductive QRead where
  | ok (bs : List Byte)
  | bad
  | wait

/-- Bytes that the scheduler reads for a queue's next record; those of a peer range are asked for over Portage first (04 R91). -/
def State.queueRead (s : State) (q : Nat) (path : List Rcb) (a n : Nat) : State × QRead :=
  let tree := (path.getLast?.map Rcb.tree).getD 0
  let x := s.queueOf q
  match s.engSpots .mgmt 0 tree path needR ((List.range n).map fun i => a + i) with
  | (t, .error _) => (t, .bad)
  | (t, .ok ps) => match missingRun x.got ps with
    | none => (t, .ok (ps.map fun p => match p.2 with
        | .phys (b :: _) => memRead t.mem b
        | _ => ((x.got.find? fun g => g.1 = p.1).map Prod.snd).getD 0))
    | some (va, pkg, wa, k) =>
      if x.gotBad then (t, .bad)
      else match t.request pkg wa va k (.sched q) .load t.gseen with
        | some u => (u.modQueue q fun x => { x with ask := some t.nextReq }, .wait)
        | none => (t.linkFault pkg wa, .bad)

/-- The answer to such a read; none for one that failed. -/
def State.schedAnswer (s : State) (r : PeerReq) (q : Nat) (d : Option (List Byte)) : State :=
  if (s.queueOf q).ask != some r.id then s
  else s.modQueue q fun x => match d with
    | some b => { x with got := cellsAt r.va.toNat b ++ x.got, ask := none }
    | none => { x with gotBad := true, ask := none }

/-- Place of an 8-byte flag or counter, or the cause that refuses it. -/
def State.flagPlace (s : State) (path : List Rcb) (need : Need) (a : Nat) : State × Except Nat Spot :=
  let tree := (path.getLast?.map Rcb.tree).getD 0
  match s.engSpots .mgmt 0 tree path need ((List.range 8).map fun i => a + i) with
  | (t, .error f) => (t, .error f.cause)
  | (t, .ok ps) => (t, match ps with
    | (_, .peer k wa) :: _ => .ok (.peer k wa)
    | _ => .ok (.phys (ps.filterMap fun p => match p.2 with
        | .phys (b :: _) => some b
        | _ => none)))

/-- FLAGFAULT of a post that is not made (20 R441). -/
def State.flagFault (s : State) (ring : List Rcb) (a cause : Nat) : State :=
  s.post ring ⟨0x0B, 3, s.gsrc srcSched, 0, EvBody.pack ⟨a, 0, 0, 0, 0, cause⟩⟩

/-- One post: an atomic add to a flag word, at a peer over Portage, or FLAGFAULT to a ring (13 R324, 20 R441). -/
def State.postFlag (s : State) (path ring : List Rcb) (a : Nat) (inc : W32) : State :=
  if a = 0 then s
  else match s.flagPlace path needA a with
    | (t, .error c) => t.flagFault ring a c
    | (t, .ok (.peer k wa)) =>
      (t.request k wa a 8 (.flag (ring.head?.map Rcb.addr)) (.amo .add .w64 (BitVec.ofNat 64 inc.toNat) 0) t.gseen).getD
        ((t.linkFault k wa).flagFault ring a cREMOTE)
    | (t, .ok p) => (t.writePlace p 8 (t.readPlace p 8 + inc.toNat)).reloadAll

/-- Advances DONE over the completed prefix. -/
def Queue.advance : Nat → Queue → Queue
  | 0, q => q
  | n + 1, q =>
    if q.recs.contains (q.doneN.toNat, true) then
      Queue.advance n { q with doneN := q.doneN + 1, recs := q.recs.filter fun r => r.1 != q.doneN.toNat }
    else q

/-- Whether a post has left for a peer and has no answer yet. -/
def State.posting (s : State) : Bool := s.reqs.any fun q => match q.by_ with
  | .flag (some _) => true
  | _ => false

/-- Advances DONE over the records that have completed, and stores it: after the posts, those at peers too (13 R324). -/
def State.storeDone (s : State) (q : Nat) : State :=
  let old := (s.queueOf q).doneN
  if s.posting then s
  else
    let s1 := s.modQueue q (Queue.advance 65)
    let x := s1.queueOf q
    let a := x.doneaddr.toNat
    if x.doneN = old || a = 0 then s1
    else match s1.path x.bind.toNat with
      | none => s1
      | some p => match s1.flagPlace (p.getLast?.toList) needW a with
        | (t, .error _) => t
        | (t, .ok (.peer k wa)) =>
          (t.request k wa a 8 (.flag none) (.store (leBytes 8 x.doneN.toNat)) t.gseen).getD (t.linkFault k wa)
        | (t, .ok p) => t.writePlace p 8 x.doneN.toNat

/-- Completes a record of a queue, and stores DONE when it has advanced. -/
def State.recordDone (s : State) (q n : Nat) : State :=
  (s.modQueue q fun x => { x with recs := x.recs.map fun r => if r.1 = n then (n, true) else r }).storeDone q

/-- The end of a post or of a store of DONE at a peer: a post that failed is told to its leaf's ring, and DONE may advance. -/
def State.flagAnswer (s : State) (r : PeerReq) (leaf : Option Nat) (cause : Option Nat) : State :=
  let t := match leaf, cause with
    | some l, some c => s.flagFault ((s.path l).getD []) r.va.toNat c
    | _, _ => s
  if leaf.isSome then (t.queues.map Queue.q).foldl State.storeDone t else t

/-! ### Launch records (13 R322, 20 R440) -/

/-- A launch record. -/
structure LRec where
  op : Nat
  rsv : Nat
  seq : Nat
  leaf : Nat
  wait : Nat
  waitval : Nat
  inc0 : W32
  inc1 : W32
  post0 : Nat
  post1 : Nat
  deriving DecidableEq, Repr

def LRec.ofNat (v : Nat) : LRec :=
  ⟨fld v 0 8, fld v 8 88, fld v 96 32, fld v 128 64, fld v 192 64, fld v 256 64, BitVec.ofNat 32 (fld v 320 32),
    BitVec.ofNat 32 (fld v 352 32), fld v 384 64, fld v 448 64⟩

def LRec.posts (r : LRec) : List (Nat × W32) := [(r.post0, r.inc0), (r.post1, r.inc1)]

/-- Effective log2 width of a leaf (02 R50). -/
def Rcb.width (r : Rcb) (m : Option Module) : Nat :=
  if r.narrow || (m.map Module.version) = some 3 then min r.wlog2 8 else r.wlog2

/-- Most camps of a launch that an idle core of a kind holds. -/
def Launch.perCore (l : Launch) (g kind : Nat) : Nat :=
  ((List.range 17).filter fun n =>
    let q := l.needs l.minBudget g
    (⟨n * q.ctx, n * q.scr, n * q.reg, n * q.tile⟩ : Res4).le (coreAll kind)).foldl max 0

/-- Whether a COHORT launch fits its package as built within its effective CORES (02 R48, 20 R440). -/
def State.cohortFits (s : State) (l : Launch) : Bool :=
  let g := s.tileGrant l
  let n := l.troops / l.campsize
  let cb := l.perCore g 1
  let ct := l.perCore g 2
  let nb := min 480 ((n + cb - 1) / max cb 1)
  let left := n - nb * cb
  let nt := if ct = 0 then 0 else min 64 ((left + ct - 1) / ct)
  left - nt * ct = 0 && nb + nt ≤ s.effBudget .cores l.path

/-- The launch of a leaf, before its arguments are read. -/
def State.leafLaunch (s : State) (q : Queue) (r : LRec) (p : List Rcb) : Launch :=
  let d := p.headD ⟨0, 0⟩
  { Launch.none with
    lid := s.nextLid, queue := q.q, rcd := q.adm.toNat, leaf := r.leaf, bind := q.bind.toNat
    root := (p.getLast?.map Rcb.addr).getD 0, rcbs := p.map fun x => (x.addr, x.v), region := d.region, mh := d.module
    func := d.func, wlog2 := d.width (s.module? d.module), campsize := d.campsize, troops := d.troops, scratch := d.scratch
    rmin := d.rmin, runlim := s.runlim, cohort := d.cohort, det := d.det, posts := r.posts, admitted := s.stamp.toNat
    done := false }

/-- Whether a breach of 06 R129 stands between a leaf and its module. -/
def entryBad (m : Module) (l : Launch) (arglen : Nat) : Bool :=
  match m.funcs[l.func]? with
  | none => true
  | some f => !f.entry || l.wlog2 < f.wmin || f.wmax < l.wlog2 || arglen < 8 * (m.paramTys l.func).length

/-- Why a record is invalid, before its wait (R440): reason codes, none of them when it may go on. -/
def State.recordFaults (s : State) (q : Queue) (r : LRec) : List Nat :=
  let fields := if (r.op != 1 && r.op != 2) || r.rsv != 0 then [1] else []
  let seq := if r.seq != q.adm.toNat then [2] else []
  let flag := if r.post0 % 8 != 0 || r.post1 % 8 != 0 || r.wait % 8 != 0 then [7] else []
  let leaf :=
    if r.op = 2 then (if r.leaf != 0 then [3] else [])
    else if r.op != 1 then []
    else match (if r.leaf = 0 then none else s.path r.leaf) with
      | none => [3]
      | some p =>
        let d := p.headD ⟨0, 0⟩
        if d.kind != 3 || !inPath q.bind.toNat p then [3]
        else
          let l := s.leafLaunch q r p
          let args := if d.arglen != 0 && (d.args % 64 != 0 || 2 ^ 56 ≤ d.args) then [9] else []
          let fit := if l.perCore (s.tileGrant l) 1 = 0 then [5] else if l.cohort && !s.cohortFits l then [6] else []
          let mod := match s.module? d.module with
            | none => [8]
            | some m => if m.tenant != l.root then [8] else if entryBad m l d.arglen then [4] else []
          args ++ fit ++ mod
  fields ++ seq ++ flag ++ leaf

/-- An invalid record runs nothing and counts as completed in queue order (R440). -/
def State.badRecord (s : State) (q : Nat) (p : List Rcb) (reason : Nat) : State :=
  let n := (s.queueOf q).adm
  let s1 := s.modQueue q fun x => { x with adm := x.adm + 1, waiting := none, reload := false, got := [], gotBad := false, recs := x.recs ++ [(n.toNat, false)] }
  (s1.post (p.getLast?.toList) ⟨0x0B, 2, s.gsrc srcSched, 0, EvBody.pack ⟨n.toNat, 0, 0, 0, 0, reason⟩⟩).recordDone q n.toNat

/-- Enters a record among the admitted ones. -/
def State.admitted (s : State) (q : Nat) : State :=
  s.modQueue q fun x => { x with adm := x.adm + 1, waiting := none, reload := false, got := [], gotBad := false, recs := x.recs ++ [(x.adm.toNat, false)] }

/-- Posts of a record, in order, as an agent of the root of a path. -/
def State.postAll (s : State) (root ring : List Rcb) (ps : List (Nat × W32)) : State :=
  ps.foldl (fun t p => t.postFlag root ring p.1 p.2) s

/-- The 8-byte slots of an argument block (06 R129). -/
def argSlots (n : Nat) (bs : List Byte) : List W64 := (List.range (n / 8)).map fun j => BitVec.ofNat 64 (leNat ((bs.drop (8 * j)).take 8))

/-- Argument block of a leaf. -/
def State.argBlock (s : State) (q : Nat) (p : List Rcb) (d : Rcb) : State × QRead :=
  if d.arglen = 0 then (s, .ok []) else s.queueRead q p.getLast?.toList d.args d.arglen

/-- Step 4 of R323: the launch's camps are queued for placement. -/
def State.queueCamps (s : State) (q : Nat) (l : Launch) : State :=
  let cs := (List.range (l.troops / l.campsize)).map fun i => { Camp.reset with ref := ⟨l.lid, i⟩ }
  ({ s with launches := s.launches ++ [l], nextLid := s.nextLid + 1, camps := s.camps ++ cs }).admitted q

/-- Steps 3 and 4: a mark completes at once; a launch reads its leaf and arguments. -/
def State.admitRecord (s : State) (q : Nat) (r : LRec) (bp : List Rcb) : State :=
  if r.op = 2 then
    let n := (s.queueOf q).adm.toNat
    ((s.admitted q).postAll bp.getLast?.toList bp r.posts).recordDone q n
  else match s.path r.leaf with
    | none => s.badRecord q bp 3
    | some p =>
      let l := s.leafLaunch (s.queueOf q) r p
      let d := p.headD ⟨0, 0⟩
      match s.argBlock q p d with
      | (t, .bad) => t.badRecord q bp 9
      | (t, .wait) => t
      | (t, .ok bs) => t.queueCamps q { l with args := argSlots d.arglen bs }

/-- Step 2: the wait on a flag, an acquire load at `.sys`; a record that has passed it waits no more, if its arguments lie with a peer. -/
def State.admitWait (s : State) (q : Nat) (r : LRec) (v : Nat) (bp : List Rcb) : State :=
  if r.wait = 0 then s.admitRecord q r bp
  else match s.queueRead q bp.getLast?.toList r.wait 8 with
    | (t, .bad) => t.badRecord q bp 7
    | (t, .wait) => t
    | (t, .ok bs) =>
      if r.waitval ≤ leNat bs then
        let u := t.admitRecord q r bp
        if (u.queueOf q).ask.isNone then u
        else u.modQueue q fun x => { x with waiting := some (BitVec.ofNat 512 (v - r.wait * 2 ^ 192)), reload := true }
      else t.modQueue q fun x => { x with waiting := some (BitVec.ofNat 512 v), reload := false, got := [], gotBad := false }

/-- Whether a queue may read its next record (R323). -/
def Queue.mayAdmit (q : Queue) : Bool :=
  q.v && q.mapped && 1 ≤ diff32 q.write q.adm && diff32 q.write q.adm ≤ 2 ^ q.qlog2 &&
  (q.recs.filter fun r => !r.2).length < 64

/-- Physical address of a record's slot. -/
def Queue.slotAddr (q : Queue) : Nat := q.rbase.toNat + 64 * (q.adm.toNat % 2 ^ q.qlog2)

/-- Whether a queue's next record can go on: none waits for a flag that is not loaded again, or for a peer. -/
def Queue.ready (q : Queue) : Bool := q.mayAdmit && (q.waiting.isNone || q.reload) && q.ask.isNone

/-- Reads, checks and admits the next record of a queue, or looks at its flag again. -/
def State.admitNext (s : State) (q : Nat) : State :=
  let x := s.queueOf q
  if !x.ready then s
  else match s.path x.bind.toNat with
    | none => s.badBind q
    | some bp =>
      let rd : State × QRead := match x.waiting with
        | some v => (s, .ok (leBytes 64 v.toNat))
        | none => s.queueRead q bp.getLast?.toList x.slotAddr 64
      match rd with
      | (t, .bad) => t.badRecord q bp 0x0A
      | (t, .wait) => t
      | (t, .ok b) =>
        let v := leNat b
        let r := LRec.ofNat v
        match t.recordFaults x r with
        | [] => t.admitWait q r v bp
        | f :: fs => t.badRecord q bp (fs.foldl min f)

/-- RECORD_ADMISSION. -/
def execRecordAdmission (q : Nat) (s : State) : Out := .next (s.unfocus.admitNext q)

/-- WAIT_FLAG_RELOAD: a waiting record's flag is loaded again, at least every 10 us. -/
def execWaitFlagReload (q : Nat) (s : State) : Out :=
  .next (if (s.queueOf q).waiting.isSome then s.modQueue q fun x => { x with reload := true } else s)

/-! ### Completion (13 R324) -/

/-- Whether a launch has nothing left that a completion waits for. -/
def State.completable (s : State) (l : Launch) : Bool :=
  !l.done && s.allEnded l.lid && !(s.stores.any fun p => p.by_.any fun t => t.camp.lid = l.lid) &&
  !(s.reqs.any fun q => s.camps.any fun c => c.ref.lid = l.lid && q.ofCamp c.ref)

/-- Ordered-reduction entries of a launch that are still held; those of private memory have lost their pages, and fail. -/
def State.launchOrbs (s : State) (lid : Nat) : List (CampRef × Orb) :=
  (s.camps.filter fun c => c.ref.lid = lid).flatMap fun c => c.orb.map fun o => (c.ref, { o with due := [] })

/-- Applies them at completion (05 R123); true when some wait for a peer. -/
def State.applyOrbs (s : State) (l : Launch) : State × Bool :=
  let es := sortOrb s.orbTroop (s.launchOrbs l.lid)
  ({ s with camps := s.camps.map fun (c : Camp) => if c.ref.lid = l.lid then { c with orb := [] } else c }).orbApplyAll es

/-- The posts of a launch that was not killed, and its record's completion; its camps are no more. -/
def State.finishLaunch (s : State) (l : Launch) : State :=
  let s1 : State := { s with camps := s.camps.filter fun c => c.ref.lid != l.lid }
  let s2 := if l.killed then s1 else s1.postAll l.path.getLast?.toList l.path l.posts
  let s3 := s2.modLaunch l.lid fun l => { l with done := true }
  if l.queue < 4096 then s3.recordDone l.queue l.rcd else s3

/-- LAUNCH_COMPLETION. -/
def execLaunchCompletion (lid : Nat) (s : State) : Out :=
  let u := s.unfocus
  .next (match u.launch? lid with
    | none => u
    | some l =>
      if !u.completable l then u
      else
        let a := if l.killed then (u, false) else u.applyOrbs l
        if a.2 then a.1 else a.1.finishLaunch l)

end Sys2Proof.Machine
end

