-- ==== Sys2Proof/Machine/Pack.lean ====
section
/-! DEFINITION. Portable context packs and native images: writing a pack, restoring on the same package (13 R329 to R337, 20 R447 to R449). -/

namespace Sys2Proof.Machine

/-! ### Writing a pack (13 R330 to R336) -/

/-- Where each activation of a lane stands: module, function and offset; a caller stands at its return point. -/
def standsAt (mh func off : Nat) : List Frame → List (Nat × Nat × Nat)
  | [] => []
  | f :: r => (mh, func, off) :: match r with
    | g :: _ => standsAt g.mh g.func f.retOff r
    | [] => []

/-- Values live where an activation stands. -/
def State.liveAt (s : State) (k : Nat × Nat × Nat) : List Nat :=
  match s.module? k.1 with
  | some m => livePoint m.rtypes (m.items k.2.1) k.2.2
  | none => []

/-- Activations with the values live where they stand; the others are not available any more (10 R244). -/
def cutFrames (live : Nat × Nat × Nat → List Nat) (mh func off : Nat) (fs : List Frame) : List Frame :=
  (fs.zip (standsAt mh func off fs)).map fun q => { q.1 with vals := q.1.vals.filter fun v => (live q.2).contains v.1 }

/-- The lanes of the focused split with what is live at its point. -/
def State.cutLanes (s : State) : State :=
  let p := s.sp
  let ks := ((lanesOf s.tr.width p.mask).flatMap fun i => standsAt p.mh p.func p.off (s.tr.lane i).frames).eraseDups
  let ls := ks.map fun k => (k, s.liveAt k)
  let live (k : Nat × Nat × Nat) : List Nat := ((ls.find? fun q => q.1 = k).map Prod.snd).getD []
  { s with tr := { s.tr with lanes := onLanes p.mask (fun _ l => { l with frames := cutFrames live p.mh p.func p.off l.frames }) s.tr.lanes } }

/-- STATE of a split in its record (R335). -/
def Split.standCode (p : Split) : Nat :=
  if p.stop.isSome then 4
  else match p.st with
    | .barrier _ _ => 1
    | .rendezvous _ => 2
    | .join => 3
    | .claim _ => 5
    | _ => 0

/-- The focused split in portable form at the point where it stands: what it only began to wait for is issued again (R330). -/
def State.toPoint (s : State) : State :=
  let pos := (s.sp.nat.bind fun p => s.natEntry.bind fun e => e.pointOf p.off).map Point.pos
  let off := pos.getD s.sp.off
  let s1 := { s with sp := { s.sp with off := off, lastPt := off } }.toPortable.cutLanes
  let st := match s.sp.st with
    | .barrier a r => SState.barrier a r
    | .join => .join
    | _ => .ready
  { s1 with sp := { s1.sp with
      st := st, grant := false, denied := false, aged := false, toPoint := false
      scal := s1.sp.scal.filter fun x => x.1 = 31, lq := [], fl := [], mp := [], pw := [] } }

/-- What a pack keeps of a lane: no native register (13 R334). -/
def Lane.packed (l : Lane) : Lane := { l with k := [], g := 1 }

/-- The camp as a portable pack holds it, complete at a stamp, with the STATE of its splits. -/
def State.packOf (s : State) (c : Camp) (stamp : W64) (stand : List (Nat × Nat × Nat)) : Pack :=
  let l := s.launch c.ref.lid
  let h := ((s.module? l.mh).map Module.hash).getD 0
  ⟨stamp, s.pkg, h.toNat % 2 ^ 128, l.wlog2, l.runlim, l.scratch, l.campsize, l.leaf, c.ref.camp, c.troops, c.scr, c.res,
    c.accs, c.cmds, c.orb, stand⟩

/-- MEMBER of the troop whose tile a record describes: POS 0 holds a rope's. -/
def Pack.holder (p : Pack) (x : Tile) : Nat :=
  match x.rope with
  | some r => ((p.troops.find? fun t => t.ropeId = r && inRope t.rope && ropePos t.rope = 0).map Troop.mem).getD x.mem
  | none => x.mem

/-- A tile record (R336). -/
def Pack.tileRecord (p : Pack) (x : Tile) : List Byte :=
  leBytes 16 (p.holder x + atBit (boolN x.rope.isSome) 4 + atBit x.slot 5) ++ (List.range 16384).flatMap fun e => leBytes 16 (x.el e).toNat

/-- Index of the tile record that an acc value of a troop names. -/
def Pack.tileIndex (p : Pack) (mem v : Nat) : Nat := (p.tiles.findIdx? fun x => x.is mem (AccRef.ofNat v)).getD 0

/-- Running checksum of a command: over what has landed, the rest taken as zeros (09 R220). -/
def CopyCmd.running (x : CopyCmd) : Nat :=
  match x.cv with
  | none => 0
  | some v => adler v.toNat ((List.range x.size).map fun o => ((x.written.find? fun w => w.1 = o).map Prod.snd).getD 0)

/-- The bytes of a pack (R333 to R336); `mh` is the module's handle on this package. -/
def State.packBytes (s : State) (mh : Nat) (p : Pack) : List Byte :=
  let w := 2 ^ p.wlog2
  let m := s.module? mh
  let st (mem sid : Nat) : Nat := ((p.stand.find? fun q => q.1 = mem && q.2.1 = sid).map fun q => q.2.2).getD 0
  let scr : List Byte := (p.scr.foldl (fun (q : Nat × List (List Byte)) c => (c.1 + 1, [c.2] :: List.replicate (c.1 - q.1) 0 :: q.2)) (0, [])).2.reverse.flatten
  let tr := addSection (List.replicate 128 0) (p.troops.flatMap fun t => t.record w m (st t.mem) (p.tileIndex t.mem))
  let sc := addSection tr.2 (padTo p.scratch scr)
  let ac := addSection sc.2 (p.tiles.flatMap p.tileRecord)
  let rs := addSection ac.2 (p.res.flatMap Res.record32)
  let cs := addSection rs.2 (p.cmds.flatMap fun x => x.record16 x.running)
  let os := addSection cs.2 (p.orb.flatMap fun o => o.record32 (p.camp * p.campsize + o.mem))
  let len := pad256 os.2.length
  let head := leBytes 128 (0x34434B50 + atBit 1 32 + atBit 1 40 + atBit len 64 + atBit mh 384 + atBit p.hashp 416 + atBit p.wlog2 553 +
    atBit p.campsize 557 + atBit p.runlim 562 + atBit p.pkg 575 + atBit p.camp 584 + atBit p.scratch 608 + atBit p.leaf 640 +
    atBit p.stamp.toNat 704 + atBit p.tiles.length 774 + atBit p.res.length 782 + atBit p.cmds.length 791 + atBit p.orb.length 800 +
    atBit tr.1 832 + atBit sc.1 864 + atBit ac.1 896 + atBit rs.1 928 + atBit cs.1 960 + atBit os.1 992)
  head ++ padTo (len - 128) (os.2.drop 128)

/-- Writes a camp's pack into its area of the save area; what would pass the area's end is not written (log 91). -/
def State.writePack (s : State) (c : CampRef) : State :=
  match s.camps.find? fun k => k.ref = c with
  | none => s
  | some k => match k.place, k.area, k.pack with
    | .packed, some (a, n), some p =>
      let now : Pack := { p with troops := k.troops, scr := k.scr, res := k.res, tiles := k.accs, cmds := k.cmds, orb := k.orb }
      let bs := (s.packBytes (s.launch c.lid).mh now).take n
      { s with mem := memBlock s.mem a bs, poison := s.poison.filter fun ln => !(a ≤ 64 * ln && 64 * ln + 64 ≤ a + bs.length) }
    | _, _, _ => s

/-- The pack of a camp is complete: it replaces the one before, and the camp is off its core. -/
def State.packCamp (s : State) (c : CampRef) : State :=
  match s.camps.find? fun k => k.ref = c with
  | none => s
  | some k =>
    let stand := k.troops.flatMap fun t => t.splits.map fun p => (t.mem, p.sid, p.standCode)
    let s1 := k.splitRefs.foldl (fun t r => ((t.focusOn r).map fun f => f.toPoint.unfocus).getD t) s
    let t := s1.gstamp
    let s0 : State := { s1 with gseen := t }
    let s2 := (s0.modCamp c fun k =>
      let k1 := k.leave .packed
      { k1 with
        troops := k1.troops.map fun u => ({ u with lanes := u.lanes.map Lane.packed } : Troop)
        fails := 0, bad := false, res := k1.res.map fun (r : Res) => { r with since := none } }).modCore k.core fun x => x.campOff c s.stamp.toNat
    (s2.modCamp c fun k => { k with pack := some (s2.packOf k t stand) }).writePack c

/-- Whether a camp's stores have all been acknowledged: the Pack edge orders them before the restore (05 R110). -/
def State.storesDone (s : State) (c : CampRef) : Bool :=
  !(s.stores.any fun p => p.by_.any fun t => t.camp = c) && !(s.reqs.any fun q => match q.by_, q.kind with
    | .store t _, _ => t.camp = c
    | .queue t _, .amo _ _ _ _ => t.camp = c
    | _, _ => false)

/-- The camps that are packed together: the resident ones of a COHORT launch leave as one (02 R48). -/
def State.packGroup (s : State) (c : Camp) : List Camp :=
  if (s.launch c.ref.lid).cohort then (s.campsOf c.ref.lid).filter Camp.resident else [c]

/-- Whether the pack of a camp can be written: every split of it, and of what leaves with it, stands at a point (R330). -/
def State.packable (s : State) (c : Camp) : Bool :=
  (s.packGroup c).all fun k => s.allStand k && s.storesDone k.ref && match k.place with
    | .packing _ => true
    | _ => false

/-- PACK_COMPLETE: once every split stands at a point (R330). -/
def execPackComplete (c : CampRef) (s : State) : Out :=
  let u := s.unfocus
  .next (match u.camps.find? fun k => k.ref = c with
    | some k => if u.packable k then ((u.packGroup k).map Camp.ref).foldl State.packCamp u else u
    | none => u)

/-! ### Restore on the same package (13 R329, R337, 20 R447) -/

/-- Troop contexts of the new core, in MEMBER order. -/
def Camp.onCtxs (c : Camp) (ctxs : List Nat) : Camp :=
  { c with troops := c.troops.mapIdx fun i t => { t with ctx := (ctxs[i]?).getD 0 } }

/-- RESTOREFAIL to the leaf's ring, with the first reason that applies. -/
def State.restoreFail (s : State) (path : List Rcb) (leaf reason : Nat) : State :=
  s.post path ⟨0x0B, 6, s.gsrc srcSched, 0, EvBody.pack ⟨leaf, 0, 0, 0, 0, reason⟩⟩

/-- A pack or image that holds an error (21 R465): the restore fails, and the camp with it (R461). -/
def State.badImage (s : State) (c : CampRef) : State :=
  let l := s.launch c.lid
  (s.restoreFail l.path l.leaf 1).failCamp c 0

/-- Enters a native image on its core. -/
def State.enterImage (s : State) (x : Camp) (k : CoreId) (b : Nat) : State :=
  let ctxs := s.freeCtx k
  if x.bad then s.badImage x.ref else (s.modCamp x.ref fun c => c.onCtxs ctxs).put x.ref k b x.tiles

/-- What a restore from a pack does to a troop: its key's budget and tiles, SEEN of the pack, CAUSE 5 in STUBV for each split in turn (R337). -/
def Troop.restored (t : Troop) (stamp : W64) (b g : Nat) : Troop :=
  { t with
    budget := b, tiles := g, lanes := t.lanes.map fun l => { l with seen := stamp }
    stubv := t.splits.foldl (fun v p => stubVal v 5 p.func p.off) t.stubv }

/-- Enters a portable pack on a core; the snapshot takes what has landed in it since (R331). -/
def State.enterPack (s : State) (x : Camp) (k : CoreId) (b : Nat) : State :=
  let g := s.tileGrant (s.launch x.ref.lid)
  let ctxs := s.freeCtx k
  if x.bad then s.badImage x.ref
  else
    let stamp := (x.pack.map Pack.stamp).getD 0
    (s.modCamp x.ref fun c =>
      let c1 := c.onCtxs ctxs
      { c1 with
        pack := some (s.packOf c stamp ((x.pack.map Pack.stand).getD []))
        cmds := c1.cmds.map fun (q : CopyCmd) => { q with seen := stamp }, troops := c1.troops.map fun t => t.restored stamp b g }).put x.ref k b g

/-- Puts a camp on a core in the way its place asks for; `scr` is what the scratchpads of queued camps hold, free values when none is given (log 2). -/
def State.enterCamp (s : State) (scr : Option (List (Nat × Byte))) (x : Camp) (k : CoreId) (b i : Nat) : State :=
  match x.place with
  | .queued =>
    let n := (s.launch x.ref.lid).scratch
    match scr with
    | some v => s.launchCamp x k b (scratchPart v i n)
    | none => { s.launchCamp x k b (s.freeScratch 1 n) with freeCnt := s.freeCnt + n }
  | .image _ => s.enterImage x k b
  | .packed => s.enterPack x k b
  | _ => s

/-- CAMP_PLACEMENT of a queued camp, with the other camps of a COHORT launch. -/
def execCampPlacement (c : CampRef) (k : CoreId) (scr : List (Nat × Byte)) (s : State) : Out :=
  .next (if (s.camp? c).any fun x => x.place = .queued then s.decide c k fun t => t.enterCamp (some scr) else s)

/-- NATIVE_IMAGE_RESTORE. -/
def execNativeImageRestore (c : CampRef) (k : CoreId) (s : State) : Out :=
  .next (match (s.camp? c).map Camp.place with
    | some (.image _) => s.decide c k fun t => t.enterCamp none
    | _ => s)

/-- A pack of this package restored by the scheduler. -/
def State.restoreOwn (s : State) (c : CampRef) (k : CoreId) : State :=
  if (s.camp? c).any fun x => x.place = .packed then s.decide c k fun t => t.enterCamp none else s

end Sys2Proof.Machine
end

