-- ==== Sys2Proof/Machine/Restore.lean ====
section
/-! DEFINITION. Restoring a portable context pack that another package wrote, from its bytes (13 R333 to R338, 20 R447; log 26). -/

namespace Sys2Proof.Machine

/-! ### Reading a pack (13 R333 to R336) -/

/-- The little-endian number of `n` bytes at an offset. -/
def rdAt (b : List Byte) (o n : Nat) : Nat := leNat ((b.drop o).take n)

/-- The header of a pack. -/
structure PHead where
  stamp : Nat
  leaf : Nat
  scratch : Nat
  camp : Nat
  pkg : Nat
  runlim : Nat
  campsize : Nat
  wlog2 : Nat
  hashp : Nat
  len : Nat
  ntr : Nat
  norb : Nat
  ncmd : Nat
  nres : Nat
  nacc : Nat
  troff : Nat
  scroff : Nat
  accoff : Nat
  resoff : Nat
  cmdoff : Nat
  orboff : Nat
  ok : Bool
  deriving DecidableEq, Repr

/-- The header's fields, and whether they keep R333. -/
def PHead.ofBytes (b : List Byte) : PHead :=
  let v := rdAt b 0 128
  let f (lo w : Nat) : Nat := fld v lo w
  let sec (count off : Nat) : Bool := if count = 0 then off = 0 else off != 0 && off % 256 = 0 && off < f 64 32
  ⟨f 704 64, f 640 64, f 608 32, f 584 24, f 575 9, f 562 13, f 557 5, f 553 4, f 416 128, f 64 32, f 557 5, f 800 32,
    f 791 9, f 782 9, f 774 8, f 832 32, f 864 32, f 896 32, f 928 32, f 960 32, f 992 32,
    f 0 32 = 0x34434B50 && f 32 8 = 1 && f 40 8 = 1 && f 48 16 = 0 && f 96 288 = 0 && f 544 9 = 0 && f 768 6 = 0 &&
      f 64 32 % 256 = 0 && f 64 32 ≤ b.length && f 791 9 ≤ 256 && f 782 9 ≤ 256 && f 774 8 ≤ 128 &&
      1 ≤ f 557 5 && f 557 5 ≤ 16 && 5 ≤ f 553 4 && f 553 4 ≤ 10 &&
      sec (f 557 5) (f 832 32) && sec (f 608 32) (f 864 32) && sec (f 774 8) (f 896 32) && sec (f 782 9) (f 928 32) &&
      sec (f 791 9) (f 960 32) && sec (f 800 32) (f 992 32)⟩

/-- Width of a troop. -/
def PHead.width (h : PHead) : Nat := 2 ^ h.wlog2

/-- A value record: number, form, tile index, data. -/
structure PVal where
  v : Nat
  form : Nat
  tile : Nat
  data : List Byte
  deriving DecidableEq, Repr

/-- A split record. -/
structure PSplit where
  pos : Nat
  func : Nat
  group : Nat
  st : Nat
  mask : Mask
  vals : List PVal
  deriving DecidableEq, Repr

/-- A troop record; groups as offset, function, parent index. -/
structure PTroop where
  mem : Nat
  larr : Nat
  lph : Bool
  rope : Nat
  stubv : Nat
  proot : Nat
  hwm : Nat
  fp : Nat
  live : Mask
  dead : Mask
  sticky : List Nat
  rand : List Nat
  groups : List (Nat × Nat × Nat)
  splits : List PSplit
  deriving DecidableEq, Repr

/-- A mask from its words (R334). -/
def maskAt (w : Nat) (b : List Byte) (o : Nat) : Mask := BitVec.ofNat 1024 (rdAt b (o + 4) (w / 8))

/-- Value records from an offset; none when one breaks R335. -/
def pVals (w : Nat) (b : List Byte) : Nat → Nat → Option (List PVal × Nat)
  | 0, o => some ([], o)
  | n + 1, o =>
    let h := rdAt b o 8
    let form := fld h 40 4
    match formBytes w form with
    | none => none
    | some k =>
      if fld h 8 32 != 0 || (form != 4 && fld h 0 8 != 0) then none
      else (pVals w b n (o + 8 + k)).map fun r => (⟨fld h 44 20, form, fld h 0 8, (b.drop (o + 8)).take k⟩ :: r.1, r.2)

/-- Split records. -/
def pSplits (w : Nat) (b : List Byte) : Nat → Nat → Option (List PSplit × Nat)
  | 0, o => some ([], o)
  | n + 1, o =>
    let h := rdAt b o 16
    if fld h 3 53 != 0 || 5 < fld h 0 3 then none
    else match pVals w b (fld h 56 20) (o + 16 + maskBytes w) with
      | none => none
      | some (vs, o1) => (pSplits w b n o1).map fun r =>
          (⟨fld h 104 24, fld h 88 16, fld h 76 12, fld h 0 3, maskAt w b (o + 16), vs⟩ :: r.1, r.2)

/-- Troop records. -/
def pTroops (w : Nat) (b : List Byte) : Nat → Nat → Option (List PTroop)
  | 0, _ => some []
  | n + 1, o =>
    let h := rdAt b o 64
    let m := maskBytes w
    let og := o + 64 + 2 * m + 12 * w
    let ng := fld h 452 12
    let gs := (List.range ng).map fun i => rdAt b (og + 8 * i) 8
    if fld h 0 64 != 0 || fld h 128 32 != 0 || fld h 352 31 != 0 || gs.any fun g => fld g 0 12 != 0 then none
    else match pSplits w b (fld h 464 16) (og + 8 * ng) with
      | none => none
      | some (ss, oe) =>
        if oe != o + fld h 480 32 then none
        else
          let t : PTroop := ⟨fld h 448 4, fld h 384 64, fld h 383 1 = 1, fld h 320 32, fld h 256 64, fld h 192 64, fld h 160 32,
            fld h 64 64, maskAt w b (o + 64), maskAt w b (o + 64 + m),
            (List.range w).map fun i => rdAt b (o + 64 + 2 * m + 4 * i) 4,
            (List.range w).map fun i => rdAt b (o + 64 + 2 * m + 4 * w + 8 * i) 8,
            gs.map fun g => (fld g 40 24, fld g 24 16, fld g 12 12), ss⟩
          (pTroops w b n oe).map fun r => t :: r

/-- Whether a split's record fits its point: a point of its function, with exactly the live values in their forms (R447). -/
def pointOk (m : Module) (l : Nat) (p : PSplit) : Bool :=
  let is := m.items p.func
  let ts := valTys m.rtypes is
  (m.funcs[p.func]?).isSome && isPoint is l false p.pos &&
  p.vals.map PVal.v = livePoint m.rtypes is p.pos &&
  p.vals.all fun x => x.form = if x.v = iterVal then 2 else formOf ((ts[x.v]?).getD .void)

/-! ### Tiles, residencies, commands, reduction entries (R336) -/

/-- The tile of a record; `rope` is the serial of the holder's rope. -/
def pTile (b : List Byte) (o : Nat) (rope : Nat → Nat) : Tile :=
  let h := rdAt b o 16
  let r := fld h 4 1 = 1
  let el (e : Nat) : AccEl := AccEl.ofNat (rdAt b (o + 16 + 16 * e) 16)
  ((⟨if r then 0 else fld h 0 4, if r then some (rope (fld h 0 4)) else none, fld h 5 3, AccEl.zero, []⟩ : Tile).mapAll
    fun e _ => (el e, 0)).1

/-- An entry of the residency table; on another package its watch is gone and it is stale, SUB MOVED (09 R235). -/
def pRes (v : Nat) (record : List Byte) : Res :=
  let r : Res := ⟨fld v 0 8, fld v 8 24, BitVec.ofNat 64 (fld v 192 64), fld v 160 32, fld v 128 32, fld v 119 9, fld v 110 9,
    (MFmt.ofCode (fld v 106 4)).getD .pl1, (Scope.ofCode (fld v 103 3)).getD .sys, fld v 102 1 = 1,
    if fld v 101 1 = 1 then some 2 else none, none, [], record, [], none⟩
  if r.span.isSome then { r with stale := some 2 } else r

/-- A command record: header, operands in portable order, landed granules; whether its other bits are zero. -/
structure PCmd where
  word : Nat
  gran : Nat
  v : Nat
  mem : Nat
  ops : List Nat
  landed : List Nat
  ok : Bool
  deriving DecidableEq, Repr

def pCmds (b : List Byte) : Nat → Nat → List PCmd
  | 0, _ => []
  | n + 1, o =>
    let h := rdAt b o 16
    let g := fld h 64 32
    let q := (g + 63) / 64
    let bm := rdAt b (o + 96) (8 * q)
    ⟨fld h 96 32, g, fld h 32 32, fld h 28 4, (List.range 10).map fun i => rdAt b (o + 16 + 8 * i) 8,
      (List.range g).filter (fun i => bm.testBit i), fld h 0 28 = 0 && bm < 2 ^ g⟩ :: pCmds b n (o + 96 + 8 * q)

/-- Whether the bits of the tile, residency, command and reduction records that must be zero are zero (R336, 00 R7). -/
def restZero (h : PHead) (b : List Byte) : Bool :=
  ((List.range h.nacc).all fun i => rdAt b (h.accoff + tileRec * i) 16 < 2 ^ 8) &&
  ((List.range h.nres).all fun i => fld (rdAt b (h.resoff + 32 * i) 32) 32 69 = 0) &&
  ((pCmds b h.ncmd h.cmdoff).all PCmd.ok) &&
  (List.range h.norb).all fun i => fld (rdAt b (h.orboff + 32 * i) 32) 0 14 = 0

/-- An ordered-reduction entry. -/
def pOrb (v campsize : Nat) : Orb :=
  ⟨BitVec.ofNat 64 (fld v 192 64), (Ty.ofCode (fld v 48 6)).getD .void, BitVec.ofNat 64 (fld v 128 64),
    Rm.ofCode (fld v 46 2), fld v 64 24 % campsize, fld v 54 10, fld v 14 32, fld v 88 16, fld v 104 24, []⟩

/-- The command that a record describes; it defines no status (its split does not wait for it). -/
def State.cmdOf (s : State) (l : Launch) (id : Nat) (stamp : W64) (c : PCmd) : State × Option CopyCmd :=
  let op (v : Val) : Nat := (c.ops[v]?).getD 0
  let w64 (v : Val) : W64 := BitVec.ofNat 64 (op v)
  let w32 (v : Val) : W32 := BitVec.ofNat 32 (op v)
  let base (k : CKind) (sc : Scope) (dst src : W64) (n : Nat) (loc bw cv want : Option Val) : CopyCmd :=
    ⟨id, k, c.mem, 0, 0, none, none, sc, dst, src, n, [], [], loc.map w64, bw.map w64, cv.map w32, want.map w32, c.gran, c.landed,
      none, [], [], stamp, 0, 0, none, [], 0, cv.map fun _ => BitVec.ofNat 32 c.v, none⟩
  match decodePortable ((c.word - fld c.word 12 2 * 2 ^ 12 + 2 * 2 ^ 12) :: List.range (fld c.word 8 4)) with
  | .ok (.copy _ sc d f n bw cv want, _) => (s, some (base .copy sc (w64 d) (w64 f) (op n) none bw cv want))
  | .ok (.copyRemote _ sc d f n loc bw cv want, _) => (s, some (base .remote sc (w64 d) (w64 f) (op n) loc bw cv want))
  | .ok (.tcopy var _ sc sp tr os bw cv want, _) =>
    let r := s.schedRead l.path (op tr) 64
    (r.1, some { base (.tcopy var) sc (w64 sp) (w64 sp) 0 none bw cv want with
      org := os.map op, record := r.2.getD [], trec := w64 tr, run := if var == .store then none else cv.map fun _ => BitVec.ofNat 32 c.v })
  | _ => (s, none)

/-- All commands of a pack. -/
def State.cmdsOf (s : State) (l : Launch) (stamp : W64) : Nat → List PCmd → State × List CopyCmd
  | _, [] => (s, [])
  | id, c :: r =>
    let a := s.cmdOf l id stamp c
    let b := State.cmdsOf a.1 l stamp (id + 1) r
    (b.1, a.2.toList ++ b.2)

/-- Residencies of a pack, with the tensor records that their sources name. -/
def State.resOf (s : State) (l : Launch) : List Nat → State × List Res
  | [] => (s, [])
  | v :: r =>
    let rec_ := s.schedRead l.path (fld v 192 64) 64
    let b := State.resOf rec_.1 l r
    (b.1, pRes v (rec_.2.getD []) :: b.2)

/-! ### Lanes and splits -/

/-- A value of a record in a lane; acc values name the tile records. -/
def PVal.at (x : PVal) (ty : Ty) (tiles : List Tile) (i : Nat) : TVal :=
  match x.form with
  | 0 => ofImage ty (rdAt x.data (4 * i) 4)
  | 1 => ofImage ty (rdAt x.data (8 * i) 8)
  | 2 => ofImage ty (rdAt x.data 0 8)
  | 3 => mkB (decide ((rdAt x.data 0 x.data.length).testBit i))
  | _ => match tiles[x.tile]? with
    | some t => AccRef.val ⟨t.slot, t.rope⟩
    | none => ⟨.acc, 0⟩

/-- Serial of the rope that a ROPE register names within a camp: one more than its first member. -/
def ropeSerial (r : W32) : Nat := if inRope r then (ropeMembers r).headD 0 + 1 else 0

/-- State of a split record: a barrier wait goes on with its word and the reference phase of its operand or of the last-arrival record, any other wait is begun again (R337, 08 R194). -/
def PSplit.state (m : Module) (p : PSplit) (t : PTroop) : SState :=
  let val (v : Val) : Nat := ((p.vals.find? fun x => x.v = v).map fun x =>
    (x.at .w64 [] (((lanesOf 1024 p.mask).head?).getD 0)).nat).getD 0
  let bit (v : Val) : Bool := ((p.vals.find? fun x => x.v = v).map fun x =>
    (x.at .b1 [] (((lanesOf 1024 p.mask).head?).getD 0)).nat == 1).getD t.lph
  match p.st, (m.at? p.func p.pos).map At.item with
  | 1, some (.instr (.barWait b (some ph))) => .barrier (BitVec.ofNat 64 (val b)) (bit ph)
  | 1, some (.instr (.barWait b none)) => if t.larr != 0 && t.larr = val b then .barrier (BitVec.ofNat 64 (val b)) t.lph else .ready
  | 1, some (.instr (.barSync b _)) | 1, some (.instr (.stepSync b _)) => .barrier (BitVec.ofNat 64 (val b)) t.lph
  | 3, _ => .join
  | _, _ => .ready

/-- A split of a record. -/
def PSplit.split (mh : Nat) (m : Module) (t : PTroop) (sid : Nat) (p : PSplit) : Split :=
  let idx := (p.vals.find? fun x => x.v = iterVal).map fun x => rdAt x.data 0 8
  let lead := ((lanesOf 1024 p.mask).head?).getD 0
  let tripOf (v : Val) : Nat := ((p.vals.find? fun x => x.v = v).map fun x => (x.at .w32 [] lead).nat).getD 0
  let lp : Option Loop := match idx, loopAround (m.items p.func) p.pos with
    | some i, some (a, _) => match a.item with
      | .instr (.sloop n specs bases inits) => some ⟨tripOf n, i, a.off + 4 * a.len, a.val, inits.length, specs, bases, []⟩
      | _ => none
    | _, _ => none
  { Split.reset with
    sid := sid, mask := p.mask, mh := mh, func := p.func, off := p.pos, lastPt := p.pos, st := p.state m t
    group := if p.group = 0xFFF then 0 else p.group + 1, loop := lp, scal := [(31, BitVec.ofNat 64 t.fp)]
    stop := if p.st = 4 then some .other else none }

/-- A troop of a record, each lane with its innermost activation; private pages come later. -/
def PTroop.troop (h : PHead) (mh : Nat) (m : Module) (tiles : List Tile) (t : PTroop) : Troop :=
  let ng := t.groups.length
  let lane (i : Nat) : Lane :=
    let fr : List Frame := match t.splits.find? fun p => inMask p.mask i with
      | none => []
      | some p =>
        let ts := valTys m.rtypes (m.items p.func)
        [⟨mh, p.func, 0, 0xFFFFFF, 0, t.fp, true, (p.vals.filter fun x => x.v != iterVal).map fun x =>
          (x.v, x.at ((ts[x.v]?).getD .void) tiles i), false⟩]
    { Lane.reset with
      frames := fr, sticky := BitVec.ofNat 13 ((t.sticky[i]?).getD 0) |>.setWidth 32, rand := BitVec.ofNat 64 ((t.rand[i]?).getD 0)
      seen := BitVec.ofNat 64 h.stamp }
  { Troop.reset with
    mem := t.mem, live := t.live, dead := t.dead, lanes := (List.range h.width).map lane
    splits := t.splits.mapIdx fun i p => p.split mh m t (ng + 1 + i)
    groups := t.groups.mapIdx fun i g => ⟨i + 1, if g.2.2 = 0xFFF then 0 else g.2.2 + 1, mh, g.2.1,
      if g.1 = 0xFFFFFF then none else some g.1, 1, none⟩
    nextId := ng + 1 + t.splits.length
    larr := if t.larr = 0 then none else some (BitVec.ofNat 64 t.larr, t.lph)
    rope := BitVec.ofNat 32 t.rope, ropeId := ropeSerial (BitVec.ofNat 32 t.rope)
    stubv := stubVal (BitVec.ofNat 64 t.stubv) (fld t.stubv 16 4) (fld t.stubv 24 16) (fld t.stubv 40 24) }

/-! ### Private pages and caller activations (13 R337, R338, 10 R251) -/

/-- Maps `n` private pages of a troop and fills them with the bytes copied. -/
def State.copyPages (s : State) (l : Launch) (t : Troop) (data : List Byte) : Nat → State × Troop × Bool
  | 0 => (s, t, true)
  | n + 1 =>
    let r := s.mapPrivate l.path t.proot t.hwm
    let u : Troop := { t with proot := r.2.2.1, pages := t.pages ++ r.2.2.2 }
    if r.2.1 != .ok then (r.1, u, false)
    else
      let a := (r.1.privPhys u.proot (65536 * t.hwm)).getD 0
      State.copyPages (r.1.commit (cellsAt a ((data.drop (65536 * t.hwm)).take 65536))) l { u with hwm := t.hwm + 1 } data n

/-- Pages of all troops, in MEMBER order. -/
def State.copyAll (s : State) (l : Launch) : List (Troop × Nat) → List Byte → State × List Troop × Bool
  | [], _ => (s, [], true)
  | (t, n) :: r, data =>
    let a := s.copyPages l t data n
    let b := State.copyAll a.1 l r (data.drop (65536 * n))
    (b.1, a.2.1 :: b.2.1, a.2.2 && b.2.2)

/-- The link at a frame pointer in a lane of the focused troop: caller's FP, return offset, function, BUDGET, TILES. -/
def State.linkAt (s : State) (i fp : Nat) : Nat × Nat × Nat × Nat × Nat :=
  let a := s.frameRead i fp 8
  let b := s.frameRead i (fp + 8) 8
  (a, fld b 0 24, fld b 24 16, fld b 40 7, fld b 47 3)

/-- The caller activations of a lane: each with the values its frame keeps across the call, under the map of the key it called with (R338). -/
def State.callers (s : State) (mh i : Nat) (m : Module) : Nat → Frame → List Frame
  | 0, f => [f]
  | fuel + 1, f =>
    let k := s.linkAt i f.fp
    if k.2.1 = 0xFFFFFF then [{ f with root := true }]
    else
      let func := k.2.2.1
      let call := (m.items func).find? fun a => a.off + 4 * a.len = k.2.1
      let view : State := { s with
        tr := { s.tr with budget := k.2.2.2.1, tiles := k.2.2.2.2 }
        sp := { s.sp with mh := mh, func := func, scal := [(31, BitVec.ofNat 64 k.1)] } }
      let c : Frame := ⟨mh, func, 0, 0, 0, k.1, false, view.readLocs func i (view.scanAt func k.2.1), false⟩
      { f with root := false, callOff := (call.map At.off).getD 0, retOff := k.2.1, resNum := (call.map At.val).getD 0 } ::
        State.callers s mh i m fuel c

/-- Activations of every lane of a troop of a camp. -/
def State.withCallers (s : State) (c : Camp) (mh : Nat) (m : Module) (t : Troop) : Troop :=
  let v : State := { s with cp := c, tr := t, sp := Split.reset }
  let ls := t.lanes.mapIdx fun i l => match l.frames with
    | f :: _ => { l with frames := v.callers mh i m 4096 f }
    | [] => l
  let depthIn (func i : Nat) : Nat :=
    let fs := ((ls[i]?).getD Lane.reset).frames
    fs.length - ((fs.findIdx? fun f => f.func = func).getD 0)
  { t with
    lanes := ls
    groups := t.groups.map fun g =>
      let p := t.splits.find? fun p => encloses t.groups g.gid t.groups.length p.group
      { g with depth := match p with
        | some q => depthIn g.func (((lanesOf t.width q.mask).head?).getD 0)
        | none => 1 } }

/-! ### The restore (13 R337, 20 R447) -/

/-- First reason for which a pack cannot be restored here, in the order of R447. -/
def State.packFaults (s : State) (h : PHead) (ts : Option (List PTroop)) (b : List Byte) : List Nat :=
  let ms := s.modules.filter fun m => m.hash.toNat % 2 ^ 128 = h.hashp
  let leaf : Bool := match s.path h.leaf with
    | some (d :: _) => d.kind = 3
    | _ => false
  (if !h.ok || ts.isNone || !restZero h b then [1] else []) ++
  (match ms with
   | [] => [2]
   | [m] => match ts with
     | some l => if l.all fun t => t.splits.all fun p => pointOk m h.runlim p then [] else [5]
     | none => []
   | _ => [3]) ++
  (if leaf then [] else [4])

/-- The launch under which a camp of another package runs here: no queue holds its record. REGION is that of the RCB at the pack's leaf address here: a pack carries none (log 32, DESIGN CHOICE). -/
def State.foreignLaunch (s : State) (h : PHead) (m : Module) (p : List Rcb) : Launch :=
  let d := p.headD ⟨0, 0⟩
  { Launch.none with
    lid := s.nextLid, queue := 4096, leaf := h.leaf, root := (p.getLast?.map Rcb.addr).getD 0, rcbs := p.map fun x => (x.addr, x.v)
    region := d.region, mh := m.mh, func := d.func, wlog2 := h.wlog2, campsize := h.campsize, troops := d.troops
    scratch := h.scratch, rmin := d.rmin, runlim := h.runlim, cohort := d.cohort, det := d.det, admitted := s.stamp.toNat, done := false }

/-- Words at which an entry of a pack is due: the record does not say, so it is that of the troop's last arrival while its phase lasts (log 26). -/
def State.dueFrom (s : State) (c : Camp) (o : Orb) : List Nat :=
  match (c.troops.find? fun t => t.mem = o.mem).bind Troop.larr with
  | none => []
  | some (a, ph) => match s.wordSpot c a.toNat with
    | some (.scratch x) => if (BWord.ofNat (leNat (memBytes c.scr x 8))).phase = ph then [scratchKey x] else []
    | some p => if (BWord.ofNat (s.readPlace p 8)).phase = ph then [spotKey p] else []
    | none => []

/-- The camp of a pack, its lists whole; none when its private pages cannot be mapped. -/
def State.foreignCamp (s : State) (h : PHead) (m : Module) (l : Launch) (ts : List PTroop) (b : List Byte) : State × Option Camp :=
  let ropeOf (mem : Nat) : Nat := ((ts.find? fun t => t.mem = mem).map fun t => ropeSerial (BitVec.ofNat 32 t.rope)).getD 0
  let tiles := (List.range h.nacc).map fun i => pTile b (h.accoff + tileRec * i) ropeOf
  let stamp := BitVec.ofNat 64 h.stamp
  let pg := s.copyAll l (ts.map fun t => (t.troop h m.mh m tiles, t.hwm)) (b.drop h.len)
  let rs := pg.1.resOf l ((List.range h.nres).map fun i => rdAt b (h.resoff + 32 * i) 32)
  let cs := rs.1.cmdsOf l stamp 1 (pCmds b h.ncmd h.cmdoff)
  let orbs := (List.range h.norb).map fun i => pOrb (rdAt b (h.orboff + 32 * i) 32) h.campsize
  let c : Camp := { Camp.reset with
    ref := ⟨l.lid, h.camp⟩, place := .packed, troops := pg.2.1
    scr := memWriteAll [] (cellsAt 0 ((b.drop h.scroff).take h.scratch)), res := rs.2, gens := rs.2.map fun r => (r.num, r.gen)
    accs := tiles, nextRope := 17, cmds := cs.2, nextCmd := cs.2.length + 1, orb := orbs
    nextOrb := orbs.foldl (fun n o => max n (o.seq + 1)) 0 }
  let c1 : Camp := { c with
    troops := c.troops.map fun t => cs.1.withCallers c m.mh m t
    orb := c.orb.map fun o => { o with due := cs.1.dueFrom c o } }
  (cs.1, if pg.2.2 then some { c1 with pack := some (cs.1.packOf c1 stamp []) } else none)

/-- A camp that another package has restored from its pack and private pages: its pages and area are free, its watches gone; this package runs it no more (R337; log 26). -/
def State.campMoved (s : State) (c : CampRef) : State :=
  match s.camps.find? fun k => k.ref = c with
  | none => s
  | some k =>
    if k.place != .packed then s
    else ((s.freePrivate k).giveSave k.area).modCamp c fun k => { k with
      place := .moved, troops := [], scr := [], res := [], accs := [], cmds := [], orb := [], pack := none, area := none }

/-- A pack written by another package arrives: it is checked before any part of it is installed, then waits for its place. -/
def State.restoreForeign (s : State) (b : List Byte) (k : CoreId) : State :=
  let h := PHead.ofBytes b
  let ts := pTroops h.width b h.ntr h.troff
  let path := (s.path h.leaf).getD []
  match s.packFaults h ts b with
  | f :: r => s.restoreFail path h.leaf (r.foldl min f)
  | [] => match s.modules.find? fun m => m.hash.toNat % 2 ^ 128 = h.hashp, ts with
    | some m, some ts =>
      let l := s.foreignLaunch h m path
      let s1 : State := { s with launches := s.launches ++ [l], nextLid := s.nextLid + 1 }
      match s1.foreignCamp h m l ts b with
      | (_, none) => s.restoreFail path h.leaf 6
      | (s2, some c) =>
        let s3 : State := { s2 with camps := s2.camps ++ [c] }
        if (s3.choice c).isNone then s.restoreFail path h.leaf 6 else s3.restoreOwn c.ref k
    | _, _ => s

/-- PACK_RESTORE: of a camp of this package, or of a pack given by its bytes and those of its private pages; a die that is no compute die says that another package has restored the camp. -/
def execPackRestore (c : CampRef) (k : CoreId) (foreign : Option (List Byte)) (s : State) : Out :=
  .next (match foreign with
    | none => if 8 ≤ k.die then s.unfocus.campMoved c else s.restoreOwn c k
    | some b => s.unfocus.restoreForeign b k)

end Sys2Proof.Machine
end

