-- ==== Sys2Proof/Machine/Power.lean ====
section
/-! DEFINITION. Operating points, charge and energy, period boundaries, subscriptions, gating, migration (14 R342 to R351, 04 R99, R100, 20 R453). -/

namespace Sys2Proof.Machine

/-! ### Operating points (14 R342, R344) -/

/-- RELOCK: in a raise the ramp has ended, and the relock begins. -/
def execRelock (k : CoreId) (s : State) : Out :=
  .next (s.modCore k fun c => { c with move := c.move.map fun m => { m with relocking := true } })

/-- The end of a relock: CUR changes. -/
def Core.relockEnd (c : Core) : Core :=
  match c.move with
  | some m => if m.relocking && !m.relocked then { c with cur := m.dst, move := some { m with relocked := true } } else c
  | none => c

/-- OP_RELOCK_END. -/
def execOpRelockEnd (k : CoreId) (s : State) : Out := .next (s.modCore k Core.relockEnd)

/-- A move whose relock and ramp have ended is complete: TGT shows it, and the mailbox starts the next. -/
def Core.moveEnd (c : Core) : Core :=
  match c.move with
  | some m => if m.relocked then ({ c with move := none, tgt := m.dst } : Core).opStart else c
  | none => c

/-- OP_MOVE_COMPLETE. -/
def execOpMoveComplete (k : CoreId) (s : State) : Out := .next (s.modCore k Core.moveEnd)

/-- The point that a core runs at or moves to. -/
def Core.heading (c : Core) : Nat := (c.move.map OpMove.dst).getD c.cur

/-- OPCEIL of a die after one 100 us step (R344). -/
def Die.step (d : Die) (now power cap temp : Nat) : Die :=
  let (c, down, up) :=
    if cap < power then (d.opceil - 1, now, d.lastUp)
    else if 100 * power < 95 * cap && d.lastUp + 1000000 ≤ now then (min 7 (d.opceil + 1), d.lastDown, now)
    else (d.opceil, d.lastDown, d.lastUp)
  { d with opceil := if 105000 ≤ temp then min c 2 else c, temp := temp, lastDown := down, lastUp := up }

/-- Posts a lowered ceiling to the cores of a die that run above it. -/
def State.postCeil (s : State) (d : Die) : State :=
  (((List.range 544).map coreNum).filter fun k => k.die = d.die).foldl (fun t k =>
    let c := t.coreOf k
    if d.opceil < max c.cur c.heading then t.modCore k fun c => c.opPost d.opceil else t) s

/-- CTARGET of every cluster from its share of the cap in force (R345; the share: log 19). -/
def State.setTargets (s : State) : State :=
  ((((List.range 544).map coreNum).map fun k => (k.die, k.cl)).eraseDups).foldl (fun t x =>
    t.modCluster ⟨x.1, x.2, 0⟩ fun c => { c with ctarget := Config.chargeTarget t.capNow x.1 x.2 }) s

/-- Whether every running core is at OP0. -/
def State.allAtOp0 (s : State) : Bool :=
  s.cores.all fun c => c.cur = 0 || c.pow != .up || !(s.allCamps.any fun k => k.issuesOn c.id)

/-- OPCEIL_UPDATE: power in mW and junction temperatures in thousandths of a degree, die 0 first, as measured (log 14). -/
def execOpceilUpdate (power : Nat) (temps : List Nat) (s : State) : Out :=
  let cap := 100 * s.capNow
  let ds := s.dies.map fun d => d.step s.stamp.toNat power cap ((temps[d.die]?).getD d.temp)
  let s1 := (ds.foldl State.postCeil { s with power := power, dies := ds }).setTargets
  .next { s1 with atOp0 := if cap < power && s1.allAtOp0 then some (s1.atOp0.getD s1.stamp.toNat) else none }

/-! ### Charge and energy (14 R345, R346) -/

/-- Books energy to every node of a path. -/
def State.bookPath (s : State) (p : List Rcb) (e : Nat) : State :=
  { s with energy := p.foldl (fun es r =>
      match es.find? fun q => q.1 = r.addr with
      | some _ => es.map fun q => if q.1 = r.addr then (q.1, q.2 + e) else q
      | none => (r.addr, e) :: es) s.energy }

/-- Nodes of a path whose use has reached their budget, in mJ, are spent. -/
def State.spendPath (s : State) : List Rcb → State
  | [] => s
  | r :: rest =>
    let t := if s.spent.contains r.addr || s.usage .energy r.addr < 1000 * s.effBudget .energy (r :: rest) then s
      else { s with spent := r.addr :: s.spent }
    State.spendPath t rest

/-- Books a core's energy of the window, in uJ, to its camps in proportion to their charge. -/
def State.bookCore (s : State) (k : CoreId) (e : Nat) : State :=
  let cs := (s.coreOf k).charge
  let total := (cs.map Prod.snd).sum
  let s1 := s.modCore k fun c => { c with energy := c.energy + e, charge := [] }
  if total = 0 then s1
  else cs.foldl (fun t q =>
    let p := (t.launch q.1.lid).path
    (t.bookPath p (e * q.2 / total)).spendPath p) s1

/-- CHARGE_WINDOW: the energy that cores metered in the window (log 14); the charge records are cleared. -/
def execChargeWindow (energy : List (CoreId × Nat)) (s : State) : Out :=
  let s1 := energy.foldl (fun t q => t.bookCore q.1 q.2) s
  .next { s1 with
    clusters := s1.clusters.map fun c => { c with c := 0 }
    cores := s1.cores.map fun c => { c with charge := [] } }

/-! ### Period boundaries (02 R46, 04 R99, 13 R326, 14 R346) -/

/-- Raises the budgets of the camps that remain on a core that others have left, to the grant of R36, where the save area holds them at it (20 R443). -/
def State.raiseOn (s : State) (k : CoreId) : State :=
  let cs := (s.camps.filter fun c => c.place = .on k).map Camp.ref
  (cs.foldl (fun t c => match t.camps.find? fun x => x.ref = c with
    | none => t
    | some x => match (t.launch c.lid).grant (t.freeOn k [c]) x.tiles with
      | some b =>
        let n := t.saveNeed (t.launch c.lid) b x.tiles
        if b ≤ x.budget || !t.saveFits x n then t else (t.reserve c n).modCamp c fun y => { y with budget := b }
      | none => t) s).modCore k fun c => { c with left := false }

/-- PERIOD_BOUNDARY, every 10 ms. -/
def execPeriodBoundary (s : State) : Out :=
  let u := s.unfocus
  let u1 := ((u.launches.filter fun l => !l.done).map Launch.lid).foldl State.reread u
  let u2 : State := { u1 with
    period := u1.period + 1, energy := [], spent := []
    counters := (u1.counters.map fun c => (c.1, c.2 / 2)).filter fun c => c.2 != 0
    cores := u1.cores.map fun c => { c with energy := 0 }
    camps := u1.camps.map fun c => { c with dry := false } }
  .next (((u2.cores.filter Core.left).map Core.id).foldl State.raiseOn u2)

/-! ### Subscriptions (14 R347, R348) -/

/-- Fields of a subscription record. -/
def Sub.kind (x : Sub) : Nat := fld x.rcd.toNat 0 8
def Sub.falling (x : Sub) : Bool := fld x.rcd.toNat 8 1 = 1
def Sub.src (x : Sub) : Nat := fld x.rcd.toNat 72 24
def Sub.hyst (x : Sub) : Nat := fld x.rcd.toNat 96 32
def Sub.thresh (x : Sub) : Int := (BitVec.ofNat 64 (fld x.rcd.toNat 128 64)).toInt
def Sub.naddr (x : Sub) : Nat := fld x.rcd.toNat 192 64

/-- Root of a tenant bound to a master. -/
def State.rootOfMaster (s : State) (m : Nat) : Option Nat := (s.tenants.find? fun t => t.master = m).map Tenant.root

/-- Bytes of a notify word that the device may write; none when the page is unmapped or not writable. -/
def State.notifyPlace (s : State) (tree a n : Nat) : Option (List Nat) :=
  let ps := (List.range n).filterMap fun i => match s.walk tree (a + i) with
    | .ok x => match x.tgt with
      | .phys p => if x.w && !s.keyWiped x.key then some p else none
      | _ => none
    | .error _ => none
  if ps.length = n then some ps else none

/-- Fires a subscription: the value, then the stamp, or NOTIFYFAIL to the tenant root's ring. -/
def State.fire (s : State) (x : Sub) (v : Int) : State :=
  match s.rootOfMaster x.master with
  | none => s
  | some r =>
    match s.notifyPlace (s.rcbAt r).tree x.naddr 16 with
    | none => s.post (s.rootPath r) ⟨0x11, 0, s.gsrc srcMgmt, 0, EvBody.pack ⟨x.naddr, 0, 0, 0, 0, x.i⟩⟩
    | some ps =>
      let t := s.gstamp
      { s with gseen := t }.commit (ps.zip (leBytes 8 t.toNat ++ leBytes 8 (BitVec.ofInt 64 v).toNat))

/-- Whether a sample fires an armed subscription, and whether it arms one that has fired. -/
def Sub.fires (x : Sub) (v : Int) : Bool := if x.falling then v ≤ x.thresh else x.thresh ≤ v
def Sub.rearms (x : Sub) (v : Int) : Bool := if x.falling then x.thresh + x.hyst < v else v < x.thresh - x.hyst

/-- One subscription at a sample. -/
def State.sampleOne (s : State) (v : Int) (x : Sub) : State :=
  let set (b : Bool) (t : State) : State := { t with subs := t.subs.map fun y => if y.i = x.i then { y with armed := b } else y }
  if x.armed then (if x.fires v then set false (s.fire x v) else s)
  else if x.rearms v then set true s else s

/-- A sample of a kind and source. -/
def State.sample (s : State) (kind src : Nat) (v : Int) : State :=
  (s.subs.filter fun x => x.kind = kind && (x.src = src || !(kind = 1 || kind = 3))).foldl (fun t x => t.sampleOne v x) s

/-- Energy in uJ that the region of a number has used in the period. -/
def State.regionEnergy (s : State) (region : Nat) : Nat :=
  match (s.launches.flatMap Launch.path).find? fun r => r.region = region with
  | some r => s.usage .energy r.addr
  | none => 0

/-- SUBSCRIPTION_SAMPLE: temperature and power as measured (log 14); region energy and the cap are the package's own. -/
def execSubscriptionSample (kind src : Nat) (v : Int) (s : State) : Out :=
  let x : Int := if kind = 3 then (s.regionEnergy src : Nat) else if kind = 4 then (100 * s.capNow : Nat) else v
  .next (s.sample kind src x)

/-- A change of the cap in force is sampled (R347). -/
def State.capChanged (s : State) (old : Nat) : State :=
  if s.capNow = old then s else s.sample 4 0 (100 * s.capNow : Nat)

/-- LEASE_EXPIRY: the floor cap takes force (R351). -/
def execLeaseExpiry (s : State) : Out :=
  .next (match s.lease with
    | some t => if t ≤ s.stamp.toNat then { s with lease := none, floor := true }.capChanged s.capNow else s
    | none => s)

/-! ### Gating and the in-rush arbiter (14 R349, R350, 20 R453) -/

/-- Whether the copy engine or the translator works on behalf of a core: a granule of a camp taken off it is out, or a claim that it made is held. -/
def State.worksFor (s : State) (k : CoreId) : Bool :=
  (s.claims.any fun c => c.die = k.die && c.cl = k.cl && c.core = k.core) ||
  s.reqs.any fun r => match r.by_ with
    | .granule c _ _ => s.allCamps.any fun x => x.ref = c && x.place = .image k
    | _ => false

/-- Whether a core is idle (R349). -/
def State.coreIdle (s : State) (k : CoreId) : Bool :=
  let c := s.coreOf k
  !(s.allCamps.any fun x => x.issuesOn k) &&
  !(s.allCamps.any fun x => x.res.any fun r => r.pin && r.tiles.any fun t => t.core = k) &&
  (c.b0.st = .empty || c.b0.st = .invalid) && (c.b1.st = .empty || c.b1.st = .invalid) && !s.worksFor k

/-- Time advances: a core that is not idle now has been busy until then. -/
def State.elapse (s : State) (dt : Nat) : State :=
  if dt = 0 then s
  else
    let t := s.stamp + BitVec.ofNat 64 dt
    { s with stamp := t, cores := s.cores.map fun c => if s.coreIdle c.id then c else { c with idle := t.toNat } }


/-- Evicts the residency tiles of a core's store, and its own translations, which power keeps. -/
def State.evictCore (s : State) (k : CoreId) : State :=
  ({ s with tlbs := s.tlbs.filter fun e => e.unit != TlbUnit.core k } : State).mapCamps fun c =>
    { c with res := c.res.map fun r => { r with tiles := r.tiles.filter fun t => t.core != k } }

/-- CORE_GATE: a core idle for the hold begins its power-off; a wake in the hold has cancelled it. -/
def execCoreGate (k : CoreId) (s : State) : Out :=
  let c := s.coreOf k
  .next (if s.ember = .running && c.pow = .up && s.coreIdle k && c.idle + s.hold ≤ s.stamp.toNat then
      (s.evictCore k).modCore k fun c => { c with pow := .offing s.stamp.toNat, wake := false, b0 := Bank.reset, b1 := Bank.reset }
    else s)

/-- CORE_POWER_OFF_DONE: a wake that came during the power-off joins the queue now. -/
def execCorePowerOffDone (k : CoreId) (s : State) : Out :=
  .next (match (s.coreOf k).pow with
    | .offing _ =>
      if (s.coreOf k).wake then
        (s.modCore k fun c => { c with pow := .waking, wake := false }).modDie k.die fun d =>
          { d with queue := d.queue ++ [(k, s.stamp.toNat)] }
      else s.modCore k fun c => { c with pow := .gated }
    | _ => s)

/-- Whether a queued core comes before another: order of request, then core number (R350). -/
def wakesBefore (a b : CoreId × Nat) : Bool :=
  a.2 < b.2 || (a.2 = b.2 && a.1.cl * 16 + a.1.core < b.1.cl * 16 + b.1.core)

/-- The queue in the order in which it is served. -/
def wakeOrder (q : List (CoreId × Nat)) : List (CoreId × Nat) :=
  q.foldr (fun x l => (l.takeWhile fun y => wakesBefore y x) ++ x :: l.dropWhile fun y => wakesBefore y x) []

/-- When the round began that has ended by `now`: rounds begin at each multiple of 2,000 ns (20 R453). The row stands for a round's end (DEDUCED, log 95). -/
def roundBegan (now : Nat) : Nat := 2000 * (now / 2000 - 1)

/-- ARBITER_ROUND: at the end of the round at most four cores of a die that joined before it began are up, at min(OP5, OPCEIL) (20 R453). -/
def execArbiterRound (die : Nat) (s : State) : Out :=
  let d := s.dieOf die
  let q := wakeOrder d.queue
  let now := s.stamp.toNat
  let due := q.filter fun x => x.2 < roundBegan now
  let up := (due.take 4).map Prod.fst
  let s1 := up.foldl (fun t k => t.modCore k fun c =>
    { c with pow := .up, cur := min 5 d.opceil, tgt := min 5 d.opceil, mail := none, move := none, idle := now }) s
  .next (s1.modDie die fun d => { d with queue := due.drop 4 ++ q.filter fun x => roundBegan now ≤ x.2 })

/-! ### Migration (04 R99, R100) -/

/-- Entry of a page of a paged range: its descriptor, the address of its level-2 entry and its value. -/
def State.level2 (s : State) (tree va : Nat) : Option (RangeDesc × Nat × Nat) :=
  match s.lookup tree va with
  | .error _ => none
  | .ok d =>
    if d.kind != 2 then none
    else (s.entry2 d va).bind fun a => let v := memNat s.mem a 8; if v % 2 = 1 then some (d, a, v) else none

/-- Counter of a granule (R99). -/
def State.counterOf (s : State) (g : Nat) : Nat := ((s.counters.find? fun c => c.1 = g).map Prod.snd).getD 0

/-- Whether no granule of HBM4 in a migrate range of a tenant has a counter below `n`: a granule that nothing counted stands at 0. -/
def State.leastUsed (s : State) (n : Nat) : Bool :=
  n = 0 || s.tenants.all fun t => let tree := (s.rcbAt t.root).tree
    (s.migGranules tree 0 (2 ^ 48)).all fun x => let g := fld x.2.2 16 32
      !inHbm (65536 * g) || n ≤ s.counterOf g

/-- Whether the policy moves a granule, to the capacity tier when `some true`. -/
def State.moves (s : State) (tree : Nat) (d : RangeDesc) (v : Nat) : Option Bool :=
  let g := fld v 16 32
  let cap := fld v 1 1 = 1
  let fast := s.fast.count != 0
  let room := s.capp.count != 0
  match s.tierOf tree d with
  | 0 =>
    if cap then (if s.promo ≤ s.counterOf g && fast then some false else none)
    else if s.fast.count < s.lowmark && room && s.leastUsed (s.counterOf g) then some true
    else none
  | 1 => if cap && fast then some false else none
  | _ => if !cap && room then some true else none

/-- Takes a given page out of a pool; none when it is not free. -/
def Pool.takeAt (p : Pool) (a : Nat) : Option Pool :=
  match p.free.find? fun r => r.1 ≤ a && a < r.1 + 65536 * r.2 && (a - r.1) % 65536 = 0 with
  | none => none
  | some r =>
    let i := (a - r.1) / 65536
    let parts := (if i = 0 then [] else [(r.1, i)]) ++ (if i + 1 = r.2 then [] else [(a + 65536, r.2 - i - 1)])
    some { p with free := p.free.flatMap fun q => if q = r then parts else [q] }

/-- MIGRATION: the engine starts to move the granule of `va` to a free page; which granule and page is the engine's choice among those the policy allows. -/
def execMigration (root va dst : Nat) (s : State) : Out :=
  let tree := (s.rcbAt root).tree
  .next (match s.level2 tree va with
    | none => s
    | some (d, a, v) =>
      if s.migs.any fun m => m.entry = a then s
      else match s.moves tree d v with
        | none => s
        | some cap =>
          let m : Migr := ⟨root, va / 65536 * 65536, a, BitVec.ofNat 64 v, fld v 16 32 * 65536, dst, cap⟩
          match (if cap then s.capp else s.fast).takeAt dst with
          | none => s
          | some p =>
            let s1 : State := { s with migs := s.migs ++ [m] }
            if cap then { s1 with capp := p } else { s1 with fast := p })

/-- A physical address after a granule has moved. -/
def moved (src dst a : Nat) : Nat := if src ≤ a && a < src + 65536 then dst + (a - src) else a

/-- A watched span after a granule has moved: its parts. -/
def movedSpan (src dst : Nat) (w : Nat × Nat) : List (Nat × Nat) :=
  let lo := max w.1 src
  let hi := min w.2 (src + 65536)
  if hi ≤ lo then [w]
  else (if w.1 < lo then [(w.1, lo)] else []) ++ [(dst + (lo - src), dst + (hi - src))] ++ (if hi < w.2 then [(hi, w.2)] else [])

/-- Moves the bytes of a granule with what the directory knows of it: poison marks, watches, stores under way, counters (R100, 21 R466). -/
def State.moveGranule (s : State) (src dst : Nat) : State :=
  let mv := moved src dst
  let cells := (s.mem.filter fun c => src ≤ c.1 && c.1 < src + 65536).map fun c => (mv c.1, c.2)
  let mem0 := memZero (memZero s.mem dst (dst + 65536)) src (src + 65536)
  let orb (o : Orb) : Orb := { o with due := o.due.map mv }
  let res (c : Camp) : Camp := { c with
    res := c.res.map fun r => { r with watch := r.watch.map fun ws => ws.flatMap (movedSpan src dst) }
    orb := c.orb.map orb }
  { s with
    mem := memWriteAll mem0 cells
    poison := s.poison.map fun ln => mv (64 * ln) / 64
    stores := s.stores.map fun p => { p with bytes := p.bytes.map fun b => (mv b.1, b.2) }
    counters := s.counters.map fun c => (mv (65536 * c.1) / 65536, c.2)
    cp := res s.cp
    camps := s.camps.map res }

/-- Ends a migration: the new entry is written and old translations are invalidated, unless software has changed the entry. -/
def State.endMigration (s : State) (m : Migr) : State :=
  let give (cap : Bool) (a : Nat) (t : State) : State := if cap then { t with capp := t.capp.put a } else { t with fast := t.fast.put a }
  if memNat s.mem m.entry 8 != m.old.toNat then give m.toCap m.dst s
  else
    let s1 := (s.moveGranule m.src m.dst).putEntry m.entry (entryVal m.dst m.toCap)
    give (!m.toCap) m.src { s1 with tlbs := s1.tlbs.filter fun t => !(t.pkg.isNone && t.phys = m.src) }

/-- MIGRATION_DONE. -/
def execMigrationDone (n : Nat) (s : State) : Out :=
  .next (match s.migs[n]? with
    | none => s
    | some m => ({ s with migs := s.migs.eraseIdx n }.endMigration m).poolChecks)

end Sys2Proof.Machine
end

