-- ==== Sys2Proof/Machine/Sha.lean ====
section
/-! DEFINITION. SHA-256 and SHA-384 of FIPS 180-4, the digests of 06 R126 and 14 R362. -/

namespace Sys2Proof.Machine

/-- Words of `w` bits of a table written as one number, the first word highest. -/
def tableWords (w : Nat) : Nat → Nat → List Nat
  | 0, _ => []
  | n + 1, t => t / 2 ^ (w * n) % 2 ^ w :: tableWords w n t

/-- The fractions of the cube roots of the first 80 primes, 64 bits each. -/
def rootTable : Nat :=
  0x428a2f98d728ae227137449123ef65cdb5c0fbcfec4d3b2fe9b5dba58189dbbc3956c25bf348b53859f111f1b605d019923f82a4af194f9bab1c5ed5da6d8118d807aa98a303024212835b0145706fbe243185be4ee4b28c550c7dc3d5ffb4e272be5d74f27b896f80deb1fe3b1696b19bdc06a725c71235c19bf174cf692694e49b69c19ef14ad2efbe4786384f25e30fc19dc68b8cd5b5240ca1cc77ac9c652de92c6f592b02754a7484aa6ea6e4835cb0a9dcbd41fbd476f988da831153b5983e5152ee66dfaba831c66d2db43210b00327c898fb213fbf597fc7beef0ee4c6e00bf33da88fc2d5a79147930aa72506ca6351e003826f142929670a0e6e7027b70a8546d22ffc2e1b21385c26c9264d2c6dfc5ac42aed53380d139d95b3df650a73548baf63de766a0abb3c77b2a881c2c92e47edaee692722c851482353ba2bfe8a14cf10364a81a664bbc423001c24b8b70d0f89791c76c51a30654be30d192e819d6ef5218d69906245565a910f40e35855771202a106aa07032bbd1b819a4c116b8d2d0c81e376c085141ab532748774cdf8eeb9934b0bcb5e19b48a8391c0cb3c5c95a634ed8aa4ae3418acb5b9cca4f7763e373682e6ff3d6b2b8a3748f82ee5defb2fc78a5636f43172f6084c87814a1f0ab728cc702081a6439ec90befffa23631e28a4506cebde82bde9bef9a3f7b2c67915c67178f2e372532bca273eceea26619cd186b8c721c0c207eada7dd6cde0eb1ef57d4f7fee6ed17806f067aa72176fba0a637dc5a2c898a6113f9804bef90dae1b710b35131c471b28db77f523047d8432caab7b40c724933c9ebe0a15c9bebc431d67c49c100d4c4cc5d4becb3e42b6597f299cfc657e2a5fcb6fab3ad6faec6c44198c4a475817

/-- Round constants: SHA-384 takes every word, SHA-256 the upper half of the first 64. -/
def k512 : List Nat := tableWords 64 80 rootTable
def k256 : List Nat := (k512.take 64).map fun k => k / 2 ^ 32

/-- Initial values. -/
def h256 : List Nat := tableWords 32 8 0x6a09e667bb67ae853c6ef372a54ff53a510e527f9b05688c1f83d9ab5be0cd19
def h384 : List Nat := tableWords 64 8 0xcbbb9d5dc1059ed8629a292a367cd5079159015a3070dd17152fecd8f70e593967332667ffc00b318eb44a8768581511db0c2e0d64f98fa747b5481dbefa4fa4

/-- Rotation right of an `n`-bit word. -/
def ror (n r x : Nat) : Nat := x / 2 ^ r + x % 2 ^ r * 2 ^ (n - r)

/-- One of the two digests: word bits, round constants, the rotations of its two schedule functions (the third a shift) and of its two sums. -/
structure Sha where
  n : Nat
  ks : List Nat
  s0 : Nat × Nat × Nat
  s1 : Nat × Nat × Nat
  b0 : Nat × Nat × Nat
  b1 : Nat × Nat × Nat

def sha2of256 : Sha := ⟨32, k256, (7, 18, 3), (17, 19, 10), (2, 13, 22), (6, 11, 25)⟩
def sha2of384 : Sha := ⟨64, k512, (1, 8, 7), (19, 61, 6), (28, 34, 39), (14, 18, 41)⟩

def Sha.small (h : Sha) (r : Nat × Nat × Nat) (x : Nat) : Nat := ror h.n r.1 x ^^^ ror h.n r.2.1 x ^^^ x / 2 ^ r.2.2
def Sha.big (h : Sha) (r : Nat × Nat × Nat) (x : Nat) : Nat := ror h.n r.1 x ^^^ ror h.n r.2.1 x ^^^ ror h.n r.2.2 x
def Sha.sum (h : Sha) (l : List Nat) : Nat := l.sum % 2 ^ h.n

/-- The next `k` words of the message schedule, from the last 16. -/
def Sha.schedule (h : Sha) : Nat → List Nat → List Nat
  | 0, _ => []
  | k + 1, w =>
    let a (i : Nat) : Nat := (w[i]?).getD 0
    a 0 :: Sha.schedule h k (w.drop 1 ++ [h.sum [h.small h.s1 (a 14), a 9, h.small h.s0 (a 1), a 0]])

/-- One round on the eight working variables. -/
def Sha.round (h : Sha) (v : List Nat) (kw : Nat × Nat) : List Nat :=
  let a (i : Nat) : Nat := (v[i]?).getD 0
  let ones := 2 ^ h.n - 1
  let ch := (a 4 &&& a 5) ^^^ ((a 4 ^^^ ones) &&& a 6)
  let maj := (a 0 &&& a 1) ^^^ (a 0 &&& a 2) ^^^ (a 1 &&& a 2)
  let t1 := h.sum [a 7, h.big h.b1 (a 4), ch, kw.1, kw.2]
  let t2 := h.sum [h.big h.b0 (a 0), maj]
  [h.sum [t1, t2], a 0, a 1, a 2, h.sum [a 3, t1], a 4, a 5, a 6]

/-- Compression of one block given as 16 words. -/
def Sha.block (h : Sha) (s : List Nat) (w : List Nat) : List Nat :=
  let v := (h.ks.zip (h.schedule h.ks.length w)).foldl h.round s
  (s.zip v).map fun p => h.sum [p.1, p.2]

/-- The big-endian number of some bytes. -/
def beNat (bs : List Byte) : Nat := bs.foldl (fun n b => n * 256 + b.toNat) 0

/-- The words of a list of bytes. -/
def Sha.words (h : Sha) : Nat → List Byte → List Nat
  | 0, _ => []
  | k + 1, bs => beNat (bs.take (h.n / 8)) :: Sha.words h k (bs.drop (h.n / 8))

/-- The blocks of a padded message, compressed one after the other. -/
def Sha.run (h : Sha) : Nat → List Nat → List Byte → List Nat
  | 0, s, _ => s
  | k + 1, s, bs => Sha.run h k (h.block s (h.words 16 (bs.take (2 * h.n)))) (bs.drop (2 * h.n))

/-- The message with its padding: a one bit, zeros, and its length in bits. -/
def Sha.pad (h : Sha) (bs : List Byte) : List Byte :=
  let b := 2 * h.n
  let tail := h.n / 4
  let z := (b - (bs.length + 1 + tail) % b) % b
  bs ++ [0x80] ++ List.replicate z 0 ++ (leBytes tail (8 * bs.length)).reverse

/-- The state after a whole message. -/
def Sha.digest (h : Sha) (iv : List Nat) (bs : List Byte) : List Nat :=
  let p := h.pad bs
  h.run (p.length / (2 * h.n)) iv p

/-- Words as bytes, each word's highest byte first. -/
def beBytes (n : Nat) (ws : List Nat) : List Byte := ws.flatMap fun w => (leBytes n w).reverse

/-- SHA-256, in the byte order of FIPS 180-4. -/
def sha256 (bs : List Byte) : List Byte := beBytes 4 (sha2of256.digest h256 bs)

/-- SHA-384. -/
def sha384 (bs : List Byte) : List Byte := beBytes 8 ((sha2of384.digest h384 bs).take 6)

/-- Extends a measurement register by a digest: M := SHA-384(M, digest) (14 R362); its first byte is the lowest (log 12). -/
def extend (m : BitVec 384) (d : List Byte) : BitVec 384 := BitVec.ofNat 384 (leNat (sha384 (leBytes 48 m.toNat ++ d)))

end Sys2Proof.Machine
end

