-- ==== Sys2Proof/Machine/Command.lean ====
section
/-! DEFINITION. The configuration path: completion of commands, queues, tenants, regions and the settings of the owner (14 R353 to R364, 13 R320, 19 R421, 22 R473). -/

namespace Sys2Proof.Machine

/-! ### Completion (14 R356, R357) -/

/-- The completion record of a command (R356). -/
def Cmd.record (c : Cmd) (src status : Nat) (res : List Nat) (stamp : Nat) : List Byte :=
  leBytes 8 stamp ++ leBytes 8 src ++
  leBytes 8 (0x80 + status * 2 ^ 8 + c.code.toNat * 2 ^ 16 + c.tag.toNat * 2 ^ 24) ++ leBytes 8 0 ++
  ((List.range 4).flatMap fun i => leBytes 8 ((res[i]?).getD 0))

/-- Writes the completion of a command of a host master; a cap of the board has none (R351). -/
def State.complete (s : State) (c : Cmd) (status : Nat) (res : List Nat) : State :=
  s.completeRec c.master (Cmd.record c (s.gsrc srcMgmt) status res)

/-- Ends a command: with no code it takes effect; else the lowest code is written and nothing happens (R357, R358). `emb` says that it is accepted in ember. A refusal for want of ownership tells the owner (21 R458). -/
def State.answer (s0 : State) (c : Cmd) (emb : Bool) (codes : List Nat) (eff : State → State × List Nat) : State :=
  let s := s0.unfocus
  let all := (if c.rsv then [1] else []) ++ (if emb || s.ember = .running then [] else [7]) ++ codes
  match all with
  | [] => let r := eff s; r.1.complete c 0 r.2
  | x :: r =>
    let code := r.foldl Nat.min x
    let t := if code = 3 then s.postOwner ⟨0x14, 4, s.gsrc srcMgmt, 0, EvBody.pack ⟨0, 0, 0, 0, 0, c.master⟩⟩ else s
    t.complete c code []

/-- NOTOWNER, unless the master owns the package (R353). -/
def State.needOwner (s : State) (c : Cmd) : List Nat := if s.owner = some c.master then [] else [3]

/-- NOTBOUND, unless the master owns the package or is bound to the tenant of an RCB. -/
def State.needBound (s : State) (c : Cmd) (a : Nat) : List Nat := if s.entitled c.master a then [] else [4]

/-- A code when a condition holds. -/
def codeIf (b : Bool) (code : Nat) : List Nat := if b then [code] else []

/-- Whether `n` bytes at a host physical address exist (04 R94). -/
def hostOk (a : W64) (n : Nat) : Bool := a.toNat + n ≤ 2 ^ 47

/-- Bytes of host memory. -/
def State.hostBytes (s : State) (a : W64) (n : Nat) : List Byte := memBytes s.mem (hostPhys a.toNat) n

/-- Writes host memory. -/
def State.hostPut (s : State) (a : W64) (bs : List Byte) : State := s.commit (cellsAt (hostPhys a.toNat) bs)

/-- An effect without results. -/
def quietly (f : State → State) (s : State) : State × List Nat := (f s, [])

/-- 0x00 and every other reserved code. -/
def execReservedCommand (c : Cmd) (s : State) : Out := .next (s.answer c true [1] (quietly id))

/-! ### Queues (13 R320, 20 R436 to R439) -/

/-- The cases in which a descriptor write with V = 1 is refused (R439). -/
def State.descBad (s : State) (v : Nat) : Bool :=
  let b := fld v 192 64
  let log := fld v 4 4
  log < 4 || fld v 256 12 != 0 || fld v 312 8 != 0 || fld v 320 3 != 0 || fld v 376 8 != 0 ||
  fld v 3 1 != 0 || fld v 8 184 != 0 ||
  match s.path b with
  | some (r :: _) => r.kind = 3
  | _ => true

/-- Whether a queue's BIND lies in the subtree of a suspended region. -/
def State.bindHeld (s : State) (b : Nat) : Bool :=
  match s.path b with
  | some p => s.suspended.any fun n => inPath n p
  | none => false

/-- The descriptor that a write leaves (R320, R436). -/
def State.putDesc (s : State) (q v : Nat) : State :=
  let b := fld v 192 64
  let f (x : Queue) : Queue := { x with
    doneaddr := BitVec.ofNat 64 (fld v 320 64), rbase := BitVec.ofNat 64 (fld v 256 64), bind := BitVec.ofNat 64 b
    qlog2 := fld v 4 4 }
  if fld v 0 1 = 1 then
    s.modQueue q fun x => { f x with
      pendw := 0, doneN := 0, adm := 0, write := 0, pv := false, v := true, mapped := !s.bindHeld b, recs := []
      waiting := none, reload := false, badBind := false }
  else s.modQueue q fun x => { (f x).unmap with v := false }

/-- QUEUE WRITE. -/
def execQueueWrite (c : Cmd) (s : State) : Out :=
  let q := c.a0.toNat
  let v := leNat (s.hostBytes c.a1 64)
  let on := fld v 0 1 = 1
  .next (s.answer c false
    (codeIf (4096 ≤ q || !hostOk c.a1 64 || (on && s.descBad v)) 2 ++ s.needBound c (fld v 192 64) ++
      codeIf (on && (s.queueOf q).recs.any fun r => !r.2) 5)
    (quietly fun t => t.putDesc q v))

/-- The image of a descriptor (R320). -/
def Queue.image (x : Queue) : Nat :=
  boolN x.v + boolN x.mapped * 2 + boolN x.pv * 4 + x.qlog2 * 2 ^ 4 + x.bind.toNat * 2 ^ 192 + x.rbase.toNat * 2 ^ 256 +
  x.doneaddr.toNat * 2 ^ 320 + x.write.toNat * 2 ^ 384 + x.adm.toNat * 2 ^ 416 + x.doneN.toNat * 2 ^ 448 + x.pendw.toNat * 2 ^ 480

/-- QUEUE READ. -/
def execQueueRead (c : Cmd) (s : State) : Out :=
  let q := c.a0.toNat
  .next (s.answer c true
    (codeIf (4096 ≤ q || !hostOk c.a1 64) 2 ++ s.needBound c (s.queueOf q).bind.toNat)
    (quietly fun t => t.hostPut c.a1 (leBytes 64 (t.queueOf q).image)))

/-! ### Tenants (R358, 18 R395) -/

/-- The handler that a binding names, or none for no handler. -/
def handlerArg (a : W64) : Option (Nat × Nat) :=
  if fld a.toNat 0 48 = 2 ^ 48 - 1 then none else some (fld a.toNat 0 32, fld a.toNat 32 16)

/-- Whether a handler may be bound for a root (18 R395): every troop width may be launched, so all are asked for (log 27). -/
def State.handlerOk (s : State) (root : Nat) : Option (Nat × Nat) → Bool
  | none => true
  | some (mh, f) => match s.module? mh with
    | none => false
    | some m => m.tenant = root && m.signed && match m.funcs[f]? with
      | none => false
      | some r => (m.paramTys f).isEmpty && r.rtypes.isEmpty && r.wmin = 5 && r.wmax = 10

/-- Whether an address is that of a valid tenant root. -/
def State.rootOk (s : State) (a : Nat) : Bool := s.rcbOk (s.rcbAt a) && (s.rcbAt a).kind = 1

/-- TENANT BIND. -/
def execTenantBind (c : Cmd) (s : State) : Out :=
  let root := c.a0.toNat
  let h := handlerArg c.a2
  .next (s.answer c false
    (codeIf (!s.rootOk root || 4 ≤ c.a1.toNat || !s.handlerOk root h) 2 ++ s.needOwner c)
    (quietly fun t => { t.dropTrees [(t.rcbAt root).tree] with tenants := (t.tenants.filter fun x => x.root != root) ++ [⟨root, c.a1.toNat, h⟩] }))

/-- TENANT UNBIND. -/
def execTenantUnbind (c : Cmd) (s : State) : Out :=
  let root := c.a0.toNat
  .next (s.answer c false
    (codeIf (!(s.tenants.any fun x => x.root = root)) 2 ++ s.needOwner c ++
      codeIf (s.launches.any fun l => l.root = root && !l.done) 5)
    (quietly fun t => { t with tenants := t.tenants.filter fun x => x.root != root }))

/-! ### Regions (R358, R326, R330, R436) -/

/-- Queues whose BIND lies in the subtree of an RCB. -/
def State.queuesIn (s : State) (a : Nat) : List Nat :=
  (s.queues.filter fun q => (s.path q.bind.toNat).any fun p => inPath a p).map Queue.q

/-- Unmaps a list of queues. -/
def State.unmapAll (s : State) (qs : List Nat) : State := qs.foldl (fun t q => t.modQueue q Queue.unmap) s

/-- REGION SUSPEND. -/
def execRegionSuspend (c : Cmd) (s : State) : Out :=
  let a := c.a0.toNat
  .next (s.answer c false (codeIf (s.path a).isNone 2 ++ s.needBound c a) (quietly fun t =>
    let cs := (t.camps.filter fun k => inPath a (t.launch k.ref.lid).path).map Camp.ref
    cs.foldl (fun t k => t.packOff k) ({ t with suspended := a :: t.suspended.filter fun n => n != a }.unmapAll (t.queuesIn a))))

/-- REGION RESUME. -/
def execRegionResume (c : Cmd) (s : State) : Out :=
  let a := c.a0.toNat
  .next (s.answer c false (codeIf (s.path a).isNone 2 ++ s.needBound c a) (quietly fun t =>
    let u : State := { t with suspended := t.suspended.filter fun n => n != a }
    (u.queuesIn a).foldl (fun v q => if v.bindHeld (v.queueOf q).bind.toNat then v else v.remap q) u))

/-- The camp of a leaf that a command names: of the first launch of the leaf that has it unfinished. -/
def State.campOfLeaf (s : State) (leaf camp : Nat) : Option CampRef :=
  let ls := (s.launches.filter fun l => l.leaf = leaf && !l.done).map Launch.lid
  (ls.filterMap fun lid => (s.allCamps.find? fun k => k.ref = ⟨lid, camp⟩ && k.place != .ended).map Camp.ref).head?

/-- Whether an RCB is a valid leaf. -/
def State.leafOk (s : State) (a : Nat) : Bool := (s.path a).any fun p => (p.headD ⟨0, 0⟩).kind = 3

/-- PACK REQUEST. -/
def execPackRequest (c : Cmd) (s : State) : Out :=
  let leaf := c.a0.toNat
  let k := s.campOfLeaf leaf c.a1.toNat
  .next (s.answer c false (codeIf (!s.leafOk leaf || k.isNone) 2 ++ s.needBound c leaf)
    (quietly fun t => match k with
      | some r => t.packOff r
      | none => t))

/-! ### Settings (R358, R360, R361, R429, R468) -/

/-- SET RUN LIMIT (10 R239). -/
def execSetRunLimit (c : Cmd) (s : State) : Out :=
  let l := c.a0.toNat
  .next (s.answer c false (codeIf (l < 32 || 4096 < l || l % 32 != 0) 2 ++ s.needOwner c) (quietly fun t => { t with runlim := l }))

/-- SET HOLD (R349). -/
def execSetHold (c : Cmd) (s : State) : Out :=
  let h := c.a0.toNat
  .next (s.answer c false (codeIf (h < 5000 || 200000 < h) 2 ++ s.needOwner c) (quietly fun t => { t with hold := h }))

/-- The 256 bits of four operand qwords, ARG1 lowest. -/
def cmdEntry (c : Cmd) : BitVec 256 :=
  BitVec.ofNat 256 (c.a1.toNat + c.a2.toNat * 2 ^ 64 + c.a3.toNat * 2 ^ 128 + c.a4.toNat * 2 ^ 192)

/-- Whether an export entry breaks R361. -/
def exportBad (v : Nat) : Bool :=
  let kind := fld v 0 2
  kind = 3 || fld v 2 4 != 0 || fld v 9 46 != 0 || fld v 200 16 != 0 || (kind = 2 && fld v 88 56 != 0)

/-- EXPORT WRITE. -/
def execExportWrite (c : Cmd) (s : State) : Out :=
  let i := c.a0.toNat
  .next (s.answer c false (codeIf (1024 ≤ i || exportBad (cmdEntry c).toNat) 2 ++ s.needOwner c)
    (quietly fun t => { t with exports := setNum i (cmdEntry c) t.exports }))

/-- SET PACKAGE NUMBER. -/
def execSetPackageNumber (c : Cmd) (s : State) : Out :=
  .next (s.answer c false (codeIf (320 ≤ c.a0.toNat) 2 ++ s.needOwner c) (quietly fun t => { t with pkg := c.a0.toNat }))

/-- KEY INSTALL. -/
def execKeyInstall (c : Cmd) (s : State) : Out :=
  let k := c.a0.toNat
  .next (s.answer c false (codeIf (k = 0 || 4096 ≤ k || !hostOk c.a1 64) 2 ++ s.needOwner c)
    (quietly fun t => { t with keys := setNum k (t.hostBytes c.a1 64) t.keys }))

/-- ROUTE WRITE. -/
def execRouteWrite (c : Cmd) (s : State) : Out :=
  .next (s.answer c false (codeIf (320 ≤ c.a0.toNat || 18 ≤ c.a1.toNat) 2 ++ s.needOwner c)
    (quietly fun t => { t with routes := setNum c.a0.toNat c.a1.toNat t.routes }))

/-- SET PEER TIMEOUT, in us. -/
def execSetPeerTimeout (c : Cmd) (s : State) : Out :=
  .next (s.answer c false (codeIf (c.a0.toNat < 100 || 100000 < c.a0.toNat) 2 ++ s.needOwner c)
    (quietly fun t => { t with peerTo := c.a0.toNat }))

/-- SUPERVISOR KEY: an RSA-3072 modulus and an SLH-DSA-SHA2-192s key (log 12). -/
def execSupervisorKey (c : Cmd) (s : State) : Out :=
  .next (s.answer c false (codeIf (!hostOk c.a0 432) 2 ++ s.needOwner c)
    (quietly fun t => let b := t.hostBytes c.a0 432; { t with superKeys := some (b.take 384, b.drop 384) }))

/-- DOMAIN ALIGN: the package numbered 0 writes the offsets; its own STAMP does not change. -/
def execDomainAlign (c : Cmd) (s : State) : Out :=
  .next (s.answer c false (if s.pkg = 0 then s.needOwner c else [3]) (quietly fun t => { t with aligned := true }))

/-- SET TIER (04 R99). -/
def execSetTier (c : Cmd) (s : State) : Out :=
  let hbm := (0x6000000000 - ((s.reserved.filter fun r => inHbm r.1).map fun r => r.2 - r.1).sum) / 65536
  .next (s.answer c false (codeIf (c.a0.toNat = 0 || 255 < c.a0.toNat || hbm < c.a1.toNat) 2 ++ s.needOwner c)
    (quietly fun t => { t with promo := c.a0.toNat, lowmark := c.a1.toNat }))

/-! ### Pools (R13, R421, R424) -/

/-- First address of the tier of a pool, and the address above it. -/
def tierLo (cap : Bool) : Nat := if cap then 0x10000000000 else 0
def tierHi (cap : Bool) : Nat := if cap then 0x28000000000 else 0x6000000000

def State.pool (s : State) (cap : Bool) : Pool := if cap then s.capp else s.fast
def State.setPool (s : State) (cap : Bool) (p : Pool) : State := if cap then { s with capp := p } else { s with fast := p }

/-- Reserved ranges in ascending order. -/
def insRange (x : Nat × Nat) (l : List (Nat × Nat)) : List (Nat × Nat) :=
  (l.takeWhile fun y => y.1 < x.1) ++ x :: l.dropWhile fun y => y.1 < x.1

/-- Takes a range out of the reserved extent. -/
def cutRange (lo hi : Nat) (r : Nat × Nat) : List (Nat × Nat) :=
  if r.2 ≤ lo || hi ≤ r.1 then [r]
  else (if r.1 < lo then [(r.1, lo)] else []) ++ (if hi < r.2 then [(hi, r.2)] else [])

/-- Drops up to `n` free pages from the end of a list of runs given last run first: runs left, runs dropped. -/
def dropRuns (n : Nat) : List (Nat × Nat) → List (Nat × Nat) × List (Nat × Nat)
  | [] => ([], [])
  | (b, k) :: r =>
    if n = 0 then ((b, k) :: r, [])
    else if n < k then ((b, k - n) :: r, [(b + 65536 * (k - n), n)])
    else let d := dropRuns (n - k) r; (d.1, (b, k) :: d.2)

/-- First address above the highest reserved range of a tier. -/
def State.resTop (s : State) (cap : Bool) : Nat :=
  (s.reserved.filter fun r => tierLo cap ≤ r.1 && r.1 < tierHi cap).foldl (fun m r => max m r.2) (tierLo cap)

/-- A pool grows by pages above the reserved memory of its tier (log 9); held translations of what is reserved now are gone (01 R13, 04 R95). -/
def State.growPool (s : State) (cap : Bool) (size : Nat) : State :=
  let p := s.pool cap
  let lo := s.resTop cap
  let n := size - p.size
  { s with tlbs := [], reserved := insRange (lo, lo + 65536 * n) s.reserved }.setPool cap { p with size := size, free := p.free ++ [(lo, n)] }

/-- A pool shrinks by free pages, which leave reserved memory (log 9). -/
def State.shrinkPool (s : State) (cap : Bool) (size : Nat) : State :=
  let p := s.pool cap
  let d := dropRuns (p.size - size) p.free.reverse
  let res := d.2.foldl (fun rs r => rs.flatMap (cutRange r.1 (r.1 + 65536 * r.2))) s.reserved
  { s with reserved := res }.setPool cap { p with size := size, free := d.1.reverse }

/-- SET POOL SIZE. -/
def execSetPoolSize (c : Cmd) (s : State) : Out :=
  let cap := c.a0.toNat = 1
  let size := c.a1.toNat / 65536
  let grow := (s.pool cap).size < size
  .next (s.answer c false
    (codeIf (2 ≤ c.a0.toNat || 2 ^ 36 < c.a1.toNat || c.a1.toNat % 65536 != 0) 2 ++ s.needOwner c ++
      codeIf (grow && tierHi cap < s.resTop cap + 65536 * (size - (s.pool cap).size)) 6)
    (quietly fun t => (if grow then t.growPool cap size else t.shrinkPool cap size).poolChecks))

/-- Pages of a list in host memory, 8 bytes each (log 27). -/
def State.pageList (s : State) (a : W64) (n : Nat) : List Nat :=
  (List.range n).map fun i => memNat s.mem (hostPhys (a.toNat + 8 * i)) 8

/-- Splits that wait for a dry pool are tried again, denied or not (R424). -/
def State.poolAnswer (s : State) (cap denied : Bool) : State :=
  let f (p : Split) : Split := match p.st with
    | .pool fast => if fast != cap then { p with st := .ready, denied := denied } else p
    | _ => p
  { s with camps := s.camps.map fun c =>
      ({ c with dry := false, troops := c.troops.map fun t => { t with splits := t.splits.map f } } : Camp) }

/-- Gives one page to a pool; it is reserved memory from now on. -/
def State.givePage (s : State) (cap : Bool) (a : Nat) : State :=
  let res := if s.isReserved a then s.reserved else insRange (a, a + 65536) s.reserved
  { s with tlbs := [], reserved := res }.setPool cap ((s.pool cap).put a)

/-- Whether a page cannot be given to a pool: not aligned, not of its tier, or free in it already. -/
def State.pageBad (s : State) (cap : Bool) (a : Nat) : Bool :=
  a % 65536 != 0 || a < tierLo cap || tierHi cap ≤ a || (s.pool cap).free.any fun r => r.1 ≤ a && a < r.1 + 65536 * r.2

/-- POOL ADD. -/
def execPoolAdd (c : Cmd) (s : State) : Out :=
  let cap := c.a0.toNat = 1
  let n := c.a2.toNat
  let ps := if hostOk c.a1 (8 * n) && n ≤ 1572864 then s.pageList c.a1 n else []
  .next (s.answer c false
    (codeIf (2 ≤ c.a0.toNat || !hostOk c.a1 (8 * n) || 1572864 < n || ps.any (s.pageBad cap) || ps.eraseDups.length != ps.length) 2 ++
      s.needOwner c)
    (quietly fun t => ((ps.foldl (fun u a => u.givePage cap a) t).poolAnswer cap false).poolChecks))

/-- POOL DENY. -/
def execPoolDeny (c : Cmd) (s : State) : Out :=
  .next (s.answer c false (codeIf (2 ≤ c.a0.toNat) 2 ++ s.needOwner c) (quietly fun t => t.poolAnswer (c.a0.toNat = 1) true))

/-- RESERVED MAP. -/
def execReservedMap (c : Cmd) (s : State) : Out :=
  let n := min c.a1.toNat s.reserved.length
  .next (s.answer c false (codeIf (!hostOk c.a0 (16 * n)) 2 ++ s.needOwner c) fun t =>
    (t.hostPut c.a0 ((t.reserved.take n).flatMap fun r => leBytes 8 r.1 ++ leBytes 8 r.2), [t.reserved.length]))

/-! ### Subscriptions (R347, R348) -/

/-- Whether a region is known to lie in the tenant of a master: on the path of a launch, or of a queue's BIND. -/
def State.regionOfTenant (s : State) (m region : Nat) : Bool :=
  let ps := s.launches.map Launch.path ++ s.queues.filterMap (fun q => s.path q.bind.toNat) ++ s.tenants.map fun t => s.rootPath t.root
  ps.any fun p => (p.any fun r => r.region = region) && (p.getLast?.map Rcb.addr).any fun a => s.masterOf a = some m

/-- Whether a record breaks R347. -/
def State.subBad (s : State) (m : Nat) (x : Sub) : Bool :=
  let v := x.rcd.toNat
  4 < x.kind || fld v 9 63 != 0 || x.naddr % 16 != 0 || 2 ^ 56 ≤ x.naddr ||
  (match x.kind with
   | 1 => 8 ≤ x.src
   | 3 => s.owner != some m && !s.regionOfTenant m x.src
   | _ => x.src != 0)

/-- SUBSCRIBE: the subscription is armed when it is written. -/
def execSubscribe (c : Cmd) (s : State) : Out :=
  let x : Sub := ⟨c.a0.toNat, (cmdEntry c), c.master, true⟩
  .next (s.answer c true (codeIf (1024 ≤ x.i || s.subBad c.master x) 2) (quietly fun t =>
    { t with subs := (t.subs.filter fun y => y.i != x.i) ++ (if x.kind = 0 then [] else [x]) }))

/-! ### Rack caps (R351, 20 R452) -/

/-- Whether a SEQ is greater than the last accepted one. -/
def State.newerCap (s : State) (seq : W32) : Bool := s.capSeq.all fun a => 1 ≤ diff32 seq a && diff32 seq a < 2 ^ 31

/-- Accepts a cap. -/
def State.takeCap (s : State) (seq : W32) (cap lease : Nat) : State :=
  let old := s.capNow
  { s with capSeq := some seq, cap := cap, lease := some (s.stamp.toNat + lease * 1000000), floor := false }.capChanged old

/-- The message, by either path. -/
def State.capMessage (s : State) (seq cap lease : Nat) : State :=
  if cap < 400 || 1900 < cap || lease < 10 || 60000 < lease then
    s.postOwner ⟨0x15, 0, s.gsrc srcMgmt, 0, EvBody.pack ⟨seq, 0, 0, 0, 0, cap⟩⟩
  else if s.newerCap (BitVec.ofNat 32 seq) then s.takeCap (BitVec.ofNat 32 seq) cap lease else s

/-- RACK CAP: from the board management interface as master 4, which needs no ownership and has no completion (log 27). -/
def execRackCap (c : Cmd) (s : State) : Out :=
  let cap := c.a1.toNat
  let lease := c.a2.toNat
  let bad := cap < 400 || 1900 < cap || lease < 10 || 60000 < lease
  .next (if 4 ≤ c.master then s.unfocus.capMessage c.a0.toNat cap lease
    else
      let t := s.answer c true (codeIf (bad || 2 ^ 32 ≤ c.a0.toNat) 2 ++ s.needOwner c) (quietly fun t => t.capMessage c.a0.toNat cap lease)
      if bad && !c.rsv && (s.needOwner c).isEmpty then t.capMessage c.a0.toNat cap lease else t)

/-! ### Attestation and debug unlock (R363, R364) -/

/-- The body of an attestation report (log 12). -/
def State.report (s : State) (nonce : List Byte) : List Byte :=
  nonce ++ leBytes 32 Config.deviceId.toNat ++ leBytes 8 s.lifecycle ++ (s.meas.flatMap fun m => leBytes 48 m.toNat) ++
    leBytes 8 s.stamp.toNat

/-- ATTEST. -/
def execAttest (c : Cmd) (s : State) : Out :=
  let r := s.report (s.hostBytes c.a0 32)
  let all := r ++ leBytes 16608 (Config.attestSig r).toNat
  .next (s.answer c true (codeIf (!hostOk c.a0 32 || !hostOk c.a1 all.length) 2) (quietly fun t => t.hostPut c.a1 all))

/-- DEBUG CHALLENGE. -/
def execDebugChallenge (c : Cmd) (s : State) : Out :=
  .next (s.answer c false (s.needOwner c) fun t =>
    let n := Config.nonce t.nonces
    ({ t with nonces := t.nonces + 1, nonce := some n }, (List.range 4).map fun i => fld n.toNat (64 * i) 64))

/-- The first check of a token that fails, as the reason of its SECURITY event. -/
def State.tokenFault (s : State) (body rsa slh : List Byte) : Option Nat :=
  let v := leNat body
  if !(Config.rsaOk Config.debugKeys.1 body rsa && Config.slhOk Config.debugKeys.2 body slh) then some 1
  else if fld v 768 256 != Config.deviceId.toNat then some 2
  else if fld v 440 8 != s.lifecycle then some 3
  else if s.nonce.map BitVec.toNat != some (fld v 512 256) then some 4
  else if fld v 448 64 < s.stamp.toNat then some 5
  else none

/-- The SECURITY event to every tenant root's ring. -/
def State.securityEv (s : State) (reason m : Nat) : State :=
  s.postRoots ⟨0x10, reason, s.gsrc srcMgmt, 0, EvBody.pack ⟨0, 0, 0, 0, 0, m⟩⟩

/-- A token that passed (R364 steps 3 to 5). -/
def State.unlock (s : State) (body : List Byte) (m : Nat) : State :=
  let ls := (s.launches.filter fun l => !l.done).map Launch.lid
  let s1 := ls.foldl State.killLaunch s
  let s2 : State := { s1 with
    keys := [], wiped := true, lifecycle := 3, nonce := none, debugPort := true
    meas := s1.meas.mapIdx fun i x => if i = 7 then extend x (sha384 body) else x }
  s2.securityEv 6 m

/-- DEBUG TOKEN: body, RSA-3072 signature, SLH-DSA-SHA2-192s signature. -/
def execDebugToken (c : Cmd) (s : State) : Out :=
  let b := s.hostBytes c.a0 (128 + 384 + 16224)
  let body := b.take 128
  let bad := s.tokenFault body ((b.drop 128).take 384) (b.drop 512)
  let pre := codeIf (!hostOk c.a0 (128 + 384 + 16224)) 2 ++ s.needOwner c
  let t := s.answer c false (pre ++ codeIf bad.isSome 9) (quietly fun t => t.unlock body c.master)
  .next (match bad with
    | some r => if pre.isEmpty && !c.rsv && s.ember = .running then { t with nonce := none }.securityEv r c.master else t
    | none => t)

/-! ### Dies, errors, fault injection (R460, R464, R465, R473) -/

/-- FENCE. -/
def execFencecmd (c : Cmd) (s : State) : Out :=
  .next (s.answer c false (codeIf (8 ≤ c.a0.toNat) 2 ++ s.needOwner c) (quietly fun t => t.fenceDie c.a0.toNat 0x2B))

/-- UNFENCE: the die is reset and takes camps again. -/
def execUnfence (c : Cmd) (s : State) : Out :=
  let d := c.a0.toNat
  .next (s.answer c false (codeIf (8 ≤ d) 2 ++ s.needOwner c) (quietly fun t =>
    if (t.dieOf d).fenced then
      { t with cores := t.cores.map fun (k : Core) => if k.id.die = d then { Core.reset k.id with idle := t.stamp.toNat } else k }.modDie d
        fun x => { x with fenced := false }
    else t))

/-- Clusters of a die (01 R14). -/
def clustersOf (die : Nat) : Nat := if die < 6 then 20 else 16

/-- Whether ARG0 of FINJ WRITE or READ names no cluster of this package. -/
def State.finjBad (s : State) (a : Nat) : Bool := fld a 0 9 != s.pkg || 8 ≤ fld a 12 4 || clustersOf (fld a 12 4) ≤ fld a 16 8

/-- FINJ after a write: ARM is set by 1 and cleared by MODE 0 (R473). -/
def finjNew (old new : Nat) : Nat :=
  let arm := if fld new 1 2 = 0 then 0 else max (old % 2) (new % 2)
  new / 2 * 2 + arm

/-- FINJ WRITE. -/
def execFinjWrite (c : Cmd) (s : State) : Out :=
  let a := c.a0.toNat
  let v := c.a1.toNat
  .next (s.answer c false
    (codeIf (s.finjBad a || fld v 28 4 != 0 || fld v 11 13 != 0 || fld v 3 5 != 0 || fld v 1 2 = 3) 2 ++ s.needOwner c)
    (quietly fun t => t.modCluster ⟨fld a 12 4, fld a 16 8, 0⟩ fun x =>
      { x with finj := BitVec.ofNat 64 (finjNew x.finj.toNat v), finjSeen := if v % 2 = 1 then 0 else x.finjSeen }))

/-- FINJ READ. -/
def execFinjRead (c : Cmd) (s : State) : Out :=
  let a := c.a0.toNat
  .next (s.answer c false (codeIf (s.finjBad a) 2 ++ s.needOwner c) fun t =>
    (t, [(t.clusterOf ⟨fld a 12 4, fld a 16 8, 0⟩).finj.toNat]))

/-- ERROR COUNTS. -/
def execErrorCounts (c : Cmd) (s : State) : Out :=
  .next (s.answer c true (codeIf (8 ≤ c.a0.toNat) 2 ++ s.needOwner c) fun t =>
    let cs := (t.dieOf c.a0.toNat).corrected
    let n := (cs.map fun x => x.2.toNat * 2 ^ (16 * (x.1 - 1))).sum
    (t, (List.range 4).map fun i => fld n (64 * i) 64))

end Sys2Proof.Machine
end

