-- ==== Sys2Proof/Machine/Ember.lean ====
section
/-! DEFINITION. Ember, supply and package reset (13 R339, R340, 14 R362, 20 R454, R455). -/

namespace Sys2Proof.Machine

/-! ### Entry (R339) -/

/-- Step 1 and the start of step 2: queues are unmapped, resident camps run to their points. -/
def State.enterEmber (s : State) (brown : Bool) : State :=
  let f (c : Camp) : Camp := match c.place with
    | .on k => { c with place := .packing k }
    | _ => c
  { s with
    ember := .entering, emberByBrown := brown, exitDue := false
    queues := s.queues.map Queue.unmap, camps := s.camps.map f }

/-- Whether every camp is off its core and every acknowledgement has come. -/
def State.quiet (s : State) : Bool := !(s.camps.any Camp.resident) && s.stores.isEmpty && s.reqs.isEmpty && s.migs.isEmpty

/-- Every core of the package as it is when its die is powered off. -/
def coresOff : List Core := (List.range 544).map fun n => { Core.reset (coreNum n) with pow := .gated }

/-- Exit, steps 1 and 2: every core of an enabled die joins its arbiter (R340, R350). -/
def State.leaveEmber (s : State) : State :=
  let up (k : CoreId) : Bool := s.dies.any fun d => d.die = k.die && !d.fenced
  { s with
    ember := .leaving, exitDue := false
    cores := s.cores.map fun c => if up c.id && c.pow = .gated then { c with pow := .waking } else c
    dies := s.dies.map fun d =>
      if d.fenced then d
      else { d with queue := ((s.cores.filter fun c => c.id.die = d.die && c.pow = .gated).map fun c => (c.id, s.stamp.toNat)) } }

/-- End of step 5: dies are off, nothing is held in their stores, TLBs and translators, whose claims are released; an exit that came meanwhile begins. -/
def State.endEntry (s0 : State) : State :=
  let s := s0.claims.foldl (fun t c => t.serveWaiters c.n none (c.by_ :: c.waiters)) s0
  let t : State := { s with
    ember := .ember, cores := coresOff, tlbs := [], claims := []
    dies := s.dies.map fun d => { d with queue := [] }
    camps := s.camps.map fun (c : Camp) => { c with res := c.res.map fun (r : Res) => { r with tiles := [] } } }
  if s.exitDue then t.leaveEmber else t

/-- Exit, step 3: queues are mapped again and the package runs. -/
def State.endExit (s : State) : State :=
  let t : State := { s with ember := .running, emberByBrown := false }
  (t.queues.map Queue.q).foldl (fun u q => if u.bindHeld (u.queueOf q).bind.toNat then u else u.remap q) t

/-- The next step of an entry or exit in progress, when it is due. -/
def State.emberStep (s : State) : Option State :=
  match s.ember with
  | .entering => if s.quiet then some s.endEntry else none
  | .leaving => if s.cores.any fun c => c.pow = .waking then none else some s.endExit
  | _ => none

/-- EMBER ENTER. -/
def execEmberEnter (c : Cmd) (s : State) : Out :=
  .next (s.answer c false (s.needOwner c) (quietly fun t => t.enterEmber false))

/-- EMBER EXIT: refused while a brown-out holds the package; during entry it is kept; otherwise nothing is to be left (R454; log 26). -/
def execEmberExit (c : Cmd) (s : State) : Out :=
  .next (s.answer c true (s.needOwner c ++ codeIf (s.brownout || s.emberByBrown) 7) (quietly fun t => match t.ember with
    | .entering => { t with exitDue := true }
    | .ember => t.leaveEmber
    | _ => t))

/-- The deadline that a brown-out gives to requests without an answer: 100 us (R454). -/
def State.hurry (s : State) : State :=
  { s with reqs := s.reqs.map fun q => { q with time := min q.time (s.stamp.toNat + 100000) } }

/-- BROWN_OUT. -/
def execBrownOut (s : State) : Out :=
  let u : State := { s.unfocus with brownout := true }
  .next (match u.ember with
    | .running | .leaving => (u.enterEmber true).hurry
    | .entering => { u.hurry with emberByBrown := true, exitDue := false }
    | .ember => { u with emberByBrown := true })

/-- POWER_GOOD: after a brown-out the exit begins, or is kept until the entry is complete. -/
def execPowerGood (s : State) : Out :=
  let u : State := { s.unfocus with brownout := false }
  .next (if !u.emberByBrown then u
    else match u.ember with
      | .entering => { u with exitDue := true }
      | .ember => u.leaveEmber
      | _ => u)

/-! ### Package reset (R362, R455) -/

/-- The boot ROM on its stages: each is verified, then measured; the first that fails holds the package in reset. -/
def bootFrom : Nat → List Stage → State → State
  | _, [], s => s
  | i, g :: r, s =>
    if Config.rsaOk Config.fwKeys.1 g.image (g.sigs.take Config.rsaSigBytes) &&
        Config.slhOk Config.fwKeys.2 g.image (g.sigs.drop Config.rsaSigBytes) then
      bootFrom (i + 1) r { s with meas := s.meas.mapIdx fun j m => if j = i % 8 then extend m (sha384 g.image) else m }
    else { s with boot := .held i }

/-- PACKAGE_RESET: every register takes its reset value; memory and the marks of its lines keep their content, and no camp, queue or cache entry survives (log 16). -/
def execPackageReset (stages : List Stage) (s : State) : Out :=
  .next (bootFrom 0 stages { State.reset with mem := s.mem, poison := s.poison, freeCnt := s.freeCnt, nonces := s.nonces, inputs := s.inputs })

/-- SUPPLY_LOSS: a package reset when power returns; what device memory then holds is undefined and comes with the step (log 16). -/
def execSupplyLoss (mem : List (Nat × Byte)) (s : State) : Out :=
  let host := s.mem.filter fun c => inHost c.1
  .next { State.reset with
    mem := memWriteAll host (mem.filter fun c => !inHost c.1), resetCause := 1, freeCnt := s.freeCnt, nonces := s.nonces
    inputs := s.inputs }

end Sys2Proof.Machine
end

