-- ==== Sys2Proof/Machine/Loader.lean ====
section
/-! DEFINITION. The module loader: sections, function table, hash, signatures, native sections, tensor templates, placement (06 R124 to R130, R149, R150, 10 R261, R262). -/

namespace Sys2Proof.Machine

/-! ### Sections (R124, R125) -/

/-- A section-table entry. -/
structure Sect where
  kind : Nat
  off : Nat
  len : Nat
  aux : Nat
  rsv : Nat
  deriving DecidableEq, Repr

/-- `n` bytes of an image from an offset. -/
def slice (im : List Byte) (o n : Nat) : List Byte := (im.drop o).take n

def Sect.ofNat (v : Nat) : Sect := ⟨fld v 0 16, fld v 32 32, fld v 64 32, fld v 96 32, fld v 16 16⟩

/-- The fields of the header. -/
def nfuncOf (h : Nat) : Nat := fld h 96 32
def nsectOf (h : Nat) : Nat := fld h 64 32

/-- The section table. -/
def sectsOf (im : List Byte) : List Sect :=
  (List.range (nsectOf (leNat (slice im 0 64)))).map fun i => Sect.ofNat (leNat (slice im (64 + 16 * i) 16))

/-- The section of a kind that a module has at most once. -/
def sectOf (im : List Byte) (ss : List Sect) (k : Nat) : List Byte :=
  match ss.find? fun s => s.kind = k with
  | some s => slice im s.off s.len
  | none => []

/-- Whether two spans share a byte. -/
def spansMeet (a b : Nat × Nat) : Bool := a.1 < b.2 && b.1 < a.2

/-- Whether no two spans of a list meet. -/
def apart : List (Nat × Nat) → Bool
  | [] => true
  | a :: r => r.all (fun b => !spansMeet a b) && apart r

/-- BADMAGIC. -/
def badMagic (h : Nat) : Bool := fld h 0 32 != 0x46505957 || (fld h 32 16 != 3 && fld h 32 16 != 4)

/-- BADSECT: the header, the table and the sizes of the sections. -/
def badSect (im : List Byte) (ss : List Sect) : Bool :=
  let h := leNat (slice im 0 64)
  let tab := 64 + 16 * nsectOf h
  let count (k : Nat) : Nat := (ss.filter fun s => s.kind = k).length
  let size (k : Nat) : Nat := ((ss.find? fun s => s.kind = k).map Sect.len).getD 0
  fld h 48 16 != 0 || fld h 160 32 != 0 || fld h 448 64 != 0 || fld h 128 32 % 64 != 0 || fld h 128 32 != im.length ||
  nfuncOf h = 0 || 65536 < nfuncOf h || 1024 < nsectOf h || im.length < tab ||
  (ss.any fun s => s.rsv != 0 || s.kind = 0 || 8 < s.kind || s.len % 4 != 0 || s.off % 64 != 0 || im.length < s.off + s.len ||
    (s.aux != 0 && s.kind != 7)) ||
  count 1 != 1 || count 2 != 1 || ([3, 4, 5, 6, 8].any fun k => 1 < count k) ||
  (match ss.find? fun s => s.kind = 8 with
   | some g => ss.any fun s => g.off < s.off
   | none => false) ||
  size 1 != 32 * nfuncOf h || size 5 % 128 != 0 ||
  !apart ((0, tab) :: (ss.filter fun s => s.len != 0).map fun s => (s.off, s.off + s.len))

/-! ### Functions (R128) -/

/-- Codes of the value types (R135). -/
def valueCode (c : Nat) : Bool := (1 ≤ c && c ≤ 16) || (20 ≤ c && c ≤ 24) || c = 32 || (34 ≤ c && c ≤ 36)

/-- Whether an entry breaks R128. -/
def badFunc (code : Nat) (e : Nat) : Bool :=
  let nres := fld e 128 8
  let rt (i : Nat) : Nat := fld e (136 + 8 * i) 8
  fld e 120 8 != 0 || fld e 97 15 != 0 || fld e 116 4 < 5 || 10 < fld e 116 4 || fld e 112 4 < 5 || fld e 116 4 < fld e 112 4 ||
  15 < nres || ((List.range 15).any fun i => if i < nres then !valueCode (rt i) else rt i != 0) ||
  2 ^ 20 - 1 < fld e 64 32 || fld e 32 32 % 4 != 0 || fld e 32 32 < 4 || 2 ^ 24 < fld e 32 32 || fld e 0 32 % 4 != 0 ||
  code < fld e 0 32 + fld e 32 32 || (fld e 96 1 = 1 && nres != 0)

/-- Function-table entry i. -/
def funcEntry (ft : List Byte) (i : Nat) : Nat := leNat (slice ft (32 * i) 32)

def FuncRec.ofNat (e : Nat) : FuncRec :=
  ⟨fld e 0 32, fld e 32 32, fld e 64 32, fld e 96 1 = 1, fld e 112 4, fld e 116 4,
    (List.range (fld e 128 8)).map fun i => (Ty.ofCode (fld e (136 + 8 * i) 8)).getD .void⟩

/-! ### Hash and signatures (R126) -/

/-- The byte string under the hash. -/
def hashText (im : List Byte) (ss : List Sect) : List Byte :=
  slice im 0 24 ++ List.replicate 32 0 ++ slice im 56 8 ++
  (ss.mapIdx fun i s =>
    if s.kind ≤ 6 then
      slice im (64 + 16 * i) 4 ++ [0, 0, 0, 0] ++ slice im (72 + 16 * i) 8 ++ slice im s.off s.len
    else []).flatten

/-- Every byte of the module but the contents of SIGN. -/
def signText (im : List Byte) (s : Sect) : List Byte := im.take s.off ++ im.drop (s.off + s.len)

/-- Whether a module bears both signatures of the supervisor key. -/
def State.signedBy (s : State) (im : List Byte) (ss : List Sect) : Bool :=
  match ss.find? fun x => x.kind = 8, s.superKeys with
  | some g, some k =>
    let b := slice im g.off g.len
    let t := signText im g
    Config.rsaOk k.1 t (b.take Config.rsaSigBytes) && Config.slhOk k.2 t (b.drop Config.rsaSigBytes)
  | _, _ => false

/-! ### Tensor templates (R150) -/

/-- Sizes of the images that symbol words name, by section code. -/
def imageSize (ss : List Sect) (sec : Nat) : Nat :=
  let size (k : Nat) : Nat := ((ss.find? fun s => s.kind = k).map Sect.len).getD 0
  if sec = 1 then size 3 else if sec = 2 then size 4 else size 5 / 2

/-- Whether a symbol word is valid (R140): a TENSOR offset is a multiple of 64. -/
def symOk (ss : List Sect) (w : Nat) : Bool :=
  fld w 30 2 != 0 && fld w 0 30 < imageSize ss (fld w 30 2) && (fld w 30 2 != 3 || fld w 0 6 = 0)

/-- Resolved address of a symbol word. -/
def symAddr (dbase cbase tbase w : Nat) : Nat :=
  (if fld w 30 2 = 1 then dbase else if fld w 30 2 = 2 then cbase else tbase) + fld w 0 30

/-- The record of a template, relocated. -/
def relocated (dbase cbase tbase : Nat) (t : List Byte) : List Byte :=
  let b := leNat (slice t 64 4)
  let c := leNat (slice t 68 4)
  (if b = 0 then slice t 0 8 else leBytes 8 (symAddr dbase cbase tbase b)) ++
  (if c = 0 then slice t 8 8 else leBytes 8 (symAddr dbase cbase tbase c)) ++ slice t 16 48

/-- Whether a template breaks R150. -/
def badTemplate (ss : List Sect) (dbase cbase tbase : Nat) (t : List Byte) : Bool :=
  let b := leNat (slice t 64 4)
  let c := leNat (slice t 68 4)
  leNat (slice t 72 56) != 0 || (b != 0 && !symOk ss b) || (c != 0 && !symOk ss c) ||
  !(TRec.ofBytes (relocated dbase cbase tbase t)).ok

def templates (im : List Byte) (ss : List Sect) : List (List Byte) :=
  let t := sectOf im ss 5
  (List.range (t.length / 128)).map fun i => slice t (128 * i) 128

/-! ### Native sections (10 R252 to R254, R261, R262) -/

/-- A region descriptor with the section that holds it. -/
structure NDesc where
  sec : Sect
  v : Nat
  deriving DecidableEq, Repr

def NDesc.kind (d : NDesc) : Nat := fld d.sec.aux 0 8
def NDesc.rev (d : NDesc) : Nat := fld d.sec.aux 8 4
def NDesc.func (d : NDesc) : Nat := fld d.sec.aux 12 20
def NDesc.tlen (d : NDesc) : Nat := fld d.v 224 32
def NDesc.toff (d : NDesc) : Nat := fld d.v 192 32
def NDesc.clen (d : NDesc) : Nat := fld d.v 160 32
def NDesc.coff (d : NDesc) : Nat := fld d.v 128 32
def NDesc.entry (d : NDesc) : Nat := fld d.v 104 24
def NDesc.runlim (d : NDesc) : Nat := fld d.v 91 13
def NDesc.budget (d : NDesc) : Nat := fld d.v 84 7
def NDesc.wlog2 (d : NDesc) : Nat := fld d.v 80 4
def NDesc.tiles (d : NDesc) : Nat := fld d.v 77 3
def NDesc.die (d : NDesc) : Nat := if d.kind = 1 then 0 else 6

/-- The key of a descriptor for a module handle (R238). -/
def NDesc.key (d : NDesc) (mh : Nat) : Key :=
  ⟨BitVec.ofNat 256 mh, true, d.func, d.entry, d.kind, d.rev, d.budget, d.tiles, d.wlog2, d.runlim, false⟩

/-- The descriptors of a section. -/
def descsOf (im : List Byte) (s : Sect) : List NDesc :=
  let b := slice im s.off s.len
  (List.range (leNat (slice b 0 4))).map fun i => ⟨s, leNat (slice b (16 + 32 * i) 32)⟩

/-- Whether the header of a section is in range. -/
def badNatHead (im : List Byte) (s : Sect) : Bool :=
  let b := slice im s.off s.len
  let n := leNat (slice b 0 4)
  s.len < 16 || n = 0 || 4096 < n || leNat (slice b 4 12) != 0 || s.len < 16 + 32 * n

/-- Whether the fields of a descriptor are out of range for its module. -/
def badDescFields (m : Module) (d : NDesc) : Bool :=
  let top (o k : Nat) : Bool := d.sec.len < o + k
  fld d.v 0 77 != 0 || (d.kind != 1 && d.kind != 2) || d.rev != dieRev d.die || m.funcs.length ≤ d.func ||
  d.tlen % 8 != 0 || d.toff % 8 != 0 || top d.toff d.tlen || d.coff % 64 != 0 || top d.coff d.clen || d.clen = 0 ||
  bankBytes d.die < d.clen || d.clen % 4 != 0 || d.runlim < 32 || 4096 < d.runlim || d.runlim % 32 != 0 ||
  d.budget < 8 || 120 < d.budget || d.budget % 8 != 0 || d.wlog2 < 5 || 10 < d.wlog2 ||
  (if d.kind = 1 then 4 else 2) < d.tiles

/-- The qwords of a side table. -/
def qwordsOf (bs : List Byte) : List Nat := (List.range (bs.length / 8)).map fun i => leNat (slice bs (8 * i) 8)

/-- A location record; none for a reserved kind or a field out of range (R253, R254). `c` is the word after it. -/
def locOf (r c : Nat) : Option (Nat × Loc) :=
  let v := fld r 44 20
  let w := fld r 0 40
  let ok (b : Bool) (l : Loc) : Option (Nat × Loc) := if b then some (v, l) else none
  match fld r 40 4 with
  | 0 => ok (w < 128) (.reg w)
  | 1 => ok (w < 128 && w % 2 = 0) (.pair w)
  | 2 => ok (w < 32) (.scalar w)
  | 3 => ok (1 ≤ w && w < 16) (.guard w)
  | 4 => ok (w < 2 ^ 32) (.spill w)
  | 5 => ok (w = 0) (.const (BitVec.ofNat 64 c))
  | 6 => ok (w < 16 && w % 4 = 0) (.acc w)
  | 7 => ok (w < 2 ^ 32) (.accFrame w)
  | 8 => ok (w < 2 ^ 11) (.queue (w / 8) (w % 8))
  | 9 => ok (w < 2 ^ 16 && 256 ≤ w) (.flight (w / 256) (w / 128 % 2 = 1) (w % 128))
  | _ => none

/-- `n` location records: the records and the rest of the table. -/
def locsOf : Nat → List Nat → Option (List (Nat × Loc) × List Nat)
  | 0, qs => some ([], qs)
  | _ + 1, [] => none
  | n + 1, q :: qs =>
    let con := fld q 40 4 = 5
    if con && qs.isEmpty then none
    else match locOf q (qs.headD 0), locsOf n (if con then qs.drop 1 else qs) with
      | some l, some (ls, r) => some (l :: ls, r)
      | _, _ => none

/-- The point records of a table. -/
def pointsIn : Nat → List Nat → Option (List Point)
  | _, [] => some []
  | 0, _ :: _ => none
  | fuel + 1, q :: qs =>
    if fld q 20 2 != 0 then none
    else match locsOf (fld q 0 20) qs with
      | none => none
      | some (ls, r) => (pointsIn fuel r).map fun ps => ⟨fld q 40 24, fld q 24 16, fld q 22 2, ls⟩ :: ps

/-- Values strictly rising. -/
def rising : List Nat → Bool
  | a :: b :: r => a < b && rising (b :: r)
  | _ => true

/-- Whether a location fits the budget and tile grant of a key, and the type of its value: a constant is zero-extended (R253). -/
def locFits (k : Key) (t : Ty) : Loc → Bool
  | .reg r => r < k.budget
  | .pair r => r + 1 < k.budget
  | .flight _ p r => r + boolN p < k.budget
  | .acc b => b / 4 < k.tiles
  | .const v => v.toNat < 2 ^ (if t = .b1 then 1 else t.width)
  | _ => true

/-- Whether a record names a value of the function, or the iteration index at a point inside a stream loop (R253). -/
def namesValue (is : List At) (ts : List Ty) (pos v : Nat) : Bool :=
  if v = iterVal then (loopAround is pos).isSome else v < ts.length

/-- The bundles of a region's code: offset, header and slots; none when one does not decode (R262). -/
def bundlesOf (b : Bank) (die clen : Nat) : Nat → Nat → Option (List (Nat × Hdr × List NSlot))
  | 0, _ => none
  | fuel + 1, o =>
    if clen ≤ o then some []
    else match decodeHeader (b.word o) with
      | none => none
      | some h =>
        if clen < o + Hdr.bytes h then none
        else match b.bundle die o h with
          | none => none
          | some ss => (bundlesOf b die clen fuel (o + Hdr.bytes h)).map fun r => (o, h, ss) :: r

/-- A machine that holds nothing but a troop of a key's width, budget and tiles, against which the legality of bundles is judged. -/
def probe (k : Key) : State :=
  { State.reset with
    sp := { Split.reset with mask := fullMask (2 ^ k.wlog2) }
    tr := { Troop.reset with
      budget := k.budget, tiles := k.tiles, live := fullMask (2 ^ k.wlog2), lanes := List.replicate (2 ^ k.wlog2) Lane.reset } }

/-- Whether the transfers of a bundle stay in the region, or leave it at a point of their target (R262); `table` gives the points of the regions that the module supplies for the same key. -/
def transfersOk (m : Module) (d : NDesc) (table : Key → Option (List Point)) (starts : List Nat) (ss : List NSlot) : Bool :=
  let is := m.items d.func
  ss.all fun k => match k.op with
    | .natBr n | .natBrc n => starts.contains (branchTarget n)
    | .brsw n =>
      (regionStarts is d.runlim d.die).contains (k.lit 0) && isPoint is d.runlim false (k.lit 1) &&
      (regionOf is d.runlim d.die (k.lit 1)).1 = k.lit 0 &&
      match table { d.key 0 with entry := k.lit 0 } with
      | some ps => ps.any fun p => p.pos = k.lit 1 && p.noff = branchTarget n
      | none => true
    | .natCall _ => k.lit 0 / 2 ^ 12 < m.funcs.length && isPoint is d.runlim false (k.lit 1)
    | _ => true

/-- The code of a descriptor in a bank. -/
def NDesc.bank (d : NDesc) (im : List Byte) : Bank := { Bank.reset with st := .valid, code := slice im (d.sec.off + d.coff) d.clen }

/-- The points of a descriptor's side table. -/
def NDesc.points (d : NDesc) (im : List Byte) : Option (List Point) :=
  pointsIn d.tlen (qwordsOf (slice im (d.sec.off + d.toff) d.tlen))

/-- Whether the side table agrees with the region and the code. -/
def tableOk (m : Module) (d : NDesc) (bs : List (Nat × Hdr × List NSlot)) (ps : List Point) : Bool :=
  let k := d.key 0
  let is := m.items d.func
  let ts := valTys m.rtypes is
  let want := m.regionPoints k
  let pps := (bs.filter fun b => b.2.1.pp).map Prod.fst
  (ps.map fun p => (p.pos, p.ty)) == want && apart (ps.map fun p => (p.noff, p.noff + 1)) &&
  (ps.all fun p => pps.contains p.noff && rising (p.locs.map Prod.fst) && p.locs.all fun l =>
    namesValue is ts p.pos l.1 && locFits k (if l.1 = iterVal then .w32 else (ts[l.1]?).getD .void) l.2) &&
  pps.length = ps.length

/-- Whether the bundles of a region's code are legal: each is judged after the one before it in the code, whose branch makes it a delay bundle (R275, R280). -/
def bundlesOk (m : Module) (d : NDesc) (table : Key → Option (List Point)) (starts : List Nat) :
    Bool → List (Nat × Hdr × List NSlot) → Bool
  | _, [] => true
  | delay, b :: r =>
    let p := probe (d.key 0)
    let at_ : State := if delay then { p with sp := { p.sp with nat := some ⟨0, b.1, some (.go 0), 0, [], [], false⟩ } } else p
    at_.okBundle b.2.2 && transfersOk m d table starts b.2.2 &&
      bundlesOk m d table starts (b.2.2.any fun k => branches k.op) r

/-- Whether a descriptor fails the installation checks. -/
def badDesc (m : Module) (im : List Byte) (table : Key → Option (List Point)) (d : NDesc) : Bool :=
  if badDescFields m d then true
  else
    !(regionStarts (m.items d.func) d.runlim d.die).contains d.entry ||
    match bundlesOf (d.bank im) d.die d.clen (d.clen + 1) 0, d.points im with
    | some bs, some ps =>
      let starts := bs.map Prod.fst
      !bundlesOk m d table starts false bs || !tableOk m d bs ps
    | _, _ => true

/-- BADNATIVE. -/
def badNative (m : Module) (im : List Byte) (ss : List Sect) : Bool :=
  let ns := ss.filter fun s => s.kind = 7
  (ns.any fun s => badNatHead im s) ||
  let ds := ns.flatMap (descsOf im)
  let table (k : Key) : Option (List Point) := (ds.find? fun d => d.key 0 = k).bind fun d => d.points im
  ds.any (badDesc m im table) || (ds.map fun d => d.key 0).eraseDups.length != ds.length

/-! ### Placement (R149) -/

/-- Physical pages of an image placed at an address; none when one is not mapped with the permissions asked for. -/
def State.placed (s : State) (tree a n : Nat) (need : Need) : Option (List Nat) :=
  let ps := (List.range ((n + 65535) / 65536)).map fun i => match s.walk tree (a + 65536 * i) with
    | .ok x => (match x.tgt with
      | .phys p => if (s.permErr x need).isNone then some p else none
      | _ => none)
    | .error _ => none
  if ps.all Option.isSome then some (ps.filterMap id) else none

/-- Bytes at physical pages. -/
def pagedCells : List Nat → List Byte → List (Nat × Byte)
  | [], _ => []
  | p :: r, bs => cellsAt p (bs.take 65536) ++ pagedCells r (bs.drop 65536)

/-! ### The load request (R127, R358) -/

/-- A load request with what is read of the image. -/
structure Load where
  im : List Byte
  sects : List Sect
  db : Nat
  cb : Nat
  tb : Nat
  root : Nat

/-- The module that a load would make under a handle. -/
def State.moduleOf (s : State) (l : Load) (mh : Nat) : Module :=
  let h := leNat (slice l.im 0 64)
  let ft := sectOf l.im l.sects 1
  let m0 : Module := ⟨mh, l.root, fld h 32 16, BitVec.ofNat 256 (fld h 192 256), s.signedBy l.im l.sects,
    (List.range (nfuncOf h)).map fun i => FuncRec.ofNat (funcEntry ft i), sectOf l.im l.sects 2,
    BitVec.ofNat 64 l.db, BitVec.ofNat 64 l.cb, BitVec.ofNat 64 l.tb, (sectOf l.im l.sects 3).length,
    (sectOf l.im l.sects 4).length, (sectOf l.im l.sects 5).length / 128, false⟩
  let mat (i : Instr) : Bool := match i with
    | .accInit _ _ _ | .mma _ _ _ _ _ _ | .mmaRes _ _ _ _ _ _ _ | .accNorm _ | .accRd _ _ _ _ _ | .accRdWord _ _ _ _
    | .accWr _ _ _ _ _ _ | .accWrWord _ _ _ _ _ | .ropeForm _ | .ropeFree => true
    | _ => false
  { m0 with matrix := (List.range m0.funcs.length).any fun f => (m0.items f).any fun a => match a.item with
      | .instr i => mat i
      | .block _ => false }

/-- Images of a load with their addresses and the permissions that R149 asks for. -/
def Load.images (l : Load) : List (Nat × List Byte × Need) :=
  [(l.db, sectOf l.im l.sects 3, ⟨true, true, false, true⟩), (l.cb, sectOf l.im l.sects 4, needR),
    (l.tb, (templates l.im l.sects).flatMap (relocated l.db l.cb l.tb), needR)]

/-- The refusal code of R127, lowest first. -/
def State.refuses (s : State) (l : Load) : Option Nat :=
  let h := leNat (slice l.im 0 64)
  let ft := sectOf l.im l.sects 1
  let es := (List.range (nfuncOf h)).map (funcEntry ft)
  let tree := (s.rcbAt l.root).tree
  if badMagic h then some 1
  else if badSect l.im l.sects then some 2
  else if es.any (badFunc (sectOf l.im l.sects 2).length) || !apart (es.map fun e => (fld e 0 32, fld e 0 32 + fld e 32 32)) then some 3
  else if fld h 192 256 != leNat (sha256 (hashText l.im l.sects)) then some 4
  else
    let m := s.moduleOf l 0
    if (l.sects.any fun x => x.kind = 7) && !m.signed then some 5
    else if badNative m l.im l.sects then some 6
    else if (templates l.im l.sects).any (badTemplate l.sects l.db l.cb l.tb) then some 7
    else if l.images.any fun i => (s.placed tree i.1 i.2.1.length i.2.2).isNone then some 8
    else none

/-- Bytes of the frame that the locations of points reach: 8 for a slot, an image for a tile. -/
def frameReach (w : Nat) (ps : List Point) : Nat :=
  (ps.flatMap fun p => p.locs.map Prod.snd).foldl (fun n l => match l with
    | .spill o => max n (o + 8)
    | .accFrame o => max n (o + 2 ^ 18 / w)
    | _ => n) 16

/-- An ORIGIN 1 entry of a descriptor. -/
def State.nativeEntry (s : State) (m : Module) (im : List Byte) (d : NDesc) : TEntry :=
  let ps := (d.points im).getD []
  ⟨d.key m.mh, s.newPage (entryPages ps), entryPages ps, (regionOf (m.items d.func) d.runlim d.die d.entry).2, ps,
    slice im (d.sec.off + d.coff) d.clen, [], frameReach (2 ^ d.wlog2) ps, s.tcUse, false, false, false, []⟩

/-- Descriptors of a load. -/
def Load.descs (l : Load) : List NDesc := (l.sects.filter fun s => s.kind = 7).flatMap (descsOf l.im)

/-- Pages of the translation cache that a load's native sections take. -/
def Load.pages (l : Load) : Nat := (l.descs.map fun d => entryPages ((d.points l.im).getD [])).sum

/-- Loads the module: images are placed, native regions installed, a handle is given. -/
def State.load (s : State) (l : Load) : State × List Nat :=
  let mh := s.nextMh
  let m := s.moduleOf l mh
  let tree := (s.rcbAt l.root).tree
  let s1 := l.images.foldl (fun (t : State) i => t.commit (pagedCells ((s.placed tree i.1 i.2.1.length i.2.2).getD []) i.2.1)) s
  let s2 : State := { s1 with modules := s1.modules ++ [m], nextMh := mh + 1 }
  (l.descs.foldl (fun (t : State) d =>
    let e := t.nativeEntry m l.im d
    t.addEntry e) s2, [mh])

/-- MODULE LOAD: unpinned entries give way to those of its native sections (10 R256; no troop's request causes that, so no EVICT is posted: log 89). -/
def execModuleLoad (c : Cmd) (s : State) : Out :=
  let n := c.a1.toNat
  let ok := hostOk c.a0 n
  let im := if ok then s.hostBytes c.a0 n else []
  let l : Load := ⟨im, sectsOf im, c.a2.toNat, c.a3.toNat, c.a4.toNat, c.a5.toNat⟩
  let args := codeIf (!ok || l.db % 65536 != 0 || l.cb % 65536 != 0 || l.tb % 65536 != 0 || !s.rootOk l.root) 2 ++ s.needBound c l.root
  let ref := if args.isEmpty then s.refuses l else none
  let codes := args ++ codeIf (ref.isNone && (s.cacheRoom l.pages).isNone) 6 ++ codeIf ref.isSome 8
  .next (match args, ref with
    | [], some r =>
      if !c.rsv && s.ember = .running then s.unfocus.complete c 8 [r] else s.answer c false codes fun t => (t, [])
    | _, _ => s.answer c false codes fun t => (((t.cacheRoom l.pages).map Prod.fst).getD t).load l)

/-- MODULE UNLOAD: the handle's ORIGIN 1 entries go with it (R256). -/
def execModuleUnload (c : Cmd) (s : State) : Out :=
  let mh := c.a0.toNat
  let root := ((s.module? mh).map Module.tenant).getD 0
  .next (s.answer c false
    (codeIf (s.module? mh).isNone 2 ++ s.needBound c root ++ codeIf (s.launches.any fun l => l.mh = mh && !l.done) 5)
    (quietly fun t =>
      let own := t.tcache.filter fun e => e.key.origin && e.key.hash = BitVec.ofNat 256 mh
      own.foldl State.dropEntry { t with modules := t.modules.filter fun m => m.mh != mh }))

end Sys2Proof.Machine
end

