-- ==== Sys2Proof/Machine/Debug.lean ====
section
/-! DEFINITION. Commands of the debugger (18 R412 to R417, 20 R449). Operands lie in the qwords in the order of R412; CAMP and MEMBER name a troop of the leaf attached last (log 25). -/

namespace Sys2Proof.Machine

/-! ### Leaves, troops, splits that a command names -/

/-- The first unfinished launch of the leaf of a region. -/
def State.launchOfRegion (s : State) (r : Nat) : Option Launch := s.launches.find? fun l => l.region = r && !l.done

/-- Whether a master may debug a launch. -/
def State.mayDebug (s : State) (m : Nat) (l : Launch) : Bool := s.owner = some m || s.masterOf l.root = some m

/-- The attachment that a master's commands mean: the latest of those it may debug. -/
def State.dbgOf (s : State) (m : Nat) : Option Dbg := s.dbgs.find? fun d => (s.launchOfRegion d.region).any (s.mayDebug m)

def State.modDbg (s : State) (r : Nat) (f : Dbg → Dbg) : State :=
  { s with dbgs := s.dbgs.map fun d => if d.region = r then f d else d }

/-- The troop of a camp and member of the attached leaf. -/
def State.troopNamed (s : State) (m camp mem : Nat) : Option TroopRef :=
  (s.dbgOf m).bind fun d => (s.launches.findSome? fun l =>
    if l.region = d.region && !l.done && (s.troop? ⟨⟨l.lid, camp⟩, mem⟩).isSome then some ⟨⟨l.lid, camp⟩, mem⟩ else none)

/-- The splits of a troop in ascending number. -/
def Troop.sorted (t : Troop) : List Split := (List.range t.nextId).filterMap fun i => t.splits.find? fun p => p.sid = i

/-- Split `i` of a troop. -/
def State.splitNamed (s : State) (r : TroopRef) (i : Nat) : Option SplitRef :=
  (s.troop? r).bind fun t => (t.sorted[i]?).map fun p => ⟨r, p.sid⟩

/-- The split of the troop last named. -/
def State.splitLast (s : State) (m i : Nat) : Option SplitRef :=
  (s.dbgOf m).bind fun d => (s.troopNamed m d.camp d.mem).bind fun r => s.splitNamed r i

/-- Notes the troop that a command named. -/
def State.nameTroop (s : State) (m camp mem : Nat) : State :=
  match s.dbgOf m with
  | some d => s.modDbg d.region fun d => { d with camp := camp, mem := mem }
  | none => s

/-! ### ATTACH, DETACH -/

/-- NOTBOUND of a command that names a region. -/
def State.needDebug (s : State) (c : Cmd) (l : Option Launch) : List Nat :=
  codeIf (l.any fun l => !s.mayDebug c.master l) 4

/-- ATTACH: at most 256 leaves at once. -/
def execAttach (c : Cmd) (s : State) : Out :=
  let r := c.a0.toNat
  let l := s.launchOfRegion r
  let new := !(s.dbgs.any fun d => d.region = r)
  .next (s.answer c false (codeIf l.isNone 2 ++ s.needDebug c l ++ codeIf (new && 256 ≤ s.dbgs.length) 6) (quietly fun t =>
    let d := (t.dbgs.find? fun d => d.region = r).getD ⟨r, [], 0, 0⟩
    { t with dbgs := d :: t.dbgs.filter fun d => d.region != r }))

/-- A split that goes on: a breakpoint that it has stopped at is passed once (R413). -/
def Split.goOn (p : Split) : Split :=
  { p with stop := none, passBrk := p.stop = some .brk, toPoint := false }

/-- A split resumed, without single-step. -/
def Split.resume (p : Split) : Split := if p.stop.isSome then { p.goOn with stepping := false } else { p with stepping := false }

def Troop.resume (t : Troop) : Troop := { t with splits := t.splits.map Split.resume }

/-- DETACH: breakpoints are cleared and every stopped split goes on. -/
def execDetach (c : Cmd) (s : State) : Out :=
  let r := c.a0.toNat
  let l := s.launches.find? fun l => l.region = r && s.dbgs.any fun d => d.region = r
  .next (s.answer c false (codeIf l.isNone 2 ++ s.needDebug c l) (quietly fun t =>
    { t with
      dbgs := t.dbgs.filter fun d => d.region != r
      camps := t.camps.map fun k =>
        if (t.launch k.ref.lid).region = r then ({ k with troops := k.troops.map Troop.resume } : Camp) else k }))

/-! ### STOP, RESUME, STEP, TO POINT -/

/-- A split that a debugger stops at its bundle boundary. -/
def Split.halt (p : Split) : Split := if p.stop.isSome then p else { p with stop := some .other }

def Troop.halt (t : Troop) : Troop := { t with splits := t.splits.map Split.halt }

/-- A command on a troop: BADARG when there is none. -/
def State.onNamed (s : State) (c : Cmd) (f : State → TroopRef → State × List Nat) : State :=
  match s.unfocus.troopNamed c.master c.a0.toNat c.a1.toNat with
  | none => s.answer c false [2] (quietly id)
  | some r => s.answer c false [] fun t => f (t.nameTroop c.master c.a0.toNat c.a1.toNat) r

/-- STOP: the troop, or with the flag every troop of its camp. -/
def execStop (c : Cmd) (s : State) : Out :=
  .next (s.onNamed c fun t r =>
    (if c.a2 = 0 then t.modTroop r Troop.halt
     else t.modCamp r.camp fun k => { k with troops := k.troops.map Troop.halt }, []))

/-- RESUME. -/
def execResume (c : Cmd) (s : State) : Out := .next (s.onNamed c fun t r => (t.modTroop r Troop.resume, []))

/-- A command on one split of a troop. -/
def State.onSplit (s : State) (c : Cmd) (f : Split → Split) : State :=
  match (s.unfocus.troopNamed c.master c.a0.toNat c.a1.toNat).bind fun r => s.unfocus.splitNamed r c.a2.toNat with
  | none => s.answer c false [2] (quietly id)
  | some r => s.answer c false [] fun t => ((t.nameTroop c.master c.a0.toNat c.a1.toNat).modSplit r f, [])

/-- STEP. -/
def execStep (c : Cmd) (s : State) : Out := .next (s.onSplit c fun p => { p.goOn with stepping := true })

/-- TO POINT. -/
def execToPoint (c : Cmd) (s : State) : Out := .next (s.onSplit c fun p => { p.goOn with toPoint := true })

/-! ### Breakpoints -/

/-- Whether the master has a leaf attached; the codes of a command on it. -/
def State.needLeaf (s : State) (c : Cmd) (bad : Bool) : List Nat := codeIf (bad || (s.dbgOf c.master).isNone) 2

/-- Changes the breakpoints of the attached leaf. -/
def State.setBkpts (s : State) (m : Nat) (f : List (Nat × Nat × Nat) → List (Nat × Nat × Nat)) : State :=
  match s.dbgOf m with
  | some d => s.modDbg d.region fun d => { d with bkpts := f d.bkpts }
  | none => s

/-- BKPT SET. -/
def execBkptSet (c : Cmd) (s : State) : Out :=
  let n := c.a0.toNat
  .next (s.answer c false (s.needLeaf c (64 ≤ n)) (quietly fun t => t.setBkpts c.master fun bs =>
    (n, c.a1.toNat, c.a2.toNat) :: bs.filter fun b => b.1 != n))

/-- BKPT CLEAR. -/
def execBkptClear (c : Cmd) (s : State) : Out :=
  let n := c.a0.toNat
  .next (s.answer c false (s.needLeaf c (64 ≤ n)) (quietly fun t => t.setBkpts c.master fun bs => bs.filter fun b => b.1 != n))

/-! ### READ, WRITE (R415, R417) -/

/-- Where the focused, stopped split holds a value live at its point: at a location of its native region, or in its portable activation. -/
inductive Held1 where
  | loc (l : Loc) (ty : Ty)
  | val (ty : Ty)
  | iter
  deriving DecidableEq, Repr

/-- Finds a value; none when the split is not stopped at a point or the value is not live there. -/
def State.holding (s : State) (v : Nat) : Option Held1 :=
  if s.sp.stop.isNone then none
  else
    let ty := ((s.tysOf s.sp.func)[v]?).getD .void
    match s.sp.nat with
    | some p => (s.natEntry.bind fun e => e.pointOf p.off).bind fun pt =>
        (pt.locs.find? fun l => l.1 = v).map fun l => .loc l.2 (if v = iterVal then .w32 else ty)
    | none =>
      match s.module? s.sp.mh with
      | none => none
      | some m =>
        if !s.atPoint || !(livePoint m.rtypes (m.items s.sp.func) s.sp.off).contains v then none
        else if v = iterVal then some .iter else some (.val ty)

/-- The word of a lane. -/
def State.readHeld (s : State) (v : Nat) (h : Held1) (i : Nat) : Nat :=
  match h with
  | .loc l ty => (s.readLoc i ty l).nat
  | .val _ => ((s.tr.lane i).val v).nat
  | .iter => (s.sp.loop.map Loop.i).getD 0

/-- READ: the lane words of the split's lanes, 8 bytes each, to host memory. -/
def execRead (c : Cmd) (s : State) : Out :=
  let v := c.a1.toNat
  let f := (s.unfocus.splitLast c.master c.a0.toNat).bind s.focusOn
  .next (match f.bind fun f => (f.holding v).map fun h => (f, h) with
    | none => s.answer c false [2] (quietly id)
    | some (f, h) =>
      let w := f.tr.width
      s.answer c false (codeIf (!hostOk c.a2 (8 * w)) 2) (quietly fun t =>
        t.hostPut c.a2 ((List.range w).flatMap fun i => leBytes 8 (if inMask f.sp.mask i then f.readHeld v h i else 0))))

/-- A landing loses lanes; what is left of it lands. -/
def Flight.without (f : Flight) (m : Mask) : Flight := { f with vals := f.vals.filter fun p => !inMask m p.1 }

/-- Replaces the values of lanes in entry `n` of a queue; an answer that is still to come for them is dropped. -/
def State.writeEntry (s : State) (n q : Nat) (m : Mask) (v : W64) : State :=
  let gone (id : Nat) : Bool := s.reqs.any fun r => r.id = id && match r.by_ with
    | .queue _ l => inMask m l
    | _ => false
  let f (e : QEnt) : QEnt := { e with
    vals := (e.vals.filter fun p => !inMask m p.1) ++ (lanesOf s.tr.width m).map fun l => (l, v)
    reqs := e.reqs.filter fun r => !gone r }
  { s with sp := { s.sp with lq := nthQueue f q n s.sp.lq } }

/-- WRITE through a location (R417); none when it is refused. -/
def State.writeLoc (s : State) (l : Loc) (ty : Ty) (m : Mask) (data : W64) : Option State :=
  let x := mkVal ty data.toNat
  let put (l : Loc) (s : State) : State := (lanesOf s.tr.width m).foldl (fun t i => t.putLoc i x l) s
  match l with
  | .reg _ | .pair _ | .guard _ | .spill _ => some (put l s)
  | .scalar n => if m = s.sp.mask then some { s with sp := { s.sp with scal := setNum n data s.sp.scal } } else none
  | .queue n q => some (s.writeEntry n q m (BitVec.ofNat 64 x.image))
  | .flight n p k =>
    let hit (f : Flight) : Bool := f.left = n && (f.dst = .reg k || (p && f.dst = .reg (k + 1)))
    let s1 : State := { s with sp := { s.sp with fl := s.sp.fl.map fun f => if hit f then f.without m else f } }
    some (put (if p then .pair k else .reg k) s1)
  | .acc _ | .accFrame _ | .const _ => none

/-- WRITE of a value of the focused split. -/
def State.writeHeld (s : State) (v : Nat) (h : Held1) (m : Mask) (data : W64) : Option State :=
  match h with
  | .loc l ty => s.writeLoc l ty m data
  | .val ty =>
    if ty = .acc then none
    else some { s with tr := { s.tr with lanes := onLanes m (fun _ l => l.setVal v (mkVal ty data.toNat)) s.tr.lanes } }
  | .iter => if m = s.sp.mask then some { s with sp := { s.sp with loop := s.sp.loop.map fun x => { x with i := data.toNat % 2 ^ 32 } } } else none

/-- WRITE: one word into the given lanes; an acc value has no lane word and is not written (log 25). -/
def execWrite (c : Cmd) (s : State) : Out :=
  let m : Mask := BitVec.ofNat 1024 (leNat (s.hostBytes c.a2 128))
  let f := (s.unfocus.splitLast c.master c.a0.toNat).bind s.focusOn
  let r := f.bind fun f => (f.holding c.a1.toNat).bind fun h =>
    if m &&& ~~~f.sp.mask = 0 && hostOk c.a2 128 then f.writeHeld c.a1.toNat h m c.a3 else none
  .next (match r with
    | none => s.answer c false [2] (quietly id)
    | some g => s.answer c false [] (quietly fun _ => g.unfocus))

/-! ### SPLITS -/

/-- STATE of a split record (13 R335). -/
def Split.code (p : Split) : Nat :=
  if p.stop.isSome then 4
  else match p.st with
    | .barrier _ _ | .converge _ => 1
    | .rendezvous _ | .forming _ => 2
    | .join => 3
    | .claim _ => 5
    | _ => 0

/-- Stop cause: 0, BREAK 1, STEP 2 (log 25). -/
def Split.cause (p : Split) : Nat :=
  match p.stop with
  | some .brk => 1
  | some .step => 2
  | _ => 0

/-- What SPLITS tells of a split, 144 bytes: mask; STATE and cause; function and offset of its point. -/
def Split.describe (p : Split) : List Byte :=
  leBytes 128 p.mask.toNat ++ leBytes 4 p.code ++ leBytes 4 p.cause ++ leBytes 4 p.func ++ leBytes 4 (if p.nat.isSome then p.lastPt else p.off)

/-- SPLITS: the splits of a troop to host memory, RES0 their number. -/
def execSplits (c : Cmd) (s : State) : Out :=
  let u := s.unfocus
  .next (match (u.troopNamed c.master c.a0.toNat c.a1.toNat).bind u.troop? with
    | none => s.answer c false [2] (quietly id)
    | some t =>
      let bs := t.sorted.flatMap Split.describe
      s.answer c false (codeIf (!hostOk c.a2 bs.length) 2) fun x =>
        ((x.nameTroop c.master c.a0.toNat c.a1.toNat).hostPut c.a2 bs, [t.sorted.length]))

end Sys2Proof.Machine
end

