-- ==== Sys2Proof/Machine/Host.lean ====
section
/-! DEFINITION. Host masters: ownership, the registers of their windows, their apertures (14 R352 to R355, 20 R450, R451, 21 R469). -/

namespace Sys2Proof.Machine

/-! ### Ownership (R353, R450, R451) -/

/-- A step by a master shows that its link is up (log 29). -/
def State.linkUp (s : State) (m : Nat) : State := s.modMaster m fun x => { x with link := true }

/-- An OWNER event. -/
def State.ownerEv (s : State) (reason m : Nat) : Ev := ⟨0x14, reason, s.gsrc srcMgmt, 0, EvBody.pack ⟨0, 0, 0, 0, 0, m⟩⟩

/-- Whether a mapping, or a placement, waits for a pool that is dry (19 R424, 15 R366). -/
def State.poolWaits (s : State) (cap : Bool) : Bool :=
  s.allCamps.any fun c => (c.dry && !cap) || c.troops.any fun t => t.splits.any fun p => p.st = .pool (!cap)

/-- The pool-low completion that a new owner gets for a pool whose waits go on (R451). -/
def State.poolNews (s : State) (cap : Bool) : State := if s.poolWaits cap then s.postOwner (s.poolEv 2 cap) else s

/-- A change of owner: a pending offer and a debug challenge are void (R353, R451). -/
def State.setOwner (s : State) (m : Option Nat) : State := { s with owner := m, hoff := none, nonce := none }

/-- CLM: while ownership is vacant, the writer becomes the owner. -/
def execClm (m : Nat) (s : State) : Out :=
  let u := s.linkUp m
  .next (if 4 ≤ m then s else if u.owner.isSome then u
    else ((u.setOwner (some m)).poolNews false).poolNews true)

/-- RLS: the owner leaves ownership vacant; a pending offer is cancelled. -/
def execRls (m : Nat) (s : State) : Out :=
  let u := s.linkUp m
  .next (if u.owner != some m then u
    else (if u.hoff.isSome then u.postOwner (u.ownerEv 3 u.htgt) else u).setOwner none)

/-- HOFF: the owner offers handover to HTGT. -/
def execHoff (m : Nat) (s : State) : Out :=
  let u := s.linkUp m
  .next (if u.owner != some m || u.hoff.isSome then u else { u with hoff := some u.stamp.toNat })

/-- 100 ms of STAMP. -/
def ms100 : Nat := 100000000

/-- Whether an offer is pending and has not lapsed. -/
def State.offered (s : State) : Bool := s.hoff.any fun t => s.stamp.toNat < t + ms100

/-- ACPT: the target of a pending offer becomes the owner; any other acceptance is dropped and told to the owner. -/
def execAcpt (m : Nat) (s : State) : Out :=
  let u := s.linkUp m
  .next (if u.offered && m = u.htgt && m < 4 then u.setOwner (some m) else u.postOwner (u.ownerEv 2 m))

/-- HANDOVER_LAPSE: no acceptance within 100 ms. -/
def execHandoverLapse (s : State) : Out :=
  .next (if s.hoff.any fun t => t + ms100 ≤ s.stamp.toNat then { s with hoff := none }.postOwner (s.ownerEv 1 s.htgt) else s)

/-- OWNER_VACATE: the owner's link has been lost for 1 s. -/
def execOwnerVacate (s : State) : Out :=
  .next (match s.owner with
    | none => s
    | some m =>
      let x := s.master m
      if !x.link && x.linkLost + 1000000000 ≤ s.stamp.toNat then s.setOwner none else s)

/-! ### Registers of the window (R353, R355) -/

/-- Whether a ring base lies in the address field only. -/
def baseOk (v : W64) : Bool := fld v.toNat 0 12 = 0 && fld v.toNat 48 16 = 0

/-- CRCFG with its reserved bits ignored. -/
def Master.config (x : Master) (v : W32) : Master :=
  let log := fld v.toNat 0 4
  let on : Bool := fld v.toNat 8 1 = 1 && 4 ≤ log && log ≤ 12 && baseOk x.crbase && baseOk x.cpbase
  let y : Master := { x with clog2 := log, en := on, crcfg := BitVec.ofNat 32 (log + 256 * boolN on) }
  if on then { y with crhead := 0, cpidx := 0, cpdrop := 0 } else y

/-- CRCFG: starts the ring at slot 0, or stops it; commands already announced by CRDB are due from there. -/
def execCrcfg (m : Nat) (v : W32) (s : State) : Out :=
  let u := (s.linkUp m).modMaster m fun x => x.config v
  let x := u.master m
  let rest := u.bells.filter fun b => b.1 != m
  .next { u with bells := if x.en && x.crdb != 0 && x.crdb.toNat ≤ 2 ^ x.clog2 then rest ++ [(m, x.crdb)] else rest }

/-- CRDB: a value that announces more commands than the ring has slots is ignored. -/
def execCrdb (m : Nat) (v : W32) (s : State) : Out :=
  let u := s.linkUp m
  let x := u.master m
  let set : State := u.modMaster m fun x => { x with crdb := v }
  .next (if !x.en then set
    else if 2 ^ x.clog2 < diff32 v x.crhead then u
    else { set with bells := set.bells ++ [(m, v)] })

/-- Writes of the registers without behaviour of their own: HTGT, CRBASE, CPBASE. -/
def execRegisterWrite (m : Nat) (r : HostReg) (v : W64) (s : State) : Out :=
  let u := s.linkUp m
  .next (match r with
    | .htgt => if u.owner = some m then { u with htgt := fld v.toNat 0 4 } else u
    | .crbase => u.modMaster m fun x => { x with crbase := v }
    | .cpbase => u.modMaster m fun x => { x with cpbase := v })

/-- The control page of a master (R353): CLM, RLS and ACPT are acted on at once, so they read 0. -/
def State.controlPage (s : State) (m : Nat) : Nat :=
  s.htgt * 2 ^ 20 + boolN s.hoff.isSome * 2 ^ 19 + (s.owner.getD 0xF) * 2 ^ 8 + m % 16

/-- The registers of a master's window: offset, bytes, value (R353, R355); every other offset reads 0, NOTIFY too (13 R321). -/
def State.windowRegs (s : State) (m : Nat) : List (Nat × Nat × Nat) :=
  let x := s.master m
  [(0x1000000, 4, s.controlPage m), (0x1001000, 8, x.crbase.toNat), (0x1001008, 4, x.crcfg.toNat), (0x100100C, 4, x.crdb.toNat),
    (0x1001010, 4, x.crhead.toNat), (0x1001018, 8, x.cpbase.toNat), (0x1001020, 4, x.cpidx.toNat), (0x1001024, 4, x.cpdrop.toNat)]

/-- One byte of the window. -/
def State.windowByte (s : State) (m a : Nat) : Byte :=
  match (s.windowRegs m).find? fun r => r.1 ≤ a && a < r.1 + r.2.1 with
  | some r => ((leBytes r.2.1 r.2.2)[a - r.1]?).getD 0
  | none => 0

/-- A write of the control page: HTGT, then each bit that is set. -/
def State.controlWrite (s : State) (m v : Nat) : State :=
  let on (i : Nat) (f : State → Out) (t : State) : State := if fld v i 1 = 1 then outState (f t) t else t
  on 19 (execHoff m) (on 18 (execAcpt m) (on 17 (execRls m) (on 16 (execClm m)
    (outState (execRegisterWrite m .htgt (BitVec.ofNat 64 (fld v 20 4)) s) s))))

/-- A write of a whole register of the window; any other is ignored. -/
def State.windowWrite (s : State) (m a n v : Nat) : State :=
  let w32 := BitVec.ofNat 32 v
  let w64 := BitVec.ofNat 64 v
  if a < 0x1000000 then (if a % 4096 = 0 && n = 4 then outState (execNotify m (a / 4096) w32 s) s else s)
  else match a - 0x1000000, n with
    | 0, 4 => s.controlWrite m v
    | 0x1000, 8 => outState (execRegisterWrite m .crbase w64 s) s
    | 0x1008, 4 => outState (execCrcfg m w32 s) s
    | 0x100C, 4 => outState (execCrdb m w32 s) s
    | 0x1018, 8 => outState (execRegisterWrite m .cpbase w64 s) s
    | _, _ => s

/-! ### Accesses at physical bytes -/

/-- Length of an access. -/
def AccKind.len (k : AccKind) (n : Nat) : Nat :=
  match k with
  | .load => n
  | .store d => d.length
  | .amo _ ty _ _ => ty.bytes
  | .bar _ => 8

/-- Alignment that an access must have. -/
def AccKind.grain : AccKind → Nat
  | .load | .store _ => 1
  | .amo _ ty _ _ => ty.bytes
  | .bar _ => 8

/-- Permissions of an access. -/
def AccKind.need : AccKind → Need
  | .load => needR
  | .store _ => needW
  | .amo _ _ _ _ | .bar _ => needA

/-- Performs an access at physical bytes, at once: what it returns, none for a barrier word that is not valid. -/
def State.actAt (s : State) (bs : List Nat) (k : AccKind) : State × Option (List Byte) :=
  let old := bs.map (memRead s.mem)
  match k with
  | .load => (s, some old)
  | .store d => (s.commit (bs.zip d), some [])
  | .amo op ty v n =>
    let o := leNat old
    (if casFails op o v.toNat then s else s.commit (bs.zip (leBytes ty.bytes (atomNew op ty o v.toNat n.toNat))), some old)
  | .bar e =>
    let r := s.updateWord ⟨0, 0⟩ (.phys bs) fun w => w.arrive e
    (r.1, if r.2 then some old else none)

/-! ### Apertures (R352, 19 R425, 21 R466) -/

/-- The host's answer: 0, or 1 for an error response; and the bytes returned. -/
def State.hostEnd (s : State) (status : Nat) (out : List Byte) : State := { s with hostStatus := status, hostOut := out }

/-- An error response with its HOSTFAULT in the ring of the master's tenant root, or on the owner's path without one (log 29). -/
def State.hostFault (s : State) (m : Nat) (f : LFault) : State :=
  let e : Ev := ⟨0x13, f.cause, s.gsrc 40, 0, EvBody.pack ⟨f.addr, 0, 0, 0, 0, f.sub⟩⟩
  (match s.rootOfMaster m with
    | some r => s.post (s.rootPath r) e
    | none => s.postOwner e).hostEnd 1 []

/-- Whether an access updates a barrier word in the middle of its completion: it comes after it (05 R116). -/
def State.updateHeld (s : State) (bs : List Nat) (k : AccKind) : Bool :=
  k != .load && (s.wordBusy ⟨0, 0⟩ bs.length [(0, [.phys bs])]).isSome

/-- Ends an access at physical bytes. -/
def State.hostAct (s : State) (m va : Nat) (bs : List Nat) (k : AccKind) : State :=
  match s.actAt bs k with
  | (t, some d) => t.hostEnd 0 d
  | (t, none) => t.hostFault m ⟨cOPERAND, 1, va⟩

/-- Sends an access to a peer range of the tenant over Portage. -/
def State.hostPeer (s : State) (m va pkg wa n : Nat) (k : AccKind) : State :=
  match s.request pkg wa va n (.host m) k s.hseen with
  | some t => t
  | none => (s.linkFault pkg wa).hostFault m ⟨cREMOTE, 5, va⟩

/-- An access through the tenant aperture. -/
def State.tenantAccess (s : State) (m va n : Nat) (k : AccKind) : State :=
  match s.rootOfMaster m with
  | none => s.hostEnd 1 []
  | some r =>
    let path := s.rootPath r
    let tree := (s.rcbAt r).tree
    let len := AccKind.len k n
    if va % AccKind.grain k != 0 then s.hostFault m ⟨cALIGN, 1, va⟩
    else match s.engSpots .mgmt 0 tree path (AccKind.need k) ((List.range len).map fun i => va + i) with
      | (t, .error f) => t.hostFault m f
      | (t, .ok ps) =>
        let u := t.noteUnit .mgmt tree va len
        match ps with
        | (_, .peer pkg wa) :: _ => u.hostPeer m va pkg wa len k
        | _ => u.hostAct m va (ps.filterMap fun p => match p.2 with
            | .phys (b :: _) => some b
            | _ => none) k

/-- An access to the register window: loads read it, stores write it, and nothing else does. -/
def State.windowAccess (s : State) (m a n : Nat) (k : AccKind) : State :=
  match k with
  | .load => s.hostEnd 0 ((List.range n).map fun i => s.windowByte m (a + i))
  | .store d => (s.windowWrite m a d.length (leNat d)).hostEnd 0 []
  | _ => s.hostEnd 0 (List.replicate (AccKind.len k n) 0)

/-- Whether a host access has to wait for the completion of a barrier word that it updates. -/
def State.hostHeld (s : State) (m : Nat) (ap : Aperture) (a n : Nat) (k : AccKind) : Bool :=
  match ap, s.rootOfMaster m with
  | .physical, _ => s.updateHeld ((List.range (AccKind.len k n)).map fun i => a + i) k
  | .tenant, some r =>
    (s.engSpots .mgmt 0 (s.rcbAt r).tree (s.rootPath r) (AccKind.need k) ((List.range (AccKind.len k n)).map fun i => a + i)).2.toOption.any
      fun ps => s.updateHeld (ps.filterMap fun p => match p.2 with
        | .phys (b :: _) => some b
        | _ => none) k
  | _, _ => false

/-- HOST_ACCESS: refused while the package is not running; the physical aperture serves the owner only and not reserved memory. One that has to wait does nothing yet. -/
def execHostAccess (m : Nat) (ap : Aperture) (a : W64) (n : Nat) (k : AccKind) (s : State) : Out :=
  let u0 := (s.unfocus).linkUp m
  let u : State := { u0 with gseen := maxW u0.gseen u0.hseen, hseen := maxW u0.gseen u0.hseen }
  let bs := (List.range (AccKind.len k n)).map fun i => a.toNat + i
  if u0.completing && u0.hostHeld m ap a.toNat n k then .next u0
  else if ap = .window then .next (u.windowAccess m a.toNat n k)
  else if u.ember != .running || u.boot != .running then .next (u.hostEnd 1 [])
  else match ap with
    | .window => .next u
    | .tenant => .next (u.tenantAccess m a.toNat n k)
    | .physical =>
      if u.owner != some m || bs.any fun b => u.isReserved b then .next (u.hostEnd 1 [])
      else if bs.any fun b => !physOk b then .fault .absentPhysical
      else if a.toNat % AccKind.grain k != 0 then .next (u.hostFault m ⟨cALIGN, 1, a.toNat⟩)
      else if (AccKind.need k).now && u.poisoned bs then .next (u.hostFault m ⟨cMEMECC, 0, a.toNat⟩)
      else .next (u.hostAct m a.toNat bs k)

/-- GUYLINE_LINK_LOSS: the master's outstanding accesses end with an error on the host's side (21 R469). -/
def execGuylineLinkLoss (m : Nat) (s : State) : Out :=
  let mine := s.reqs.any fun q => q.by_ = .host m
  let u := s.modMaster m fun x => if x.link then { x with link := false, linkLost := s.stamp.toNat } else x
  let v : State := { u with reqs := u.reqs.filter fun q => q.by_ != .host m }
  .next (if mine then v.hostEnd 1 [] else v)

end Sys2Proof.Machine
end

