-- ==== Sys2Proof/Machine/Peer.lean ====
section
/-! DEFINITION. Portage as target and as initiator: inbound accesses and landings, answers of peers, timeouts (09 R218, R219, 14 R361, 18 R404, 19 R425, R428, R429, 21 R469). -/

namespace Sys2Proof.Machine

/-! ### Export table (R361) -/

/-- Fields of an export entry. -/
def exKind (v : Nat) : Nat := fld v 0 2
def exW (v : Nat) : Bool := fld v 7 1 = 1
def exPerm (v : Nat) (n : Need) : Bool := (!n.r || fld v 8 1 = 1) && (!n.w || fld v 7 1 = 1) && (!n.a || fld v 6 1 = 1)
def exSrc (v : Nat) : Nat := fld v 55 9
def exRegion (v : Nat) : Nat := fld v 64 24
def exVbase (v : Nat) : Nat := fld v 88 56
def exLimit (v : Nat) : Nat := fld v 144 56
def exBase (v : Nat) : Nat := fld v 200 56

/-- Whether an entry admits a source package. -/
def exAdmits (v src : Nat) : Bool := exSrc v = src || exSrc v = 0x1FF

/-- The lowest-indexed of two candidates. -/
def lowest (a : Option (Nat × Nat)) (x : Nat × Nat) : Option (Nat × Nat) :=
  match a with
  | none => some x
  | some y => if x.1 < y.1 then some x else some y

/-- The lowest-indexed entry with a property. -/
def State.exportFor (s : State) (f : Nat → Bool) : Option Nat :=
  ((s.exports.filterMap fun e => if f e.2.toNat then some (e.1, e.2.toNat) else none).foldl lowest none).map Prod.snd

/-- The entry that decides an access at a window address. -/
def State.windowEntry (s : State) (src wa : Nat) : Option Nat :=
  s.exportFor fun v => exKind v = 1 && exAdmits v src && exBase v ≤ wa && wa < exLimit v

/-- The entry that decides a scratchpad landing. -/
def State.scratchEntry (s : State) (src region : Nat) : Option Nat :=
  s.exportFor fun v => exKind v = 2 && exAdmits v src && exRegion v = region

/-- The part of a path from the node of a region number. -/
def pathFrom (region : Nat) (p : List Rcb) : Option (List Rcb) :=
  match p.dropWhile fun r => r.region != region with
  | [] => none
  | q => some q

/-- The path of the node of a region number: known from the launches, the queues' BIND and the tenant roots (log 27). -/
def State.regionPath (s : State) (region : Nat) : Option (List Rcb) :=
  let ps := s.launches.map Launch.path ++ (s.queues.filterMap fun q => s.path q.bind.toNat) ++
    s.tenants.map fun t => s.rootPath t.root
  (ps.filterMap (pathFrom region)).head?

/-! ### Inbound accesses (R361, R425, R428) -/

/-- The answer to a peer: 0, 8 for a barrier word that is not valid, 16 and a reason for a refusal; and the bytes returned. -/
def State.peerEnd (s : State) (status : Nat) (out : List Byte) : State := s.hostEnd status out

/-- A refusal: NACK, and PEERFAULT to the ring of the entry's region, or to the owner's path without one (R428). -/
def State.refuse (s : State) (path : Option (List Rcb)) (reason src wa : Nat) : State :=
  let e : Ev := ⟨0x09, reason, s.linkSrc src, 0, EvBody.pack ⟨wa, 0, 0, 0, 0, src⟩⟩
  (match path with
    | some p => s.post p e
    | none => s.postOwner e).peerEnd (16 + reason) []

/-- Refusal reason of an access that fails at the target: TPAGE, TPERM or TPOOL. -/
def refusal (f : LFault) : Nat :=
  if f.cause = cPERM then 2 else if f.cause = cPAGE && (f.sub = 0xE || f.sub = 0xF) then 4 else 3

/-- Physical bytes of an inbound access through an entry, or the reason that refuses it. -/
def State.inSpots (s : State) (path : List Rcb) (va n : Nat) (need : Need) : State × Except Nat (List Nat) :=
  let tree := (path.getLast?.map Rcb.tree).getD 0
  match s.engSpots .mgmt 0 tree path need ((List.range n).map fun i => va + i) with
  | (t, .error f) => (t, .error (refusal f))
  | (t, .ok ps) =>
    let bs := ps.filterMap fun p => match p.2 with
      | .phys (b :: _) => some b
      | _ => none
    if bs.length != n then (t, .error 3)
    else if ps.all fun p => match t.xlat .mgmt tree p.1 with
        | .ok x => x.e
        | .error _ => false
      then (t.noteUnit .mgmt tree va n, .ok bs) else (t, .error 2)

/-- Checks an inbound access at a window address: the entry, its permissions, the lookup; a refusal's path and reason. -/
def State.inCheck (s : State) (src wa n : Nat) (need : Need) : State × Except (Option (List Rcb) × Nat) (List Nat) :=
  match s.windowEntry src wa with
  | none => (s, .error (none, 1))
  | some v =>
    let path := s.regionPath (exRegion v)
    if exLimit v < wa + n then (s, .error (path, 1))
    else if !exPerm v need then (s, .error (path, 2))
    else match path with
      | none => (s, .error (none, 3))
      | some p => match s.inSpots p (exVbase v + (wa - exBase v)) n need with
        | (t, .error r) => (t, .error (some p, r))
        | (t, .ok bs) => (t, .ok bs)

/-- Whether the package takes inbound requests: not in ember, nor held in reset (13 R339). -/
def State.inbound (s : State) : Bool := s.ember = .running && s.boot = .running

/-- INBOUND_PEER_ACCESS: the access is performed at once, or refused with NACK. -/
def execInboundPeerAccess (src : Nat) (wa : W64) (n : Nat) (k : AccKind) (seen : W64) (s : State) : Out :=
  let u := s.unfocus
  .next (if !u.inbound then u.peerEnd 16 []
    else match u.inCheck src wa.toNat (AccKind.len k n) (AccKind.need k) with
      | (t, .error (p, r)) => t.refuse p r src wa.toNat
      | (t, .ok bs) =>
        if u.completing && u.updateHeld bs k then u
        else match ({ t with gseen := maxW t.gseen seen }).actAt bs k with
        | (v, some d) => v.peerEnd 0 d
        | (v, none) => v.peerEnd 8 [])

/-! ### Inbound landings (09 R218, R219) -/

/-- What a landing ended in after its bytes were written: 8 when its word was not valid; else the value of a carried checksum goes on over its bytes and back (09 R214). -/
def State.landEnd (s : State) (ok : Bool) (data : List Byte) (ck : Option W32) : State :=
  if ok then s.peerEnd 0 (match ck with
    | some v => leBytes 4 (adler v.toNat data)
    | none => [])
  else s.peerEnd 8 []

/-- A landing on a word in memory, at a window address that was checked. -/
def State.landAt (s : State) (bw : Option (List Nat)) (data : List Byte) (ck : Option W32) : State :=
  match bw with
  | none => s.landEnd true data ck
  | some bs =>
    let r := s.updateWord ⟨0, 0⟩ (.phys bs) fun w => w.land data.length
    r.1.landEnd r.2 data ck

/-- A landing at a window address. -/
def State.landWindow (s : State) (src wa : Nat) (data : List Byte) (bw : Option W64) (ck : Option W32) : State :=
  match s.inCheck src wa data.length needW with
  | (t, .error (p, r)) => t.refuse p r src wa
  | (t, .ok bs) => match bw with
    | none => (t.commit (bs.zip data)).landAt none data ck
    | some a => match t.inCheck src a.toNat 8 needA with
      | (v, .error (p, r)) => v.refuse p r src a.toNat
      | (v, .ok ws) => (v.commit (bs.zip data)).landAt (some ws) data ck

/-- The camp of a region that a landing names. -/
def State.landCamp (s : State) (region camp : Nat) : Option Camp :=
  s.camps.find? fun c => c.ref.camp = camp && (s.launch c.ref.lid).region = region &&
    c.place != .ended && c.place != .moved && (c.place != .queued || c.fails != 0)

/-- Whether a barrier word of the target camp lies at or above its SCRATCH. -/
def wordBeyond (scratch : Nat) : Option W64 → Bool
  | some a => tagOf a.toNat = 0xFD && scratch < offOf a.toNat + 8
  | none => false

/-- Writes a landing into a camp's scratchpad or its image, and updates the word: in that scratchpad, or at a window address. -/
def State.landScratch (s : State) (src : Nat) (c : Camp) (off : Nat) (data : List Byte) (bw : Option W64) (ck : Option W32) : State :=
  let put (t : State) : State := (t.modCamp c.ref fun k => { k with scr := memWriteAll k.scr (cellsAt off data) }).writePack c.ref
  match bw with
  | none => (put s).landEnd true data ck
  | some a =>
    if tagOf a.toNat = 0xFD then
      let r := (put s).landWord c.ref a.toNat data.length
      (r.1.writePack c.ref).landEnd r.2 data ck
    else match s.inCheck src a.toNat 8 needA with
      | (v, .error (p, r)) => v.refuse p r src a.toNat
      | (v, .ok ws) => (put v).landAt (some ws) data ck

/-- A landing in the scratchpad of a camp. -/
def State.landRegion (s : State) (src region camp off : Nat) (data : List Byte) (bw : Option W64) (ck : Option W32) : State :=
  let wa := 0xFD * 2 ^ 56 + off
  match s.scratchEntry src region with
  | none => s.refuse none 1 src wa
  | some v =>
    let path := s.regionPath region
    if !exW v then s.refuse path 2 src wa
    else match s.landCamp region camp with
      | none => s.refuse path 1 src wa
      | some c =>
        let scratch := (s.launch c.ref.lid).scratch
        if scratch < off + data.length || wordBeyond scratch bw then s.refuse path 6 src wa
        else s.landScratch src c off data bw ck

/-- Whether the word that a landing names stands in the middle of its completion. -/
def State.landHeld (s : State) (src : Nat) (dst : LandTo) (bw : Option W64) : Bool :=
  match bw, dst with
  | none, _ => false
  | some a, .scratch region camp _ =>
    if tagOf a.toNat = 0xFD then (s.landCamp region camp).any fun c => s.landBusy c a.toNat
    else (s.inCheck src a.toNat 8 needA).2.toOption.any fun ws => (s.wordBusy ⟨0, 0⟩ 8 [(0, [.phys ws])]).isSome
  | some a, .window _ => (s.inCheck src a.toNat 8 needA).2.toOption.any fun ws => (s.wordBusy ⟨0, 0⟩ 8 [(0, [.phys ws])]).isSome

/-- INBOUND_LANDING: accepted under the import rules, or refused with NACK; one on a word in the middle of its completion does nothing yet. -/
def execInboundLanding (src : Nat) (dst : LandTo) (data : List Byte) (bw : Option W64) (tail : LandTail) (s : State) : Out :=
  let u0 := s.unfocus
  .next (if !u0.inbound then u0.peerEnd 16 []
    else if u0.completing && u0.landHeld src dst bw then u0
    else
      let u : State := { u0 with gseen := maxW u0.gseen tail.seen }
      match dst with
      | .window wa => u.landWindow src wa.toNat data bw tail.ck
      | .scratch region camp off => u.landRegion src region camp off data bw tail.ck)

/-! ### Answers of peers (18 R404, 19 R428, R429) -/

/-- How a request ended: with an answer, or with its timeout. -/
inductive PeerEnd where
  | answer (a : PeerAns)
  | timeout
  deriving DecidableEq, Repr

/-- The refusal that a failed request carries; none for a timeout. -/
def PeerEnd.reason : PeerEnd → Option Nat
  | .answer (.nack r) => some r
  | _ => none

/-- The bytes of an acknowledgement. -/
def PeerEnd.data : PeerEnd → Option (List Byte)
  | .answer (.ack d) => some d
  | _ => none

/-- The faulted lane of R404, or the sticky bit of a store. -/
def State.lateLane (s : State) (r : TroopRef) (l : Nat) (e : PeerEnd) (va acc : Nat) : State :=
  s.modTroop r fun t => { t with lanes := t.lanes.mapIdx fun i x => if i = l then x.fail e.reason va acc else x }

/-- A value of a lane that a load of a split defined, wherever the lane's activation is. -/
def State.setLaneVal (s : State) (r : TroopRef) (l n : Nat) (v : TVal) : State :=
  s.modTroop r fun t => { t with lanes := t.lanes.mapIdx fun i x => if i = l then x.setVal n v else x }

/-- An entry of a load-return queue after one of its requests has ended: the answer's image goes to the lane. -/
def QEnt.answered (x : QEnt) (id l : Nat) (v : Option Nat) : QEnt :=
  if x.reqs.contains id then
    { x with
      reqs := x.reqs.filter fun r => r != id
      vals := match v with
        | some d => x.vals.map fun q => if q.1 = l then (l, BitVec.ofNat 64 (mkVal x.ty d).image) else q
        | none => x.vals }
  else x

/-- The queue entries of a troop's splits after the end of a request. -/
def State.answerQueues (s : State) (r : TroopRef) (id l : Nat) (v : Option Nat) : State :=
  s.modTroop r fun t => { t with splits := t.splits.map fun p => p.mapQueues fun x => x.answered id l v }

/-- A barrier request or record read that failed: REMOTE or TIMEOUT in the executing split's mask, SUB BARWORD for a word that is not valid. -/
def State.barrierFail (s : State) (q : PeerReq) (e : PeerEnd) (r : SplitRef) : State :=
  let acc := match q.kind with
    | .load => if q.n = 8 then 2 else 0
    | _ => 2
  match s.focusOn r with
  | none => s
  | some f0 =>
    let f : State := { f0 with sp := { f0.sp with st := .ready } }.setCtx
    (match e with
      | .answer .badWord => f.operand 0x01 0 0
      | .answer (.nack n) => f.trapAll cREMOTE (memAddr q.va.toNat n acc f.lead)
      | _ => f.trapAll cTIMEOUT (memAddr q.va.toNat 0 acc f.lead)).unfocus

/-- An arrival on a peer's word makes the troop's entries due there; the answer that shows the phase complete lets them be applied (05 R123; log 93, DEDUCED). -/
def State.peerPhase (s : State) (q : PeerReq) (r : SplitRef) (w : Nat) : State :=
  let key := spotKey (.peer q.pkg q.wa.toNat)
  let larr := ((s.camps.find? fun c => c.ref = r.tr.camp).bind fun c => c.troops.find? fun t => t.mem = r.tr.mem).bind Troop.larr
  match q.kind with
  | .bar e =>
    let t := s.modCamp r.tr.camp fun c => c.arriveOrb r.tr.mem key
    if ((BWord.ofNat w).arrive e).due then (t.detCommit r.tr.camp key).1 else t
  | .load => if larr.any fun x => x.1 = q.va && x.2 != (BWord.ofNat w).phase then (s.detCommit r.tr.camp key).1 else s
  | _ => s

/-- The answer of a word or a record, given to the split that waits for it: a wait does not accept an invalid word (05 R115). -/
def State.barrierAnswer (s : State) (q : PeerReq) (r : SplitRef) (d : List Byte) : State :=
  if q.n = 8 && q.kind = .load && !wordOk (leNat d) then s.barrierFail q (.answer .badWord) r
  else
    let t := if d.length = 8 then s.peerPhase q r (leNat d) else s
    match t.focusOn r with
    | none => t
    | some f => (f.wordAnswer d).unfocus

/-- Flips a word whose completion waited for ordered reductions at peers, when none is left (05 R123); one of a peer is not ours to flip. -/
def State.flipDue (s : State) (c : CampRef) (k : Nat) : State :=
  if 2 ^ 64 ≤ k then s
  else if tagOf k = 0xFD then
    s.modCamp c fun x =>
      let w := leNat (memBytes x.scr (offOf k) 8)
      { x with scr := memWriteAll x.scr (cellsAt (offOf k) (leBytes 8 (BWord.ofNat w).flip.toNat)) }
  else
    let w := memNat s.mem k 8
    s.commit (cellsAt k (leBytes 8 (BWord.ofNat w).flip.toNat))

/-- Whether another ordered reduction is out for the same completion. -/
def State.orbOut (s : State) (c : CampRef) (k : Nat) : Bool :=
  s.reqs.any fun q => match q.by_ with
    | .orb d o => o.due.contains k && (tagOf k != 0xFD || d = c)
    | _ => false

/-- Outcome of one ordered reduction at a peer (08 R185). -/
def State.orbEnd (s : State) (c : CampRef) (o : Orb) (e : PeerEnd) : State :=
  let k := (s.camps.find? fun x => x.ref = c).getD Camp.reset
  let ctx := ((k.troops.find? fun t => t.mem = o.mem).map Troop.ctx).getD 0
  let s1 := match e with
    | .answer (.ack _) => s
    | .answer (.nack n) => s.orbFail c o cREMOTE n fRN k.core ctx
    | .answer .badWord => s
    | .timeout => s.orbFail c o cTIMEOUT 0 fRT k.core ctx
  match o.due with
  | w :: _ => if s1.orbOut c w then s1 else s1.flipDue c w
  | [] => if s1.reqs.any fun q => match q.by_ with
        | .orb d _ => d.lid = c.lid
        | _ => false
      then s1 else s1.push (.launchCompletion c.lid)

/-- Outcome of a host access to a peer range. -/
def State.hostAnswer (s : State) (m : Nat) (q : PeerReq) (e : PeerEnd) : State :=
  match e with
  | .answer (.ack d) => s.hostEnd 0 d
  | .answer (.nack n) => s.hostFault m ⟨cREMOTE, n, q.va.toNat⟩
  | .answer .badWord => s.hostFault m ⟨cOPERAND, 1, q.va.toNat⟩
  | .timeout => s.hostFault m ⟨cTIMEOUT, 0, q.va.toNat⟩

/-- What the end of a request does to who sent it. -/
def State.reqEnd (s : State) (q : PeerReq) (e : PeerEnd) : State :=
  let va := q.va.toNat
  match q.by_ with
  | .load r l dst ty _ _ => match e.data with
    | some d => s.setLaneVal r.tr l dst (mkVal ty (leNat d))
    | none => s.lateLane r.tr l e va 0
  | .amo r l dst ty => match e.data with
    | some d => s.setLaneVal r.tr l dst (mkVal ty (leNat d))
    | none => s.lateLane r.tr l e va 2
  | .queue r l =>
    let s1 := s.answerQueues r q.id l (e.data.map leNat)
    match e.data with
    | some _ => s1
    | none => s1.lateLane r l e va (match q.kind with
        | .amo _ _ _ _ => 2
        | _ => 0)
  | .store r l => match e.data with
    | some _ => s
    | none => s.markLane r.camp r.mem l (if e = .timeout then fRT else fRN)
  | .granule c cmd g => match e with
    | .answer a => (s.granAnswer q c cmd g a).writePack c
    | .timeout => (s.granRefused c cmd g true).writePack c
  | .orb c o => s.orbEnd c o e
  | .barrier r => match e.data with
    | some d => s.barrierAnswer q r d
    | none => s.barrierFail q e r
  | .host m => s.hostAnswer m q e
  | .sched n => s.schedAnswer q n e.data
  | .flag leaf => s.flagAnswer q leaf (match e with
      | .answer (.ack _) => none
      | .answer (.nack _) => some cREMOTE
      | .answer .badWord => some cOPERAND
      | .timeout => some cTIMEOUT)

/-- A split that waited for a request goes on, or waits for the next one of its instruction. -/
def State.wakePeer (s : State) (id : Nat) : State :=
  let next (r : SplitRef) : SState := match s.reqs.find? fun q => q.ofSplit r with
    | some q => .peer q.id
    | none => .ready
  { s with camps := s.camps.map fun (c : Camp) => { c with troops := c.troops.map fun (t : Troop) =>
      { t with splits := t.splits.map fun p =>
          if p.st = .peer id then { p with st := next ⟨⟨c.ref, t.mem⟩, p.sid⟩ } else p } } }

/-- SEEN of the agent that a request was sent for: a lane, the lanes of a split, a command, the host (05 R114). -/
def State.seenBy (s : State) (q : PeerReq) (seen : W64) : State :=
  let up (r : TroopRef) (l : Nat) : State :=
    s.modTroop r fun t => { t with lanes := t.lanes.mapIdx fun i x => if i = l then { x with seen := maxW x.seen seen } else x }
  match q.by_ with
  | .load r l _ _ _ _ | .amo r l _ _ => up r.tr l
  | .queue r l | .store r l => up r l
  | .orb c o => up ⟨c, o.mem⟩ o.lane
  | .barrier r => s.modTroop r.tr fun t => match t.splits.find? fun p => p.sid = r.sid with
    | some p => { t with lanes := onLanes p.mask (fun _ x => { x with seen := maxW x.seen seen }) t.lanes }
    | none => t
  | .granule c id _ => s.modCmd c id fun x => { x with seen := maxW x.seen seen }
  | .host _ => { s with hseen := maxW s.hseen seen }
  | .sched _ | .flag _ => s

/-- Ends a request: it leaves the list, its sender takes its outcome, and waits for it end. -/
def State.endReq (s0 : State) (q : PeerReq) (e : PeerEnd) (seen : W64) : State :=
  let s := s0.unfocus
  let s1 : State := { s with reqs := s.reqs.filter (fun x => x.id != q.id), gseen := maxW s.gseen seen }
  ((s1.seenBy q seen).reqEnd q e).wakePeer q.id

/-- The request of a number. -/
def State.req? (s : State) (id : Nat) : Option PeerReq := s.reqs.find? fun q => q.id = id

/-- Whether an answer lands on a word of this package that stands in the middle of its completion. -/
def State.ackHeld (s : State) (q : PeerReq) : Bool :=
  match q.by_ with
  | .granule c id _ => q.kind != .load && (s.cmd? c id).any fun x => s.granHeld x.1 x.2
  | _ => false

/-- PEER_RESPONSE: one that comes after its timeout is discarded (R429). -/
def execPeerResponse (id : Nat) (a : PeerAns) (seen : W64) (s : State) : Out :=
  .next (match s.req? id with
    | none => s
    | some q => if s.ackHeld q then s else s.endReq q (.answer a) seen)

/-- Ends a request whose timeout has expired; `host` picks those to host memory. -/
def State.expire (s : State) (id : Nat) (host : Bool) : State :=
  match s.req? id with
  | none => s
  | some q => if q.time ≤ s.stamp.toNat && (512 ≤ q.pkg) = host then s.endReq q .timeout 0 else s

/-- PEER_TIMEOUT. -/
def execPeerTimeout (id : Nat) (s : State) : Out := .next (s.expire id false)

/-- HOST_MEMORY_TIMEOUT: an access through a lost Guyline link, 1 ms after it (21 R469). -/
def execHostMemoryTimeout (id : Nat) (s : State) : Out := .next (s.expire id true)

/-- Whether an input has to wait for the completion of a barrier word, which no other update interrupts (05 R116). -/
def State.inputHeld (s : State) (i : Instr) : Bool :=
  s.completing && match i with
  | .hostAccess m ap a n k => s.hostHeld m ap a.toNat n k
  | .inboundPeerAccess src wa n k _ => (s.inCheck src wa.toNat (AccKind.len k n) (AccKind.need k)).2.toOption.any fun bs => s.updateHeld bs k
  | .inboundLanding src dst _ bw _ => s.landHeld src dst bw
  | .peerResponse id _ _ => (s.req? id).any s.ackHeld
  | _ => false

end Sys2Proof.Machine
end

