-- ==== Sys2Proof/Machine/Link.lean ====
section
/-! DEFINITION. Portage ports: flits, replay, retraining, loss and restoration (14 R359, 21 R468; layout of a flit: log 28). -/

namespace Sys2Proof.Machine

/-! ### Flits (R359) -/

/-- One bit of the CRC-32 register. -/
def crcBit (r : W32) : W32 := if r.getLsbD 31 then (r <<< 1) ^^^ 0x04C11DB7 else r <<< 1

/-- One byte, highest bit first (PRESUMED: log 28). -/
def crcByte (r : W32) (b : Byte) : W32 :=
  crcBit (crcBit (crcBit (crcBit (crcBit (crcBit (crcBit (crcBit (r ^^^ (b.zeroExtend 32 <<< 24)))))))))

/-- CRC-32 with polynomial 0x04C11DB7, initial value all ones and final inversion. -/
def crc32 (bs : List Byte) : W32 := ~~~(bs.foldl crcByte 0xFFFFFFFF)

/-- Header and payload of a flit. -/
def flitBody (f : List Byte) : List Byte := f.take 244

/-- Whether the CRC of a flit holds, after correction. -/
def flitOk (f : List Byte) : Bool := f.length = 256 && leNat ((f.drop 244).take 4) = (crc32 (flitBody f)).toNat

/-- Sequence number and cumulative acknowledgement of a header. -/
def flitSeq (f : List Byte) : BitVec 12 := BitVec.ofNat 12 (leNat (f.take 8))
def flitAck (f : List Byte) : BitVec 12 := BitVec.ofNat 12 (leNat (f.take 8) / 4096)

/-! ### Ports -/

def State.port (s : State) (p : Nat) : Port := (s.ports.find? fun x => x.p = p).getD (Port.reset p)

def State.modPort (s : State) (p : Nat) (f : Port → Port) : State :=
  { s with ports := s.ports.map fun x => if x.p = p then f x else x }

/-- The next lower rate. -/
def lowerRate (r : Nat) : Nat := if r = 224 then 168 else if r = 168 then 112 else 56

/-- The next higher rate. -/
def higherRate (r : Nat) : Nat := if r = 56 then 112 else if r = 112 then 168 else 224

/-- A LINK event on the owner's path. -/
def State.linkEv (s : State) (p reason : Nat) : State :=
  s.postOwner ⟨0x0F, reason, s.gsrc (16 + p), 0, EvBody.pack ⟨0, 0, 0, 0, 0, p + 32 * ((s.port p).rate / 8)⟩⟩

/-- Starts retraining at a rate. -/
def Port.retrain (x : Port) (rate now : Nat) : Port :=
  { x with st := .retraining, rate := rate, since := now, replays := [], lastReplay := none }

/-- Counts a replay: more than 8 in 1 ms, or the same flit four times, retrain the port at the next lower rate. -/
def Port.replay (x : Port) (q : BitVec 12) (now : Nat) : Port :=
  let rs := now :: x.replays.filter fun t => now < t + 1000000
  let n := match x.lastReplay with
    | some (r, k) => if r = q then k + 1 else 1
    | none => 1
  let y : Port := { x with replays := rs, lastReplay := some (q, n) }
  if 8 < rs.length || 4 ≤ n then y.retrain (lowerRate y.rate) now else y

/-- Flits that a cumulative acknowledgement covers: the buffer up to the one it names. -/
def ackedBy (a : BitVec 12) (l : List (BitVec 12 × Nat)) : List (BitVec 12 × Nat) :=
  if l.any fun e => e.1 = a then l.takeWhile (fun e => e.1 != a) ++ l.filter (fun e => e.1 = a) else []

/-- Takes an acknowledgement: the covered flits leave the replay buffer, their requests are no longer lost with the link. -/
def State.takeAck (s : State) (p : Nat) (a : BitVec 12) : State :=
  let done := ackedBy a (s.port p).sent
  { s.modPort p (fun x => { x with sent := x.sent.filter fun e => !done.contains e }) with
    reqs := s.reqs.map fun q => if q.port = p && done.any (fun e => e.2 = q.id) then { q with acked := true } else q }

/-- A sound flit: its acknowledgement counts, and in sequence its payload is delivered. -/
def State.takeFlit (s : State) (p : Nat) (f : List Byte) : State :=
  (s.takeAck p (flitAck f)).modPort p fun x =>
    if flitSeq f = x.rxSeq then { x with rxSeq := x.rxSeq + 1, delivered := x.delivered ++ [(f.take 244).drop 8] } else x

/-- FLIT_RECEIVE: a flit as it is after correction. -/
def execFlitReceive (port : Nat) (flit : List Byte) (s : State) : Out :=
  let x := s.port port
  .next (if x.st != .up then s
    else if flitOk flit then s.takeFlit port flit
    else s.modPort port fun x => x.replay x.rxSeq s.stamp.toNat)

/-- REPLAY_REQUEST: the flits from that one on are sent again in order; they stay in the replay buffer. -/
def execReplayRequest (port : Nat) (seq : BitVec 12) (s : State) : Out :=
  .next (if (s.port port).st != .up then s else s.modPort port fun x => x.replay seq s.stamp.toNat)

/-! ### Retraining, loss, restoration (R359, R468) -/

/-- Ends each request of a port whose flit had not been acknowledged with a NACK of reason LINK. -/
def State.nackLost (s : State) (p : Nat) : List PeerReq → State
  | [] => s
  | q :: r =>
    let e : Ev := ⟨0x09, 5, s.gsrc (16 + p), 0, EvBody.pack ⟨q.wa.toNat, 0, 0, 0, 0, s.pkg⟩⟩
    State.nackLost ((s.postOwner e).endReq q (.answer (.nack 5)) 0) p r

/-- The port is lost. -/
def State.losePort (s : State) (p : Nat) : State :=
  let u := s.unfocus
  if (u.port p).st = .lost then u
  else
    let lost := u.reqs.filter fun q => q.port = p && q.pkg < 512 && !q.acked
    let v := u.modPort p fun x => { x with st := .lost, since := u.stamp.toNat, sent := [], replays := [], lastReplay := none }
    (v.nackLost p lost).linkEv p 2

/-- LINK_RETRAIN_DONE: a success brings the port up; a failure at 56 GB/s, or past 100 us, loses it; any other goes on at the next lower rate. -/
def execLinkRetrainDone (port : Nat) (ok : Bool) (s : State) : Out :=
  let x := s.port port
  .next (if x.st != .retraining then s
    else if x.since + 100000 < s.stamp.toNat then s.losePort port
    else if ok then (s.modPort port fun x => { x with st := .up, since := s.stamp.toNat }).linkEv port 1
    else if x.rate = 56 then s.losePort port
    else s.modPort port fun x => { x with rate := lowerRate x.rate })

/-- LINK_RATE_RAISE: one step after 10 s without retraining. -/
def execLinkRateRaise (port : Nat) (s : State) : Out :=
  .next (s.modPort port fun x =>
    if x.st = .up && x.rate < 224 && x.since + 10000000000 ≤ s.stamp.toNat then
      { x with rate := higherRate x.rate, since := s.stamp.toNat }
    else x)

/-- LINK_LOSS: no flit has arrived for 10 ms, or a retraining has passed 100 us. -/
def execLinkLoss (port : Nat) (s : State) : Out := .next (s.losePort port)

/-- LINK_TRAIN_ATTEMPT: a lost port trains from 56 GB/s every 1 s. -/
def execLinkTrainAttempt (port : Nat) (ok : Bool) (s : State) : Out :=
  let x := s.port port
  .next (if x.st != .lost || s.stamp.toNat < x.since + 1000000000 then s
    else if ok then
      (s.modPort port fun x => { x with st := .up, rate := 56, rxSeq := 0, txSeq := 0, since := s.stamp.toNat }).linkEv port 3
    else s.modPort port fun x => { x with since := s.stamp.toNat })

end Sys2Proof.Machine
end

