-- ==== Sys2Proof/Machine/SoftErr.lean ====
section
/-! DEFINITION. Soft errors by structure, and the residue check of the matrix array (21 R460, R465 to R467). -/

namespace Sys2Proof.Machine

/-- Machine causes of camp scope (R460). -/
def cSCRECC : Nat := 0x22
def cACCECC : Nat := 0x23
def cSPLITECC : Nat := 0x24
def cRESIDUE : Nat := 0x25
def cTABLEECC : Nat := 0x27

/-- A SOFTERR event (R458): structure code, physical address, die; the Groundsheet counts as die 14 (log 30). -/
def State.softEv (s : State) (code addr die : Nat) : Ev := ⟨0x0E, code, s.gsrc srcMgmt, 0, EvBody.pack ⟨addr, 0, 0, 0, 0, die⟩⟩

/-- SOFTERR to the ring of a camp's leaf. -/
def State.softCamp (s : State) (c : Camp) (code : Nat) : State := s.post (s.launch c.ref.lid).path (s.softEv code 0 c.core.die)

/-- SOFTERR that names no region: on the owner's path. -/
def State.softOwner (s : State) (code addr die : Nat) : State := s.postOwner (s.softEv code addr die)

/-- A resident camp. -/
def State.liveCamp (s : State) (c : CampRef) : Option Camp := s.camps.find? fun k => k.ref = c && k.resident

/-- A camp with its lanes' state on a core or in a snapshot: an error in a snapshot entry kills the lane too (20 R448). -/
def State.heldCamp (s : State) (c : CampRef) : Option Camp :=
  s.camps.find? fun k => k.ref = c && match k.place with
    | .on _ | .packing _ | .image _ => true
    | .packed | .queued | .ended | .moved => false

/-- An error in the state of a resident camp: SOFTERR, and the camp fails. -/
def State.softFail (s : State) (c : CampRef) (code cause : Nat) : State :=
  match s.liveCamp c with
  | none => s
  | some k => (s.softCamp k code).failCamp c cause

/-- Poisons a line (R466). -/
def State.poisonLine (s : State) (ln : Nat) : State := { s with poison := ln :: s.poison.filter fun x => x != ln }

/-- An error in a table page: camps that run an ORIGIN 1 entry fail; an ORIGIN 0 entry is translated anew for a split that runs it (R460). -/
def State.tableError (s : State) (page : Nat) : State :=
  match s.pageOf page with
  | none => s
  | some (e, _) =>
    let rs : List SplitRef := s.cores.flatMap fun k => ([0, 1] : List (Fin 2)).flatMap fun b =>
      if (k.bank b).st = .valid && (k.bank b).key = some e.key then (s.splitsIn k.id b).map Prod.fst else []
    if e.key.origin then ((rs.map fun r => r.tr.camp).eraseDups).foldl (fun t c => t.failCamp c cTABLEECC) s
    else match rs.find? fun r => (s.split? r).any fun p => p.st = .ready with
      | none => s
      | some r => match s.focusOn r with
        | some f => (f.claimKey true).unfocus
        | none => s

/-- The treatment of an error at each site (R465), the lists being whole. -/
def State.softAt (s : State) (e : ErrSite) : State :=
  match e with
  | .lane t l => match s.heldCamp t.camp with
    | none => s
    | some k =>
      if (k.troops.find? fun u => u.mem = t.mem).any fun u => inMask u.live l then (s.softCamp k 0x01).laneDies t l 0x01 else s
  | .splitRec r => s.softFail r.tr.camp 0x02 cSPLITECC
  | .scratch c => s.softFail c 0x03 cSCRECC
  | .accStore c => s.softFail c 0x04 cACCECC
  | .resStore c num tile => match s.liveCamp c with
    | none => s
    | some k => (s.softCamp k 0x05).modCamp c fun k => { k with res := k.res.map fun r =>
        if r.num = num then { r with tiles := r.tiles.filter fun t => t.j != tile } else r }
  | .cacheLine k => s.softOwner 0x06 0 k.die
  | .swapBank k b =>
    (s.softOwner 0x07 0 k.die).modCore k fun c =>
      let x := c.bank b
      if x.st = .empty then c else c.setBank b { x with st := .invalid }
  | .dieCtl d => (s.softOwner 0x08 0 d).fenceDie d 0x28
  | .llc ln dirty =>
    let t := s.softOwner 0x09 (64 * ln) 14
    if dirty then t.poisonLine ln else t
  | .directory => s.softOwner 0x0A 0 14
  | .memLine ln => (s.softOwner 0x0B (64 * ln) 14).poisonLine ln
  | .tcCode page =>
    { s.softOwner 0x0C 0 14 with tcache := s.tcache.map fun x => if x.page = page then { x with badCode := true } else x }
  | .tcTable page => (s.softOwner 0x0C 0 14).tableError page
  | .saveArea c => match s.camps.find? fun k => k.ref = c with
    | none => s
    | some k => (s.softCamp k 0x0D).modCamp c fun k => { k with bad := true }
  | .corrected d code => s.modDie d fun x =>
    let n := ((x.corrected.find? fun q => q.1 = code).map Prod.snd).getD 0
    { x with corrected := setNum code (if n = 0xFFFF then n else n + 1) x.corrected }
  | .residue c second =>
    if second then
      match s.liveCamp c with
      | none => s
      | some k => (s.freed.softCamp k (s.free.toNat % 256)).failCamp c cRESIDUE
    else s

/-- SOFT_ERROR. -/
def execSoftError (e : ErrSite) (s : State) : Out := .next (s.unfocus.softAt e)

end Sys2Proof.Machine
end

