-- ==== Sys2Proof/Machine/Dispatch.lean ====
section
/-! DEFINITION. The meaning of every instruction and step of the opcode table, one arm each. -/

namespace Sys2Proof.Machine

def exec (i : Instr) (s : State) : Host.Outcome State Fault Refusal :=
  match i with
  | .br x1 => Sys2Proof.Machine.execBr x1 s
  | .cbr x1 x2 x3 => Sys2Proof.Machine.execCbr x1 x2 x3 s
  | .switch x1 x2 x3 x4 => Sys2Proof.Machine.execSwitch x1 x2 x3 x4 s
  | .brx x1 x2 => Sys2Proof.Machine.execBrx x1 x2 s
  | .call x1 x2 => Sys2Proof.Machine.execCall x1 x2 s
  | .ret x1 => Sys2Proof.Machine.execRet x1 s
  | .exit => Sys2Proof.Machine.execExit s
  | .trap x1 => Sys2Proof.Machine.execTrap x1 s
  | .brk => Sys2Proof.Machine.execBrk s
  | .const x1 x2 => Sys2Proof.Machine.execConst x1 x2 s
  | .constSymbol x1 x2 x3 => Sys2Proof.Machine.execConstSymbol x1 x2 x3 s
  | .add x1 x2 x3 => Sys2Proof.Machine.execAdd x1 x2 x3 s
  | .sub x1 x2 x3 => Sys2Proof.Machine.execSub x1 x2 x3 s
  | .mul x1 x2 x3 => Sys2Proof.Machine.execMul x1 x2 x3 s
  | .mulhi x1 x2 x3 => Sys2Proof.Machine.execMulhi x1 x2 x3 s
  | .mad x1 x2 x3 x4 => Sys2Proof.Machine.execMad x1 x2 x3 x4 s
  | .div x1 x2 x3 => Sys2Proof.Machine.execDiv x1 x2 x3 s
  | .rem x1 x2 x3 => Sys2Proof.Machine.execRem x1 x2 x3 s
  | .neg x1 x2 => Sys2Proof.Machine.execNeg x1 x2 s
  | .abs x1 x2 => Sys2Proof.Machine.execAbs x1 x2 s
  | .min x1 x2 x3 => Sys2Proof.Machine.execMin x1 x2 x3 s
  | .max x1 x2 x3 => Sys2Proof.Machine.execMax x1 x2 x3 s
  | .addsat x1 x2 x3 => Sys2Proof.Machine.execAddsat x1 x2 x3 s
  | .subsat x1 x2 x3 => Sys2Proof.Machine.execSubsat x1 x2 x3 s
  | .and x1 x2 x3 => Sys2Proof.Machine.execAnd x1 x2 x3 s
  | .or x1 x2 x3 => Sys2Proof.Machine.execOr x1 x2 x3 s
  | .xor x1 x2 x3 => Sys2Proof.Machine.execXor x1 x2 x3 s
  | .not x1 x2 => Sys2Proof.Machine.execNot x1 x2 s
  | .shl x1 x2 x3 => Sys2Proof.Machine.execShl x1 x2 x3 s
  | .shr x1 x2 x3 => Sys2Proof.Machine.execShr x1 x2 x3 s
  | .rotl x1 x2 x3 => Sys2Proof.Machine.execRotl x1 x2 x3 s
  | .popc x1 x2 => Sys2Proof.Machine.execPopc x1 x2 s
  | .clz x1 x2 => Sys2Proof.Machine.execClz x1 x2 s
  | .ctz x1 x2 => Sys2Proof.Machine.execCtz x1 x2 s
  | .brev x1 x2 => Sys2Proof.Machine.execBrev x1 x2 s
  | .bfx x1 x2 x3 x4 => Sys2Proof.Machine.execBfx x1 x2 x3 x4 s
  | .bfi x1 x2 x3 x4 x5 => Sys2Proof.Machine.execBfi x1 x2 x3 x4 x5 s
  | .cmp x1 x2 x3 x4 => Sys2Proof.Machine.execCmp x1 x2 x3 x4 s
  | .sel x1 x2 x3 x4 => Sys2Proof.Machine.execSel x1 x2 x3 x4 s
  | .fadd x1 x2 x3 x4 => Sys2Proof.Machine.execFadd x1 x2 x3 x4 s
  | .fsub x1 x2 x3 x4 => Sys2Proof.Machine.execFsub x1 x2 x3 x4 s
  | .fmul x1 x2 x3 x4 => Sys2Proof.Machine.execFmul x1 x2 x3 x4 s
  | .fma x1 x2 x3 x4 x5 => Sys2Proof.Machine.execFma x1 x2 x3 x4 x5 s
  | .fdiv x1 x2 x3 x4 => Sys2Proof.Machine.execFdiv x1 x2 x3 x4 s
  | .fsqrt x1 x2 x3 => Sys2Proof.Machine.execFsqrt x1 x2 x3 s
  | .frsq x1 x2 x3 => Sys2Proof.Machine.execFrsq x1 x2 x3 s
  | .frcp x1 x2 x3 => Sys2Proof.Machine.execFrcp x1 x2 x3 s
  | .fexp2 x1 x2 => Sys2Proof.Machine.execFexp2 x1 x2 s
  | .flog2 x1 x2 => Sys2Proof.Machine.execFlog2 x1 x2 s
  | .fsin x1 x2 => Sys2Proof.Machine.execFsin x1 x2 s
  | .fcos x1 x2 => Sys2Proof.Machine.execFcos x1 x2 s
  | .ftanh x1 x2 => Sys2Proof.Machine.execFtanh x1 x2 s
  | .fmin x1 x2 x3 => Sys2Proof.Machine.execFmin x1 x2 x3 s
  | .fmax x1 x2 x3 => Sys2Proof.Machine.execFmax x1 x2 x3 s
  | .fabs x1 x2 => Sys2Proof.Machine.execFabs x1 x2 s
  | .fneg x1 x2 => Sys2Proof.Machine.execFneg x1 x2 s
  | .fcmp x1 x2 x3 x4 => Sys2Proof.Machine.execFcmp x1 x2 x3 x4 s
  | .fclass x1 x2 => Sys2Proof.Machine.execFclass x1 x2 s
  | .fround x1 x2 x3 => Sys2Proof.Machine.execFround x1 x2 x3 s
  | .fcopysign x1 x2 x3 => Sys2Proof.Machine.execFcopysign x1 x2 x3 s
  | .cvt x1 x2 x3 x4 => Sys2Proof.Machine.execCvt x1 x2 x3 x4 s
  | .bitcast x1 x2 => Sys2Proof.Machine.execBitcast x1 x2 s
  | .pack x1 x2 x3 => Sys2Proof.Machine.execPack x1 x2 x3 s
  | .unpack x1 x2 => Sys2Proof.Machine.execUnpack x1 x2 s
  | .dxbPackElem x1 x2 => Sys2Proof.Machine.execDxbPackElem x1 x2 s
  | .dxbPackScale x1 x2 x3 x4 => Sys2Proof.Machine.execDxbPackScale x1 x2 x3 x4 s
  | .dxbUnpack x1 x2 x3 x4 x5 => Sys2Proof.Machine.execDxbUnpack x1 x2 x3 x4 x5 s
  | .shfl x1 x2 x3 x4 x5 => Sys2Proof.Machine.execShfl x1 x2 x3 x4 x5 s
  | .vote x1 x2 => Sys2Proof.Machine.execVote x1 x2 s
  | .ballot x1 x2 => Sys2Proof.Machine.execBallot x1 x2 s
  | .redux x1 x2 x3 x4 => Sys2Proof.Machine.execRedux x1 x2 x3 x4 s
  | .scan x1 x2 x3 x4 x5 => Sys2Proof.Machine.execScan x1 x2 x3 x4 x5 s
  | .rand x1 x2 => Sys2Proof.Machine.execRand x1 x2 s
  | .ld x1 x2 => Sys2Proof.Machine.execLd x1 x2 s
  | .st x1 x2 x3 => Sys2Proof.Machine.execSt x1 x2 x3 s
  | .ldv x1 x2 x3 => Sys2Proof.Machine.execLdv x1 x2 x3 s
  | .stv x1 x2 x3 x4 => Sys2Proof.Machine.execStv x1 x2 x3 x4 s
  | .atom x1 x2 x3 x4 x5 => Sys2Proof.Machine.execAtom x1 x2 x3 x4 x5 s
  | .fence x1 x2 => Sys2Proof.Machine.execFence x1 x2 s
  | .prefetch x1 x2 => Sys2Proof.Machine.execPrefetch x1 x2 s
  | .tier x1 x2 x3 => Sys2Proof.Machine.execTier x1 x2 x3 s
  | .barInit x1 x2 x3 => Sys2Proof.Machine.execBarInit x1 x2 x3 s
  | .barArrive x1 x2 => Sys2Proof.Machine.execBarArrive x1 x2 s
  | .barWait x1 x2 => Sys2Proof.Machine.execBarWait x1 x2 s
  | .barTry x1 x2 => Sys2Proof.Machine.execBarTry x1 x2 s
  | .barSync x1 x2 => Sys2Proof.Machine.execBarSync x1 x2 s
  | .stepSync x1 x2 => Sys2Proof.Machine.execStepSync x1 x2 s
  | .copy x1 x2 x3 x4 x5 x6 x7 x8 => Sys2Proof.Machine.execCopy x1 x2 x3 x4 x5 x6 x7 x8 s
  | .tcopy x1 x2 x3 x4 x5 x6 x7 x8 x9 => Sys2Proof.Machine.execTcopy x1 x2 x3 x4 x5 x6 x7 x8 x9 s
  | .copyRemote x1 x2 x3 x4 x5 x6 x7 x8 x9 => Sys2Proof.Machine.execCopyRemote x1 x2 x3 x4 x5 x6 x7 x8 x9 s
  | .accInit x1 x2 x3 => Sys2Proof.Machine.execAccInit x1 x2 x3 s
  | .mma x1 x2 x3 x4 x5 x6 => Sys2Proof.Machine.execMma x1 x2 x3 x4 x5 x6 s
  | .mmaRes x1 x2 x3 x4 x5 x6 x7 => Sys2Proof.Machine.execMmaRes x1 x2 x3 x4 x5 x6 x7 s
  | .accNorm x1 => Sys2Proof.Machine.execAccNorm x1 s
  | .accRd x1 x2 x3 x4 x5 => Sys2Proof.Machine.execAccRd x1 x2 x3 x4 x5 s
  | .accRdWord x1 x2 x3 x4 => Sys2Proof.Machine.execAccRdWord x1 x2 x3 x4 s
  | .accWr x1 x2 x3 x4 x5 x6 => Sys2Proof.Machine.execAccWr x1 x2 x3 x4 x5 x6 s
  | .accWrWord x1 x2 x3 x4 x5 => Sys2Proof.Machine.execAccWrWord x1 x2 x3 x4 x5 s
  | .ropeForm x1 => Sys2Proof.Machine.execRopeForm x1 s
  | .ropeFree => Sys2Proof.Machine.execRopeFree s
  | .resPitch x1 x2 x3 x4 x5 x6 x7 => Sys2Proof.Machine.execResPitch x1 x2 x3 x4 x5 x6 x7 s
  | .resPitchAttach x1 => Sys2Proof.Machine.execResPitchAttach x1 s
  | .resPitchRefill x1 => Sys2Proof.Machine.execResPitchRefill x1 s
  | .resStrike x1 x2 => Sys2Proof.Machine.execResStrike x1 x2 s
  | .resPin x1 x2 => Sys2Proof.Machine.execResPin x1 x2 s
  | .resUnpin x1 x2 => Sys2Proof.Machine.execResUnpin x1 x2 s
  | .resQuery x1 x2 => Sys2Proof.Machine.execResQuery x1 x2 s
  | .sloop x1 x2 x3 x4 => Sys2Proof.Machine.execSloop x1 x2 x3 x4 s
  | .sget x1 x2 => Sys2Proof.Machine.execSget x1 x2 s
  | .sput x1 x2 x3 => Sys2Proof.Machine.execSput x1 x2 x3 s
  | .sloopEnd x1 => Sys2Proof.Machine.execSloopEnd x1 s
  | .sysRd x1 => Sys2Proof.Machine.execSysRd x1 s
  | .sysWrXstat x1 => Sys2Proof.Machine.execSysWrXstat x1 s
  | .sysWrStubv x1 => Sys2Proof.Machine.execSysWrStubv x1 s
  | .stamp => Sys2Proof.Machine.execStamp s
  | .stampSc => Sys2Proof.Machine.execStampSc s
  | .yield => Sys2Proof.Machine.execYield s
  | .xretRetry => Sys2Proof.Machine.execXretRetry s
  | .xretNext => Sys2Proof.Machine.execXretNext s
  | .tlbInv x1 x2 x3 => Sys2Proof.Machine.execTlbInv x1 x2 x3 s
  | .opReq x1 => Sys2Proof.Machine.execOpReq x1 s
  | .header x1 => Sys2Proof.Machine.execHeader x1 s
  | .natIadd x1 => Sys2Proof.Machine.execNatIadd x1 s
  | .natIsub x1 => Sys2Proof.Machine.execNatIsub x1 s
  | .natImul x1 => Sys2Proof.Machine.execNatImul x1 s
  | .natImad x1 => Sys2Proof.Machine.execNatImad x1 s
  | .natAnd x1 => Sys2Proof.Machine.execNatAnd x1 s
  | .natOr x1 => Sys2Proof.Machine.execNatOr x1 s
  | .natXor x1 => Sys2Proof.Machine.execNatXor x1 s
  | .natShl x1 => Sys2Proof.Machine.execNatShl x1 s
  | .natShr x1 => Sys2Proof.Machine.execNatShr x1 s
  | .natSar x1 => Sys2Proof.Machine.execNatSar x1 s
  | .natMin x1 => Sys2Proof.Machine.execNatMin x1 s
  | .natMax x1 => Sys2Proof.Machine.execNatMax x1 s
  | .natSel x1 => Sys2Proof.Machine.execNatSel x1 s
  | .natIcmp x1 => Sys2Proof.Machine.execNatIcmp x1 s
  | .natFadd x1 => Sys2Proof.Machine.execNatFadd x1 s
  | .natFmul x1 => Sys2Proof.Machine.execNatFmul x1 s
  | .natFma x1 => Sys2Proof.Machine.execNatFma x1 s
  | .natFmad x1 => Sys2Proof.Machine.execNatFmad x1 s
  | .natFcmp x1 => Sys2Proof.Machine.execNatFcmp x1 s
  | .natFmin x1 => Sys2Proof.Machine.execNatFmin x1 s
  | .natFmax x1 => Sys2Proof.Machine.execNatFmax x1 s
  | .natCvt x1 => Sys2Proof.Machine.execNatCvt x1 s
  | .natMov x1 => Sys2Proof.Machine.execNatMov x1 s
  | .natMovi x1 => Sys2Proof.Machine.execNatMovi x1 s
  | .natSfu x1 => Sys2Proof.Machine.execNatSfu x1 s
  | .natLane x1 => Sys2Proof.Machine.execNatLane x1 s
  | .natLds x1 => Sys2Proof.Machine.execNatLds x1 s
  | .natSts x1 => Sys2Proof.Machine.execNatSts x1 s
  | .natLdg x1 => Sys2Proof.Machine.execNatLdg x1 s
  | .natStg x1 => Sys2Proof.Machine.execNatStg x1 s
  | .natAtg x1 => Sys2Proof.Machine.execNatAtg x1 s
  | .natLdp x1 => Sys2Proof.Machine.execNatLdp x1 s
  | .natStp x1 => Sys2Proof.Machine.execNatStp x1 s
  | .natPrf x1 => Sys2Proof.Machine.execNatPrf x1 s
  | .natFnc x1 => Sys2Proof.Machine.execNatFnc x1 s
  | .natMma x1 => Sys2Proof.Machine.execNatMma x1 s
  | .natMmar x1 => Sys2Proof.Machine.execNatMmar x1 s
  | .natAccn x1 => Sys2Proof.Machine.execNatAccn x1 s
  | .natTcopy x1 => Sys2Proof.Machine.execNatTcopy x1 s
  | .natCopy x1 => Sys2Proof.Machine.execNatCopy x1 s
  | .ovl x1 => Sys2Proof.Machine.execOvl x1 s
  | .natRpitch x1 => Sys2Proof.Machine.execNatRpitch x1 s
  | .natRstrike x1 => Sys2Proof.Machine.execNatRstrike x1 s
  | .natAcci x1 => Sys2Proof.Machine.execNatAcci x1 s
  | .natBr x1 => Sys2Proof.Machine.execNatBr x1 s
  | .natBrc x1 => Sys2Proof.Machine.execNatBrc x1 s
  | .brsw x1 => Sys2Proof.Machine.execBrsw x1 s
  | .natCall x1 => Sys2Proof.Machine.execNatCall x1 s
  | .natRet x1 => Sys2Proof.Machine.execNatRet x1 s
  | .ifence x1 => Sys2Proof.Machine.execIfence x1 s
  | .join x1 => Sys2Proof.Machine.execJoin x1 s
  | .natExit x1 => Sys2Proof.Machine.execNatExit x1 s
  | .natTrap x1 => Sys2Proof.Machine.execNatTrap x1 s
  | .bwait x1 => Sys2Proof.Machine.execBwait x1 s
  | .barr x1 => Sys2Proof.Machine.execBarr x1 s
  | .srd x1 => Sys2Proof.Machine.execSrd x1 s
  | .natYield x1 => Sys2Proof.Machine.execNatYield x1 s
  | .point x1 => Sys2Proof.Machine.execPoint x1 s
  | .sadd x1 => Sys2Proof.Machine.execSadd x1 s
  | .smov x1 => Sys2Proof.Machine.execSmov x1 s
  | .scmp x1 => Sys2Proof.Machine.execScmp x1 s
  | .prd x1 => Sys2Proof.Machine.execPrd x1 s
  | .pwr x1 => Sys2Proof.Machine.execPwr x1 s
  | .prdPwr x1 => Sys2Proof.Machine.execPrdPwr x1 s
  | .reservedCommand x1 => Sys2Proof.Machine.execReservedCommand x1 s
  | .moduleLoad x1 => Sys2Proof.Machine.execModuleLoad x1 s
  | .moduleUnload x1 => Sys2Proof.Machine.execModuleUnload x1 s
  | .queueWrite x1 => Sys2Proof.Machine.execQueueWrite x1 s
  | .queueRead x1 => Sys2Proof.Machine.execQueueRead x1 s
  | .tenantBind x1 => Sys2Proof.Machine.execTenantBind x1 s
  | .tenantUnbind x1 => Sys2Proof.Machine.execTenantUnbind x1 s
  | .regionSuspend x1 => Sys2Proof.Machine.execRegionSuspend x1 s
  | .regionResume x1 => Sys2Proof.Machine.execRegionResume x1 s
  | .packRequest x1 => Sys2Proof.Machine.execPackRequest x1 s
  | .setRunLimit x1 => Sys2Proof.Machine.execSetRunLimit x1 s
  | .setHold x1 => Sys2Proof.Machine.execSetHold x1 s
  | .exportWrite x1 => Sys2Proof.Machine.execExportWrite x1 s
  | .setPackageNumber x1 => Sys2Proof.Machine.execSetPackageNumber x1 s
  | .keyInstall x1 => Sys2Proof.Machine.execKeyInstall x1 s
  | .routeWrite x1 => Sys2Proof.Machine.execRouteWrite x1 s
  | .setPeerTimeout x1 => Sys2Proof.Machine.execSetPeerTimeout x1 s
  | .setPoolSize x1 => Sys2Proof.Machine.execSetPoolSize x1 s
  | .supervisorKey x1 => Sys2Proof.Machine.execSupervisorKey x1 s
  | .domainAlign x1 => Sys2Proof.Machine.execDomainAlign x1 s
  | .setTier x1 => Sys2Proof.Machine.execSetTier x1 s
  | .subscribe x1 => Sys2Proof.Machine.execSubscribe x1 s
  | .rackCap x1 => Sys2Proof.Machine.execRackCap x1 s
  | .emberEnter x1 => Sys2Proof.Machine.execEmberEnter x1 s
  | .emberExit x1 => Sys2Proof.Machine.execEmberExit x1 s
  | .attest x1 => Sys2Proof.Machine.execAttest x1 s
  | .debugChallenge x1 => Sys2Proof.Machine.execDebugChallenge x1 s
  | .debugToken x1 => Sys2Proof.Machine.execDebugToken x1 s
  | .attach x1 => Sys2Proof.Machine.execAttach x1 s
  | .detach x1 => Sys2Proof.Machine.execDetach x1 s
  | .stop x1 => Sys2Proof.Machine.execStop x1 s
  | .resume x1 => Sys2Proof.Machine.execResume x1 s
  | .step x1 => Sys2Proof.Machine.execStep x1 s
  | .bkptSet x1 => Sys2Proof.Machine.execBkptSet x1 s
  | .bkptClear x1 => Sys2Proof.Machine.execBkptClear x1 s
  | .toPoint x1 => Sys2Proof.Machine.execToPoint x1 s
  | .read x1 => Sys2Proof.Machine.execRead x1 s
  | .write x1 => Sys2Proof.Machine.execWrite x1 s
  | .splits x1 => Sys2Proof.Machine.execSplits x1 s
  | .poolAdd x1 => Sys2Proof.Machine.execPoolAdd x1 s
  | .poolDeny x1 => Sys2Proof.Machine.execPoolDeny x1 s
  | .unfence x1 => Sys2Proof.Machine.execUnfence x1 s
  | .finjWrite x1 => Sys2Proof.Machine.execFinjWrite x1 s
  | .finjRead x1 => Sys2Proof.Machine.execFinjRead x1 s
  | .errorCounts x1 => Sys2Proof.Machine.execErrorCounts x1 s
  | .reservedMap x1 => Sys2Proof.Machine.execReservedMap x1 s
  | .fencecmd x1 => Sys2Proof.Machine.execFencecmd x1 s
  | .resultLanding x1 => Sys2Proof.Machine.execResultLanding x1 s
  | .loadResponse x1 x2 x3 => Sys2Proof.Machine.execLoadResponse x1 x2 x3 s
  | .matrixRowLanding x1 => Sys2Proof.Machine.execMatrixRowLanding x1 s
  | .storeCommit x1 => Sys2Proof.Machine.execStoreCommit x1 s
  | .granuleLanding x1 x2 x3 => Sys2Proof.Machine.execGranuleLanding x1 x2 x3 s
  | .barrierWaitEnd x1 => Sys2Proof.Machine.execBarrierWaitEnd x1 s
  | .rendezvousMatch x1 x2 => Sys2Proof.Machine.execRendezvousMatch x1 x2 s
  | .ropeFormed x1 x2 => Sys2Proof.Machine.execRopeFormed x1 x2 s
  | .commandComplete x1 x2 => Sys2Proof.Machine.execCommandComplete x1 x2 s
  | .residencyTileFill x1 x2 x3 => Sys2Proof.Machine.execResidencyTileFill x1 x2 x3 s
  | .agingStep x1 => Sys2Proof.Machine.execAgingStep x1 s
  | .troopEnd x1 => Sys2Proof.Machine.execTroopEnd x1 s
  | .launchCompletion x1 => Sys2Proof.Machine.execLaunchCompletion x1 s
  | .notify x1 x2 x3 => Sys2Proof.Machine.execNotify x1 x2 x3 s
  | .recordAdmission x1 => Sys2Proof.Machine.execRecordAdmission x1 s
  | .waitFlagReload x1 => Sys2Proof.Machine.execWaitFlagReload x1 s
  | .campTakeoff x1 => Sys2Proof.Machine.execCampTakeoff x1 s
  | .packComplete x1 => Sys2Proof.Machine.execPackComplete x1 s
  | .translationRequest x1 => Sys2Proof.Machine.execTranslationRequest x1 s
  | .translate x1 => Sys2Proof.Machine.execTranslate x1 s
  | .translationSwitch x1 => Sys2Proof.Machine.execTranslationSwitch x1 s
  | .stubService x1 => Sys2Proof.Machine.execStubService x1 s
  | .overlayComplete x1 x2 => Sys2Proof.Machine.execOverlayComplete x1 x2 s
  | .trapEntry x1 => Sys2Proof.Machine.execTrapEntry x1 s
  | .campPlacement x1 x2 x3 => Sys2Proof.Machine.execCampPlacement x1 x2 x3 s
  | .periodBoundary => Sys2Proof.Machine.execPeriodBoundary s
  | .nativeImageRestore x1 x2 => Sys2Proof.Machine.execNativeImageRestore x1 x2 s
  | .packRestore x1 x2 x3 => Sys2Proof.Machine.execPackRestore x1 x2 x3 s
  | .softError x1 => Sys2Proof.Machine.execSoftError x1 s
  | .thermal x1 => Sys2Proof.Machine.execThermal x1 s
  | .hang x1 => Sys2Proof.Machine.execHang x1 s
  | .migration x1 x2 x3 => Sys2Proof.Machine.execMigration x1 x2 x3 s
  | .migrationDone x1 => Sys2Proof.Machine.execMigrationDone x1 s
  | .placewait x1 => Sys2Proof.Machine.execPlacewait x1 s
  | .shed x1 => Sys2Proof.Machine.execShed x1 s
  | .opRelockEnd x1 => Sys2Proof.Machine.execOpRelockEnd x1 s
  | .opMoveComplete x1 => Sys2Proof.Machine.execOpMoveComplete x1 s
  | .opceilUpdate x1 x2 => Sys2Proof.Machine.execOpceilUpdate x1 x2 s
  | .chargeWindow x1 => Sys2Proof.Machine.execChargeWindow x1 s
  | .subscriptionSample x1 x2 x3 => Sys2Proof.Machine.execSubscriptionSample x1 x2 x3 s
  | .coreGate x1 => Sys2Proof.Machine.execCoreGate x1 s
  | .corePowerOffDone x1 => Sys2Proof.Machine.execCorePowerOffDone x1 s
  | .arbiterRound x1 => Sys2Proof.Machine.execArbiterRound x1 s
  | .leaseExpiry => Sys2Proof.Machine.execLeaseExpiry s
  | .clm x1 => Sys2Proof.Machine.execClm x1 s
  | .rls x1 => Sys2Proof.Machine.execRls x1 s
  | .hoff x1 => Sys2Proof.Machine.execHoff x1 s
  | .acpt x1 => Sys2Proof.Machine.execAcpt x1 s
  | .handoverLapse => Sys2Proof.Machine.execHandoverLapse s
  | .ownerVacate => Sys2Proof.Machine.execOwnerVacate s
  | .crcfg x1 x2 => Sys2Proof.Machine.execCrcfg x1 x2 s
  | .crdb x1 x2 => Sys2Proof.Machine.execCrdb x1 x2 s
  | .registerWrite x1 x2 x3 => Sys2Proof.Machine.execRegisterWrite x1 x2 x3 s
  | .hostAccess x1 x2 x3 x4 x5 => Sys2Proof.Machine.execHostAccess x1 x2 x3 x4 x5 s
  | .inboundPeerAccess x1 x2 x3 x4 x5 => Sys2Proof.Machine.execInboundPeerAccess x1 x2 x3 x4 x5 s
  | .inboundLanding x1 x2 x3 x4 x5 => Sys2Proof.Machine.execInboundLanding x1 x2 x3 x4 x5 s
  | .peerResponse x1 x2 x3 => Sys2Proof.Machine.execPeerResponse x1 x2 x3 s
  | .peerTimeout x1 => Sys2Proof.Machine.execPeerTimeout x1 s
  | .flitReceive x1 x2 => Sys2Proof.Machine.execFlitReceive x1 x2 s
  | .replayRequest x1 x2 => Sys2Proof.Machine.execReplayRequest x1 x2 s
  | .linkRetrainDone x1 x2 => Sys2Proof.Machine.execLinkRetrainDone x1 x2 s
  | .linkRateRaise x1 => Sys2Proof.Machine.execLinkRateRaise x1 s
  | .linkLoss x1 => Sys2Proof.Machine.execLinkLoss x1 s
  | .linkTrainAttempt x1 x2 => Sys2Proof.Machine.execLinkTrainAttempt x1 x2 s
  | .guylineLinkLoss x1 => Sys2Proof.Machine.execGuylineLinkLoss x1 s
  | .packageReset x1 => Sys2Proof.Machine.execPackageReset x1 s
  | .brownOut => Sys2Proof.Machine.execBrownOut s
  | .powerGood => Sys2Proof.Machine.execPowerGood s
  | .supplyLoss x1 => Sys2Proof.Machine.execSupplyLoss x1 s
  | .relock x1 => Sys2Proof.Machine.execRelock x1 s
  | .hostMemoryTimeout x1 => Sys2Proof.Machine.execHostMemoryTimeout x1 s

end Sys2Proof.Machine
end

