-- ==== Sys2Proof/Machine/Issue.lean ====
section
/-! DEFINITION. What the machine does next: the agenda, the bundle in progress, the inputs, the steps it takes by itself, the command rings, and the choice of a split to issue (13 R327, 14 R355, 18 R404, R413; log 3, log 4). -/

namespace Sys2Proof.Machine

/-- Runs an agenda entry. -/
def runMicro (m : Micro) (s : State) : Out :=
  match m with
  | .resultLanding r => execResultLanding r s
  | .loadResponse r q i => execLoadResponse r q i s
  | .matrixRowLanding r => execMatrixRowLanding r s
  | .storeCommit n => execStoreCommit n s
  | .granuleLanding c x g => execGranuleLanding c x g s
  | .barrierWaitEnd r => execBarrierWaitEnd r s
  | .rendezvousMatch c r => execRendezvousMatch c r s
  | .ropeFormed c m => execRopeFormed c m s
  | .commandComplete c x => execCommandComplete c x s
  | .residencyTileFill c n j => execResidencyTileFill c n j s
  | .agingStep k => execAgingStep k s
  | .troopEnd t => execTroopEnd t s
  | .launchCompletion l => execLaunchCompletion l s
  | .notify m q v => execNotify m q v s
  | .recordAdmission q => execRecordAdmission q s
  | .campTakeoff c => execCampTakeoff c s
  | .packComplete c => execPackComplete c s
  | .translationRequest r => execTranslationRequest r s
  | .translate n => execTranslate n s
  | .translationSwitch r => execTranslationSwitch r s
  | .stubService r => execStubService r s
  | .overlayComplete k b => execOverlayComplete k b s
  | .trapEntry r => execTrapEntry r s

/-- What the next step is: an agenda entry, an instruction or step in its state, or a state that the machine reaches by itself. -/
inductive Pick where
  | micro (m : Micro) (s : State)
  | run (i : Instr) (s : State)
  | quiet (s : State)

/-- The state an outcome gives, when it differs from the one before. -/
def gain (s : State) (o : Out) : Option State :=
  match o with
  | .next t => if t = s then none else some t
  | _ => none

/-! ### Steps that the machine takes by itself -/

/-- The first entry of a split's queues whose values have all returned, as queue and position. -/
def firstComplete : List (Nat × QEnt) → List Nat → Option (Nat × Nat)
  | [], _ => none
  | (q, e) :: r, seen => if e.complete then some (q, (seen.filter fun x => x = q).length) else firstComplete r (q :: seen)

/-- A step that is due for one split. -/
def State.dueSplit (s : State) (r : SplitRef) (p : Split) : Option Micro :=
  match firstComplete p.lq [] with
  | some (q, i) => some (.loadResponse r (Fin.ofNat 8 q) i)
  | none => if p.mp.any MPend.ready then some (.matrixRowLanding r) else match p.st with
    | .trap _ =>
      if !(p.mp.isEmpty && p.pw.isEmpty) then some (.matrixRowLanding r)
      else if (s.focusOn r).any State.trapDue then some (.trapEntry r) else none
    | .barrier _ _ => if (s.focusOn r).any State.waitOver then some (.barrierWaitEnd r) else none
    | _ => none

/-- A step that is due for a camp's commands and residencies. -/
def State.dueEngine (s : State) (c : Camp) : Option Micro :=
  (c.cmds.findSome? fun (x : CopyCmd) =>
    match (List.range x.gran).find? fun g => s.granFree c x g with
    | some g => some (.granuleLanding c.ref x.id g)
    | none => if s.cmdDone c x then some (.commandComplete c.ref x.id) else none) <|>
  c.res.findSome? fun (r : Res) => r.todo.head?.map fun j => .residencyTileFill c.ref r.num j

/-- A step that is due for a resident camp, or for one that has ended. -/
def State.dueCamp (s : State) (c : Camp) : Option Micro :=
  if !c.resident then none
  else
    (c.troops.findSome? fun t => t.splits.findSome? fun p => s.dueSplit ⟨⟨c.ref, t.mem⟩, p.sid⟩ p) <|>
    s.dueEngine c <|>
    (match c.place with
      | .packing _ => if s.packable c then some (.packComplete c.ref) else none
      | _ => none) <|>
    (if s.campDone c then some (.troopEnd ⟨c.ref, (c.troops.head?.map Troop.mem).getD 0⟩) else none)

/-- The oldest overlay command of a core. -/
def Core.dueOverlay (c : Core) : Option Micro :=
  if !c.b0.ovl.isEmpty then some (.overlayComplete c.id 0)
  else if !c.b1.ovl.isEmpty then some (.overlayComplete c.id 1)
  else if 64 ≤ c.sinceAge then some (.agingStep c.id)
  else none

/-- A parked split that the stub can serve: first one whose region is in a bank. -/
def State.dueStub (s : State) : Option Micro :=
  let rs : List SplitRef := s.camps.flatMap fun c =>
    if c.resident then c.troops.flatMap fun t => (t.splits.filter fun p => p.st = .parked).map fun p => ⟨⟨c.ref, t.mem⟩, p.sid⟩
    else []
  let here (r : SplitRef) : Bool := (s.focusOn r).any fun f => ((f.coreOf f.cp.core).bankOf f.spKey f.sp.mh).isSome
  ((rs.find? here) <|> rs.find? fun r => (s.focusOn r).any State.servable).map .stubService

/-- The agenda entries that are due, in the order in which they are tried. -/
def State.dueMicro (s : State) : Option Micro :=
  (s.camps.findSome? s.dueCamp) <|>
  (s.cores.findSome? Core.dueOverlay) <|>
  (if s.stores.isEmpty then none else some (.storeCommit 0)) <|>
  s.dueStub <|>
  ((s.launches.find? s.completable).map fun l => .launchCompletion l.lid) <|>
  (if s.ember = .running then (s.queues.find? Queue.ready).map fun q => .recordAdmission q.q else none)


/-- The scheduler's next step for a waiting camp (13 R325, R326). -/
def State.placeStep (s : State) (c : Camp) : Option State :=
  if !s.waiting c then none
  else
    let k := ((s.choice c).map Prod.fst).getD (coreNum 0)
    match c.place with
    | .queued =>
      let n := if (s.choice c).isSome then (s.launch c.ref.lid).scratch else 0
      let m := (s.placedWith c).length
      (gain s (execCampPlacement c.ref k (s.freeScratch m n) s)).map fun t => { t with freeCnt := s.freeCnt + m * n }
    | .image _ => gain s (execNativeImageRestore c.ref k s)
    | .packed => gain s (execPackRestore c.ref k none s)
    | _ => none

/-- The next step that the machine takes by itself, its lists whole. -/
def State.selfStep (s : State) : Option State :=
  s.emberStep <|>
  (s.dueMicro.bind fun m => gain s (runMicro m s)) <|>
  (s.claims.findSome? fun (c : Claim) => gain s (execTranslate c.n s)) <|>
  s.camps.findSome? s.placeStep

/-! ### The command rings (14 R355) -/

/-- The command at the head of a master's ring. -/
def State.ringHead (s : State) (m : Nat) : Instr :=
  let x := s.master m
  decodeCommand m (memBytes s.mem (hostPhys (x.crbase.toNat + 64 * (x.crhead.toNat % 2 ^ x.clog2))) 64)

/-- Whether a value that a debugger reads is in an entry of a load-return queue that has not landed (10 R254). -/
def State.unlanded (s : State) (v : Nat) : Bool :=
  match s.holding v with
  | some (.loc (.queue n q) _) => (s.sp.entry n q).any fun e => !e.landed
  | _ => false

/-- Whether a ring waits: its next command is a READ of a value that is still to land. -/
def State.ringWaits (s : State) (m : Nat) : Bool :=
  match s.ringHead m with
  | .read c => ((s.splitLast c.master c.a0.toNat).bind s.focusOn).any fun f => f.unlanded c.a1.toNat
  | _ => false

/-- The next command of the first doorbell whose ring is processed and does not wait. -/
def State.command (s : State) : Option Pick :=
  match s.bells.find? fun b => (s.master b.1).en && (s.master b.1).link &&
      ((s.master b.1).crhead = b.2 || !s.ringWaits b.1) with
  | none => none
  | some b =>
    let x := s.master b.1
    if x.crhead = b.2 then some (.quiet { s with bells := s.bells.erase b })
    else
      some (.run (s.ringHead b.1) (s.modMaster b.1 fun x => { x with crhead := x.crhead + 1 }))

/-! ### Choice of a split (13 R327) -/

/-- Whether a core can issue (13 R327, 14 R342, R349). -/
def Core.issues? (c : Core) : Bool := c.pow = .up && c.move.all fun m => !m.relocking || m.relocked


/-- Whether a split of a camp that runs to its points still has to (13 R330, 20 R449). -/
def State.runsOn (s : State) (r : SplitRef) (p : Split) : Bool :=
  p.st = .ready && p.mask != 0 && (p.ready || s.ember = .entering) && (s.focusOn r).any fun f => !f.standing

/-- A camp of a COHORT launch issues only while all its camps are resident (02 R48). -/
def State.together (s : State) (c : Camp) : Bool :=
  !(s.launch c.ref.lid).cohort || (s.camps.all fun x => x.ref.lid != c.ref.lid || x.resident || x.place = .ended || x.place = .moved)

/-- The header at the focused split's native position. -/
def State.header (s : State) : Option Hdr :=
  match s.sp.nat, s.natBank with
  | some p, some b => decodeHeader (b.word p.off)
  | _, _ => none

/-- Whether a bundle waits before it issues for what no answer to the split ends: a latch whose queue is empty, a full queue, a bank that loads (11 R272, R284). -/
def State.bundleWaits (s : State) (h : Hdr) (ss : List NSlot) : Bool :=
  ((heads h ss).any fun q => (s.sp.head q).isNone) || !s.room ss ||
  (s.otherLoading && ss.any fun k => match k.op with
    | .ifence _ => true
    | _ => false)

/-- Whether the next bundle of the focused split cannot issue yet (R327). -/
def State.stalled (s : State) : Bool :=
  match s.sp.nat, s.natBank, s.header with
  | some p, some b, some h =>
    if p.due then p.pend.any s.bankWait
    else match b.bundle s.cp.core.die p.off h with
      | some ss => s.okBundle ss && s.bundleWaits h ss
      | none => false
  | _, _, _ => false

/-- A split that may issue, with what the keys look at. -/
structure Cand where
  ref : SplitRef
  aged : Bool
  rank : Nat
  wait : Nat
  ctx : Nat
  entry : Nat
  deriving DecidableEq, Repr

/-- Whether a native split's next bundle cannot issue. -/
def State.stalls (s : State) (r : SplitRef) (p : Split) : Bool := p.nat.isSome && (s.focusOn r).any State.stalled

/-- The candidates of a core; a split whose record is in reserved memory is none (02 R34). -/
def State.candidates (s : State) (k : CoreId) : List Cand :=
  s.camps.flatMap fun c =>
    if c.issuesOn k && s.together c then
      let packing := c.place = .packing k
      c.troops.flatMap fun t => t.splits.filterMap fun p =>
        let r : SplitRef := ⟨⟨c.ref, t.mem⟩, p.sid⟩
        match p.seat with
        | .entry n =>
          if (if packing then s.runsOn r p else p.ready) && !s.stalls r p then
            some ⟨r, p.aged, s.rank (s.launch c.ref.lid), (s.coreOf k).issues - p.issued, t.ctx, n⟩
          else none
        | _ => none
    else []

/-- The splits of a core that are not ready at an issue will not age at its next aging step (R327). -/
def State.noteWaits (s : State) (k : CoreId) : State :=
  s.mapOn k fun r p => { p with waited := p.waited || !p.ready || s.stalls r p }

/-- Charge of what a split issues next: its bundle's, or one for each lane (14 R345; log 7). -/
def State.nextCharge (s : State) (r : SplitRef) : Nat :=
  match s.focusOn r with
  | none => 0
  | some f => match f.sp.nat, f.natBank, f.header with
    | some p, some b, some h => ((b.bundle f.cp.core.die p.off h).map f.bundleCharge).getD 0
    | _, _, _ => (lanesOf f.tr.width f.sp.mask).length

/-- Whether the cluster's charge has reached its pro-rata target (14 R345). -/
def State.overTarget (s : State) (k : CoreId) : Bool :=
  let c := s.clusterOf k
  c.ctarget * (s.stamp.toNat % 1000) ≤ 1000 * c.c

/-- Whether the first is preferred (R327). -/
def State.prefers (s : State) (k : CoreId) (a b : Cand) : Bool :=
  if a.aged != b.aged then a.aged
  else if a.rank != b.rank then b.rank < a.rank
  else if a.wait != b.wait then b.wait < a.wait
  else
    let x := s.nextCharge a.ref
    let y := s.nextCharge b.ref
    if x != y then (if s.overTarget k then x < y else y < x)
    else if a.ctx != b.ctx then a.ctx < b.ctx
    else a.entry < b.entry

/-- The split that a core issues. -/
def State.choose (s : State) (k : CoreId) : Option SplitRef :=
  match s.candidates k with
  | [] => none
  | c :: r => some (r.foldl (fun b x => if s.prefers k x b then x else b) c).ref

/-! ### At a portable point -/

/-- Clears the late faults of lanes. -/
def State.clearLate (s : State) (m : Mask) : State :=
  { s with tr := { s.tr with lanes := onLanes m (fun _ l => { l with late := none }) s.tr.lanes } }

/-- Takes the late fault of the lanes of one cause (18 R404): REMOTE first, then TIMEOUT. -/
def State.takeLate (s : State) (ls : List (Nat × Late)) (cause : Nat) : Option State :=
  match ls with
  | [] => none
  | (i, x) :: _ =>
    let m := maskOf (ls.map Prod.fst)
    some ((s.clearLate m).takeTrap cause m (memAddr x.addr.toNat (x.reason.getD 0) x.acc i) true)

/-- The late trap that is due at the split's point. -/
def State.lateTrap (s : State) : Option State :=
  let ls := (lanesOf s.tr.width s.sp.mask).filterMap fun i => (s.tr.lane i).late.map fun x => (i, x)
  (s.takeLate (ls.filter fun x => x.2.reason.isSome) cREMOTE) <|> s.takeLate (ls.filter fun x => x.2.reason.isNone) cTIMEOUT

/-- Whether a breakpoint stands at the focused split's point (18 R413). -/
def State.breakHere (s : State) : Bool :=
  !s.sup && !s.sp.passBrk && s.dbgs.any fun d =>
    d.region = s.lch.region && d.bkpts.any fun b => b.2.1 = s.sp.func && b.2.2 = s.sp.off

/-- What a debugger asks for at a point: a breakpoint stops, a step has ended, the next point is reached (18 R413 to R416). -/
def State.debugStop (s : State) : Option State :=
  if s.sup then none
  else if s.breakHere then some (s.stopHere .brk)
  else if s.sp.toPoint then some (s.stopHere (if s.sp.stepping then .step else .other))
  else none

/-- The split goes on from its point: a breakpoint has been passed, a single step ends at the next point. -/
def State.passPoint (s : State) : State :=
  if s.sup then s
  else
    let brk := (s.itemAt s.sp.mh s.sp.func s.sp.off).any fun a => a.item = .instr .brk
    { s with sp := { s.sp with passBrk := s.sp.passBrk && brk, toPoint := s.sp.toPoint || s.sp.stepping } }

/-- The split must leave its region at this point: the stub is asked for (11 R286), its troop switches (10 R259), or it goes to STEP code (10 R243). -/
def State.leavesRegion (s : State) : Option State :=
  let moves := s.switching && (s.sp.nat.isSome || !(s.tr.splits.any fun p => p.nat.isSome))
  let steps := s.sp.nat.isSome && s.tr.stepping s.sp && !s.sup
  if !(s.sp.rq || moves || steps) then none
  else match s.sp.lq.find? fun e => !e.2.landed with
    | some e => some (s.awaitEntries [e.2])
    | none =>
      let left := s.lastBank
      some (if s.sp.rq || !moves then s.toPortable.parkFrom left else s.toPortable.switchTroop)

/-- What happens at a point before its instruction issues, if anything. -/
def State.pointStep (s : State) : Option State := s.lateTrap <|> s.debugStop <|> s.leavesRegion

/-! ### Issue of one split -/

/-- At a point of a region the pages of the frame are mapped, and its spill slots hold their values (10 R250, 08 R198; log 17). -/
def State.frameHere (s : State) : Prep Unit :=
  match s.cached s.spKey s.sp.mh with
  | none => .go s ()
  | some e =>
    let fp := s.topFrame.fp
    match s.frameReady fp e.frame with
    | .done t => .done t
    | .go t _ => .go (if e.key.origin then t else t.keepSlots fp e.spills) ()

/-- Whether the frame of the function of launch, or of a handler, passes its area (10 R251, 18 R397). -/
def State.rootTooBig (s : State) : Bool :=
  s.topFrame.root && s.frameLimit < s.topFrame.fp + s.frameOf s.sp.mh s.sp.func

/-- Fetch of the portable instruction of the focused split. -/
def State.fetch (s : State) : Pick :=
  match s.itemAt s.sp.mh s.sp.func s.sp.off with
  | none => .quiet { s with sp := { s.sp with st := .parked } }
  | some a =>
    let next := a.off + 4 * a.len
    match a.item with
    | .block _ => .quiet { s with sp := { s.sp with off := next, toPoint := s.sp.toPoint && !s.sp.stepping } }
    | .instr i =>
      .run i { (s.addCharge (lanesOf s.tr.width s.sp.mask).length).countIssue with ctx := ⟨a.val, next⟩ }

/-- Portable issue: at a point the region must be in a VALID bank; native code of the region is entered (11 R282, R285). -/
def State.issuePortable (s : State) : Pick :=
  if !s.atPoint then s.fetch
  else
    let p : State := { s with sp := { s.sp with lastPt := s.sp.off } }
    match p.pointStep with
    | some t => .quiet t
    | none =>
      if ((p.coreOf p.cp.core).bankOf p.spKey p.sp.mh).isNone then .quiet (p.parkFrom s.lastBank)
      else if s.sp.off = 0 && s.rootTooBig then .quiet (p.frameTrap p.topFrame.fp)
      else match p.frameHere with
        | .done t => .quiet t
        | .go q _ => match (if q.switching then none else q.enterNative) with
          | some t => .quiet t
          | none => q.passPoint.fetch

/-- Key of the native region in which the focused split stands; native entries are never STEP code (10 R243). -/
def State.natKeyHere (s : State) : Key := { s.natKeyAt s.sp.func s.sp.off with step := false }

/-- Whether the bank of the focused native split still holds its region. -/
def State.natOk (s : State) : Bool := s.natBank.any fun b => b.st = .valid && b.key = some s.natKeyHere

/-- Native issue: a bank lost to another region parks the split as it is, an INVALID one sends it back to its point (11 R282, 21 R465); a branch whose delay bundle has issued is taken when its bank allows it (11 R284). -/
def State.issueNative (s : State) : Pick :=
  if !s.natOk then
    if s.natBank.any fun b => b.st = .invalid && b.key = some s.natKeyHere then
      .quiet (({ s with sp := s.sp.rewind }).toPortable.parkFrom (s.sp.nat.map NPos.bank))
    else .quiet { s with sp := { s.sp with st := .parked } }
  else match s.sp.nat.bind fun p => if p.due then p.pend else none, s.header with
    | some b, _ => .quiet (s.branchDue b 0)
    | none, none => .quiet s.landDue.illBundle
    | none, some h =>
      if h.pp && (s.sp.nat.all fun p => p.pend.isNone) && (s.natEntry.bind fun e => e.pointOf ((s.sp.nat.map NPos.off).getD 0)).isSome then
        let p := s.landDue.atNatPoint
        match p.pointStep with
        | some t => .quiet t
        | none => .run (.header h) p.passPoint
      else .run (.header h) s

/-- Issue of the focused split. -/
def State.issueSplit (s : State) : Pick := if s.sp.nat.isSome then s.issueNative else s.issuePortable

/-- Issues on a core. -/
def State.issueOn (s : State) (k : CoreId) : Option Pick :=
  if !(s.coreOf k).issues? then none
  else
    let t := s.seatCore k
    match t.choose k with
    | none => none
    | some r => ((t.noteWaits k).focusOn r).map State.issueSplit

/-- Tries the cores from the one whose turn it is; the one after it is next. -/
def State.issueFrom (s : State) : Nat → Nat → Option Pick
  | 0, _ => none
  | fuel + 1, n => match ({ s with turn := (n + 1) % 544 } : State).issueOn (coreNum (n % 544)) with
    | some p => some p
    | none => State.issueFrom s fuel (n + 1)

/-! ### The next step -/

/-- What the machine does without an input. Background steps come first, so that loads bind in program order at issue and every pending store commits, oldest first, before the next instruction: the reorderings that 05 R112 allows are never reached (DESIGN CHOICE, log 3). -/
def State.own (s0 : State) : Option Pick :=
  let s := s0.unfocus
  if s.boot != .running then none
  else match s.selfStep with
    | some t => some (.quiet t)
    | none => match s.command with
      | some p => some p
      | none => s.issueFrom 544 s.turn

/-- An input arrives; one that has to wait for a barrier word comes again after those on their way. -/
def State.take (s : State) (i : Input) (r : List Input) : Pick :=
  if s.unfocus.inputHeld i.ev then .quiet { s.elapse i.dt with inputs := r ++ [{ i with dt := 0, after := 1 }] }
  else .run i.ev { s.elapse i.dt with
    inputs := r
    tlbs := if i.evict then [] else s.tlbs }

/-- The next step: agenda, bundle in progress, inputs that are due, the machine's own, inputs that are left. -/
def State.pick (s : State) : Pick :=
  match s.todo, s.bnd with
  | m :: r, _ => .micro m { s with todo := r }
  | [], some b => match b.rest with
    | k :: _ => .run k.op s
    | [] => .quiet { s with bnd := none }
  | [], none => match s.inputs with
    | [] => s.own.getD (.quiet s)
    | i :: r =>
      if i.after = 0 then s.take i r
      else (({ s with inputs := { i with after := i.after - 1 } :: r } : State).own).getD (s.take i r)

/-- After an agenda entry the bundle in progress goes on with its split, if that can still issue. -/
def State.resumeBundle (s : State) (r : SplitRef) : State :=
  if s.bnd.isNone then s
  else match s.focusOn r with
    | some f => if f.sp.st = .ready then f else { f with bnd := none }
    | none => { s with bnd := none }

/-- Runs an agenda entry in the middle of a bundle, or between bundles. -/
def State.agenda (s : State) (m : Micro) : Out :=
  match runMicro m s with
  | .next t => .next (t.resumeBundle s.spRef)
  | o => o

end Sys2Proof.Machine
end

