-- ==== Sys2Proof/Machine/Setup.lean ====
section
/-! DEFINITION. A package in which one given word is the next instruction: the smallest launch that runs it (log 5). -/

namespace Sys2Proof.Machine

/-- A module with one function of no parameters and results. -/
def wordModule (code : List Byte) : Module :=
  ⟨1, 0, 4, 0, false, [⟨0, code.length, 0, true, 5, 10, []⟩], code, 0, 0, 0, 0, 0, 0, false⟩

/-- The launch of one troop of 32 lanes. -/
def wordLaunch : Launch :=
  { Launch.none with lid := 1, queue := 4096, mh := 1, wlog2 := 5, campsize := 1, troops := 1, done := false }

/-- A split of 32 lanes at an offset of that function. -/
def wordSplit (off : Nat) (nat : Option NPos) : Split :=
  { Split.reset with mask := BitVec.ofNat 1024 (2 ^ 32 - 1), mh := 1, off := off, lastPt := off, nat := nat }

/-- The troop that holds it. -/
def wordTroop : Troop :=
  { Troop.reset with
    live := BitVec.ofNat 1024 (2 ^ 32 - 1)
    lanes := List.replicate 32 { Lane.reset with frames := [⟨1, 0, 0, 0xFFFFFF, 0, 0, true, [], false⟩] } }

/-- The camp, on core 0 of cluster 0 of die 0. -/
def wordCamp : Camp := { Camp.reset with ref := ⟨1, 0⟩, place := .on ⟨0, 0, 0⟩ }

/-- The module, the launch and its one split in the focus. -/
def State.withSplit (s : State) (code : List Byte) (p : Split) : State :=
  { s with modules := [wordModule code], launches := [wordLaunch], focused := true, sp := p, tr := wordTroop, cp := wordCamp, turn := 0 }

/-- The region of the split in bank 0 of its core, with its entry in the translation cache. -/
def State.withRegion (s : State) (k : Key) (code : List Byte) : State :=
  { s with
    tcache := [⟨k, 0, 2, 4096, [], code, [], 16, 0, true, false, false, []⟩]
    cores := [{ Core.reset ⟨0, 0, 0⟩ with b0 := ⟨.valid, some k, 1, [0], code, [], false⟩ }] }

/-- A portable instruction after the BLOCK record of a function, its further words zero. -/
def State.withPortable (s : State) (w n : Nat) : State :=
  let t := s.withSplit (leBytes 4 0 ++ leBytes (4 * n) w) (wordSplit 4 none)
  t.withRegion t.spKey []

/-- The native position at the start of bank 0. -/
def natStart : NPos := ⟨0, 0, none, 0, [], [], false⟩

/-- A bundle header at the start of a native region, followed by zeros. -/
def State.withHeader (s : State) (w : Nat) : State :=
  let t := s.withSplit (leBytes 4 0) (wordSplit 0 (some natStart))
  t.withRegion (t.natKeyAt 0 0) (leBytes 64 w)

/-- A slot whose bundle has begun to issue, its qualifier and literals zero. -/
def State.withSlot (s : State) (kind w : Nat) (op : Instr) : State :=
  let q := if qualified kind w op then some 0 else none
  let k : NSlot := ⟨kind, op, q, List.replicate (valueLits op q) 0⟩
  { s.withHeader 0 with bnd := some ⟨⟨false, 0, 0, 0, false, 0, false⟩, 4 * (2 + k.lits.length + (if q.isSome then 1 else 0)), [k], none⟩ }

/-- Words of a portable instruction whose further words are zero. -/
def portableLen (w : Nat) : Nat :=
  match decodePortable (w :: List.replicate 63 0) with
  | .ok (_, n) => n
  | _ => 1

/-- The first slot kind, of A, M, X, C and P, that has the word as an operation. -/
def slotFor (w : Nat) : Option (Nat × Instr) :=
  match decodeSyl .a0 w, decodeSyl .m w, decodeSyl .x w, decodeSyl .c w, decodeSyl .p w with
  | some i, _, _, _, _ => some (0, i)
  | none, some i, _, _, _ => some (2, i)
  | none, none, some i, _, _ => some (3, i)
  | none, none, none, some i, _ => some (4, i)
  | none, none, none, none, some i => some (5, i)
  | none, none, none, none, none => none

/-- The state in which the instruction of a word is the next to run, in the order of `decodeTableWord` (log 6). -/
def State.placeWord (s : State) (w : Nat) : State :=
  match decodeOneWord w with
  | some _ => s.withPortable w (portableLen w)
  | none => match slotFor w with
    | some (k, op) => s.withSlot k w op
    | none => s.withHeader w

end Sys2Proof.Machine
end

