-- ==== Sys2Proof/Machine/Step.lean ====
section
/-! DEFINITION. One step of the machine, and the state in which a given instruction is the next to run (log 5). -/

namespace Sys2Proof.Machine

/-- One step: what `pick` finds is run. -/
def step (s : State) : Host.Outcome State Fault Refusal :=
  match s.pick with
  | .micro m t => t.agenda m
  | .run i t => exec i t
  | .quiet t => .next t

/-- The state in which the instruction of the given bits is the next to run. -/
def State.withFetchWord (s : State) (_nbits w : Nat) : State := s.placeWord w

end Sys2Proof.Machine
end

