-- ==== Sys2Proof/Safety.lean ====
section
/-! DEFINITION. The terms in which claims are stated: the invariant of every step, what an instruction that acts lane by lane leaves unchanged, and the values it defines. -/

namespace Sys2Proof.Machine

/-- The invariant: physical memory is in canonical form, with rising addresses and no byte that an unlisted address reads as. -/
def Inv (s : State) : Prop := Memory.wf s.mem = true

/-- What a step does that answers a next state. -/
def Steps (s t : State) : Prop := step s = .next t

/-- No byte of physical memory differs. -/
def SameBytes (s t : State) : Prop := ∀ a, memRead t.mem a = memRead s.mem a

/-- Every field of the state is as before, but the lanes of the executing troop and the position of the executing split; lanes that are not active, and every byte of memory, are as before. -/
structure OnlyLanes (s t : State) (off : Nat) : Prop where
  rest : t = { s with tr := { s.tr with lanes := t.tr.lanes }, sp := { s.sp with off := off } }
  count : t.tr.lanes.length = s.tr.lanes.length
  idle : ∀ i, inMask s.sp.mask i = false → t.tr.lane i = s.tr.lane i
  bytes : SameBytes s t

/-- Frames after values were defined: only the values of the running activation differ. -/
def sameFrames (x y : List Frame) : Prop :=
  y = match x with
    | [] => []
    | g :: r => { g with vals := (y.headD g).vals } :: r

/-- Values `vs` are defined from number `n` in the running activation of a lane, with the status bits `f`, which a supervisor discards; nothing else of the lane changes. -/
structure LaneDefines (x y : Lane) (sup : Bool) (n : Nat) (vs : List TVal) (f : W32) : Prop where
  rest : y = { x with frames := y.frames, sticky := y.sticky }
  status : y.sticky = if sup then x.sticky else x.sticky ||| f
  frames : sameFrames x.frames y.frames
  value : x.frames ≠ [] → ∀ k v, vs[k]? = some v → y.val (n + k) = v
  others : ∀ k, k < n ∨ n + vs.length ≤ k → y.val k = x.val k

/-- The instruction completes: every active lane defines its results from the values that its lane held before, and nothing else changes. -/
def Defines (i : Instr) (s : State) (f : Nat → Lane → List TVal × W32) : Prop :=
  ∃ t, exec i s = .next t ∧ OnlyLanes s t s.ctx.next ∧
    ∀ l, l < s.tr.width → inMask s.sp.mask l = true →
      LaneDefines (s.tr.lane l) (t.tr.lane l) s.sup s.ctx.dst (f l (s.tr.lane l)).1 (f l (s.tr.lane l)).2

/-- The same for one result without status. -/
def Gives (i : Instr) (s : State) (f : Nat → Lane → TVal) : Prop := Defines i s fun l x => ([f l x], 0)

/-! ### Values as the manual writes them -/

/-- `wr(z)` of 07: an exact integer wrapped to the type, as a pattern. -/
def wrTy (ty : Ty) (z : Int) : TVal := ⟨ty, BitVec.ofInt 64 (z % 2 ^ ty.width)⟩

/-- The low bits of a pattern as a value of a type. -/
def patTy (ty : Ty) (n : Nat) : TVal := ⟨ty, BitVec.ofNat 64 (n % 2 ^ ty.width)⟩

/-- The n-bit pattern of an operand. -/
def Lane.pat (l : Lane) (ty : Ty) (v : Nat) : Nat := l.nat v % 2 ^ ty.width

/-- The least and the greatest integer of a type. -/
def Ty.lo (ty : Ty) : Int := if ty.signed then -(2 ^ (ty.width - 1)) else 0
def Ty.hi (ty : Ty) : Int := if ty.signed then 2 ^ (ty.width - 1) - 1 else 2 ^ ty.width - 1

/-- An integer clamped to the range of a type. -/
def clampTy (ty : Ty) (z : Int) : Int := if z < Ty.lo ty then Ty.lo ty else if Ty.hi ty < z then Ty.hi ty else z

/-- Truncating quotient: the sign of a/b and the floor of |a| / |b| (07 R158). -/
def truncDiv (a b : Int) : Int :=
  if (a < 0) = (b < 0) then ((a.natAbs / b.natAbs : Nat) : Int) else -((a.natAbs / b.natAbs : Nat) : Int)

/-- A float result with its status, as one value of a type. -/
def fl (ty : Ty) (r : FRes) : List TVal × W32 := ([patTy ty r.1], r.2)

/-- Sign bits of a float type, of both elements of a packed one. -/
def signMask (ty : Ty) : Nat := if ty.isP then 0x80008000 else 2 ^ (ty.width - 1)

/-- The pattern of 1.0. -/
def FFmt.one (f : FFmt) : Nat := f.bias * 2 ^ f.fb

/-! ### Control and exceptions -/

/-- The target of an edge is the join point of the executing split. -/
def State.joins (s : State) (e : Edge) : Prop :=
  s.tr.atJoin { s.sp with off := (s.blockAt e.blk).off } (s.tr.depth s.sp.mask) = true

/-- The instruction completes as a transfer along an edge: the split stands at the target block, and each active lane has bound the arguments, read before, to its parameters. -/
def Goes (i : Instr) (s : State) (e : Edge) : Prop :=
  ∃ t, exec i s = .next t ∧ OnlyLanes s t (s.blockAt e.blk).off ∧
    ∀ l, l < s.tr.width → inMask s.sp.mask l = true →
      LaneDefines (s.tr.lane l) (t.tr.lane l) s.sup (s.blockAt e.blk).val (e.args.map (s.tr.lane l).val) 0

/-- A portable split can take a trap at once: user mode, a handler bound, a trap area free, nothing still to land. -/
structure CanTrap (s : State) (mh f : Nat) : Prop where
  user : s.sup = false
  handler : (s.tenantOf s.lch).bind Tenant.handler = some (mh, f)
  portable : s.sp.nat = none
  area : s.trapFree ≠ 0
  landed : s.sp.landed = true
  known : s.statusDue = false

/-- The lanes of `x` of the executing split have entered the handler `f` of module `mh` with XCAUSE `w` and XADDR `addr`; the other lanes of the split have become a split of their own, which is otherwise as before. -/
structure TookTrap (s t : State) (mh f : Nat) (w : W32) (x : Mask) (addr : W64) : Prop where
  rest : t = { s with
    trapFree := s.trapFree - 1
    sp := t.sp
    tr := { s.tr with lanes := t.tr.lanes, splits := t.tr.splits, nextId := t.tr.nextId } }
  handler : let p := if s.sp.mask &&& ~~~x = 0 then s.sp else s.partOf s.sp x true
    t.sp = { p with
      sid := t.sp.sid, mask := x, mh := mh, func := f, off := 0, st := .ready, loop := none
      scal := setNum 31 0 s.sp.scal, lq := [], fl := [], grant := false
      sup := some ⟨s.sp.func, s.sp.off, s.sp.mh, w, addr, x, s.sp.loop, none, s.sp.scal, p.lq, p.fl⟩ }
  others : t.tr.splits = s.tr.splits ++
    (if s.sp.mask &&& ~~~x = 0 then [] else [s.partOf s.sp (~~~x) false])
  lanes : ∀ l, l < s.tr.width → t.tr.lane l =
    if inMask x l then
      { s.tr.lane l with
        saved := some ⟨(s.tr.lane l).frames, (s.tr.lane l).k, (s.tr.lane l).g, [(8, 255), (9, 255), (10, 255)]⟩
        frames := [handlerFrame mh f] }
    else s.tr.lane l

/-! ### Memory accesses -/

/-- Lane `l` is active in the executing split. -/
def State.active (s : State) (l : Nat) : Prop := l < s.tr.width ∧ inMask s.sp.mask l = true

/-- The last byte that a list of writes gives an address, if any. -/
def lastTo (cs : List (Nat × Byte)) (x : Nat) : Option Byte := (cs.reverse.find? fun c => c.1 = x).map Prod.snd

/-- No barrier word is in the middle of a completion that waits for ordered reductions at peers (05 R116). -/
def State.NoWordBusy (s : State) : Prop := ∀ q ∈ s.reqs, ∀ c o, q.by_ = .orb c o → o.due = []

/-- Every active lane's check of an access of `count` elements at its own address passes, and gives it the places `ps`, none of them a peer's; no map grant or denial is open. -/
structure Placed (s : State) (ty : Ty) (count : Nat) (ea : Lane → Nat) (need : Need) (acc : Nat) (ps : Nat → List Spot) : Prop where
  grant : s.sp.grant = false
  denied : s.sp.denied = false
  checks : ∀ l, s.active l → s.check l (ea (s.tr.lane l)) ⟨ty.bytes, count, ty.bytes, need, acc⟩ = .ok (ps l)
  here : ∀ l, s.active l → ∀ k wa, Spot.peer k wa ∉ ps l
  words : s.NoWordBusy

/-- No store of this core that has yet to commit overlaps a place (05 R109). -/
def State.NoOverlap (s : State) (ps : Nat → List Spot) : Prop :=
  ∀ q ∈ s.stores, q.core = s.cp.core → ∀ b ∈ q.bytes, ∀ l, s.active l → ∀ bs, Spot.phys bs ∈ ps l → b.1 ∉ bs

/-- No load or atomic of the lanes is unbound, and an order that releases has no earlier store of the lanes and no request of the camp left to wait for (05 R110, R112). -/
def State.OrderMet (s : State) (o : Ord) : Prop :=
  s.unbound s.sp.mask = none ∧ (releases o = true → s.pendingOf s.sp.mask = none ∧ s.campDue = none)

/-- The same for a fence, which waits for the accesses of its own lanes alone (08 R186). -/
def State.FenceMet (s : State) (o : Ord) : Prop :=
  s.unbound s.sp.mask = none ∧ (releases o = true → s.pendingOf s.sp.mask = none ∧ s.dueBits s.sp.mask = none)

/-- What every access leaves: the split stands after the instruction; only lanes, SEEN, TLBs, access counters with the TIER they hold, the stores, what a stream loop keeps of replaced bytes and the camp's own scratchpad and records may differ; no byte of memory and no inactive lane does. -/
structure AccessFrame (s t : State) (o : Ord) : Prop where
  rest : t = { s with
    sp := { s.sp with off := s.ctx.next, loop := t.sp.loop }, tr := { s.tr with lanes := t.tr.lanes }, cp := t.cp
    gseen := t.gseen, tlbs := t.tlbs, counters := t.counters, tiers := t.tiers, stores := t.stores }
  loop : ∃ os, t.sp.loop = s.sp.loop.map fun p => { p with olds := p.olds ++ os }
  bytes : SameBytes s t
  idle : ∀ l, inMask s.sp.mask l = false → t.tr.lane l = s.tr.lane l
  seen : o ≠ .sc → ∀ l, s.active l → (t.tr.lane l).seen = maxW (s.tr.lane l).seen s.gseen

/-- Scratchpad bytes that a lane's elements write. -/
def scratchCells (n : Nat) (ps : List Spot) (vs : List Nat) : List (Nat × Byte) :=
  (ps.zip vs).flatMap fun q => match q.1 with
    | .scratch o => cellsAt o (leBytes n q.2)
    | _ => []

/-! ### Barriers -/

/-- A barref names a word at place `p` that no peer holds, and no recorded reduction waits (05 R123). -/
structure WordAt (s : State) (a : Nat) (p : Spot) : Prop where
  grant : s.sp.grant = false
  denied : s.sp.denied = false
  window : tagOf a ≠ 0xFC
  place : s.check s.lead a accWord = .ok [p]
  here : ∀ k wa, p ≠ .peer k wa
  orbs : s.cp.orb = [] ∧ ∀ c ∈ s.camps, c.orb = []
  clear : ∀ q ∈ s.stores, q.core = s.cp.core → ∀ b ∈ q.bytes, ∀ bs, p = .phys bs → b.1 ∉ bs
  words : s.NoWordBusy

/-- The executing split is its whole troop. -/
def State.Converged (s : State) : Prop := s.tr.splits = [] ∧ s.sp.mask = s.tr.live

/-- Nothing holds back an arrival or an exit: stores have committed, no status is due, no lane has died and none reports. -/
structure State.Unreported (s : State) : Prop where
  stores : s.pendingOf s.tr.live = none
  answered : s.campDue = none
  cmds : s.dueCmd s.tr.live = none
  deaths : s.tr.newDead = []
  reports : ∀ l, l < s.tr.width → inMask s.tr.live l = true → (s.tr.lane l).sticky &&& reportSet = 0

/-- Every byte of memory and of the camp's scratchpad outside the word is as before, and so is every lane that is not active. -/
structure OnlyWord (s t : State) (p : Spot) : Prop where
  bytes : ∀ a, (∀ bs, p = .phys bs → a ∉ bs) → memRead t.mem a = memRead s.mem a
  scratch : ∀ o, (∀ q, p = .scratch q → o < q ∨ q + 8 ≤ o) → memRead t.cp.scr o = memRead s.cp.scr o
  idle : ∀ l, inMask s.sp.mask l = false → t.tr.lane l = s.tr.lane l
  troop : t.tr = { s.tr with lanes := t.tr.lanes, larr := t.tr.larr }

/-! ### Matrix array -/

/-- A tile's elements are listed in rising order, below 16,384. -/
def Tile.Rising (t : Tile) : Prop := (t.els.Pairwise fun p q => p.1 < q.1) ∧ ∀ p ∈ t.els, p.1 < 16384

/-! ### Native code -/

/-- An A slot has acted in the lanes of a mask by a plan: only lanes' status and what is in flight differ, and for the values `f` that the plan's portable instruction defines on the operands, the status is ORed in and the images are in flight. -/
def SlotResult (s u : State) (m : Mask) (p : APlan) : Prop :=
  u = { s with sp := { s.sp with fl := u.sp.fl }, tr := { s.tr with lanes := u.tr.lanes } } ∧
  let x := s.withArgs m fun l => p.args.map (s.asrc l)
  ∀ f : Nat → Lane → TVal × W32, Defines p.i x (fun l y => ([(f l y).1], (f l y).2)) →
    (∀ l < s.tr.width, u.tr.lane l = { (s.tr.lane l).dropTmp with
      sticky := if inMask m l = true ∧ s.sup = false then (s.tr.lane l).sticky ||| (f l (x.tr.lane l)).2 else (s.tr.lane l).sticky }) ∧
    u.sp.fl = s.sp.fl ++ match p.dst with
      | .reg k c => regFlights p.lat k (wideTy (tyOfCode c)) ((lanesOf s.tr.width m).map fun l => (l, (f l (x.tr.lane l)).1.image))
      | .guards g => guardFlights p.lat g ((lanesOf s.tr.width m).map fun l => (l, decide ((f l (x.tr.lane l)).1.nat % 2 = 1)))

/-- Every lane that the guard of an M slot admits passes the check of its access of `2 ^ SUB` elements, at places `ps`, none of them a peer's, in the window that the operation accepts; no map grant or denial is open. -/
structure NatPlaced (s : State) (n : NOp) (q : Qual) (lits : List Nat) (only : Option Nat) (need : Need) (acc : Nat) (ps : Nat → List Spot) : Prop where
  grant : s.sp.grant = false
  denied : s.sp.denied = false
  window : ∀ w, only = some w → ∀ l, inMask (s.adm n.gd.toNat) l = true → tagOf (s.natEa n q lits l) = w
  checks : ∀ l, inMask (s.adm n.gd.toNat) l = true → s.check l (s.natEa n q lits l) ⟨q.type.bytes, 2 ^ q.sub, q.type.bytes, need, acc⟩ = .ok (ps l)
  here : ∀ l, inMask (s.adm n.gd.toNat) l = true → ∀ k wa, Spot.peer k wa ∉ ps l
  words : s.NoWordBusy

/-- No store of this core that has yet to commit overlaps a place of the admitted lanes, and an order that releases has nothing to wait for (05 R109, R112). -/
structure NatOrdered (s : State) (m : Mask) (o : Ord) (ps : Nat → List Spot) : Prop where
  clear : ∀ q ∈ s.stores, q.core = s.cp.core → ∀ b ∈ q.bytes, ∀ l, inMask m l = true → ∀ bs, Spot.phys bs ∈ ps l → b.1 ∉ bs
  met : s.OrderMet o

/-- What an M slot leaves: registers in flight and queues of the split, lanes' SEEN, TLBs, counters, the stores and the camp's scratchpad and records may differ; no byte of memory does. -/
structure NatFrame (s u : State) (m : Mask) (o : Ord) : Prop where
  rest : u = { s with
    sp := { s.sp with fl := u.sp.fl, lq := u.sp.lq }, tr := { s.tr with lanes := u.tr.lanes }, cp := u.cp
    gseen := u.gseen, tlbs := u.tlbs, counters := u.counters, tiers := u.tiers, stores := u.stores }
  bytes : SameBytes s u
  lanes : ∀ l < s.tr.width, u.tr.lane l = { s.tr.lane l with seen := (u.tr.lane l).seen }
  idle : ∀ l, inMask m l = false → u.tr.lane l = s.tr.lane l
  seen : o ≠ .sc → ∀ l, inMask m l = true → (u.tr.lane l).seen = maxW (s.tr.lane l).seen s.gseen

/-- The register image of element `e` of a lane's load. -/
def State.elemImage (s : State) (ty : Ty) (ps : List Spot) (e : Nat) : Nat := ((ps[e]?).map fun p => (patTy ty (s.readPlace p ty.bytes)).image).getD 0

/-- What an X slot leaves when it acts for its split: queues and matrix rows of the split, status of lanes, the troop's waiting splits and the camp may differ. -/
structure EngineFrame (s u : State) : Prop where
  rest : u = { s with sp := { s.sp with lq := u.sp.lq, mp := u.sp.mp, pw := u.sp.pw }, tr := { s.tr with lanes := u.tr.lanes, splits := u.tr.splits }, cp := u.cp }
  count : u.tr.lanes.length = s.tr.lanes.length
  lanes : ∀ l < s.tr.width, u.tr.lane l = { (s.tr.lane l).dropTmp with sticky := (u.tr.lane l).sticky }

/-! ### Commands -/

/-- A command completes with status OK and results `res`, its effect having left `t`. -/
def Completes (i : Instr) (c : Cmd) (s t : State) (res : List Nat) : Prop := exec i s = .next (t.complete c 0 res)

/-- Bytes of host memory from a host physical address, as a list from its base. -/
def State.HostHas (t : State) (a : W64) (bs : List Byte) : Prop := ∀ i b, bs[i]? = some b → memRead t.mem (hostPhys a.toNat + i) = b

/-- Only host memory in a range differs, with what depends on a write: stale marks and poison. -/
def WritesHost (s t : State) (a : W64) (bs : List Byte) : Prop :=
  t.HostHas a bs ∧ (∀ x, (x < hostPhys a.toNat ∨ hostPhys a.toNat + bs.length ≤ x) → memRead t.mem x = memRead s.mem x) ∧
  t = { s with mem := t.mem, poison := t.poison, camps := t.camps, cp := t.cp }

end Sys2Proof.Machine
end

