-- ==== Sys2Proof/Certificates/Slice0/Obligations.lean ====
section
/-! DEFINITION. The statements for the provers, each over all states or operands; their terms are in Safety. -/

open Sys2Proof Sys2Proof.Machine

/-- The state after reset: no owner, HTGT 0 and no pending register (R353); every master's CRBASE, CRCFG, CRDB, CRHEAD, CPBASE, CPIDX and CPDROP zero (R355); run limit 256 (R239), hold 20,000 ns (R349), peer time-out 1,000 µs (R429), promotion threshold 32 and low watermark 16,384 (R99); pools of 32,768 and 131,072 pages (R421); no key, tenant, module, route, export, subscription or debugger; descriptors empty (R320); no rack cap received (R351); translation cache empty with 65,536 pages (R13); swap banks EMPTY and no move in progress; every FINJ and error count 0; the package runs, in no ember. Memory keeps its canonical form. -/
def Obligations.ResetState : Prop :=
  let s := State.reset
  Machine.Inv s ∧ s.owner = none ∧ s.htgt = 0 ∧ s.hoff = none ∧
  (∀ m, m < 4 → let x := s.master m
    x.crbase = 0 ∧ x.en = false ∧ x.clog2 = 0 ∧ x.crhead = 0 ∧ x.cpbase = 0 ∧ x.cpidx = 0 ∧ x.cpdrop = 0) ∧
  s.bells = [] ∧ s.runlim = 256 ∧ s.hold = 20000 ∧ s.peerTo = 1000 ∧ s.promo = 32 ∧ s.lowmark = 16384 ∧
  s.fast.size = 32768 ∧ s.capp.size = 131072 ∧ s.keys = [] ∧ s.tenants = [] ∧ s.modules = [] ∧ s.queues = [] ∧
  s.launches = [] ∧ s.camps = [] ∧ s.routes = [] ∧ s.exports = [] ∧ s.subs = [] ∧ s.dbgs = [] ∧ s.rings = [] ∧
  s.suspended = [] ∧ s.counters = [] ∧ s.poison = [] ∧ s.migs = [] ∧ s.stores = [] ∧ s.reqs = [] ∧
  s.capSeq = none ∧ s.cap = 1900 ∧ s.lease = none ∧ s.floor = false ∧ s.nonce = none ∧ s.debugPort = false ∧
  s.tcache = [] ∧ s.tcFree = 65536 ∧ s.claims = [] ∧
  (∀ k, (s.coreOf k).b0.st = .empty ∧ (s.coreOf k).b1.st = .empty ∧ (s.coreOf k).move = none ∧ (s.clusterOf k).finj = 0) ∧
  (∀ d ∈ s.dies, d.fenced = false ∧ d.corrected = []) ∧ s.dies.length = 8 ∧ s.ports.length = 18 ∧
  s.boot = .running ∧ s.ember = .running ∧ s.todo = [] ∧ s.bnd = none ∧ s.inputs = []

/-- Every step from a state whose physical memory is in canonical form (rising addresses, no byte that an unlisted address reads as) that answers a next state answers one whose memory is. -/
def Obligations.StepKeepsInv : Prop := ∀ s t : State, Machine.Inv s → Steps s t → Machine.Inv t

/-- R137 to R144: the words that the encoder gives for a well-formed portable instruction, followed by any words, decode to that instruction and its length; each is a 32-bit word. -/
def Obligations.DecodeEncodePortable : Prop :=
  ∀ (i : Instr) (p : Parts) (rest : List Nat), i.parts = some p → i.wf = true →
    decodePortable (encode i ++ rest) = .ok (i, (encode i).length) ∧ ∀ w ∈ encode i, w < 2 ^ 32

/-- R265 to R279, R356: a header and every native operation decode, in a slot of its kind, from the word that the encoder gives, both A slots alike; a command decodes from its 64 bytes. -/
def Obligations.DecodeEncodeNative : Prop :=
  (∀ (i : Instr) (slot : Option Slot) (w : Nat), i.syllable = some (slot, w) → i.wf = true →
    encode i = [w] ∧ w < 2 ^ 32 ∧ decodeNative slot w = some i ∧ (slot = some .a0 → decodeNative (some .a1) w = some i)) ∧
  ∀ c : Cmd, c.rsv = false → (encodeCommand c).length = 64 ∧ decodeCommand c.master (encodeCommand c) = commandOf c

/-- R137 to R140, R265, R267, R277, with words of the manual's cases: written-out words decode to the instructions they stand for. -/
def Obligations.DecodeWords : Prop :=
  decodePortable [0x16100200, 0x00000605] = .ok (.div .i32 5 6, 2) ∧
  decodePortable [0x2B108200, 0x00000605] = .ok (.cmp .i32 .lt 5 6, 2) ∧
  decodePortable [0x43304300, 0x00030201] = .ok (.fma .f32 .tz 1 2 3, 2) ∧
  decodePortable [0x83300108, 0x00000007] = .ok (.redux .f32 .fadd .ne 7, 2) ∧
  decodePortable [0x8030C200, 0x00000907] = .ok (.shfl .f32 .flip 0 7 9, 2) ∧
  decodePortable [0x03200202, 0x00000404, 0x00000000, 0x00000002, 0x00010000, 0x00020000, 0x00030100] =
    .ok (.switch .w32 4 ⟨1, []⟩ [(0, ⟨2, []⟩), (2, ⟨3, [4]⟩)], 7) ∧
  decodePortable [0x04000202, 0x00000404, 0x00020000, 0x00030100] = .ok (.brx 4 [⟨2, []⟩, ⟨3, [4]⟩], 4) ∧
  decodePortable [0x07000000] = .ok (.exit, 1) ∧
  decodePortable [0x90000100, 0x00000005] = .error .fields ∧ decodePortable [0x0A000000] = .error .opcode ∧
  decodeSyl .a0 0x02004081 = some (.natIsub ⟨false, false, 0, 1, 1, 1⟩) ∧
  decodeSyl .m 0x04004081 = some (.natLdg ⟨false, false, 0, 1, 1, 1⟩) ∧
  decodeHeader 0xFE000000 = some ⟨true, 0x3F, 0, 0, false, 0, false⟩ ∧ decodeHeader 0x00001800 = none

/-- One step runs the decoded instruction. An input that is due runs in the state in which its time has passed; the next syllable of a bundle in progress runs as it stands; else, where no input, agenda entry, step of the machine's own or command is waiting, the split that the first core able to issue chooses runs the portable instruction at its position, counted and charged, with the next position after its words. At a point this holds where nothing happens there first, its region is in a VALID bank and no native code is entered. What stands at a position is what the decoder reads from the code of the function there. Every instruction answers a next state, but a host access through the physical aperture to an address that the map does not hold. -/
def Obligations.StepRunsDecoded : Prop :=
  (∀ (s : State) (i : Input) (r : List Input), s.todo = [] → s.bnd = none → s.inputs = i :: r → i.after = 0 →
    (s.unfocus.inputHeld i.ev = false → step s = exec i.ev { s.elapse i.dt with inputs := r, tlbs := if i.evict then [] else s.tlbs }) ∧
    (s.unfocus.inputHeld i.ev = true → step s = .next { s.elapse i.dt with inputs := r ++ [{ i with dt := 0, after := 1 }] })) ∧
  (∀ (s : State) (b : Bundle) (k : NSlot) (r : List NSlot), s.todo = [] → s.bnd = some b → b.rest = k :: r →
    step s = exec k.op s) ∧
  (∀ (s f g q : State) (n : Nat) (r : SplitRef) (a : At) (i : Instr),
    s.todo = [] → s.bnd = none → s.inputs = [] → s.boot = .running → s.unfocus.selfStep = none → s.unfocus.command = none →
    n < 544 →
    let core (m : Nat) : CoreId := coreNum ((s.turn + m) % 544)
    let v (m : Nat) : State := { s.unfocus with turn := (s.turn + m + 1) % 544 }
    (∀ m, m < n → (v m).issueOn (core m) = none) →
    let w : State := (v n).seatCore (core n)
    ((v n).coreOf (core n)).issues? = true → w.choose (core n) = some r → (w.noteWaits (core n)).focusOn r = some f → f.sp.nat = none →
    (f.atPoint = false → g = f) →
    (f.atPoint = true → let p : State := { f with sp := { f.sp with lastPt := f.sp.off } }
      p.pointStep = none ∧ ((p.coreOf p.cp.core).bankOf p.spKey p.sp.mh).isSome = true ∧
      (f.sp.off ≠ 0 ∨ f.rootTooBig = false) ∧ p.frameHere = .go q () ∧ (q.switching = true ∨ q.enterNative = none) ∧ g = q.passPoint) →
    g.itemAt g.sp.mh g.sp.func g.sp.off = some a → a.item = .instr i →
    step s = exec i { (g.addCharge (lanesOf g.tr.width g.sp.mask).length).countIssue with ctx := ⟨a.val, a.off + 4 * a.len⟩ }) ∧
  (∀ (m : Module) (f : Nat) (a : At) (i : Instr), a ∈ m.items f → a.item = .instr i →
    a.off % 4 = 0 ∧ decodePortable ((m.words f).drop (a.off / 4)) = .ok (i, a.len)) ∧
  ∀ (i : Instr) (s : State), (∃ t, exec i s = .next t) ∨
    ∃ m a n k, i = .hostAccess m .physical a n k ∧ exec i s = .fault .absentPhysical

/-- R157: each active lane defines the wrapped exact integer; with TY addr the sum and the difference are taken modulo 2^64, tag bits included. Inactive lanes, status and memory are unchanged. R157, R158: saturation clamps to the range of the type and sets IS when the clamp changes the value; division truncates toward zero; division by zero gives all ones, remainder by zero the dividend, and both set ID. -/
def Obligations.PortableIntegers : Prop :=
  (∀ (s : State) (ty : Ty) (a b c : Val),
    (ty.isI = true →
      Gives (.add ty a b) s (fun _ l => wrTy ty (l.int ty a + l.int ty b)) ∧
      Gives (.sub ty a b) s (fun _ l => wrTy ty (l.int ty a - l.int ty b)) ∧
      Gives (.mul ty a b) s (fun _ l => wrTy ty (l.int ty a * l.int ty b)) ∧
      Gives (.mulhi ty a b) s (fun _ l => wrTy ty (Int.fdiv (l.int ty a * l.int ty b) (2 ^ ty.width))) ∧
      Gives (.mad ty a b c) s (fun _ l => wrTy ty (l.int ty a * l.int ty b + l.int ty c)) ∧
      Gives (.neg ty a) s (fun _ l => wrTy ty (-l.int ty a)) ∧
      (ty.isS = true → Gives (.abs ty a) s (fun _ l => wrTy ty (if l.int ty a < 0 then -l.int ty a else l.int ty a))) ∧
      Gives (.min ty a b) s (fun _ l => wrTy ty (if l.int ty a ≤ l.int ty b then l.int ty a else l.int ty b)) ∧
      Gives (.max ty a b) s (fun _ l => wrTy ty (if l.int ty b ≤ l.int ty a then l.int ty a else l.int ty b))) ∧
    Gives (.add .addr a b) s (fun _ l => ⟨.addr, (l.val a).v + (l.val b).v⟩) ∧
    Gives (.sub .addr a b) s (fun _ l => ⟨.addr, (l.val a).v - (l.val b).v⟩)) ∧
  (∀ (s : State) (ty : Ty) (a b : Val), ty.isI = true →
    Defines (.addsat ty a b) s (fun _ l =>
      let z := l.int ty a + l.int ty b
      ([wrTy ty (clampTy ty z)], if Ty.lo ty ≤ z ∧ z ≤ Ty.hi ty then 0 else fIS)) ∧
    Defines (.subsat ty a b) s (fun _ l =>
      let z := l.int ty a - l.int ty b
      ([wrTy ty (clampTy ty z)], if Ty.lo ty ≤ z ∧ z ≤ Ty.hi ty then 0 else fIS)) ∧
    Defines (.div ty a b) s (fun _ l =>
      if l.int ty b = 0 then ([patTy ty (2 ^ ty.width - 1)], fID)
      else ([wrTy ty (truncDiv (l.int ty a) (l.int ty b))], 0)) ∧
    Defines (.rem ty a b) s (fun _ l =>
      if l.int ty b = 0 then ([patTy ty (l.nat a)], fID)
      else ([wrTy ty (l.int ty a - l.int ty b * truncDiv (l.int ty a) (l.int ty b))], 0)))

/-- R157, R159, R160, R156: bit patterns combined and shifted, comparisons, selections and constants. R159: the counts and the reversal by their bits, the field instructions by the bits they replace. `r` is the pattern defined. -/
def Obligations.PortableBits : Prop :=
  (∀ (s : State) (ty : Ty) (a b c : Val) (cc : Cc) (v : W64) (sec : Sec) (off : BitVec 30),
    (ty.isL = true →
      Gives (.and ty a b) s (fun _ l => ⟨ty, BitVec.ofNat 64 (l.pat ty a &&& l.pat ty b)⟩) ∧
      Gives (.or ty a b) s (fun _ l => ⟨ty, BitVec.ofNat 64 (l.pat ty a ||| l.pat ty b)⟩) ∧
      Gives (.xor ty a b) s (fun _ l => ⟨ty, BitVec.ofNat 64 (l.pat ty a ^^^ l.pat ty b)⟩) ∧
      Gives (.not ty a) s (fun _ l => ⟨ty, BitVec.ofNat 64 (l.pat ty a ^^^ (2 ^ ty.width - 1))⟩)) ∧
    (ty.isI = true →
      Gives (.shl ty a b) s (fun _ l =>
        if ty.width ≤ l.pat .w32 b then ⟨ty, 0⟩ else patTy ty (l.nat a * 2 ^ l.pat .w32 b)) ∧
      Gives (.shr ty a b) s (fun _ l => wrTy ty (Int.fdiv (l.int ty a) (2 ^ min (l.pat .w32 b) ty.width))) ∧
      Gives (.rotl ty a b) s (fun _ l =>
        let x := l.pat ty a * 2 ^ (l.pat .w32 b % ty.width)
        ⟨ty, BitVec.ofNat 64 (x % 2 ^ ty.width + x / 2 ^ ty.width)⟩)) ∧
    ((Instr.cmp ty cc a b).wf = true →
      Gives (.cmp ty cc a b) s (fun _ l =>
        let x := l.int ty a
        let y := l.int ty b
        mkB (match cc with
          | .eq => x = y
          | .ne => x ≠ y
          | .lt => x < y
          | .le => x ≤ y
          | .gt => y < x
          | .ge => y ≤ x))) ∧
    Gives (.sel ty c a b) s (fun _ l => if l.nat c % 2 = 1 then patTy ty (l.nat a) else patTy ty (l.nat b)) ∧
    Gives (.const ty v) s (fun _ _ => patTy ty v.toNat) ∧
    (∀ m, ty.width = 64 → s.module? s.sp.mh = some m →
      Gives (.constSymbol ty sec off) s (fun _ _ => ⟨ty, (match sec with
        | .data => m.dbase
        | .const => m.cbase
        | .tensor => m.tbase) + off.setWidth 64⟩))) ∧
  (∀ (s : State) (ty : Ty) (a b p q : Val), ty.isI = true →
    (∃ r : Lane → Nat, Gives (.popc ty a) s (fun _ l => ⟨ty, BitVec.ofNat 64 (r l)⟩) ∧
      ∀ l, r l = ((List.range ty.width).filter fun j => (l.pat ty a).testBit j).length) ∧
    (∃ r : Lane → Nat, Gives (.clz ty a) s (fun _ l => ⟨ty, BitVec.ofNat 64 (r l)⟩) ∧
      ∀ l, r l ≤ ty.width ∧ (∀ j, ty.width - r l ≤ j → (l.pat ty a).testBit j = false) ∧
        (r l < ty.width → (l.pat ty a).testBit (ty.width - 1 - r l) = true)) ∧
    (∃ r : Lane → Nat, Gives (.ctz ty a) s (fun _ l => ⟨ty, BitVec.ofNat 64 (r l)⟩) ∧
      ∀ l, r l ≤ ty.width ∧ (∀ j, j < r l → (l.pat ty a).testBit j = false) ∧
        (r l < ty.width → (l.pat ty a).testBit (r l) = true)) ∧
    (∃ r : Lane → Nat, Gives (.brev ty a) s (fun _ l => ⟨ty, BitVec.ofNat 64 (r l)⟩) ∧
      ∀ l j, (r l).testBit j = (decide (j < ty.width) && (l.pat ty a).testBit (ty.width - 1 - j))) ∧
    (∃ r : Lane → Int, Gives (.bfx ty a p q) s (fun _ l => wrTy ty (r l)) ∧
      ∀ l, let i := min (l.pat .w32 p) ty.width
        let n := min (l.pat .w32 q) (ty.width - i)
        let f : Int := (l.nat a / 2 ^ i % 2 ^ n : Nat)
        r l = if n = 0 then 0 else if ty.signed = true ∧ 2 ^ (n - 1) ≤ f then f - 2 ^ n else f) ∧
    (∃ r : Lane → Nat, Gives (.bfi ty a b p q) s (fun _ l => ⟨ty, BitVec.ofNat 64 (r l)⟩) ∧
      ∀ l j, let i := min (l.pat .w32 p) ty.width
        let n := min (l.pat .w32 q) (ty.width - i)
        (r l).testBit j = if i ≤ j ∧ j < i + n then (l.nat b).testBit (j - i) else (l.pat ty a).testBit j))

/-- R59 to R61, R162 to R167: each float instruction defines, per element of a packed type, the result of its operation in the format and ORs its status; the sign instructions only change sign bits and set no status; `fcmp` sets NV for a signalling NaN alone. R163: the functions of one operand, with the special results of the manual's table. -/
def Obligations.FloatInstructions : Prop :=
  (∀ (s : State) (ty : Ty) (rm : Rm) (cc : Fcc) (a b c : Val), (ty.isF || ty.isP) = true →
    Defines (.fadd ty rm a b) s (fun _ l => fl ty (per2 ty (fun f => fAdd f rm) (l.nat a) (l.nat b))) ∧
    Defines (.fsub ty rm a b) s (fun _ l => fl ty (per2 ty (fun f x y => fAdd f rm x (f.neg y)) (l.nat a) (l.nat b))) ∧
    Defines (.fmul ty rm a b) s (fun _ l => fl ty (per2 ty (fun f => fMul f rm) (l.nat a) (l.nat b))) ∧
    Defines (.fma ty rm a b c) s (fun _ l => fl ty (per3 ty (fun f => fFma f rm) (l.nat a) (l.nat b) (l.nat c))) ∧
    Defines (.fdiv ty rm a b) s (fun _ l => fl ty (per2 ty (fun f => fDiv f rm) (l.nat a) (l.nat b))) ∧
    Defines (.fsqrt ty rm a) s (fun _ l => fl ty (per1 ty (fun f => fSqrt f rm) (l.nat a))) ∧
    Defines (.fround ty rm a) s (fun _ l => fl ty (per1 ty (fun f => fRound f rm) (l.nat a))) ∧
    Defines (.fmin ty a b) s (fun _ l => fl ty (per2 ty fMin (l.nat a) (l.nat b))) ∧
    Defines (.fmax ty a b) s (fun _ l => fl ty (per2 ty fMax (l.nat a) (l.nat b))) ∧
    Gives (.fabs ty a) s (fun _ l => ⟨ty, BitVec.ofNat 64 (l.pat ty a &&& (2 ^ ty.width - 1 - signMask ty))⟩) ∧
    Gives (.fneg ty a) s (fun _ l => ⟨ty, BitVec.ofNat 64 (l.pat ty a ^^^ signMask ty)⟩) ∧
    Gives (.fcopysign ty a b) s (fun _ l => ⟨ty, BitVec.ofNat 64
      ((l.pat ty a &&& (2 ^ ty.width - 1 - signMask ty)) ||| (l.pat ty b &&& signMask ty))⟩) ∧
    (ty.isF = true → Defines (.fcmp ty cc a b) s (fun _ l =>
      ([mkB (fCond (fmtOf ty) cc (l.nat a) (l.nat b))],
        if (fmtOf ty).isSnan (l.nat a) || (fmtOf ty).isSnan (l.nat b) then fNV else 0)))) ∧
  ((∀ (s : State) (ty : Ty) (rm : Rm) (a : Val), (ty.isF || ty.isP) = true →
    Defines (.frcp ty rm a) s (fun _ l => fl ty (per1 ty (fun f => fRcp f rm) (l.nat a))) ∧
    Defines (.frsq ty rm a) s (fun _ l => fl ty (per1 ty (fun f => fRsq f rm) (l.nat a))) ∧
    (ty.isHP = true →
      Defines (.fexp2 ty a) s (fun _ l => fl ty (per1 ty fExp2 (l.nat a))) ∧
      Defines (.flog2 ty a) s (fun _ l => fl ty (per1 ty fLog2 (l.nat a))) ∧
      Defines (.fsin ty a) s (fun _ l => fl ty (per1 ty fSin (l.nat a))) ∧
      Defines (.fcos ty a) s (fun _ l => fl ty (per1 ty fCos (l.nat a))) ∧
      Defines (.ftanh ty a) s (fun _ l => fl ty (per1 ty fTanh (l.nat a))))) ∧
  (∀ f ∈ [f16F, bf16F, f32F, f64F], ∀ (rm : Rm) (sg : Bool),
    fRcp f rm (f.zero sg) = (f.inf sg, fDZ) ∧ fRcp f rm (f.inf sg) = (f.zero sg, 0) ∧
    fRsq f rm (f.zero sg) = (f.inf sg, fDZ) ∧ fRsq f rm (f.inf false) = (f.zero false, 0)) ∧
  (∀ f ∈ [f16F, bf16F, f32F], ∀ sg : Bool,
    fExp2 f (f.inf true) = (f.zero false, 0) ∧ fExp2 f (f.inf false) = (f.inf false, 0) ∧
    fExp2 f (f.zero sg) = (f.one, 0) ∧
    fLog2 f (f.zero sg) = (f.inf true, fDZ) ∧ fLog2 f (f.inf false) = (f.inf false, 0) ∧ fLog2 f f.one = (f.zero false, 0) ∧
    fSin f (f.zero sg) = (f.zero sg, 0) ∧ fSin f (f.inf sg) = (f.qnan, fNV) ∧
    fTanh f (f.zero sg) = (f.zero sg, 0) ∧ fTanh f (f.inf sg) = (f.one + f.zero sg, 0) ∧
    fCos f (f.zero sg) = (f.one, 0) ∧ fCos f (f.inf sg) = (f.qnan, fNV)))

/-- R61, R162, R164: a NaN operand gives the canonical quiet NaN of the format, with NV exactly when one is signalling; the invalid operations give it with NV; division of a finite non-zero value by zero gives the infinity of the exclusive-or of the signs with DZ. -/
def Obligations.FloatSpecialValues : Prop :=
  ∀ f ∈ [f16F, bf16F, f32F, f64F], ∀ (rm : Rm) (a b : Nat), a < 2 ^ f.width → b < 2 ^ f.width →
    ((f.isNan a || f.isNan b) = true →
      let r : FRes := (f.qnan, if f.isSnan a || f.isSnan b then fNV else 0)
      fAdd f rm a b = r ∧ fAdd f rm a (f.neg b) = r ∧ fMul f rm a b = r ∧ fDiv f rm a b = r ∧ fMin f a b = r ∧ fMax f a b = r) ∧
    (f.isInf a = true → f.isInf b = true →
      fDiv f rm a b = (f.qnan, fNV) ∧
      fAdd f rm a b = if f.sign a = f.sign b then (a, 0) else (f.qnan, fNV)) ∧
    (f.isZero a = true → f.isInf b = true → ∀ c,
      fMul f rm a b = (f.qnan, fNV) ∧ fMul f rm b a = (f.qnan, fNV) ∧ fFma f rm a b c = (f.qnan, fNV) ∧ fFma f rm b a c = (f.qnan, fNV)) ∧
    (f.isZero a = true → f.isZero b = true → fDiv f rm a b = (f.qnan, fNV)) ∧
    (f.isZero b = true → f.isNan a = false → f.isInf a = false → f.isZero a = false →
      fDiv f rm a b = (f.inf (f.sign a != f.sign b), fDZ)) ∧
    (f.isNan a = false → f.isZero a = false → f.sign a = true → fSqrt f rm a = (f.qnan, fNV) ∧ fRsq f rm a = (f.qnan, fNV)) ∧
    (f.isZero a = true → fSqrt f rm a = (a, 0)) ∧
    (f.isNan a = false → f.isNan b = false →
      (fCond f .lt a b, fCond f .eq a b, fCond f .gt a b) ∈ [(true, false, false), (false, true, false), (false, false, true)] ∧
      fCond f .uno a b = false)

/-- R59, R60: where the exact sum, product or quotient is not zero and is itself a value of the format, that value is the result in every mode and no status is set. `f.at x e` is the signed significand of `x` at exponent `e`. -/
def Obligations.FloatExactResults : Prop :=
  ∀ f ∈ [f16F, bf16F, f32F, f64F], ∀ (rm : Rm) (a b c x : Nat) (e : Int),
    a < 2 ^ f.width → b < 2 ^ f.width → c < 2 ^ f.width → x < 2 ^ f.width →
    f.expo a ≠ f.emask → f.expo b ≠ f.emask → f.expo c ≠ f.emask → f.expo x ≠ f.emask → f.isZero x = false →
    (e ≤ f.ex a → e ≤ f.ex b → e ≤ f.ex x → f.at a e + f.at b e = f.at x e → fAdd f rm a b = (x, 0)) ∧
    (e ≤ f.ex a + f.ex b → e ≤ f.ex x →
      (if f.sign a = f.sign b then 1 else -1) * ((f.sig a * f.sig b : Nat) : Int) * 2 ^ (f.ex a + f.ex b - e).toNat = f.at x e →
      fMul f rm a b = (x, 0)) ∧
    (e ≤ f.ex a + f.ex b → e ≤ f.ex c → e ≤ f.ex x →
      (if f.sign a = f.sign b then 1 else -1) * ((f.sig a * f.sig b : Nat) : Int) * 2 ^ (f.ex a + f.ex b - e).toNat + f.at c e = f.at x e →
      fFma f rm a b c = (x, 0)) ∧
    (f.isZero b = false → e ≤ f.ex x + f.ex b → e ≤ f.ex a →
      (if f.sign x = f.sign b then 1 else -1) * ((f.sig x * f.sig b : Nat) : Int) * 2 ^ (f.ex x + f.ex b - e).toNat = f.at a e →
      fDiv f rm a b = (x, 0))

/-- R166: `fclass` defines a w32 with exactly one bit set, by class: 0 −∞, 1 negative normal, 2 negative subnormal, 3 −0, 4 +0, 5 positive subnormal, 6 positive normal, 7 +∞, 8 signalling NaN, 9 quiet NaN; it sets no status. -/
def Obligations.FloatClasses : Prop :=
  ∀ (s : State) (ty : Ty) (a : Val), ty.isF = true →
    ∃ k : Lane → Nat, Gives (.fclass ty a) s (fun _ l => ⟨.w32, BitVec.ofNat 64 (2 ^ k l)⟩) ∧
      ∀ l, k l ≤ 9 ∧
        let f := fmtOf ty
        let x := l.nat a % 2 ^ ty.width
        let frac := x % 2 ^ f.fb
        (f.expo x = f.emask → frac = 0 → k l = if f.sign x then 0 else 7) ∧
        (f.expo x = f.emask → frac ≠ 0 → k l = if frac.testBit (f.fb - 1) then 9 else 8) ∧
        (f.expo x = 0 → frac = 0 → k l = if f.sign x then 3 else 4) ∧
        (f.expo x = 0 → frac ≠ 0 → k l = if f.sign x then 2 else 5) ∧
        (f.expo x ≠ 0 → f.expo x ≠ f.emask → k l = if f.sign x then 1 else 6)

/-- R168 to R170, R62: conversions by the type of the operand that the lane holds; `bitcast`, `pack` and `unpack` move bits. R171, R172, R66, R67: packing into and unpacking out of dual-exponent blocks; block j is lanes 32j to 32j + 31, its pair is computed over its active lanes, and lane l receives the pair of block l. -/
def Obligations.ConversionsAndBlocks : Prop :=
  (∀ (s : State) (ty : Ty) (clamp : Bool) (rm : Rm) (a b : Val),
    (∃ f : Nat → Lane → List TVal × W32, Defines (.cvt ty clamp rm a) s f ∧ ∀ i l,
      let x := readInt (l.val a).ty (l.nat a)
      let fa := fmtOf (l.val a).ty
      ((l.val a).ty.isL = true → ty.isI = true → clamp = false → f i l = ([wrTy ty x], 0)) ∧
      ((l.val a).ty.isL = true → ty.isI = true → clamp = true →
        f i l = ([wrTy ty (clampTy ty x)], if Ty.lo ty ≤ x ∧ x ≤ Ty.hi ty then 0 else fIS)) ∧
      ((l.val a).ty.isL = true → ty = .b1 → f i l = ([mkB (x ≠ 0)], 0)) ∧
      ((l.val a).ty.isF = true → ty.isI = true → fa.isNan (l.nat a) = true → f i l = ([⟨ty, 0⟩], fNV)) ∧
      ((l.val a).ty.isF = true → ty.isI = true → fa.isInf (l.nat a) = true →
        f i l = ([wrTy ty (if fa.sign (l.nat a) then Ty.lo ty else Ty.hi ty)], fNV)) ∧
      ((l.val a).ty.isF = true → ty.isI = true → fa.expo (l.nat a) ≠ fa.emask →
        let r := toInteger fa rm (l.nat a)
        f i l = if Ty.lo ty ≤ r.1 ∧ r.1 ≤ Ty.hi ty then ([wrTy ty r.1], if r.2 then fIX else 0)
          else ([wrTy ty (clampTy ty r.1)], fNV)) ∧
      ((l.val a).ty.isF = true → ty.isF = true → fa.isNan (l.nat a) = true →
        f i l = ([patTy ty (fmtOf ty).qnan], if fa.isSnan (l.nat a) then fNV else 0)) ∧
      ((l.val a).ty.isF = true → ty.isF = true → fa.isInf (l.nat a) = true →
        f i l = ([patTy ty ((fmtOf ty).inf (fa.sign (l.nat a)))], 0)) ∧
      ((l.val a).ty.isI = true → ty.isF = true → x = 0 → f i l = ([⟨ty, 0⟩], 0))) ∧
    (ty.isMem = true → Gives (.bitcast ty a) s (fun _ l => patTy ty (l.nat a))) ∧
    ((Instr.pack ty a b).wf = true →
      Gives (.pack ty a b) s (fun _ l => ⟨ty, BitVec.ofNat 64
        (l.nat a % 2 ^ (ty.width / 2) + 2 ^ (ty.width / 2) * (l.nat b % 2 ^ (ty.width / 2)))⟩) ∧
      Defines (.unpack ty a) s (fun _ l =>
        ([patTy (elemTy ty) (l.nat a), patTy (elemTy ty) (l.nat a / 2 ^ (ty.width / 2))], 0)))) ∧
  (∀ (s : State) (ty : Ty) (hi : Bool) (rm : Rm) (x old e sc : Val),
    Defines (.dxbPackElem ty x) s (fun i l =>
      let r := packElem (dxbK ty) (packPair (dxbK ty) (s.blockSrcs x (i / 32))) (srcOf l x)
      ([patTy ty r.1], if r.2 then fDX else 0)) ∧
    Gives (.dxbPackScale ty hi x old) s (fun i l =>
      if i < s.tr.width / 32 then
        patTy .w32 (if hi then l.nat old % 65536 + 65536 * (packPair (dxbK ty) (s.blockSrcs x i)).nat
          else l.nat old % 2 ^ 32 / 65536 * 65536 + (packPair (dxbK ty) (s.blockSrcs x i)).nat)
      else patTy .w32 (l.nat old)) ∧
    Defines (.dxbUnpack ty rm hi e sc) s (fun i l =>
      let src := if inMask s.sp.mask (i / 32) then (s.tr.lane (i / 32)).nat sc else l.nat sc
      fl ty (dxbTo (fmtOf ty) rm (dxbK (l.val e).ty) (src / (if hi then 65536 else 1) % 65536) (l.nat e))) ∧
    (∀ (f : FFmt) (k pair el : Nat), pair % 256 = 255 → dxbTo f rm k pair el = (f.qnan, fNV)) ∧
    (∀ (k : Nat) (xs : List DSrc), xs.any DSrc.isNan = true → packPair k xs = ⟨255, 255⟩) ∧
    ∀ (k : Nat) (xs : List DSrc), (packPair k xs).e1 ≤ (packPair k xs).e0)

/-- R173, R174, R176, R177: cross-lane instructions read the lanes of the split as they were before any result; a dead source of `shfl` gives zero and SD, a source outside the split or the segment gives the lane's own value. No lane here has a failed remote load. -/
def Obligations.LaneExchange : Prop :=
  ∀ (s : State) (ty : Ty) (mode : ShMode) (seg : Nat) (rop : RedOp) (rm : Rm) (ex wide : Bool) (v d : Val),
    (∀ i, (s.tr.lane i).late = none) →
    Defines (.shfl ty mode seg v d) s (fun i l =>
      let n := if seg = 0 then s.tr.width else min (2 ^ seg) s.tr.width
      match shflSrc mode n i (l.nat d % 2 ^ 32) with
      | none => ([patTy ty (l.nat v)], 0)
      | some t =>
        if inMask s.tr.dead t then ([⟨ty, 0⟩], fSD)
        else if inMask s.sp.mask t then ([patTy ty ((s.tr.lane t).nat v)], 0)
        else ([patTy ty (l.nat v)], 0)) ∧
    Defines (.redux ty rop rm v) s (fun _ _ =>
      fl ty ((redTree (redOp ty rop rm) (s.present v fun _ => true) (Nat.log2 s.tr.width) 0).getD (0, 0))) ∧
    Defines (.scan ty rop rm ex v) s (fun i _ =>
      fl ty ((redTree (redOp ty rop rm) (s.present v fun j => if ex then j < i else j ≤ i) (Nat.log2 s.tr.width) 0).getD (0, 0))) ∧
    (∃ t, exec (.rand wide v) s = .next t ∧ OnlyLanes s t s.ctx.next ∧
      ∀ i, i < s.tr.width → inMask s.sp.mask i = true →
        (t.tr.lane i).rand = (s.tr.lane i).rand + 1 ∧ (t.tr.lane i).sticky = (s.tr.lane i).sticky ∧
        ((s.tr.lane i).frames ≠ [] → (t.tr.lane i).val s.ctx.dst =
          let x := randDraw s.lch.region s.troopNum i ((s.tr.lane i).val v).v (s.tr.lane i).rand
          if wide then ⟨.w64, x⟩ else ⟨.w32, x >>> 32⟩))

/-- R175: `vote.any` defines 1 when c = 1 in at least one active lane, `vote.all` when in all, `vote.uni` when c is the same in all; bit i of `ballot` is 1 exactly when lane 32 × word + i is active and has c = 1, and a word at or above W ÷ 32 gives 0. A dead lane is in no split mask: its ballot bit is 0 and it changes none of the three. -/
def Obligations.VotesAndBallots : Prop :=
  ∀ (s : State) (op : VoteOp) (word : Fin 32) (c : Val), s.tr.width % 32 = 0 → (∀ i, (s.tr.lane i).late = none) →
    Gives (.vote op c) s (fun _ _ =>
      let holds (b : Bool) : Prop := ∀ i, i < s.tr.width → inMask s.sp.mask i = true → (s.tr.lane i).bool c = b
      match op with
      | .any => mkB (∃ i, i < s.tr.width ∧ inMask s.sp.mask i = true ∧ (s.tr.lane i).bool c = true)
      | .all => mkB (holds true)
      | .uni => mkB (holds true ∨ holds false)) ∧
    (∃ r : Nat, Gives (.ballot word c) s (fun _ _ => ⟨.w32, BitVec.ofNat 64 r⟩) ∧ r < 2 ^ 32 ∧
      (s.tr.width / 32 ≤ word.val → r = 0) ∧
      ∀ i, i < 32 → (r.testBit i = true ↔ s.active (32 * word.val + i) ∧ (s.tr.lane (32 * word.val + i)).bool c = true)) ∧
    ∀ l, inMask s.tr.dead l = true → s.sp.mask &&& s.tr.dead = 0 → l < 1024 → ¬ s.active l

/-- R196, R29: a transfer whose active lanes all take one edge moves the split to the target block and binds the edge's arguments, read before any is bound, to its parameters; nothing else changes. The split is ready and the target is not its join point. R29, R196: when the lanes of a `cbr` take both edges, two splits replace the executing one, each with the lanes that chose its edge and its block; they form a sibling group whose parent is the group the split was in and whose join point is that of the transfer. No other split of the troop waits, and neither target is that join point. R197, R402: when no lane of a `brx` has an index below N, the whole split takes BRX with N in XADDR; when some have one, they go along their edges and the others take BRX in a split of the same sibling group. -/
def Obligations.Branches : Prop :=
  (∀ (s : State), s.sp.st = .ready → (∃ l, l < s.tr.width ∧ inMask s.sp.mask l = true) →
    let all (p : Lane → Prop) : Prop := ∀ l, l < s.tr.width → inMask s.sp.mask l = true → p (s.tr.lane l)
    ∀ (e : Edge), ¬ s.joins e →
      Goes (.br e) s e ∧
      (∀ c f, all (fun l => l.bool c = true) → Goes (.cbr c e f) s e) ∧
      (∀ c f, all (fun l => l.bool c = false) → Goes (.cbr c f e) s e) ∧
      (∀ (ty : Ty) (v : Val) (d : Edge) (cs : List (W32 × Edge)),
        (cs.map fun c => c.1.toNat % 2 ^ ty.width).Nodup →
        (∀ k, (k, e) ∈ cs → all (fun l => l.pat ty v = k.toNat % 2 ^ ty.width) → Goes (.switch ty v d cs) s e) ∧
        (all (fun l => ∀ c ∈ cs, l.pat ty v ≠ c.1.toNat % 2 ^ ty.width) → Goes (.switch ty v e cs) s e)) ∧
      ∀ (i : Val) (es : List Edge) (j : Nat), es[j]? = some e → all (fun l => l.nat i = j) → Goes (.brx i es) s e) ∧
  (∀ (s : State) (c : Val) (e1 e0 : Edge),
    s.sp.st = .ready →
    (∀ p ∈ s.tr.splits, p.mask ≠ 0 ∧ p.joined = false ∧ p.converging = false ∧ p.sid < s.tr.nextId) →
    s.joinHere ≠ some (s.blockAt e1.blk).off → s.joinHere ≠ some (s.blockAt e0.blk).off →
    (∃ l, l < s.tr.width ∧ inMask s.sp.mask l = true ∧ (s.tr.lane l).bool c = true) →
    (∃ l, l < s.tr.width ∧ inMask s.sp.mask l = true ∧ (s.tr.lane l).bool c = false) →
    ∃ (t : State) (m1 m0 : Mask), exec (.cbr c e1 e0) s = .next t ∧
      (∀ l, inMask m1 l = (decide (l < s.tr.width) && inMask s.sp.mask l && (s.tr.lane l).bool c)) ∧
      (∀ l, inMask m0 l = (decide (l < s.tr.width) && inMask s.sp.mask l && !(s.tr.lane l).bool c)) ∧
      t = { s with sp := t.sp, tr := { s.tr with
        lanes := t.tr.lanes
        nextId := s.tr.nextId + 3
        groups := ⟨s.tr.nextId, s.sp.group, s.sp.mh, s.sp.func, s.joinHere, depthKey s.sup (s.tr.depth s.sp.mask), none⟩ :: s.tr.groups
        splits := s.tr.splits ++
          [{ s.sp with sid := s.tr.nextId + 2, mask := m0, group := s.tr.nextId, off := (s.blockAt e0.blk).off }] } } ∧
      t.sp = { s.sp with sid := s.tr.nextId + 1, mask := m1, group := s.tr.nextId, off := (s.blockAt e1.blk).off } ∧
      SameBytes s t ∧
      ∀ l, l < s.tr.width →
        (inMask m1 l = true → LaneDefines (s.tr.lane l) (t.tr.lane l) s.sup (s.blockAt e1.blk).val (e1.args.map (s.tr.lane l).val) 0) ∧
        (inMask m0 l = true → LaneDefines (s.tr.lane l) (t.tr.lane l) s.sup (s.blockAt e0.blk).val (e0.args.map (s.tr.lane l).val) 0) ∧
        (inMask s.sp.mask l = false → t.tr.lane l = s.tr.lane l)) ∧
  (∀ (s : State) (i : Val) (es : List Edge) (mh f : Nat), CanTrap s mh f →
    (∀ l, l < s.tr.width → inMask s.sp.mask l = true → es.length ≤ (s.tr.lane l).nat i) →
    (∀ l, inMask s.sp.mask l = true → l < s.tr.width) → s.sp.mask ≠ 0 →
    ∃ t, exec (.brx i es) s = .next t ∧
      TookTrap s t mh f (xcause 0x0C (s.isTerm s.sp.mh s.sp.func s.sp.off) false) s.sp.mask (BitVec.ofNat 64 es.length))

/-- R31: when every split of the only sibling group waits at the join point, they fuse into one split whose mask is the union of theirs, which goes on from the join point in the parent group; while one still runs, nothing fuses. R199, R27, R198, R407: in user mode, with no status still due, no lane newly dead and no report bit set, `exit` — and `ret` in a function entered by launch — takes the split's lanes out of the live mask; no lane's values and no byte of memory change. A report bit raises STICKY instead, HEADROOM where AS is set, in the lanes that report, and a new death raises DEADLANE first. R54, R199, R374, R443: once no troop of a camp has a live lane and all that its lanes issued is acknowledged, the camp ends: its contexts, scratchpad, tiles, residencies and area are given up, its trap areas are free again; with the last camp of a launch the launch's completion follows. Until then nothing happens. -/
def Obligations.GroupsAndExit : Prop :=
  (∀ (t : Troop) (g : Group) (p : Split) (r : List Split),
    t.groups = [g] → t.splits = p :: r → g.parent ≠ g.gid →
    (∀ q ∈ p :: r, q.group = g.gid ∧ q.mask ≠ 0 ∧ q.converging = false) →
    ((∀ q ∈ p :: r, q.joined = true) → ∃ q, t.settle = { t with splits := [q], groups := [] } ∧
      (∀ l, inMask q.mask l = true ↔ ∃ x ∈ p :: r, inMask x.mask l = true) ∧
      q.group = g.parent ∧ q.st = .ready ∧ (q.mh, q.func, q.off) = (p.mh, p.func, p.off)) ∧
    ((∃ q ∈ p :: r, q.joined = false) → t.settle = t)) ∧
  (∀ (s : State) (i : Instr), (i = .exit ∨ ∃ vs, i = .ret vs ∧ s.topFrame.root = true) →
    s.sup = false → s.dueBits s.sp.mask = none → s.dueCmd s.sp.mask = none →
    (s.tr.newDead = [] → (∀ l, l < s.tr.width → inMask s.sp.mask l = true → (s.tr.lane l).sticky &&& reportSet = 0) →
      ∃ t, exec i s = .next t ∧
        (∀ l, inMask t.tr.live l = (inMask s.tr.live l && !inMask s.sp.mask l)) ∧
        t.tr.lanes = s.tr.lanes ∧ t.tr.dead = s.tr.dead ∧
        t = { s with tr := t.tr, sp := t.sp, todo := t.todo } ∧
        (t.tr.live = 0 → Micro.troopEnd s.trRef ∈ t.todo)) ∧
    (s.tr.newDead ≠ [] → exec i s = .next (s.takeTrap cDEADLANE s.sp.mask s.tr.deadAddr)) ∧
    (s.tr.newDead = [] → (∃ l, l < s.tr.width ∧ inMask s.sp.mask l = true ∧ (s.tr.lane l).sticky &&& reportSet ≠ 0) →
      ∃ (m : Mask) (bits : W32),
        (∀ l, inMask m l = (decide (l < s.tr.width) && inMask s.sp.mask l && (s.tr.lane l).reports)) ∧
        (∀ k, bits.getLsbD k = true ↔ ∃ l, inMask m l = true ∧ ((s.tr.lane l).sticky &&& reportSet).getLsbD k = true) ∧
        exec i s = .next (s.takeTrap (if bits &&& fAS = 0 then cSTICKY else cHEADROOM) m (bits.setWidth 64)))) ∧
  (∀ (s : State) (r : TroopRef) (c : Camp), s.focused = false → (s.camps.map Camp.ref).Nodup → s.camps.find? (fun k => k.ref = r.camp) = some c →
    (s.campDone c = false → exec (.troopEnd r) s = .next s) ∧
    (s.campDone c = true → ∃ t, exec (.troopEnd r) s = .next t ∧ t.trapFree = s.trapFree + c.trapAreas ∧
      t.camps = s.camps.map (fun k => if k.ref = r.camp then { k with
        place := .ended, troops := [], scr := [], res := [], accs := [], pack := none, latches := [], area := none } else k) ∧
      t.todo = s.todo ++ if (∀ k ∈ s.camps, k.ref.lid = r.camp.lid → k.ref = r.camp ∨ k.place = .ended) then [.launchCompletion r.camp.lid] else []))

/-- R198, R250, R251: `call` enters block 0 of the callee with the arguments as parameters in a new activation that keeps the return point, the number of the first result and the frame pointer, where the callee's frame does not pass the area and its pages are mapped. The slots of the caller's frame that are not up to date and the link are written, to private memory in user mode and to the trap areas in supervisor mode; no other byte changes, and nothing of a lane that is not active. R198: `ret` pops the activation and defines the returned values of each lane in the caller, which goes on after the call; memory is unchanged. Where no sibling group waits at the end of the function and, in user mode, the link can be read. -/
def Obligations.CallsAndReturns : Prop :=
  (∀ (s : State) (f : Nat) (args : List Val) (m : Module),
    s.module? s.sp.mh = some m →
    let fp := s.topFrame.fp
    let own := s.frameMapOf s.sp.mh s.sp.func
    let callee := s.frameMapOf s.sp.mh f
    let nfp := frameAbove fp own.size
    let link := linkWord fp s.sp.func s.ctx.next s.tr.budget s.tr.tiles
    let ws := s.slotWrites fp (own.spillSlots ++ own.saveSlots) ++ s.linkWrites nfp link
    nfp + callee.size ≤ s.frameLimit →
    (s.sup = true ∨ ∀ l, s.active l → backing s.tr.width l (nfp + callee.imageBase - 1) / 65536 < s.tr.hwm) →
    ∃ t, exec (.call f args) s = .next t ∧
      t = { s with sp := t.sp, tr := { s.tr with lanes := t.tr.lanes }, mem := t.mem, poison := t.poison, camps := t.camps, cp := t.cp } ∧
      t.sp = { s.sp with func := f, off := 0, scal := setNum 31 (BitVec.ofNat 64 nfp) s.sp.scal } ∧
      (s.sup = true → t = { s with sp := t.sp, tr := t.tr }) ∧
      (s.sup = false → ∀ a, memRead t.mem a = (lastTo (ws.flatMap s.frameCells) a).getD (memRead s.mem a)) ∧
      (∀ l, s.active l → ∃ x : Lane,
        x = { s.tr.lane l with
          frames := ⟨s.sp.mh, f, s.sp.off, s.ctx.next, s.ctx.dst, nfp, false, [], false⟩ :: (s.tr.lane l).frames, saved := x.saved } ∧
        LaneDefines x (t.tr.lane l) s.sup (m.block f 0).val (args.map (s.tr.lane l).val) 0 ∧
        (s.sup = false → x.saved = (s.tr.lane l).saved) ∧
        (s.sup = true → x.saved = (s.tr.lane l).saved.map fun v => { v with area := areaAfter ws l v.area })) ∧
      ∀ l, inMask s.sp.mask l = false → t.tr.lane l = s.tr.lane l) ∧
  (∀ (s : State) (vs : List Val) (f c : Frame),
    s.topFrame = f → f.root = false → s.endsHere = false → ((s.tr.lane s.lead).frames.drop 1).head? = some c →
    (∀ l, l < s.tr.width → inMask s.sp.mask l = true → (s.tr.lane l).frames ≠ []) →
    (s.sup = true ∨ s.sp.grant = false ∧ s.sp.denied = false ∧
      ∀ l, l < s.tr.width → inMask s.sp.mask l = true → ∃ ps, s.check l (privVa f.fp) ⟨8, 2, 8, needR, 3⟩ = .ok ps) →
    ∃ t, exec (.ret vs) s = .next t ∧
      t = { s with
        sp := { s.sp with mh := c.mh, func := c.func, off := f.retOff, scal := setNum 31 (BitVec.ofNat 64 c.fp) s.sp.scal }
        tr := { s.tr with lanes := t.tr.lanes } } ∧
      (∀ l, l < s.tr.width → inMask s.sp.mask l = true → ∀ g r, (s.tr.lane l).frames = g :: r →
        LaneDefines { s.tr.lane l with frames := r } (t.tr.lane l) s.sup g.resNum (vs.map (s.tr.lane l).val) 0) ∧
      (∀ l, inMask s.sp.mask l = false → t.tr.lane l = s.tr.lane l) ∧
      SameBytes s t)

/-- R396, R397, R401, R402: taking a trap with a handler bound, in user mode, nothing still to land and a trap area free. The lanes of the trap mask enter block 0 of the handler in supervisor mode with XPC, XCAUSE, XADDR and XMASK set, s31 = 0 and their state saved; the other lanes go on from the trap point as a split of their own; nothing else changes but the free trap areas. R397, R401: a split that waits for its handler enters it, in a camp that is on its core, once its queue values, matrix rows and status have landed and a trap area is free: its lanes enter block 0 of the handler in supervisor mode with the saved position, cause and address, s31 is 0 and one trap area is taken; until then nothing happens. R400, R398: without a handler a report posts and its bits are cleared, and any other cause kills the launch; in supervisor mode a trap enters no handler and its lanes leave the live mask. -/
def Obligations.ExceptionEntry : Prop :=
  (∀ (s : State) (mh f cause : Nat) (m : Mask) (addr : W64) (late : Bool), CanTrap s mh f →
    let x := s.sp.mask &&& m
    let t := s.takeTrap cause m addr late
    TookTrap s t mh f (xcause cause (s.isTerm s.sp.mh s.sp.func s.sp.off) late) x addr ∧
    (cause < 256 → ∀ term, let w := xcause cause term late
      w.toNat % 256 = cause ∧ w.getLsbD 8 = (cause = 0x11 ∨ cause = 0x12 ∨ cause = 0x13) ∧
      w.getLsbD 9 = (cause ≠ 0x01 ∧ cause ≠ 0x20 ∧ cause ≠ 0x26) ∧
      w.getLsbD 10 = (term = false ∧ cause ∉ [0x01, 0x0C, 0x11, 0x12, 0x13, 0x20, 0x26]) ∧
      w.getLsbD 11 = late ∧ w.toNat < 2 ^ 12)) ∧
  (∀ (s f : State) (r : SplitRef) (q : TrapReq) (mh fn : Nat), s.focusOn r = some f → f.cp.resident = true → f.sp.st = .trap q →
    (f.tenantOf f.lch).bind Tenant.handler = some (mh, fn) →
    (f.trapFree ≠ 0 → f.sp.landed = true → f.statusDue = false →
      ∃ g : State, exec (.trapEntry r) s = .next g.unfocus ∧ g = { f with
          trapFree := f.trapFree - 1
          tr := { f.tr with lanes := g.tr.lanes }
          sp := { f.sp with
            mh := mh, func := fn, off := 0, st := .ready, loop := none, nat := none, scal := setNum 31 0 f.sp.scal, lq := [], fl := [], grant := false
            sup := some ⟨f.sp.func, q.off, f.sp.mh, q.cause, q.addr, f.sp.mask, f.sp.loop, f.sp.nat, f.sp.scal, f.sp.lq, f.sp.fl⟩ } } ∧
        ∀ l, l < f.tr.width → g.tr.lane l = if inMask f.sp.mask l then
            { f.tr.lane l with
              saved := some ⟨(f.tr.lane l).frames, (f.tr.lane l).k, (f.tr.lane l).g, [(8, 255), (9, 255), (10, 255)]⟩
              frames := [handlerFrame mh fn] }
          else f.tr.lane l) ∧
    (f.trapFree = 0 ∨ f.sp.landed = false ∨ f.statusDue = true → exec (.trapEntry r) s = .next f.unfocus)) ∧
  ((∀ (s : State) (code : Byte), s.sup = false → s.sp.nat = none → (s.tenantOf s.lch).bind Tenant.handler = none →
    ∃ t, exec (.trap code) s = .next t ∧
      (∀ l ∈ t.launches, l.lid = s.cp.ref.lid → l.killed = true) ∧
      (∀ l, l.lid ≠ s.cp.ref.lid → (l ∈ t.launches ↔ l ∈ s.launches)) ∧
      (∀ c ∈ t.camps, c.ref.lid = s.cp.ref.lid → c.place = .ended) ∧
      Micro.launchCompletion s.cp.ref.lid ∈ t.todo) ∧
  (∀ (s : State) (m : Mask) (addr : W64), s.sup = false → s.sp.nat = none → (s.tenantOf s.lch).bind Tenant.handler = none →
    let t := s.takeTrap cSTICKY m addr
    ∀ l, l < s.tr.width → t.tr.lane l =
      if inMask m l then { s.tr.lane l with sticky := (s.tr.lane l).sticky &&& ~~~reportSet } else s.tr.lane l) ∧
  ∀ (s : State) (code : Byte) (x : Sup), s.sp.sup = some x → s.sp.nat = none →
    ∃ t, exec (.trap code) s = .next t ∧ ∀ l, inMask t.tr.live l = (inMask s.tr.live l && !inMask s.sp.mask l))

/-- R200: `trap` takes TRAP in the lanes of the executing split with the code in XADDR, the other bits zero; `brk` stops the split with cause BREAK where a debugger is attached to the region; where none is, and in a handler (R398), it has no effect; neither is a terminator. A handler's `xret.next` resumes the split with the instruction after the trap, and a split resumed by the debugger goes on after the `brk`. -/
def Obligations.TrapAndBreak : Prop :=
  (∀ (s : State) (code : Byte) (mh f : Nat), CanTrap s mh f →
    ∃ t, exec (.trap code) s = .next t ∧
      TookTrap s t mh f (xcause 0x0D (s.isTerm s.sp.mh s.sp.func s.sp.off) false) s.sp.mask (code.setWidth 64)) ∧
  (∀ (s : State), (∀ d ∈ s.dbgs, d.region ≠ s.lch.region) ∨ s.sup = true →
    exec .brk s = .next { s with sp := { s.sp with off := s.ctx.next, passBrk := false } }) ∧
  (∀ (s : State) (d : Dbg), d ∈ s.dbgs → d.region = s.lch.region → s.sup = false → s.sp.passBrk = false →
    ∃ t, exec .brk s = .next t ∧ t.sp = { s.sp with stop := some .brk, toPoint := false } ∧
      t = { s with sp := t.sp, tr := { s.tr with splits := t.tr.splits } } ∧
      ∀ p ∈ t.tr.splits, p.stop ≠ none) ∧
  (∀ code, termEdges (.trap code) = none) ∧ termEdges .brk = none ∧
  (∀ (s : State) (x : Sup) (off len val : Nat) (code : Byte), s.sp.sup = some x → x.nat = none →
    x.cause = xcause 0x0D false false → s.itemAt x.mh x.func x.off = some ⟨off, len, val, .instr (.trap code)⟩ →
    ∃ t, exec .xretNext s = .next t ∧ OnlyLanes (s.resumeTrap x) t (off + 4 * len) ∧ t.sp.sup = none ∧
      t.sp.st = .ready ∧ t.sp.func = x.func ∧ t.sp.mh = x.mh) ∧
  (∀ (p : Split), p.stop = some .brk → p.resume.passBrk = true ∧ p.resume.stop = none ∧ p.resume.off = p.off) ∧
  (∀ (s : State), s.sp.passBrk = true →
    exec .brk s = .next { s with sp := { s.sp with off := s.ctx.next, passBrk := false } })

/-- R399, R407, R286: `xret.retry` and `xret.next`, where the cause allows them, restore the split from its trap area at the trap point, or after it, with STUBV.CAUSE 5, leave supervisor mode, and release the trap area with the last split of the handler. Retry after STICKY or HEADROOM clears the report bits of the lanes, after DEADLANE the death count; next goes past the instruction, whose results are all zero, unless the trap was late. A form not allowed raises the cause again. -/
def Obligations.ExceptionReturn : Prop :=
  ∀ (s : State) (x : Sup), s.sp.sup = some x →
    let u := s.resumeTrap x
    let c := x.cause.toNat % 256
    (∀ l, l < s.tr.width → inMask s.sp.mask l = true → ∀ v, (s.tr.lane l).saved = some v →
      u.tr.lane l = { s.tr.lane l with frames := v.frames, k := v.k, g := v.g, saved := none }) ∧
    (∀ l, inMask s.sp.mask l = false → u.tr.lane l = s.tr.lane l) ∧
    u.sp = { s.sp with
      mh := x.mh, func := x.func, off := x.off, st := .ready, loop := x.loop, nat := x.nat, scal := x.scal
      lq := x.lq, fl := x.fl, sup := none, group := u.sp.group } ∧
    u.tr.stubv.toNat / 2 ^ 16 % 256 = 5 ∧
    u = { s with sp := u.sp, tr := { s.tr with lanes := u.tr.lanes, stubv := u.tr.stubv }, trapFree := u.trapFree } ∧
    (u.trapFree = s.trapFree + (if s.tr.splits.any (fun p => p.sup.isSome && p.sup = s.sp.sup) then 0 else 1)) ∧
    (x.cause.getLsbD 9 = true → ∃ t, exec .xretRetry s = .next t ∧
      (c ∉ [0x11, 0x12, 0x13] → t = { u with sp := { u.sp with grant := t.sp.grant } }) ∧
      (c = 0x12 → t = { u with tr := { u.tr with newDead := [] } }) ∧
      (c = 0x11 ∨ c = 0x13 → t = { u with tr := { u.tr with lanes := t.tr.lanes } } ∧
        ∀ l, l < s.tr.width → t.tr.lane l =
          if inMask s.sp.mask l then { u.tr.lane l with sticky := (u.tr.lane l).sticky &&& ~~~reportSet } else u.tr.lane l)) ∧
    (x.cause.getLsbD 9 = false → exec .xretRetry s = .next (u.takeTrap c s.sp.mask x.addr (x.cause.getLsbD 11))) ∧
    (x.cause.getLsbD 10 = false → exec .xretNext s = .next (u.takeTrap c s.sp.mask x.addr (x.cause.getLsbD 11))) ∧
    (x.cause.getLsbD 10 = true → x.cause.getLsbD 11 = true → exec .xretNext s = .next u) ∧
    (x.cause.getLsbD 10 = true → x.cause.getLsbD 11 = false → x.nat = none →
      ∀ off len dst ty a b, s.itemAt x.mh x.func x.off = some ⟨off, len, dst, .instr (.add ty a b)⟩ →
        ∃ t, exec .xretNext s = .next t ∧ OnlyLanes u t (off + 4 * len) ∧
          ∀ l, l < s.tr.width → inMask s.sp.mask l = true → LaneDefines (u.tr.lane l) (t.tr.lane l) true dst [⟨ty, 0⟩] 0)

/-- R181, R182, R112: `ld` and `ldv` whose checks pass define, in each active lane, the elements at its address read as TY; memory is unchanged. Earlier stores of the core that overlap, or that the order asks for, have committed, and no element lies with a peer. -/
def Obligations.Loads : Prop :=
  ∀ (s : State) (i : Instr) (ty : Ty) (count : Nat) (m : MemOpnd) (ps : Nat → List Spot),
    (i = .ld ty m ∧ count = 1 ∨ ∃ n, i = .ldv ty n m ∧ count = 2 ^ n) →
    Placed s ty count (fun l => l.ea m) needR 0 ps → s.NoOverlap ps → s.OrderMet m.ord → (∀ q ∈ s.reqs, q.ofSplit s.spRef = false) →
    ∃ t, exec i s = .next t ∧ AccessFrame s t m.ord ∧ t.cp = s.cp ∧ t.stores = s.stores ∧ t.sp.loop = s.sp.loop ∧
      ∀ l, s.active l → LaneDefines { s.tr.lane l with seen := (t.tr.lane l).seen } (t.tr.lane l) s.sup s.ctx.dst
        ((ps l).map fun p => patTy ty (s.readPlace p ty.bytes)) 0

/-- R181, R182, R82: `st` and `stv` whose checks pass: scratchpad bytes are written at once, bytes of memory go into stores that have yet to commit, and where lanes write the same byte the highest lane decides; no register, value or byte of memory changes. In a stream loop the bytes that are replaced are kept for its input streams. R101, R114, R122: the commit of the first store of the list makes exactly its bytes visible, each at the value of the store, raises the Groundsheet's SEEN, which its acknowledgement gives to the storing lane, and marks stale each residency that watches one of them. -/
def Obligations.Stores : Prop :=
  (∀ (s : State) (i : Instr) (ty : Ty) (count : Nat) (m : MemOpnd) (ps : Nat → List Spot) (vs : Lane → List Nat),
    ((∃ v, i = .st ty m v ∧ count = 1 ∧ vs = fun l => [l.nat v]) ∨
      ∃ n us, i = .stv ty n m us ∧ count = 2 ^ n ∧ vs = fun l => us.map l.nat) →
    Placed s ty count (fun l => l.ea m) needW 1 ps → s.OrderMet m.ord →
    let lanes := lanesOf s.tr.width s.sp.mask
    ∃ (t : State) (new : List Pending), exec i s = .next t ∧ AccessFrame s t m.ord ∧
      (∀ l, s.active l → t.tr.lane l = { s.tr.lane l with seen := (t.tr.lane l).seen }) ∧
      t.stores = s.stores ++ new ∧
      (∀ q ∈ new, q.core = s.cp.core ∧ q.by_ = some s.trRef ∧ q.ord = m.ord ∧ s.active q.lane) ∧
      (∀ a, lastTo (new.flatMap Pending.bytes) a =
        lastTo (lanes.flatMap fun l => storeCells ty.bytes (ps l) (vs (s.tr.lane l))) a) ∧
      t.cp = { s.cp with scr := t.cp.scr } ∧
      ∀ o, memRead t.cp.scr o =
        (lastTo (lanes.flatMap fun l => scratchCells ty.bytes (ps l) (vs (s.tr.lane l))) o).getD (memRead s.cp.scr o)) ∧
  (∀ (s : State) (p : Pending) (r : List Pending), s.stores = p :: r →
    ∃ t, exec (.storeCommit 0) s = .next t ∧
      t.stores = r ∧
      (∀ a, memRead t.mem a = (lastTo p.bytes a).getD (memRead s.mem a)) ∧
      t.gseen = maxW s.gseen p.seen ∧
      t.sp = s.sp ∧ t.tr = { s.tr with lanes := t.tr.lanes } ∧ t.camps.length = s.camps.length ∧
      t = { s with stores := r, mem := t.mem, gseen := t.gseen, poison := t.poison, camps := t.camps, tr := t.tr, cp := { s.cp with res := t.cp.res, troops := t.cp.troops } } ∧
      (∀ l, l < s.tr.width → t.tr.lane l =
        if s.focused = true ∧ p.by_ = some s.trRef ∧ l = p.lane then { s.tr.lane l with seen := maxW (s.tr.lane l).seen t.gseen } else s.tr.lane l) ∧
      (∀ c ∈ t.camps, ∀ x ∈ c.res, ∀ ws, x.watch = some ws → (∃ b ∈ p.bytes, ∃ w ∈ ws, w.1 ≤ b.1 ∧ b.1 < w.2) → x.stale ≠ none) ∧
      (∀ ln ∈ s.poison, ln ∉ t.poison → ∀ k < 64, ∃ b ∈ p.bytes, b.1 = 64 * ln + k))

/-- R183, R184: `atom` in a launch that is not DET, all lanes naming one location: each active lane defines the old value that its own operation read, lanes in ascending order, and the location ends with the last new value. No other byte changes. R185, R123: in a DET launch a floating `atom` is recorded, one entry for each active lane in lane order under one sequence number with the rounding mode that it names, and defines +0; no location is read or written. -/
def Obligations.Atomics : Prop :=
  (∀ (s : State) (ty : Ty) (op : AtomOp) (m : MemOpnd) (v : Val) (new : Option Val) (p : Spot),
    (Instr.atom ty op m v new).wf = true → s.lch.det = false →
    Placed s ty 1 (fun l => l.ea m) needA 2 (fun _ => [p]) → s.NoOverlap (fun _ => [p]) → s.OrderMet m.ord → (∀ q ∈ s.reqs, q.ofSplit s.spRef = false) →
    (∀ bs, p = .phys bs → bs.Nodup ∧ bs.length = ty.bytes) →
    let one (old l : Nat) : Nat := atomNew op ty old ((s.tr.lane l).nat v) ((new.map (s.tr.lane l).nat).getD 0) % 2 ^ ty.width
    let upto (l : Nat) : Nat := ((lanesOf s.tr.width s.sp.mask).filter fun k => k < l).foldl one (s.readPlace p ty.bytes)
    ∃ t, exec (.atom ty op m v new) s = .next t ∧
      t.sp = { s.sp with off := s.ctx.next } ∧ t.tr = { s.tr with lanes := t.tr.lanes } ∧ t.stores = s.stores ∧
      t.readPlace p ty.bytes = upto s.tr.width ∧
      (∀ a, (∀ bs, p = .phys bs → a ∉ bs) → memRead t.mem a = memRead s.mem a) ∧
      (∀ o, (∀ q, p = .scratch q → o < q ∨ q + ty.bytes ≤ o) → memRead t.cp.scr o = memRead s.cp.scr o) ∧
      (∀ l, s.active l → LaneDefines { s.tr.lane l with seen := (t.tr.lane l).seen } (t.tr.lane l) s.sup s.ctx.dst [patTy ty (upto l)] 0) ∧
      ∀ l, inMask s.sp.mask l = false → t.tr.lane l = s.tr.lane l) ∧
  (∀ (s : State) (ty : Ty) (rm : Rm) (m : MemOpnd) (v : Val) (ps : Nat → List Spot),
    s.lch.det = true → Placed s ty 1 (fun l => l.ea m) needRec 2 ps → s.NoOverlap ps → s.OrderMet m.ord →
    ∃ t, exec (.atom ty (.fadd rm) m v none) s = .next t ∧ AccessFrame s t m.ord ∧ t.stores = s.stores ∧
      t.cp = { s.cp with orb := t.cp.orb, nextOrb := s.cp.nextOrb + 1 } ∧
      t.cp.orb = s.cp.orb ++ (lanesOf s.tr.width s.sp.mask).map (fun l =>
        ⟨BitVec.ofNat 64 ((s.tr.lane l).ea m), ty, ((s.tr.lane l).val v).v, rm, s.tr.mem, l, s.cp.nextOrb, s.sp.func, s.sp.off, []⟩) ∧ t.sp.loop = s.sp.loop ∧
      ∀ l, s.active l → LaneDefines { s.tr.lane l with seen := (t.tr.lane l).seen } (t.tr.lane l) s.sup s.ctx.dst [⟨ty, 0⟩] 0)

/-- R180, R418, R419: where the check of some active lane fails, exactly the lanes whose failure comes first in the order of causes take that cause, XADDR naming the lowest of them, and the load has no other effect. -/
def Obligations.AccessTraps : Prop :=
  ∀ (s : State) (ty : Ty) (m : MemOpnd) (mh f : Nat) (bad : Mask) (fault : LFault) (low : Nat), CanTrap s mh f →
    s.sp.grant = false → s.sp.denied = false → s.active low →
    s.check low ((s.tr.lane low).ea m) ⟨ty.bytes, 1, ty.bytes, needR, 0⟩ = .error fault →
    (∀ l, inMask bad l = true ↔ s.active l ∧ ∃ e, s.check l ((s.tr.lane l).ea m) ⟨ty.bytes, 1, ty.bytes, needR, 0⟩ = .error e ∧ e.cause = fault.cause) →
    (∀ l, s.active l → ∀ e, s.check l ((s.tr.lane l).ea m) ⟨ty.bytes, 1, ty.bytes, needR, 0⟩ = .error e →
      e.cause = fault.cause ∧ low ≤ l ∨ causeRank fault.cause < causeRank e.cause) →
    ∃ t, exec (.ld ty m) s = .next t ∧
      TookTrap s t mh f (xcause fault.cause (s.isTerm s.sp.mh s.sp.func s.sp.off) false) (s.sp.mask &&& bad)
        (memAddr fault.addr fault.sub 0 low)

/-- R110, R112, R114, R186, R187: a fence that has nothing to wait for changes only SEEN; one that releases and has a store that has not committed lets it commit first; `prefetch` changes nothing; `tier` sets the access counters of the granules of migrate ranges that a lane's span overlaps to 255 or 0, and no other. -/
def Obligations.FencesAndHints : Prop :=
  ∀ (s : State) (o : Ord) (sc : Scope) (k : Bool) (a n : Val),
    (s.FenceMet o → ∃ t, exec (.fence o sc) s = .next t ∧ AccessFrame s t o ∧ t.cp = s.cp ∧ t.stores = s.stores ∧ t.sp.loop = s.sp.loop ∧
      (∀ l, s.active l → t.tr.lane l = { s.tr.lane l with seen := (t.tr.lane l).seen })) ∧
    (∀ n, s.unbound s.sp.mask = none → releases o = true → s.pendingOf s.sp.mask = some n → exec (.fence o sc) s = .next (s.push (.storeCommit n))) ∧
    exec (.prefetch k a) s = .next { s with sp := { s.sp with off := s.ctx.next } } ∧
    ∃ t, exec (.tier k a n) s = .next t ∧
      t = { s with sp := { s.sp with off := s.ctx.next }, counters := t.counters } ∧
      ∀ g, let hit := ∃ l, s.active l ∧ (s.tr.lane l).nat n ≠ 0 ∧ tagOf ((s.tr.lane l).nat a) = 0 ∧
          ∃ x ∈ s.migGranules s.lch.tree ((s.tr.lane l).nat a / 65536 * 65536) ((s.tr.lane l).nat a + (s.tr.lane l).nat n),
            fld x.2.2 16 32 = g
        (hit → (t.counters.find? fun c => c.1 = g) = some (g, if k then 0 else 255)) ∧
        (¬ hit → (t.counters.find? fun c => c.1 = g) = s.counters.find? fun c => c.1 = g)

/-- R190, R191, R192, R193, R115, R116: barrier instructions on a valid word that no peer holds, the troop converged in user mode with no status due, no report and no recorded reduction. An arrival counts the troop once, flips the phase when it is the last and no bytes are owed, records the last arrival and defines the old phase; a wait ends when the phase differs from its reference. Only the word changes in memory. -/
def Obligations.Barriers : Prop :=
  ∀ (s : State) (b : Val) (p : Spot), WordAt s (s.scalar b) p → s.sup = false →
    let w := BWord.ofNat (s.readPlace p 8)
    (∀ (n : Option Val) (e : Nat), s.Converged → s.Unreported → e = s.scalarD n → e < 2 ^ 24 → wordOk (s.readPlace p 8) = true →
      let bal := w.bal + e
      let done := w.parr ≤ 1 ∧ bal = 0
      let after (t : State) : Prop := OnlyWord s t p ∧
        t.tr.larr = some (BitVec.ofNat 64 (s.scalar b), w.phase) ∧
        BWord.ofNat (t.readPlace p 8) =
          (if done then ⟨!w.phase, w.expect, w.expect, 0, w.scope⟩
           else ⟨w.phase, w.expect, w.parr - 1, if bal < -(2 ^ 24 - 1) then -(2 ^ 24 - 1) else if 2 ^ 24 - 1 < bal then 2 ^ 24 - 1 else bal, w.scope⟩)
      (∃ t, exec (.barArrive b n) s = .next t ∧ after t ∧ t.sp = { s.sp with off := s.ctx.next } ∧
        ∀ l, s.active l → LaneDefines { s.tr.lane l with seen := (t.tr.lane l).seen } (t.tr.lane l) false s.ctx.dst [mkB w.phase] 0) ∧
      ∀ i, i = .barSync b n ∨ i = .stepSync b n ∧ s.readsLeft = false →
        ∃ t, exec i s = .next t ∧ after t ∧
          (∀ l, t.tr.lane l = { s.tr.lane l with seen := (t.tr.lane l).seen }) ∧
          t.sp = if done then { s.sp with off := s.ctx.next }
            else { s.sp with st := .barrier (BitVec.ofNat 64 (s.scalar b)) w.phase }) ∧
    (s.Converged → wordOk (s.readPlace p 8) = true → s.FenceMet .rel → ∀ (ph : Option Val) (ref : Bool),
      ref = (match ph with
        | some v => (s.tr.lane s.lead).bool v
        | none => match s.tr.larr with
          | some (a, x) => if a = BitVec.ofNat 64 (s.scalar b) then x else w.phase
          | none => w.phase) →
      ∃ t, exec (.barWait b ph) s = .next t ∧ SameBytes s t ∧ t.cp = s.cp ∧
        (∀ l, t.tr.lane l = { s.tr.lane l with seen := (t.tr.lane l).seen }) ∧
        t.sp = if w.phase = ref then { s.sp with st := .barrier (BitVec.ofNat 64 (s.scalar b)) ref } else { s.sp with off := s.ctx.next }) ∧
    (wordOk (s.readPlace p 8) = true → s.FenceMet .rel → ∀ (ph : Val),
      ∃ t, exec (.barTry b ph) s = .next t ∧ SameBytes s t ∧ t.cp = s.cp ∧ t.sp = { s.sp with off := s.ctx.next } ∧
        ∀ l, s.active l → LaneDefines { s.tr.lane l with seen := (t.tr.lane l).seen } (t.tr.lane l) false s.ctx.dst
          [mkB (w.phase ≠ (s.tr.lane s.lead).bool ph)] 0) ∧
    (s.OrderMet .rel → ∀ (sc : Scope) (e : Val), 1 ≤ s.scalar e → s.scalar e ≤ 4095 →
      ∃ t, exec (.barInit sc b e) s = .next t ∧ OnlyWord s t p ∧ t.sp = { s.sp with off := s.ctx.next } ∧
        (∀ l, t.tr.lane l = { s.tr.lane l with seen := (t.tr.lane l).seen }) ∧
        BWord.ofNat (t.readPlace p 8) = ⟨false, s.scalar e, s.scalar e, 0, sc.code⟩) ∧
    (s.Converged → s.readsLeft = true → ∀ n, exec (.stepSync b n) s = .next { s with sp := { s.sp with st := .srcReads } })

/-- R33: a split that reaches a troop-unit barrier while another split of its troop is elsewhere waits there and changes nothing else. R398, R201, R389: in supervisor mode a barrier instruction raises PRIV as a nested trap: the lanes leave the live mask, and no scratchpad byte changes. -/
def Obligations.BarrierWaits : Prop :=
  (∀ (s : State) (i : Instr), (∃ b n, i = .barArrive b n ∨ i = .barWait b n ∨ i = .barSync b n ∨ i = .stepSync b n) →
    s.sup = false → s.sp.mask ≠ 0 → s.sp.joined = false →
    (∀ q ∈ s.tr.splits, q.mask ≠ 0 ∧ q.joined = false ∧ q.sid ≠ s.sp.sid) → (∃ q ∈ s.tr.splits, q.converging = false) →
    ∃ t, exec i s = .next t ∧ t = { s with sp := { s.sp with st := .converge s.sp.off } }) ∧
  (∀ (s : State) (i : Instr) (x : Sup), s.sp.sup = some x → s.sp.nat = none →
    (∃ b c n ph sc, i = .barArrive b n ∨ i = .barWait b n ∨ i = .barSync b n ∨ i = .stepSync b n ∨ i = .barTry b ph ∨ i = .barInit sc b c) →
    ∃ t, exec i s = .next t ∧ t.cp.scr = s.cp.scr ∧ ∀ l, inMask t.tr.live l = (inMask s.tr.live l && !inMask s.sp.mask l))

/-- R202, R24, R401: the value that each lane reads of every architected register; the supervisor's registers read 0 in user mode. R202, R286: in supervisor mode a write to XSTAT clears in each active lane the bits that its operand has set, and a 1 in STUBV.RQ of any active lane asks every split of the troop to enter the stub. R201, R389: in user mode the supervisor's instructions take PRIV in the executing split's mask, with the operation and its SX in XADDR, and do nothing else. -/
def Obligations.SystemRegisters : Prop :=
  (∀ (s : State) (r : SysReg),
    Gives (.sysRd r) s (fun l x => match r with
      | .laneid => patTy .w32 l
      | .width => patTy .w32 s.tr.width
      | .troopid => patTy .w32 (s.cp.ref.camp * s.lch.campsize + s.tr.mem)
      | .campid => patTy .w32 (s.cp.ref.camp + 2 ^ 24 * s.tr.mem)
      | .regionid => patTy .w32 s.lch.region
      | .diekind => patTy .w32 (diekindOf s.cp.core)
      | .stamp => ⟨.w64, s.stamp⟩
      | .rope => ⟨.w32, s.tr.rope.setWidth 64⟩
      | .xstat => ⟨.w32, x.sticky.setWidth 64⟩
      | .opreq => patTy .w32 (s.coreOf s.cp.core).opreq
      | .stubv => if s.sup then ⟨.w64, s.tr.stubv⟩ else ⟨.w64, 0⟩
      | .xpc => match s.sp.sup with
        | some e => patTy .w64 (e.func * 2 ^ 24 + e.off)
        | none => ⟨.w64, 0⟩
      | .xcause => match s.sp.sup with
        | some e => ⟨.w32, e.cause.setWidth 64⟩
        | none => ⟨.w32, 0⟩
      | .xaddr => match s.sp.sup with
        | some e => ⟨.w64, e.addr⟩
        | none => ⟨.w64, 0⟩
      | .xmaskSum => match s.sp.sup with
        | some e => patTy .w32 (maskSummary e.mask)
        | none => ⟨.w32, 0⟩
      | .xmask j => match s.sp.sup with
        | some e => patTy .w32 (e.mask.toNat / 2 ^ (32 * j.val))
        | none => ⟨.w32, 0⟩) ∧
    ∀ (m : Mask) (j : Nat), (maskSummary m).testBit j = (decide (j < 32) && decide (m.toNat / 2 ^ (32 * j) % 2 ^ 32 ≠ 0))) ∧
  (∀ (s : State) (v : Val), s.sup = true →
    (∃ t, exec (.sysWrXstat v) s = .next t ∧ OnlyLanes s t s.ctx.next ∧ ∀ l, s.active l → ∀ k < 32,
      t.tr.lane l = { s.tr.lane l with sticky := (t.tr.lane l).sticky } ∧
      (t.tr.lane l).sticky.getLsbD k = ((s.tr.lane l).sticky.getLsbD k && !((s.tr.lane l).val v).v.getLsbD k)) ∧
    ((∀ l, s.active l → (s.tr.lane l).nat v % 2 = 0) →
      exec (.sysWrStubv v) s = .next { s with sp := { s.sp with off := s.ctx.next } }) ∧
    ((∃ l, s.active l ∧ (s.tr.lane l).nat v % 2 = 1) → ∃ t, exec (.sysWrStubv v) s = .next t ∧
      t = { s with
        sp := { s.sp with off := s.ctx.next, rq := true }
        tr := { s.tr with stubv := t.tr.stubv, splits := t.tr.splits } } ∧
      t.tr.stubv.getLsbD 0 = true ∧ (∀ k, 1 ≤ k → t.tr.stubv.getLsbD k = s.tr.stubv.getLsbD k) ∧
      t.tr.splits = s.tr.splits.map fun p => { p with rq := true })) ∧
  (∀ (s : State) (i : Instr) (op sx mh f : Nat), CanTrap s mh f →
    (i = .xretRetry ∧ (op, sx) = (0xF4, 0) ∨ i = .xretNext ∧ (op, sx) = (0xF4, 1) ∨
      (∃ v, i = .sysWrXstat v) ∧ (op, sx) = (0xF1, 0x0A) ∨ (∃ v, i = .sysWrStubv v) ∧ (op, sx) = (0xF1, 0x0D) ∨
      (∃ a n, i = .tlbInv false a n) ∧ (op, sx) = (0xF5, 2) ∨ (∃ a n, i = .tlbInv true a n) ∧ (op, sx) = (0xF5, 3)) →
    ∃ t, exec i s = .next t ∧
      TookTrap s t mh f (xcause 0x15 (s.isTerm s.sp.mh s.sp.func s.sp.off) false) s.sp.mask (BitVec.ofNat 64 (op + 256 * sx)))

/-- R205, R206, R208, R209, R343: `stamp` defines one reading of STAMP; `stamp.sc` one not below it, after the split's stores; `yield` defines 0 when no camp waits for the core at this priority, asks for the camp to be taken off when one does, and defines 1 after it has been; `tlb.inv` drops every translation of the lanes' ranges and no other; `op.req` posts the clipped point, or nothing above 7. -/
def Obligations.SystemInstructions : Prop :=
  (∀ (s : State), Gives .stamp s fun _ _ => ⟨.w64, s.stamp⟩) ∧
  (∀ (s : State), s.FenceMet .sc → ∃ (t : State) (x : W64), exec .stampSc s = .next t ∧ AccessFrame s t .sc ∧ t.cp = s.cp ∧ t.stores = s.stores ∧ t.sp.loop = s.sp.loop ∧
    s.stamp ≤ x ∧ x ≤ t.gseen ∧
    ∀ l, s.active l → LaneDefines { s.tr.lane l with seen := (t.tr.lane l).seen } (t.tr.lane l) s.sup s.ctx.dst [⟨.w64, x⟩] 0) ∧
  (∀ (s : State), s.sup = false → s.sp.yielded = false → s.offerTaken = false →
    ∃ t, exec .yield s = .next t ∧ SameBytes s t ∧
      t.sp = { s.sp with off := s.ctx.next, aged := false, issued := (s.coreOf s.cp.core).issues } ∧
      ∀ l, s.active l → LaneDefines (s.tr.lane l) (t.tr.lane l) false s.ctx.dst [mkB false] 0) ∧
  (∀ (s : State), s.sup = false → s.sp.yielded = true →
    ∃ t, exec .yield s = .next t ∧ SameBytes s t ∧
      t.sp = { s.sp with off := s.ctx.next, yielded := false, aged := false, issued := (s.coreOf s.cp.core).issues } ∧
      ∀ l, s.active l → LaneDefines (s.tr.lane l) (t.tr.lane l) false s.ctx.dst [mkB true] 0) ∧
  (∀ (s : State), s.sup = false → s.sp.yielded = false → s.offerTaken = true →
    ∃ t, exec .yield s = .next t ∧ t.sp = { s.sp with yielded := true } ∧ t.tr = s.tr ∧ Micro.campTakeoff s.cp.ref ∈ t.todo) ∧
  (∀ (s : State) (pkg : Bool) (a n : Val), s.sup = true → s.FenceMet .ar →
    ∃ t, exec (.tlbInv pkg a n) s = .next t ∧ SameBytes s t ∧ t.sp = { s.sp with off := s.ctx.next } ∧ t.cp = s.cp ∧
      ∀ e, e ∈ t.tlbs ↔ e ∈ s.tlbs ∧ ¬ ∃ l, s.active l ∧ (pkg = true ∨ e.unit.die? = some s.cp.core.die) ∧ e.tree = s.lch.tree ∧
        let lo := (s.tr.lane l).nat a
        let len := (s.tr.lane l).nat n
        if len = 0 then e.page * 65536 < 2 ^ 56
        else tagOf lo = 0 ∧ e.page * 65536 < lo + len ∧ lo < (e.page + 1) * 65536) ∧
  ∀ (s : State) (p : Val),
    (7 < s.scalar p → exec (.opReq p) s = .next { s with sp := { s.sp with off := s.ctx.next } }) ∧
    (s.scalar p ≤ 7 → ∃ t, exec (.opReq p) s = .next t ∧
      t = { s with sp := { s.sp with off := s.ctx.next }, cores := t.cores } ∧
      (∀ k, k ≠ s.cp.core → t.coreOf k = s.coreOf k) ∧
      ∃ q, q ≤ s.scalar p ∧ (∀ d, s.dies.find? (fun d => d.die = s.cp.core.die) = some d → q ≤ d.opceil) ∧
        (s.isSpent s.cp.ref.lid = true → q ≤ 4) ∧
        ((s.coreOf s.cp.core).move = none → q = (s.coreOf s.cp.core).cur → (t.coreOf s.cp.core).move = none) ∧
        ((s.coreOf s.cp.core).move = none → q ≠ (s.coreOf s.cp.core).cur →
          (t.coreOf s.cp.core).move = some ⟨(s.coreOf s.cp.core).cur, q, decide (q < (s.coreOf s.cp.core).cur), false⟩) ∧
        (∀ m, (s.coreOf s.cp.core).move = some m → q ≠ m.dst → (t.coreOf s.cp.core).mail = some q))

/-- R142 to R145: a stream loop takes its trip count and carried values at `sloop`; each `sget` and `sput` is a relaxed access at the base plus the offset of the iteration, an `sget` reading the bytes that stood before the iteration's own stores; `sloop.end` goes to the next iteration with new carried values, or ends with them as results; a trip count of 0 passes the loop, its own tuple being any values (log 94). -/
def Obligations.StreamLoops : Prop :=
  (∀ (p : Loop) (k : Nat) (x : StreamSpec) (b : Val) (l : Lane), p.specs[k]? = some x → p.bases[k]? = some b →
    (∀ q ∈ x.pairs, q.2.toNat ≠ 0) →
    let st (d : Nat) : Int := (x.pairs[d]?.map fun q => q.1.toInt).getD 0
    let ex (d : Nat) : Nat := (x.pairs[d]?.map fun q => q.2.toNat).getD 1
    (p.addr k l : Int) = ((l.nat b : Int) + (p.i % ex 0 : Nat) * st 0 + (p.i / ex 0 % ex 1 : Nat) * st 1 +
      (p.i / (ex 0 * ex 1) % ex 2 : Nat) * st 2) % 2 ^ 64) ∧
  (∀ (s : State) (n : Val) (specs : List StreamSpec) (bases inits : List Val),
    ∃ t, exec (.sloop n specs bases inits) s = .next t ∧
      (s.scalar n ≠ 0 → t.sp = { s.sp with off := s.ctx.next, loop := some ⟨s.scalar n, 0, s.ctx.next, s.ctx.dst, inits.length, specs, bases, []⟩ } ∧
        t = { s with sp := t.sp, tr := { s.tr with lanes := t.tr.lanes } } ∧
        (∀ l, s.active l → LaneDefines (s.tr.lane l) (t.tr.lane l) s.sup s.ctx.dst (inits.map (s.tr.lane l).val) 0) ∧
        ∀ l, inMask s.sp.mask l = false → t.tr.lane l = s.tr.lane l) ∧
      (s.scalar n = 0 →
        t = { s with freeCnt := t.freeCnt, tr := { s.tr with lanes := t.tr.lanes }, sp := { s.sp with off := s.loopEnd.2 } } ∧
        (∀ l, inMask s.sp.mask l = false → t.tr.lane l = s.tr.lane l) ∧
        ∀ l, s.active l → ∃ (x : Lane) (os : List TVal), os.map TVal.ty = inits.map (fun v => ((s.tr.lane l).val v).ty) ∧
          LaneDefines (s.tr.lane l) x s.sup s.ctx.dst os 0 ∧
          LaneDefines x (t.tr.lane l) s.sup s.loopEnd.1 (inits.map (s.tr.lane l).val) 0)) ∧
  (∀ (s : State) (ty : Ty) (k : Nat) (p : Loop) (ps : Nat → List Spot), s.sp.loop = some p →
    Placed s ty 1 (p.addr k) needR 0 ps → s.NoOverlap ps → (∀ q ∈ s.reqs, q.ofSplit s.spRef = false) →
    s.OrderMet .rlx →
    ∃ t, exec (.sget ty k) s = .next t ∧ AccessFrame s t .rlx ∧ t.cp = s.cp ∧ t.stores = s.stores ∧ t.sp.loop = s.sp.loop ∧
      ∀ l, s.active l → LaneDefines { s.tr.lane l with seen := (t.tr.lane l).seen } (t.tr.lane l) s.sup s.ctx.dst
        (match s.oldElem p l (ps l) ty with
        | some v => [v]
        | none => (ps l).map fun q => patTy ty (s.readPlace q ty.bytes)) 0) ∧
  (∀ (s : State) (ty : Ty) (k : Nat) (v : Val) (p : Loop) (ps : Nat → List Spot), s.sp.loop = some p →
    Placed s ty 1 (p.addr k) needW 1 ps → s.OrderMet .rlx →
    ∃ (t : State) (new : List Pending), exec (.sput ty k v) s = .next t ∧ AccessFrame s t .rlx ∧ t.stores = s.stores ++ new ∧
      (∀ l, s.active l → t.tr.lane l = { s.tr.lane l with seen := (t.tr.lane l).seen }) ∧
      (∀ a, lastTo (new.flatMap Pending.bytes) a =
        lastTo ((lanesOf s.tr.width s.sp.mask).flatMap fun l => storeCells ty.bytes (ps l) [(s.tr.lane l).nat v]) a) ∧
      ∀ o, memRead t.cp.scr o =
        (lastTo ((lanesOf s.tr.width s.sp.mask).flatMap fun l => scratchCells ty.bytes (ps l) [(s.tr.lane l).nat v]) o).getD (memRead s.cp.scr o)) ∧
  ∀ (s : State) (vs : List Val) (p : Loop), s.sp.loop = some p →
    ∃ t, exec (.sloopEnd vs) s = .next t ∧
      t = { s with sp := t.sp, tr := { s.tr with lanes := t.tr.lanes } } ∧
      (∀ l, inMask s.sp.mask l = false → t.tr.lane l = s.tr.lane l) ∧
      (p.i + 1 < p.t → t.sp = { s.sp with off := p.body, loop := some { p with i := p.i + 1, olds := [] } } ∧
        ∀ l, s.active l → LaneDefines (s.tr.lane l) (t.tr.lane l) s.sup p.dst (vs.map (s.tr.lane l).val) 0) ∧
      (p.t ≤ p.i + 1 → t.sp = { s.sp with off := s.ctx.next, loop := none } ∧
        ∀ l, s.active l → LaneDefines (s.tr.lane l) (t.tr.lane l) s.sup s.ctx.dst (vs.map (s.tr.lane l).val) 0)

/-- R210 to R218: a command whose operands pass their checks is listed for the engine with the operands of the lowest active lane; the split goes on, or waits for the status where TY is 9; no byte of memory or scratchpad changes at issue. The 16-command limit is not reached, the lanes' stores have committed and their peers answered, and the fault-injection register lets the command pass unchanged. R387, R213: a `copy` of 2^24 bytes or more takes OPERAND with SUB 3, operand 2 and the length in XADDR, and lists no command. -/
def Obligations.CopyCommands : Prop :=
  (∀ (s : State) (st : Bool) (sc : Scope) (bw cv want : Option Val), s.cmdCount < 16 → s.FenceMet .rel →
    s.sp.grant = false → s.sp.denied = false → s.finjFlip = (s, none) →
    let base (k : CKind) : CopyCmd := ⟨s.cp.nextCmd, k, s.tr.mem, s.lead, s.sp.sid, if st then some s.ctx.dst else none, none, sc, 0, 0, 0,
      [], [], none, bw.map fun v => BitVec.ofNat 64 (s.scalar v), cv.map fun v => BitVec.ofNat 32 (s.scalar v),
      want.map fun v => BitVec.ofNat 32 (s.scalar v), 0, [], none, [], [], (s.tr.lane s.lead).seen, s.sp.func, s.sp.off, none, [], 0, none, none⟩
    let issues (i : Instr) (c : CopyCmd) : Prop := ∃ t, exec i s = .next t ∧
      t = { s with
        tlbs := t.tlbs, counters := t.counters, tiers := t.tiers
        cp := { s.cp with cmds := s.cp.cmds ++ [{ c with gran := c.grans.length }], nextCmd := s.cp.nextCmd + 1 }
        sp := if st then { s.sp with st := .command s.cp.nextCmd, peerRec := t.sp.peerRec } else { s.sp with off := s.ctx.next, peerRec := t.sp.peerRec } }
    (∀ dst src len, s.scalar len < 2 ^ 24 → rangeErr s.lch.scratch (s.scalar dst) (s.scalar len) = none →
      rangeErr s.lch.scratch (s.scalar src) (s.scalar len) = none → s.localWord (bw.map s.scalar) 3 = ([], []) →
      issues (.copy st sc dst src len bw cv want)
        { base .copy with dst := BitVec.ofNat 64 (s.scalar dst), src := BitVec.ofNat 64 (s.scalar src), len := s.scalar len }) ∧
    (∀ var sp tr os bs, s.readRec (s.scalar tr) = .bytes bs →
      tcopyBreaches bs var s.lch.scratch (s.scalar sp) (os.map s.scalar) = [] → s.localWord (bw.map s.scalar) (2 + os.length) = ([], []) →
      issues (.tcopy var st sc sp tr os bw cv want)
        { base (.tcopy var) with dst := BitVec.ofNat 64 (s.scalar sp), src := BitVec.ofNat 64 (s.scalar sp), org := os.map s.scalar, record := bs, trec := BitVec.ofNat 64 (s.scalar tr) }) ∧
    ∀ dst src len loc, s.scalar len < 2 ^ 24 → rangeErr s.lch.scratch (s.scalar src) (s.scalar len) = none →
      s.locBreaches (s.scalar dst) (s.scalar src) (s.scalar len) (loc.map s.scalar) (bw.map s.scalar) (if loc.isSome then 4 else 3) = [] →
      issues (.copyRemote st sc dst src len loc bw cv want)
        { base .remote with
          dst := BitVec.ofNat 64 (s.scalar dst), src := BitVec.ofNat 64 (s.scalar src), len := s.scalar len
          loc := loc.map fun v => BitVec.ofNat 64 (s.scalar v) }) ∧
  (∀ (s : State) (sc : Scope) (dst src len : Val) (mh f : Nat), CanTrap s mh f → s.cmdCount < 16 → s.FenceMet .rel →
    s.sp.grant = false → s.sp.denied = false → 2 ^ 24 ≤ s.scalar len →
    ∃ t, exec (.copy false sc dst src len none none none) s = .next t ∧
      TookTrap s t mh f (xcause 0x14 (s.isTerm s.sp.mh s.sp.func s.sp.off) false) s.sp.mask
        (BitVec.ofNat 64 (3 + 2 ^ 8 * 2 + 2 ^ 32 * (s.scalar len % 2 ^ 32))))

/-- R70: an accumulator tile with its elements listed in rising order stays so under a change of one element or of all, and each element then reads as the change gives it. R222, R223, R226, R72: `acc.init` sets every element of its tile to the exponent and ceiling; `acc.norm` normalises every element; `acc.rd` reads the element that each lane names, rounded or as a word; `acc.wr` writes it, the highest lane last. The tile is one that the troop may change; other tiles and memory are unchanged. R71, R64: the exact arithmetic of one element: where neither operand block is a NaN block and each of the four partial sums, at its exponent, neither passes the ceiling, nor loses bits, nor overflows 64 bits, the element grows by exactly their sum; a NaN block sets N and AS, and an element with N never changes. -/
def Obligations.AccumulatorTiles : Prop :=
  (∀ (t : Tile), t.Rising →
    (∀ (i : Nat) (x : AccEl), i < 16384 → (t.put i x).Rising ∧ ∀ j, (t.put i x).el j = if j = i then x else t.el j) ∧
    ∀ (f : Nat → AccEl → AccEl × W32), (t.mapAll f).1.Rising ∧
      (∀ j < 16384, (t.mapAll f).1.el j = (f j (t.el j)).1) ∧
      ∀ k, (t.mapAll f).2.getLsbD k = true ↔ ∃ j < 16384, (f j (t.el j)).2.getLsbD k = true) ∧
  (∀ (s : State) (a row col v : Val), s.tr.gone (s.accRef a) = false → s.tr.changes (s.accRef a) = true →
    let r := s.accRef a
    let t0 := s.accTile r
    let named (l : Nat) : Nat := 128 * (s.tr.lane l).nat row + (s.tr.lane l).nat col
    let keeps (t : State) (q : AccRef) : Prop := (∀ p, p ≠ q → t.accTile p = s.accTile p) ∧
      t = { s with sp := { s.sp with off := s.ctx.next }, tr := { s.tr with lanes := t.tr.lanes }, cp := { t.cp with accs := t.cp.accs } } ∧
      t.cp = { s.cp with accs := t.cp.accs, troops := t.cp.troops } ∧ SameBytes s t
    (∀ (slot : Fin 8) (ceil : Fin 16) (e : Val), let x := readInt .i32 (s.scalar e)
      let q : AccRef := ⟨slot.val, s.tr.ropeNow⟩
      x ≤ 32767 → -32768 ≤ x → s.tr.changes q = true →
      ∃ t, exec (.accInit slot ceil e) s = .next t ∧ keeps t q ∧ (∀ i, (t.accTile q).el i = ⟨0, BitVec.ofInt 16 x, false, false, BitVec.ofNat 4 ceil.val⟩) ∧
        ∀ l, s.active l → LaneDefines (s.tr.lane l) (t.tr.lane l) s.sup s.ctx.dst [q.val] 0) ∧
    (∃ t, exec (.accNorm a) s = .next t ∧ keeps t r ∧ t.accTile r = (t0.mapAll fun _ x => x.norm).1 ∧
      ∀ l, s.active l → (s.tr.lane l).frames ≠ [] → (t.tr.lane l).val s.ctx.dst = r.val) ∧
    ((∀ l, s.active l → (s.tr.lane l).nat row < 128 ∧ (s.tr.lane l).nat col < 128) →
      (∀ ty rm, Defines (.accRd ty rm a row col) s fun l _ => fl ty ((t0.el (named l)).read ty rm)) ∧
      Gives (.accRdWord false a row col) s (fun l _ => ⟨.w64, (t0.el (named l)).gm⟩) ∧
      Gives (.accRdWord true a row col) s (fun l _ =>
        let x := t0.el (named l)
        ⟨.w64, BitVec.ofNat 64 (x.e.toNat + boolN x.s * 2 ^ 16 + boolN x.n * 2 ^ 17 + x.c.toNat * 2 ^ 20)⟩) ∧
      (∀ ty rm, ∃ t, exec (.accWr ty rm a row col v) s = .next t ∧ keeps t r ∧
        t.accTile r = (lanesOf s.tr.width s.sp.mask).foldl (fun u l => u.put (named l) ((t0.el (named l)).write ty rm ((s.tr.lane l).nat v)).1) t0 ∧
        ∀ l, s.active l → LaneDefines (s.tr.lane l) (t.tr.lane l) s.sup s.ctx.dst [r.val] ((t0.el (named l)).write ty rm ((s.tr.lane l).nat v)).2) ∧
      (∃ t, exec (.accWrWord false a row col v) s = .next t ∧ keeps t r ∧
        t.accTile r = (lanesOf s.tr.width s.sp.mask).foldl (fun u l => u.put (named l) { t0.el (named l) with gm := BitVec.ofNat 64 ((s.tr.lane l).nat v) }) t0 ∧
        ∀ l, s.active l → LaneDefines (s.tr.lane l) (t.tr.lane l) s.sup s.ctx.dst [r.val] 0) ∧
      ((∀ l, s.active l → let n := (s.tr.lane l).nat v; n / 2 ^ 18 % 4 = 0 ∧ n < 2 ^ 24) →
        ∃ t, exec (.accWrWord true a row col v) s = .next t ∧ keeps t r ∧
          t.accTile r = (lanesOf s.tr.width s.sp.mask).foldl (fun u l => u.put (named l) ((t0.el (named l)).setHi ((s.tr.lane l).nat v))) t0 ∧
          ∀ l, s.active l → LaneDefines (s.tr.lane l) (t.tr.lane l) s.sup s.ctx.dst [r.val] 0))) ∧
  (∀ (x : AccEl) (a b : Blk),
    (x.n = true → x.addBlock a b = (x, 0)) ∧
    (x.n = false → (a.nan || b.nan) = true → x.addBlock a b = ({ x with n := true }, fAS ||| fNV)) ∧
    (x.n = false → a.nan = false → b.nan = false →
      let e := x.e.toInt
      let ps : List (Int × Int) := [(dot a.q0 b.q0, a.t0 + b.t0), (dot a.q0 b.q1, a.t0 + b.t1), (dot a.q1 b.q0, a.t1 + b.t0), (dot a.q1 b.q1, a.t1 + b.t1)]
      let part (p : Int × Int) : Int := if p.1 = 0 then 0 else p.1 * 2 ^ (p.2 - e).toNat
      (∀ p ∈ ps, p.1 ≠ 0 → e ≤ p.2 ∧ p.2 - e ≤ x.c.toNat) →
      (∀ k, k ≤ 4 → let z := x.gm.toInt + ((ps.take k).map part).sum; z < 2 ^ 63 ∧ -(2 ^ 63) ≤ z) →
      ∃ y, x.addBlock a b = (y, 0) ∧ y = { x with gm := y.gm } ∧ y.gm.toInt = x.gm.toInt + (ps.map part).sum) ∧
    ∀ (p f : Int), p ≠ 0 → (x.c.toNat : Int) < f - x.e.toInt → (x.addTerm p f).2 = fAS ∧ (x.addTerm p f).1.s = true)

/-- R224, R225, R233: `mma` and `mma.res` of a troop in no rope with operands that pass their checks add the product of the operand rows into the tile that the acc operand names, set the status of the product in every lane of the troop, and define the next acc value; the weights of `mma.res` are a tile of a residency that is not stale. No other tile and no byte of memory or scratchpad changes. -/
def Obligations.MatrixProducts : Prop :=
  ∀ (s : State) (fa fb : MFmt) (t : Fin 4) (a pa : Val),
    let x := AccRef.ofNat (s.scalar a)
    let n := t.val + 1
    inRope s.tr.rope = false → x.rope = none → s.sp.nat = none → s.sup = false →
    tagOf (s.scalar pa) = 0xFD → s.scalar pa % 256 = 0 → offOf (s.scalar pa) + n * planeFoot fa.ty ≤ s.lch.scratch →
    let adds (i : Instr) (bs : List (List Blk)) : Prop :=
      let r := (s.accTile x).addProduct (planeRows s.cp.scr (offOf (s.scalar pa)) n fa) bs
      ∃ u, exec i s = .next u ∧ u.accTile x = r.1 ∧ (∀ p, p ≠ x → u.accTile p = s.accTile p) ∧
        u.sp = { s.sp with off := s.ctx.next } ∧ SameBytes s u ∧ u.cp.scr = s.cp.scr ∧
        u.tr = { s.tr with lanes := u.tr.lanes } ∧
        ∀ l, l < s.tr.width →
          (inMask s.sp.mask l = true → LaneDefines (s.tr.lane l) (u.tr.lane l) false s.ctx.dst [x.val] r.2) ∧
          (inMask s.sp.mask l = false → u.tr.lane l = { s.tr.lane l with sticky := (s.tr.lane l).sticky ||| r.2 })
    (∀ pb, tagOf (s.scalar pb) = 0xFD → s.scalar pb % 256 = 0 → offOf (s.scalar pb) + n * planeFoot fb.ty ≤ s.lch.scratch →
      adds (.mma fa fb t a pa pb) (planeRows s.cp.scr (offOf (s.scalar pb)) n fb)) ∧
    (∀ h j e w, s.cp.named false (s.scalar h) = some e → e.fmt = fb → s.scalar j < e.tk * e.tn → e.stale = none →
      e.tiles.find? (fun q => q.j = s.scalar j && q.core = s.cp.core && !e.todo.contains (s.scalar j)) = some w →
      adds (.mmaRes fa fb t a pa h j) (resRows w n fb)) ∧
    ∀ (u v : List (List Blk)) (d : Tile) (i : Nat), d.Rising → i < 16384 →
      ((d.addProduct u v).1.el i) = ((d.el i).addRow ((u[i / 128]?).getD []) ((v[i % 128]?).getD [])).1

/-- R227, R39: `rope.form` waits with its member set and asks for the formation; `rope.free` of a member waits at the rendezvous latch; the same outside a rope takes ROPE with sub-code NOROPE. R39, R228, R229: when the last member arrives at the latch with `rope.free`, the rope is dissolved: ROPE is 0 in every member and the rope's tiles are gone; while a live member is still missing, nothing changes. When every listed troop waits in `rope.form` with the same set, each gets ROPE with its position and the members. -/
def Obligations.Ropes : Prop :=
  (∀ (s : State), s.sup = false → s.tr.rfault = none →
    (∀ (m : Val), let ms := (List.range 32).filter fun i => (s.scalar m).testBit i
      s.Converged → inRope s.tr.rope = false → 2 ≤ ms.length → ms.length ≤ 6 → s.tr.mem ∈ ms → (∀ k ∈ ms, k < s.lch.campsize) →
      exec (.ropeForm m) s = .next { s with
        sp := { s.sp with st := .forming (BitVec.ofNat 32 (s.scalar m)) }
        todo := s.todo ++ [.ropeFormed s.cp.ref (BitVec.ofNat 32 (s.scalar m))] }) ∧
    (s.Converged → inRope s.tr.rope = true →
      exec .ropeFree s = .next { s with
        sp := { s.sp with st := .rendezvous .free }
        todo := s.todo ++ [.rendezvousMatch s.cp.ref s.tr.ropeId] }) ∧
    ∀ mh f, CanTrap s mh f → inRope s.tr.rope = false → ∃ t, exec .ropeFree s = .next t ∧
      TookTrap s t mh f (xcause 0x0B (s.isTerm s.sp.mh s.sp.func s.sp.off) false) s.sp.mask (BitVec.ofNat 64 7)) ∧
  (∀ (s : State) (k : Camp) (rest : List Camp), s.focused = false → s.camps = k :: rest →
    (k.troops.map Troop.mem).Nodup → (∀ c ∈ rest, c.ref ≠ k.ref) → (∀ u ∈ k.troops, (u.splits.map Split.sid).Nodup ∧ u.live ≠ 0) →
    (∀ rope, (∀ u ∈ k.members rope, ∃ sid, u.latch = some (sid, .free)) → k.members rope ≠ [] →
      ∃ t, exec (.rendezvousMatch k.ref rope) s = .next t ∧ ∃ c, t.camp? k.ref = some c ∧
        (∀ u ∈ c.troops, u.ropeNow ≠ some rope) ∧ (∀ q ∈ c.accs, q.rope ≠ some rope) ∧ SameBytes s t) ∧
    (∀ rope, (∃ u ∈ k.members rope, u.latch = none) → exec (.rendezvousMatch k.ref rope) s = .next s) ∧
    ∀ (set : W32), set ≠ 0 → let ms := (List.range 32).filter fun i => set.toNat.testBit i
      (∀ m ∈ ms, ∃ u ∈ k.troops, u.mem = m ∧ inRope u.rope = false ∧ ∃ sid, u.forms = some (sid, set)) →
      ms.length ≤ 6 → (∀ m ∈ ms, m < 16) →
      ∃ t, exec (.ropeFormed k.ref set) s = .next t ∧ SameBytes s t ∧ ∀ (i m : Nat), ms[i]? = some m →
        ∃ u, t.troop? ⟨k.ref, m⟩ = some u ∧ inRope u.rope = true ∧ ropePos u.rope = i ∧ ropeMembers u.rope = ms)

/-- R231, R232, R236, R237: `res.pitch` of a source that passes its checks claims the entry under its next generation, with a watch on its lines and every tile still to fill, and defines the handle; attach gives the handle of the entry, refill clears the stale mark and fills again, strike empties it, pin and unpin set and clear the pin, query reads it. A name that names nothing changes nothing. `s2` is the state that the read of the record and the walk of the source leave. -/
def Obligations.Residencies : Prop :=
  ∀ (s : State) (byNum : Bool) (x : Val),
    let named := s.cp.named byNum (s.scalar x)
    let idle : Instr → Prop := fun i => exec i s = .next { s with sp := { s.sp with off := s.ctx.next } }
    let sets (i : Instr) (n : Nat) (e : Option Res) : Prop := ∃ t, exec i s = .next t ∧
      t = { s with sp := { s.sp with off := s.ctx.next }, tr := t.tr, cp := t.cp } ∧ t.cp.res? n = e ∧
      ∀ k, k ≠ n → t.cp.res? k = s.cp.res? k
    (named = none → idle (.resStrike byNum x) ∧ idle (.resPin byNum x) ∧ idle (.resUnpin byNum x)) ∧
    (∀ r, named = some r →
      sets (.resStrike byNum x) r.num none ∧
      (r.pin = false → s.refuser .pslots r.slots s.lch.path = none → sets (.resPin byNum x) r.num (some { r with pin := true })) ∧
      (r.pin = true → idle (.resPin byNum x)) ∧
      sets (.resUnpin byNum x) r.num (some { r with pin := false })) ∧
    Gives (.resQuery byNum x) s (fun _ _ => patTy .w32 (match named with
      | some r => 2 ^ 31 + boolN r.stale.isSome * 2 ^ 30 + boolN r.pin * 2 ^ 29 + s.scalar x % 256 * 2 ^ 20 + r.slots
      | none => s.scalar x % 256 * 2 ^ 20)) ∧
    (∀ r, s.scalar x ≤ 255 → s.cp.res? (s.scalar x) = some r →
      Gives (.resPitchAttach x) s (fun _ _ => ⟨.rhandle, BitVec.ofNat 64 (s.scalar x + 256 * (r.gen % 2 ^ 24))⟩)) ∧
    (∀ r spans, s.FenceMet .rel → s.cp.res? (s.scalar x) = some r → s.walkSource r.span = (s, .ok ⟨spans, false⟩) →
      (r.span = none ∨ r.watch ≠ none ∨ s.watches < 4096) →
      sets (.resPitchRefill x) r.num (some { r with
        stale := none, watch := r.span.map fun _ => spans, tiles := [], todo := List.range (r.tk * r.tn) })) ∧
    ∀ (sc : Scope) (tr i0 i1 tk tn num : Val) (bs : List Byte) (f : MFmt) (spans : List (Nat × Nat)) (lo hi : Nat) (s2 : State),
      let p : Pitch := ⟨s.scalar tr, s.scalar i0, s.scalar i1, s.scalar tk, s.scalar tn, s.scalar num⟩
      let r := TRec.ofBytes bs
      s.FenceMet .rel → s.sp.grant = false → s.sp.denied = false → s.sp.peerRec = none →
      s.readRec p.trec = .bytes bs → r.ok = true → r.fmt.mfmt = some f → 2 ≤ r.rank → s.cp.pitchArgs p = [] → tagOf r.base = 0 →
      r.span p.i0 p.i1 p.tk p.tn = some (lo, hi) → (s.noteSpan p.trec 64).walkSource (some (lo, hi)) = (s2, .ok ⟨spans, false⟩) →
      s2.refuser .rslots (p.tk * p.tn * f.planes) s2.lch.path = none → s2.watches < 4096 →
      ∃ t, exec (.resPitch sc tr i0 i1 tk tn num) s = .next t ∧
        t = { s2 with sp := { s2.sp with off := s2.ctx.next }, tr := { s2.tr with lanes := t.tr.lanes }, cp := t.cp } ∧
        t.cp.res? p.num = some ⟨p.num, s2.cp.nextGen p.num, BitVec.ofNat 64 p.trec, p.i0, p.i1, p.tk, p.tn, f, sc, false, none, some spans, [], bs,
          List.range (p.tk * p.tn), none⟩ ∧
        (∀ k, k ≠ p.num → t.cp.res? k = s2.cp.res? k) ∧
        ∀ l, s2.active l → LaneDefines (s2.tr.lane l) (t.tr.lane l) s2.sup s2.ctx.dst
          [⟨.rhandle, BitVec.ofNat 64 (p.num + 256 * (s2.cp.nextGen p.num % 2 ^ 24))⟩] 0

/-- R293 to R299, R275: the portable instruction, operands, destination and latency that each A-slot operation stands for, at every type, with the zero, immediate and third-register forms of R291; and what it stands for without a qualifier. -/
def Obligations.NativeForms : Prop :=
  ∀ (kind w : Nat) (n : NOp) (lits : List Nat) (t : Ty),
    let q := Qual.ofNat w
    let k := q.ty
    let plan (mk : NOp → Instr) : Option APlan := aPlan ⟨kind, mk n, some w, lits⟩ 0
    let d : ADst := .reg n.dst.toNat k
    let a (k : Nat) : ASrc := if q.za then .lit 0 k else .reg n.sa.toNat k
    let b (k : Nat) : ASrc := if q.ib then .lit (litVal lits) k else .reg n.sb.toNat k
    let c : ASrc := .reg (if q.xc then q.c else n.dst.toNat) k
    let flt : Nat := if t = .f64 then 8 else 4
    let rm := Rm.ofCode q.md
    let a1 : Prop := q.xc = false ∧ q.ib = false ∧ n.sb = 0
    let src : ASrc := .reg n.sa.toNat (q.aux % 64)
    Ty.ofCode k = some t →
    (∀ t', Ty.ofCode (q.aux % 64) = some t' → q.sx = 0 → n.sb = 0 →
      (q.aux / 64 = 0 → t ≠ t' → (q.md < 4 ∨ q.md < 8 ∧ t.isI = true ∧ t'.isI = true) →
        ((t'.isI && (t.isI || t == .b1 || t.isF)) || (t' == .b1 && t.isI) || (t'.isF && (t.isI || t.isF)) || (t'.isP && t.isP)) = true →
        plan .natCvt = some ⟨.cvt t (decide (4 ≤ q.md)) (Rm.ofCode (q.md % 4)) 0, [src], d, 4, false⟩) ∧
      (q.aux / 64 = 1 → t' = t → (t.isF || t.isP) = true → q.md < 4 → plan .natCvt = some ⟨.fround t rm 0, [src], d, 4, false⟩) ∧
      (q.aux / 64 = 2 → t = .w32 → t'.isF = true → q.md = 0 → plan .natCvt = some ⟨.fclass t' 0, [src], d, 4, false⟩)) ∧
    ((q.za = true → n.sa = 0) → (q.ib = true → n.sb = 0) → q.auxOk = true →
    (t.isI = true → q.md = 0 → q.xc = false → q.sx = 0 →
      plan .natIadd = some ⟨.add t 0 1, [a k, b k], d, 1, false⟩ ∧ plan .natIsub = some ⟨.sub t 0 1, [a k, b k], d, 1, false⟩ ∧
      plan .natImul = some ⟨.mul t 0 1, [a k, b k], d, 1, false⟩ ∧ plan .natAnd = some ⟨.and t 0 1, [a k, b k], d, 1, false⟩ ∧
      plan .natOr = some ⟨.or t 0 1, [a k, b k], d, 1, false⟩ ∧ plan .natXor = some ⟨.xor t 0 1, [a k, b k], d, 1, false⟩ ∧
      plan .natMin = some ⟨.min t 0 1, [a k, b k], d, 1, false⟩ ∧ plan .natMax = some ⟨.max t 0 1, [a k, b k], d, 1, false⟩ ∧
      plan .natShl = some ⟨.shl t 0 1, [a k, b 8], d, 1, false⟩ ∧
      (t.signed = false → plan .natShr = some ⟨.shr t 0 1, [a k, b 8], d, 1, false⟩) ∧
      (t.signed = true → plan .natSar = some ⟨.shr t 0 1, [a k, b 8], d, 1, false⟩)) ∧
    (t.isI = true → q.md = 0 → q.xc = false → q.sx = 1 →
      plan .natIadd = some ⟨.addsat t 0 1, [a k, b k], d, 1, false⟩ ∧ plan .natIsub = some ⟨.subsat t 0 1, [a k, b k], d, 1, false⟩ ∧
      plan .natImul = some ⟨.mulhi t 0 1, [a k, b k], d, 1, false⟩ ∧ plan .natShl = some ⟨.rotl t 0 1, [a k, b 8], d, 1, false⟩) ∧
    (t.isI = true → q.md = 0 → a1 →
      (q.sx = 1 → plan .natAnd = some ⟨.popc t 0, [a k], d, 1, false⟩) ∧ (q.sx = 2 → plan .natAnd = some ⟨.clz t 0, [a k], d, 1, false⟩) ∧
      (q.sx = 3 → plan .natAnd = some ⟨.ctz t 0, [a k], d, 1, false⟩) ∧ (q.sx = 4 → plan .natAnd = some ⟨.brev t 0, [a k], d, 1, false⟩)) ∧
    (t.isI = true → q.md = 0 → q.sx = 0 → plan .natImad = some ⟨.mad t 0 1 2, [a k, b k, c], d, 1, false⟩) ∧
    (t.isI = true → q.md = 0 → q.sx = 1 → q.xc = true →
      plan .natOr = some ⟨.bfi t 0 1 2 3, [.reg n.dst.toNat k, a k, b 8, .reg q.c 8], d, 1, false⟩ ∧
      (t.signed = false → plan .natShr = some ⟨.bfx t 0 1 2, [a k, b 8, .reg q.c 8], d, 1, false⟩) ∧
      (t.signed = true → plan .natSar = some ⟨.bfx t 0 1 2, [a k, b 8, .reg q.c 8], d, 1, false⟩)) ∧
    (t = .addr → q.md = 0 → q.sx = 0 → q.xc = false →
      plan .natIadd = some ⟨.add t 0 1, [a k, b k], d, 1, false⟩ ∧ plan .natIsub = some ⟨.sub t 0 1, [a k, b k], d, 1, false⟩) ∧
    (t.isV = true → q.md = 0 → q.sx = 0 → q.xc = false →
      plan .natSel = some ⟨.sel t 0 1 2, [.guard n.gd.toNat, a k, b k], d, 1, true⟩) ∧
    ((t.isI || t == .addr) = true → q.sx = 0 → q.xc = false → ∀ cc, Cc.ofCode q.md = some cc →
      plan .natIcmp = some ⟨.cmp t cc 0 1, [a k, b k], .guards n.dst.toNat, 1, false⟩) ∧
    ((t.isF || t.isP) = true → q.md < 4 → q.xc = false →
      (q.sx = 0 → plan .natFadd = some ⟨.fadd t rm 0 1, [a k, b k], d, flt, false⟩ ∧ plan .natFmul = some ⟨.fmul t rm 0 1, [a k, b k], d, flt, false⟩) ∧
      (q.sx = 1 → plan .natFadd = some ⟨.fsub t rm 0 1, [a k, b k], d, flt, false⟩)) ∧
    ((t.isF || t.isP) = true → q.md < 4 → q.sx = 0 →
      plan .natFma = some ⟨.fma t rm 0 1 2, [a k, b k, c], d, flt, false⟩ ∧ plan .natFmad = some ⟨.fma t rm 0 1 2, [c, a k, b k], d, flt, false⟩) ∧
    (t.isF = true → q.sx = 0 → q.xc = false → ∀ cc, Fcc.ofCode q.md = some cc →
      plan .natFcmp = some ⟨.fcmp t cc 0 1, [a k, b k], .guards n.dst.toNat, 2, false⟩) ∧
    ((t.isF || t.isP) = true → q.md = 0 → q.xc = false →
      (q.sx = 0 → plan .natFmin = some ⟨.fmin t 0 1, [a k, b k], d, 2, false⟩ ∧ plan .natFmax = some ⟨.fmax t 0 1, [a k, b k], d, 2, false⟩) ∧
      (q.sx = 1 → plan .natFmax = some ⟨.fcopysign t 0 1, [a k, b k], d, 2, false⟩)) ∧
    ((t.isF || t.isP) = true → q.md = 0 → a1 →
      (q.sx = 1 → plan .natFmin = some ⟨.fabs t 0, [a k], d, 2, false⟩) ∧ (q.sx = 2 → plan .natFmin = some ⟨.fneg t 0, [a k], d, 2, false⟩)) ∧
    (let lat : Nat := if t.width = 64 then 24 else 12;
      (q.xc = false → (t.isF || t.isP) = true → q.md < 4 → q.sx = 0 → plan .natSfu = some ⟨.fdiv t rm 0 1, [a k, b k], d, lat, false⟩) ∧
      (a1 → (t.isF || t.isP) = true → q.md < 4 →
        (q.sx = 1 → plan .natSfu = some ⟨.fsqrt t rm 0, [a k], d, lat, false⟩) ∧ (q.sx = 2 → plan .natSfu = some ⟨.frsq t rm 0, [a k], d, lat, false⟩) ∧
        (q.sx = 3 → plan .natSfu = some ⟨.frcp t rm 0, [a k], d, lat, false⟩)) ∧
      (a1 → t.isHP = true → q.md = 0 →
        (q.sx = 4 → plan .natSfu = some ⟨.fexp2 t 0, [a k], d, lat, false⟩) ∧ (q.sx = 5 → plan .natSfu = some ⟨.flog2 t 0, [a k], d, lat, false⟩) ∧
        (q.sx = 6 → plan .natSfu = some ⟨.fsin t 0, [a k], d, lat, false⟩) ∧ (q.sx = 7 → plan .natSfu = some ⟨.fcos t 0, [a k], d, lat, false⟩) ∧
        (q.sx = 8 → plan .natSfu = some ⟨.ftanh t 0, [a k], d, lat, false⟩)) ∧
      (q.xc = false → t.isI = true → q.md = 0 →
        (q.sx = 9 → plan .natSfu = some ⟨.div t 0 1, [a k, b k], d, lat, false⟩) ∧ (q.sx = 10 → plan .natSfu = some ⟨.rem t 0 1, [a k, b k], d, lat, false⟩))))

/-- R269, R273, R290, R292: an A-slot operation with legal fields acts in the lanes that its guard admits, `sel` in all of the split's, as the portable instruction it stands for does on the operands read at issue: it sets the same status, and its results are in flight for their latency; `mov` puts a register, scalar or guard, or 0 with ZA, in flight in the form of its type, and `movi` its literals. No register changes yet, and nothing else does. -/
def Obligations.NativeArithmetic : Prop :=
  ∀ (s : State) (i : Instr),
    let k := s.slot i
    let acts (f : State → List Flight) : Prop :=
      ∃ u, exec i s = .next u.slotDone ∧ u = { s with sp := { s.sp with fl := s.sp.fl ++ f s } }
    let adm (gd : BitVec 4) : Mask := s.adm gd.toNat
    let lanes (gd : BitVec 4) : List Nat := (lanesOf s.tr.width s.sp.mask).filter fun l => (s.tr.lane l).guard gd.toNat;
    (∀ gd l, inMask (adm gd) l = true ↔ l ∈ lanes gd) ∧
    (k.op = i →
    (∀ (n : NOp) (p : APlan), i ∈ [.natIadd n, .natIsub n, .natImul n, .natImad n, .natAnd n, .natOr n, .natXor n, .natShl n, .natShr n,
        .natSar n, .natMin n, .natMax n, .natSel n, .natIcmp n, .natFadd n, .natFmul n, .natFma n, .natFmad n, .natFcmp n, .natFmin n,
        .natFmax n, .natCvt n, .natSfu n] → aPlan k 0 = some p → s.okPlan p = true →
      ∃ u, exec i s = .next u.slotDone ∧ SlotResult s u (if p.all then s.sp.mask else adm n.gd) p) ∧
    (∀ (n : NOp) (p : APlan), i = .natLane n → aPlan k s.free.toNat = some p → s.okA k = true →
      ∃ u, exec i s = .next ({ u with freeCnt := s.freeCnt + 1 } : State).slotDone ∧ SlotResult s u (adm n.gd) p) ∧
    (∀ (n : NOp) (q : Qual), i = .natCvt n → k.qual.map Qual.ofNat = some q → s.okA k = true →
      let el (l : Nat) : AccEl := s.accArg l n
      let rm := Rm.ofCode (q.md % 4)
      let sets (u : State) (g : Nat → W32) : Prop := u = { s with sp := { s.sp with fl := u.sp.fl }, tr := { s.tr with lanes := u.tr.lanes } } ∧
        ∀ l < s.tr.width, u.tr.lane l = if l ∈ lanes n.gd ∧ s.sup = false then { s.tr.lane l with sticky := (s.tr.lane l).sticky ||| g l } else s.tr.lane l
      (accCvt q = some true → ∃ u, exec i s = .next u.slotDone ∧ sets u (fun l => ((el l).read q.type rm).2) ∧
        u.sp.fl = s.sp.fl ++ regFlights 4 n.dst.toNat q.wide ((lanes n.gd).map fun l => (l, (mkVal q.type ((el l).read q.type rm).1).image))) ∧
      (accCvt q = some false → let ty := tyOfCode (q.aux % 64)
        let to_ (l : Nat) : AccEl × W32 := { el l with gm := BitVec.ofNat 64 (s.src? l n.dst.toNat true) }.write ty rm
          (ofImage ty (s.src? l n.sa.toNat (wideTy ty))).nat
        ∃ u, exec i s = .next u.slotDone ∧ sets u (fun l => (to_ l).2) ∧
          u.sp.fl = s.sp.fl ++ (regFlights 4 n.dst.toNat true ((lanes n.gd).map fun l => (l, (to_ l).1.gm.toNat)) ++
            regFlights 4 n.sb.toNat false ((lanes n.gd).map fun l => (l,
              s.src? l n.sb.toNat false ||| (boolN (to_ l).1.s * 2 ^ 16) ||| (boolN (to_ l).1.n * 2 ^ 17)))))) ∧
    (∀ (n : NOp), i = .natMov n → s.okA k = true →
      let q := k.q dW32
      acts fun s => regFlights 1 n.dst.toNat q.wide ((lanes n.gd).map fun l => (l, (patTy q.type (if q.za then 0 else match q.sx with
        | 0 => s.src? l n.sa.toNat q.wide
        | 1 => s.sp.scalar n.sa.toNat
        | _ => boolN ((s.tr.lane l).guard n.sa.toNat))).image))) ∧
    (∀ (n : NOp), i = .natMovi n → s.okA k = true →
      acts fun _ => regFlights 1 n.dst.toNat n.q ((lanes n.gd).map fun l => (l, litVal k.lits))) ∧
    (s.okA k = false → (∃ n, i ∈ [.natIadd n, .natMov n, .natMovi n, .natLane n, .natCvt n]) → exec i s = .next s.illBundle))

/-- R300 to R303, R272, R275: a legal M slot whose checks pass. Loads put the elements of each admitted lane in flight for six bundles, or append one queue entry for each element; stores take the registers' values; `atg` returns old values, lanes in ascending order, through a queue, or is recorded in a DET launch; `prf` and `fnc` are the hints and fences they stand for. In a handler the frame form reads and writes the lanes' trap areas. -/
def Obligations.NativeMemory : Prop :=
  ∀ (s : State) (i : Instr) (n : NOp) (ps : Nat → List Spot),
    let k := s.slot i
    let q := k.q dMem
    let ty := q.type
    let m := s.adm n.gd.toNat
    let lanes := lanesOf s.tr.width m
    let es := List.range (2 ^ q.sub)
    let queue := n.dst.toNat - 120
    let vals (e : Nat) : List (Nat × Nat) := lanes.map fun l => (l, s.elemImage ty (ps l) e)
    let frame : Prop := q.frame = true ∧ s.sup = true
    let entry (vs : List (Nat × Nat)) : Nat × QEnt := (queue, ⟨false, ty, vs.map fun v => (v.1, BitVec.ofNat 64 v.2), none, []⟩)
    k.op = i → s.okM k = true →
    (i = .natLds n → NatPlaced s n q k.lits (some 0xFD) needR 0 ps → NatOrdered s m q.ord ps →
      ∃ u : State, exec i s = .next u.slotDone ∧ NatFrame s u m q.ord ∧ u.cp = s.cp ∧ u.stores = s.stores ∧ u.sp.lq = s.sp.lq ∧
        u.sp.fl = s.sp.fl ++ es.flatMap fun e => regFlights 6 (n.dst.toNat + e * q.step) q.wide (vals e)) ∧
    (∀ w, (i = .natLdg n ∧ w = none ∨ i = .natLdp n ∧ w = some 0xFC ∧ ¬ frame) → NatPlaced s n q k.lits w needR 0 ps → NatOrdered s m q.ord ps →
      ∃ u : State, exec i s = .next u.slotDone ∧ NatFrame s u m q.ord ∧ u.cp = s.cp ∧ u.stores = s.stores ∧ u.sp.fl = s.sp.fl ∧
        u.sp.lq = s.sp.lq ++ es.map fun e => entry (vals e)) ∧
    (∀ w, (i = .natSts n ∧ w = some 0xFD ∨ i = .natStg n ∧ w = none ∨ i = .natStp n ∧ w = some 0xFC ∧ ¬ frame) →
      NatPlaced s n q k.lits w needW 1 ps → s.OrderMet q.ord →
      let src (l : Nat) : List Nat := es.map fun e => s.src? l (n.sb.toNat + e * q.step) q.wide % 2 ^ (8 * ty.bytes)
      ∃ (u : State) (new : List Pending), exec i s = .next u.slotDone ∧ NatFrame s u m q.ord ∧ u.sp = s.sp ∧ u.stores = s.stores ++ new ∧
        (∀ p ∈ new, p.core = s.cp.core ∧ p.by_ = some s.trRef ∧ p.ord = q.ord ∧ inMask m p.lane = true) ∧
        (∀ a, lastTo (new.flatMap Pending.bytes) a = lastTo (lanes.flatMap fun l => storeCells ty.bytes (ps l) (src l)) a) ∧
        u.cp = { s.cp with scr := u.cp.scr } ∧
        ∀ o, memRead u.cp.scr o = (lastTo (lanes.flatMap fun l => scratchCells ty.bytes (ps l) (src l)) o).getD (memRead s.cp.scr o)) ∧
    (frame → let o := offOf (s.natEa n q k.lits 0)
      o + ty.bytes * 2 ^ q.sub ≤ 4096 →
      (i = .natLdp n → exec i s = .next ({ s with sp := { s.sp with lq := s.sp.lq ++ es.map fun e => entry (lanes.map fun l =>
        (l, (patTy ty (((s.tr.lane l).saved.map fun v => memNat v.area (o + e * ty.bytes) ty.bytes).getD 0)).image)) } } : State).slotDone) ∧
      (i = .natStp n → ∃ u : State, exec i s = .next u.slotDone ∧ u = { s with tr := { s.tr with lanes := u.tr.lanes } } ∧
        (∀ l, inMask m l = false → u.tr.lane l = s.tr.lane l) ∧
        ∀ l, inMask m l = true → ∀ x, (s.tr.lane l).saved = some x →
          ∃ y, (u.tr.lane l) = { s.tr.lane l with saved := some { x with area := y } } ∧
            ∀ a, memRead y a = (lastTo (es.flatMap fun e => cellsAt (o + e * ty.bytes)
              (leBytes ty.bytes (s.src? l (n.sb.toNat + e * q.step) q.wide))) a).getD (memRead x.area a))) ∧
    (∀ (op : AtomOp) (p : Spot), i = .natAtg n → AtomOp.ofCode q.sub = some op → (s.lch.det && isFadd op) = false →
      NatPlaced s n { q with sx := 5 + q.sx / 8 % 2 * 8 } k.lits none needA 2 (fun _ => [p]) → NatOrdered s m q.ord (fun _ => [p]) →
      (∀ bs, p = .phys bs → bs.Nodup ∧ bs.length = ty.bytes) →
      let one (old l : Nat) : Nat := atomNew op ty old (ofImage ty (s.src? l n.sb.toNat q.wide)).nat (ofImage ty (s.src? l q.aux q.wide)).nat % 2 ^ ty.width
      let upto (l : Nat) : Nat := (lanes.filter fun j => j < l).foldl one (s.readPlace p ty.bytes)
      ∃ u : State, exec i s = .next u.slotDone ∧ u.sp = { s.sp with lq := s.sp.lq ++ [entry (lanes.map fun l => (l, (patTy ty (upto l)).image))] } ∧
        u.tr = { s.tr with lanes := u.tr.lanes } ∧ u.stores = s.stores ∧ u.readPlace p ty.bytes = upto s.tr.width ∧
        (∀ a, (∀ bs, p = .phys bs → a ∉ bs) → memRead u.mem a = memRead s.mem a) ∧
        (∀ o, (∀ b, p = .scratch b → o < b ∨ b + ty.bytes ≤ o) → memRead u.cp.scr o = memRead s.cp.scr o) ∧
        ∀ l < s.tr.width, u.tr.lane l = { (s.tr.lane l).dropTmp with seen := (u.tr.lane l).seen }) ∧
    (i = .natPrf n → (k.q dPrf).frame = false → exec i s = .next s.slotDone) ∧
    (i = .natPrf n → (k.q dPrf).frame = true → ∃ u : State, exec i s = .next u.slotDone ∧
      u = { s with counters := u.counters, tr := { s.tr with lanes := s.tr.lanes.map Lane.dropTmp } } ∧
      ∀ g, let hit := ∃ l, inMask m l = true ∧ s.src? l n.sb.toNat true % 2 ^ 64 ≠ 0 ∧ tagOf (s.src? l n.sa.toNat true % 2 ^ 64) = 0 ∧
          ∃ x ∈ s.migGranules s.lch.tree (s.src? l n.sa.toNat true % 2 ^ 64 / 65536 * 65536) (s.src? l n.sa.toNat true % 2 ^ 64 + s.src? l n.sb.toNat true % 2 ^ 64),
            fld x.2.2 16 32 = g
        (hit → (u.counters.find? fun c => c.1 = g) = some (g, if (k.q dPrf).sx = 1 then 0 else 255)) ∧
        (¬ hit → (u.counters.find? fun c => c.1 = g) = s.counters.find? fun c => c.1 = g)) ∧
    (i = .natFnc n → m = 0 → exec i s = .next s.slotDone) ∧
    (i = .natFnc n → m ≠ 0 → let f := k.q dFnc
      (f.frame = false → s.unbound m = none → (releases f.ord = true → s.pendingOf m = none ∧ s.dueBits m = none) →
        ∃ u : State, exec i s = .next u.slotDone ∧ NatFrame s u m f.ord ∧ u.cp = s.cp ∧ u.stores = s.stores ∧ u.sp = s.sp) ∧
      (f.frame = true → s.sup = true → s.unbound m = none → s.pendingOf m = none → s.dueBits m = none →
        ∃ u : State, exec i s = .next u.slotDone ∧ SameBytes s u ∧ u.sp = s.sp ∧ u.cp = s.cp ∧ u.stores = s.stores ∧
          ∀ e, e ∈ u.tlbs ↔ e ∈ s.tlbs ∧ ¬ ∃ l, inMask m l = true ∧ (f.sx = 3 ∨ e.unit.die? = some s.cp.core.die) ∧ e.tree = s.lch.tree ∧
            let lo := s.src? l n.sa.toNat true % 2 ^ 64
            let len := s.src? l n.sb.toNat true % 2 ^ 64
            if len = 0 then e.page * 65536 < 2 ^ 56
            else tagOf lo = 0 ∧ e.page * 65536 < lo + len ∧ lo < (e.page + 1) * 65536))

/-- R290, R304 to R308, R276 to R278, R283: a legal X slot acts once when its guard admits a lane, and else not at all. `mma` and `mmar` of a troop in no rope, and every write of a tile, leave rows and elements to land later; the copy engine's slots list their command with scalars as operands; the residency slots do what the portable instructions do; `ovl` queues an overlay of the other bank; `prd` and `pwr` move quads and element images. R277, R278, R318: a legal P slot. The read port puts the images of elements, which are the array's where no row of the tile is due or has landed before the split's own count, in flight for three bundles in each admitted lane, the lane's element being column (lane + 32 CO) mod 128 of the bank's row; the write port leaves the quad's image to land at the end of the bundle, on a rope's tile at POS 0 alone. -/
def Obligations.NativeEngines : Prop :=
  (∀ (s : State) (i : Instr) (n : NOp),
    let k := s.slot i
    let v (j : Nat) : Nat := s.sp.scalar (n.sa.toNat + j)
    let lanes := lanesOf s.tr.width s.sp.mask
    let queue := n.dst.toNat - 120
    let gives (ty : Ty) (x : Nat) (cmd : Option Nat) : List (Nat × QEnt) := [(queue, ⟨false, ty, lanes.map fun l => (l, BitVec.ofNat 64 x), cmd, []⟩)]
    let g := s.groupRef (n.dst.toNat / 4)
    k.op = i → s.okX k = true →
    (i ∈ [.natMma n, .natMmar n, .natAccn n, .natTcopy n, .natCopy n, .ovl n, .natRpitch n, .natRstrike n, .natAcci n] →
      s.adm n.gd.toNat = 0 → exec i s = .next s.slotDone) ∧
    (s.adm n.gd.toNat ≠ 0 → s.sp.st = .ready →
      (∀ (fa fb : MFmt), let q := k.q dMma
        let t := q.md + 1
        let puts (bs : List (List Blk)) : Prop := ∃ u : State, exec i s = .next u.slotDone ∧ EngineFrame s u ∧ SameBytes s u ∧ u.cp.scr = s.cp.scr ∧
          u.cp.accs = s.cp.accs ∧ u.sp.lq = s.sp.lq ∧ u.sp.pw = s.sp.pw ∧ (∀ l < s.tr.width, (u.tr.lane l).sticky = (s.tr.lane l).sticky) ∧
          ∃ ws : List MPend, u.sp.mp = s.sp.mp ++ ws ∧ ws.map MPend.quarter = [0, 1, 2, 3] ∧ u.cp.nextOrb = s.cp.nextOrb + 1 ∧
            ∀ w ∈ ws, w.acc = g.val.nat ∧ w.bs = bs ∧ w.op = s.cp.nextOrb ∧ w.own = true ∧ w.was = none ∧
            w.left = 5 + t * ((magPlanes fa * magPlanes fb + 7) / 8) + w.quarter ∧
            w.as = ((planeRows s.cp.scr (offOf (v 0)) t fa).drop (32 * w.quarter)).take 32
        inRope s.tr.rope = false → s.sp.nat.isSome = true → s.sp.matched = false → MFmt.ofCode (q.sx / 16) = some fa → MFmt.ofCode (q.sx % 16) = some fb →
        tagOf (v 0) = 0xFD → v 0 % 256 = 0 → offOf (v 0) + t * planeFoot fa.ty ≤ s.lch.scratch →
        (i = .natMma n → let b := s.sp.scalar n.sb.toNat
          tagOf b = 0xFD → b % 256 = 0 → offOf b + t * planeFoot fb.ty ≤ s.lch.scratch → puts (planeRows s.cp.scr (offOf b) t fb)) ∧
        (i = .natMmar n → let b := s.sp.scalar n.sb.toNat
          ∀ e w, s.cp.named false (b % 2 ^ 32) = some e → e.fmt = fb → b / 2 ^ 32 % 2 ^ 12 < e.tk * e.tn → e.stale = none →
            e.tiles.find? (fun x => x.j = b / 2 ^ 32 % 2 ^ 12 && x.core = s.cp.core && !e.todo.contains (b / 2 ^ 32 % 2 ^ 12)) = some w → puts (resRows w t fb))) ∧
      (i = .natAccn n → s.tr.gone g = false →
        (s.tr.changes g = false → exec i s = .next s.slotDone) ∧
        (s.tr.changes g = true → let r := (s.accTile g).mapAll fun _ x => x.norm
          ∃ u : State, exec i s = .next u.slotDone ∧ SameBytes s u ∧ u.cp.accs = s.cp.accs ∧
            u.sp = { s.sp with pw := s.sp.pw ++ [⟨9, g.val.nat, some r.1.dflt, r.1.els⟩] } ∧
            ∀ l < s.tr.width, u.tr.lane l = (s.tr.lane l).raise s.sup r.2)) ∧
      (i = .natAcci n → (k.q dAcc).var = some 0 → let a : AccRef := ⟨n.dst.toNat / 4, s.tr.ropeNow⟩
        (s.tr.changes a = false → exec i s = .next s.slotDone) ∧
        (s.tr.changes a = true → exec i s = .next ({ s with sp := { s.sp with
          pw := s.sp.pw ++ [⟨1, a.val.nat, some ⟨0, BitVec.ofNat 16 (v 0), false, false, BitVec.ofNat 4 (k.q dAcc).sx⟩, []⟩] } } : State).slotDone)) ∧
      (i = .natAcci n → (k.q dAcc).var ≠ some 0 → s.sp.matched = true → exec i s = .next s.slotDone) ∧
      (i = .natAcci n → (k.q dAcc).var = some 1 → s.sp.matched = false → s.sup = false → s.tr.rfault = none → s.Converged → inRope s.tr.rope = false →
        let ms := (List.range 32).filter fun b => (v 0 % 2 ^ 16).testBit b
        2 ≤ ms.length → ms.length ≤ 6 → s.tr.mem ∈ ms → (∀ b ∈ ms, b < s.lch.campsize) →
        ∃ u : State, exec i s = .next u ∧ u.sp.st = .forming (BitVec.ofNat 32 (v 0 % 2 ^ 16)) ∧ SameBytes s u ∧
          u.todo = s.todo ++ [.ropeFormed s.cp.ref (BitVec.ofNat 32 (v 0 % 2 ^ 16))]) ∧
      (i = .natAcci n → (k.q dAcc).var = some 2 → s.sp.matched = false → s.sup = false → s.tr.rfault = none → s.Converged → inRope s.tr.rope = true →
        ∃ u : State, exec i s = .next u ∧ u.sp.st = .rendezvous .free ∧ SameBytes s u ∧ u.todo = s.todo ++ [.rendezvousMatch s.cp.ref s.tr.ropeId]) ∧
      (∀ op c q j, cmdForm k = some (op, c, q, n) → (i = .natCopy n ∨ i = .natTcopy n) → build op q.ty q.md q.sx (List.range c) [] = .ok j →
        s.cmdCount < 16 → s.FenceMet .rel → s.sp.grant = false → s.sp.denied = false → s.finjFlip = (s, none) →
        let base (kind : CKind) (sc : Scope) (bw cv want : Option Val) : CopyCmd := ⟨s.cp.nextCmd, kind, s.tr.mem, s.lead, s.sp.sid, none, none, sc, 0, 0, 0,
          [], [], none, bw.map fun x => BitVec.ofNat 64 (v x), cv.map fun x => BitVec.ofNat 32 (v x),
          want.map fun x => BitVec.ofNat 32 (v x), 0, [], none, [], [], (s.tr.lane s.lead).seen, s.sp.func, s.sp.off, none, [], 0, none, none⟩
        let issues (b : State) (x : CopyCmd) : Prop := ∃ u : State, exec i s = .next u.slotDone ∧ EngineFrame b u ∧ SameBytes s u ∧
          u.cp = { s.cp with cmds := s.cp.cmds ++ [{ x with gran := x.grans.length, lq := if q.ty = 9 then some queue else none }], nextCmd := s.cp.nextCmd + 1 } ∧
          u.sp.lq = s.sp.lq ++ (if q.ty = 9 then gives .w64 0 (some s.cp.nextCmd) else []) ∧ u.sp.mp = s.sp.mp ∧ u.sp.pw = s.sp.pw
        (∀ st sc d f l bw cv w, j = .copy st sc d f l bw cv w → v l < 2 ^ 24 → rangeErr s.lch.scratch (v d) (v l) = none →
          rangeErr s.lch.scratch (v f) (v l) = none → s.localWord (bw.map v) 3 = ([], []) →
          issues s { base .copy sc bw cv w with dst := BitVec.ofNat 64 (v d), src := BitVec.ofNat 64 (v f), len := v l }) ∧
        (∀ var st sc a r os bw cv w bs, j = .tcopy var st sc a r os bw cv w → s.readRec (v r) = .bytes bs → s.sp.peerRec = none →
          tcopyBreaches bs var s.lch.scratch (v a) (os.map v) = [] → s.localWord (bw.map v) (2 + os.length) = ([], []) →
          issues (s.noteSpan (v r) 64) { base (.tcopy var) sc bw cv w with dst := BitVec.ofNat 64 (v a), src := BitVec.ofNat 64 (v a), org := os.map v, record := bs, trec := BitVec.ofNat 64 (v r) }) ∧
        (∀ st sc d f l lc bw cv w, j = .copyRemote st sc d f l lc bw cv w → v l < 2 ^ 24 → rangeErr s.lch.scratch (v f) (v l) = none →
          s.locBreaches (v d) (v f) (v l) (lc.map v) (bw.map v) (if lc.isSome then 4 else 3) = [] →
          issues s { base .remote sc bw cv w with
            dst := BitVec.ofNat 64 (v d), src := BitVec.ofNat 64 (v f), len := v l, loc := lc.map fun x => BitVec.ofNat 64 (v x) })) ∧
      (let setsFrom (b : State) (num : Nat) (e : Option Res) (out : List (Nat × QEnt)) : Prop := ∃ u : State, exec i s = .next u.slotDone ∧ EngineFrame b u ∧ SameBytes b u ∧
          u.sp.lq = s.sp.lq ++ out ∧ u.cp.res? num = e ∧ (∀ x, x ≠ num → u.cp.res? x = s.cp.res? x) ∧ u.cp.accs = s.cp.accs ∧ u.cp.scr = s.cp.scr
        let sets := setsFrom s;
        (i = .natRstrike n → let by_ := decide ((k.q dStrike).sx = 1)
          ((k.q dStrike).var = some 3 → ∀ num, sets num (s.cp.res? num) (gives .w32 (s.cp.queryWord by_ (v 0) % 2 ^ 32) none)) ∧
          (s.cp.named by_ (v 0) = none → (k.q dStrike).var ≠ some 3 → ∀ num, sets num (s.cp.res? num) []) ∧
          ∀ r, s.cp.named by_ (v 0) = some r →
            ((k.q dStrike).var = some 0 → sets r.num none []) ∧
            ((k.q dStrike).var = some 1 → (r.pin = true ∨ s.refuser .pslots r.slots s.lch.path = none) → s.cp.res? r.num = some r → sets r.num (some { r with pin := true }) []) ∧
            ((k.q dStrike).var = some 2 → sets r.num (some { r with pin := false }) [])) ∧
        (i = .natRpitch n → let q := k.q dPitch
          (q.sx = 8 → ∀ r, v 0 ≤ 255 → s.cp.res? (v 0) = some r → sets (v 0) (some r) (gives .rhandle (v 0 + 256 * (r.gen % 2 ^ 24)) none)) ∧
          (q.sx = 16 → ∀ r spans, s.FenceMet .rel → s.cp.res? (v 0) = some r → s.walkSource r.span = (s, .ok ⟨spans, false⟩) →
            (r.span = none ∨ r.watch ≠ none ∨ s.watches < 4096) →
            sets r.num (some { r with stale := none, watch := r.span.map fun _ => spans, tiles := [], todo := List.range (r.tk * r.tn) }) []) ∧
          (∀ sc, Scope.ofCode q.sx = some sc → ∀ (bs : List Byte) (f : MFmt) (spans : List (Nat × Nat)) (lo hi : Nat) (s2 : State),
            let p : Pitch := ⟨v 0, v 1, v 2, v 3, v 4, v 5⟩
            let r := TRec.ofBytes bs
            s.FenceMet .rel → s.sp.grant = false → s.sp.denied = false → s.sp.peerRec = none →
            s.readRec p.trec = .bytes bs → r.ok = true → r.fmt.mfmt = some f → 2 ≤ r.rank → s.cp.pitchArgs p = [] → tagOf r.base = 0 →
            r.span p.i0 p.i1 p.tk p.tn = some (lo, hi) → (s.noteSpan p.trec 64).walkSource (some (lo, hi)) = (s2, .ok ⟨spans, false⟩) →
            s2.refuser .rslots (p.tk * p.tn * f.planes) s2.lch.path = none → s2.watches < 4096 →
            setsFrom s2 p.num (some ⟨p.num, s.cp.nextGen p.num, BitVec.ofNat 64 p.trec, p.i0, p.i1, p.tk, p.tn, f, sc, false, none, some spans, [], bs,
              List.range (p.tk * p.tn), none⟩) (gives .rhandle (p.num + 256 * (s.cp.nextGen p.num % 2 ^ 24)) none)))) ∧
      (i = .ovl n → ∀ p, s.sp.nat = some p → s.finjMiss = (s, false) →
        let o := otherBank p.bank
        let x := (s.coreOf s.cp.core).bank o
        let a := v 0
        let b := s.sp.scalar n.sb.toNat
        let tag := ((s.pageEntry (a % 2 ^ 48 / 65536)).map TEntry.key).getD ⟨0, false, 0, 0, 0, 0, 0, 0, 0, 0, false⟩
        ((s.bankUsed s.cp.core o = true ∨ x.st = .valid ∧ x.key = some tag ∧ x.total = a / 2 ^ 48) → exec i s = .next s.slotDone) ∧
        (s.bankUsed s.cp.core o = false → ¬ (x.st = .valid ∧ x.key = some tag ∧ x.total = a / 2 ^ 48) →
          ∃ u : State, exec i s = .next u.slotDone ∧ u = { s with cores := u.cores } ∧ (∀ c, c ≠ s.cp.core → u.coreOf c = s.coreOf c) ∧
            let y := (u.coreOf s.cp.core).bank o
            y.st = .loading ∧ y.key = some tag ∧ y.total = a / 2 ^ 48 ∧ y.ovl.getLast? = some (a % 2 ^ 48, b % 2 ^ 16, b / 2 ^ 16 % 2 ^ 16, BitVec.ofNat 32 (b / 2 ^ 32), s.cp.ref) ∧
            (u.coreOf s.cp.core).bank p.bank = (s.coreOf s.cp.core).bank p.bank)))) ∧
  (∀ (s : State) (p : POp) (i : Instr) (re we : Bool),
    (i = .prd p ∧ re = true ∧ we = false ∨ i = .pwr p ∧ re = false ∧ we = true ∨ i = .prdPwr p ∧ re = true ∧ we = true) →
    let lanes := (lanesOf s.tr.width s.sp.mask).filter fun l => (s.tr.lane l).guard p.gd.toNat
    let el (bank row : Nat) (l : Nat) : Nat := 128 * (32 * (bank % 4) + row) + (l + 32 * p.co.toNat) % 128
    let wg := s.groupRef (p.wb.toNat / 4)
    let image (l : Nat) : AccEl :=
      let w (j : Nat) : W32 := (s.tr.lane l).reg (4 * p.kq.toNat + j)
      ⟨w 1 ++ w 0, (w 2).extractLsb' 0 16, (w 2).getLsbD 16, (w 2).getLsbD 17, (w 2).extractLsb' 20 4⟩
    (let r := s.groupRef (p.rb.toNat / 4);
      (∀ w ∈ s.sp.mp, w.acc ≠ r.val.nat ∨ w.left ≠ 0 ∧ w.was = none) → ∀ x, s.elemSeen r (s.accTile r) x = (s.accTile r).el x) ∧
    (s.okP re we p = true →
      ∃ u : State, exec i s = .next u.slotDone ∧ u = { s with sp := { s.sp with fl := u.sp.fl, pw := u.sp.pw } } ∧
        u.sp.pw = s.sp.pw ++ (if we = true ∧ s.tr.changes wg = true then
          [⟨1, wg.val.nat, none, lanes.map fun l => (el p.wb.toNat p.wr.toNat l, image l)⟩] else []) ∧
        u.sp.fl = s.sp.fl ++ (if re = true then (List.range 4).map fun j => ⟨3, .reg (4 * p.kq.toNat + j), lanes.map fun l =>
          let x := s.elemSeen (s.groupRef (p.rb.toNat / 4)) (s.accTile (s.groupRef (p.rb.toNat / 4))) (el p.rb.toNat p.rr.toNat l)
          (l, match j with
            | 0 => x.gm.setWidth 32
            | 1 => (x.gm >>> 32).setWidth 32
            | 2 => BitVec.ofNat 32 (x.e.toNat + boolN x.s * 2 ^ 16 + boolN x.n * 2 ^ 17 + x.c.toNat * 2 ^ 20)
            | _ => 0)⟩ else [])) ∧
    (s.okP re we p = false → exec i s = .next s.illBundle))

/-- R275, R284, R290, R309 to R317: a legal C slot. Branches, calls and returns are noted for the end of the delay bundle, a call with its link written and a return with its link read; `ifence`, `srd`, `smov`, `sadd`, `scmp` put their results in flight; `join` and `point` let the bundle go on where nothing is to wait for; `exit`, `trap`, `yield`, `barr` and `bwait` do what the portable instructions do. R314, R33, R192: the barrier slots on a valid word that no peer holds, the troop converged in user mode and nothing to report: `barr` arrives or initialises once, and leaves the phase it found in a guard pair where one is named; where it or `bwait` waits, the split is at the barrier and its bundle is given up until the phase differs. No byte outside the word changes. -/
def Obligations.NativeControl : Prop :=
  (∀ (s : State) (i : Instr) (n : NOp),
    let k := s.slot i
    let target := 4 * (n.dst.toNat * 2 ^ 14 + n.sa.toNat * 2 ^ 7 + n.sb.toNat)
    let m := s.adm n.gd.toNat
    let lanes := lanesOf s.tr.width s.sp.mask
    let ok (t : State) : Prop := exec i s = .next t.slotDone
    let branch (t : State) (b : NBr) : State := { t with bnd := t.bnd.map fun x => { x with br := some b } }
    let fly (f : List Flight) : State := { s with sp := { s.sp with fl := s.sp.fl ++ f } }
    let both (b : Bool) : List Flight := guardFlights 1 n.dst.toNat (lanes.map fun l => (l, b))
    let sc (r : BitVec 7) : Nat := s.sp.scalar r.toNat
    k.op = i → s.okC k = true →
    (i = .natBr n → ok (branch s (.go target))) ∧
    (i = .natBrc n → ok (branch s (.cond target m (if k.lit 0 = 0x1FFFFF then none else some (4 * k.lit 0))))) ∧
    (i = .brsw n → ok (branch s (.sw target (k.lit 0) (k.lit 1)))) ∧
    (i = .ifence n → (s.otherLoading = false ∨ s.bnd ≠ none) →
      ok (fly (both (s.otherHolds (if n.sa = 0 then s.sp.func else sc n.sa % 2 ^ 16) (k.lit 0)).isSome))) ∧
    (i = .natCall n → let f := k.lit 0 / 2 ^ 12
      let fp := s.sp.fp + 16 * (k.lit 0 % 2 ^ 12)
      let link := linkBytes s.sp.fp s.sp.func (k.lit 1) s.tr.budget s.tr.tiles
      fp + s.frameOf s.sp.mh f ≤ s.frameLimit →
      (s.sup = true → ∃ u : State, ok u ∧ u = branch { s with tr := { s.tr with lanes := u.tr.lanes } } (.call f (k.lit 1) fp) ∧
        ∀ l, s.active l → ∀ x, (s.tr.lane l).saved = some x →
          ∃ y, u.tr.lane l = { s.tr.lane l with saved := some { x with area := y } } ∧ ∀ a, memRead y a = (lastTo (cellsAt fp link) a).getD (memRead x.area a)) ∧
      (s.sup = false → (∀ l, s.active l → backing s.tr.width l (fp + 15) / 65536 < s.tr.hwm) →
        ∃ u : State, ok u ∧ u.bnd = (branch s (.call f (k.lit 1) fp)).bnd ∧ u.sp = s.sp ∧ u.tr = s.tr ∧
          ∀ a, memRead u.mem a = (lastTo (lanes.flatMap fun l => ((List.range 16).zip link).filterMap fun b =>
            (s.privPhys s.tr.proot (backing s.tr.width l (fp + b.1))).map fun x => (x, b.2)) a).getD (memRead s.mem a))) ∧
    (i = .natRet n → (s.sup = true ∨ s.sp.grant = false ∧ s.sp.denied = false ∧
        ∀ l, s.active l → ∃ ps, s.check l (privVa s.sp.fp) ⟨8, 2, 8, needR, 3⟩ = .ok ps) →
      let up := s.frameRead s.lead s.sp.fp 8
      let w := s.frameRead s.lead (s.sp.fp + 8) 8
      let last := w % 2 ^ 24 = 0xFFFFFF
      (¬ last → ok (branch s (.ret up (some w)))) ∧
      (last → (s.sup = true ∨ s.gate s.sp.mask = none) → ok (branch s (.ret up none)))) ∧
    (i = .join n → (∀ p g, s.sp.nat = some p → s.tr.group? s.sp.group = some g →
        ¬ (g.nat = some p.off ∧ g.mh = s.sp.mh ∧ g.func = s.sp.func ∧ g.depth = depthKey s.sup (s.tr.depth s.sp.mask))) → ok s) ∧
    (i = .point n → (s.bnd ≠ none ∨ ∀ e ∈ s.sp.lq, e.2.landed = true) → ok s) ∧
    (i ∈ [.natExit n, .srd n, .natTrap n, .barr n, .bwait n, .natYield n, .sadd n, .smov n, .scmp n] → m = 0 → ok s) ∧
    (i = .natExit n → m ≠ 0 → (s.sup = true ∨ s.dueBits m = none ∧ s.dueCmd m = none ∧ s.tr.newDead = [] ∧ ∀ l, inMask m l = true → (s.tr.lane l).sticky &&& reportSet = 0) →
      ∃ u : State, ok u ∧ u.tr.lanes = s.tr.lanes ∧ (∀ l, inMask u.tr.live l = (inMask s.tr.live l && !inMask m l)) ∧ (s.sup = false → SameBytes s u)) ∧
    (m ≠ 0 →
      (i = .natTrap n → let q := k.q dZero
        ((q.v = 0 ∨ q.v = 3) → ∀ mh f, (s.tenantOf s.lch).bind Tenant.handler = some (mh, f) → s.sup = false → s.sp.nat.isSome = true →
          let w := xcause (if q.v = 0 then 0x0D else 0x0C) (s.isTerm s.sp.mh s.sp.func s.sp.off) false
          ∃ u : State, exec i s = .next u ∧ u.bnd = none ∧ SameBytes s u ∧ u.sp.mask = s.sp.mask ∧
            (s.trapFree ≠ 0 → s.sp.rewind.landed = true → s.statusDue = false →
              u.sp.mh = mh ∧ u.sp.func = f ∧ u.sp.off = 0 ∧ u.trapFree = s.trapFree - 1 ∧
              u.sp.sup.map (fun x => (x.func, x.off, x.mh, x.cause, x.addr, x.mask)) = some (s.sp.func, s.sp.off, s.sp.mh, w, BitVec.ofNat 64 q.sx, s.sp.mask)) ∧
            ((s.trapFree = 0 ∨ s.sp.rewind.landed = false ∨ s.statusDue = true) →
              u.sp.st = .trap ⟨w, BitVec.ofNat 64 q.sx, s.sp.off⟩ ∧ Micro.trapEntry s.spRef ∈ u.todo)) ∧
        (q.v = 1 → (∀ d ∈ s.dbgs, d.region ≠ s.lch.region) → ok { s with sp := { s.sp with passBrk := false } }) ∧
        (q.v = 2 → s.sup = true → ∃ t b, exec (if q.sx = 1 then .xretNext else .xretRetry) s = .next t ∧ exec i s = .next { t with bnd := b })) ∧
      (i = .srd n → let q := k.q dSrd
        let a := n.sa.toNat
        let reads (t : State) (f : Nat → Nat) : State := { t with sp := { t.sp with fl := t.sp.fl ++ regFlights 1 n.dst.toNat q.wide (lanes.map fun l => (l, f l)) } }
        q.aux = 0 →
        (∀ x, s.module? s.sp.mh = some x →
          (a = 0x10 → ok (reads s fun _ => x.dbase.toNat)) ∧ (a = 0x11 → ok (reads s fun _ => x.cbase.toNat)) ∧ (a = 0x12 → ok (reads s fun _ => x.tbase.toNat))) ∧
        (∀ r, SysReg.ofCode a = some r → q.sx = 0 → (a < 0x10 ∨ 0x12 < a) → ok (reads s fun l => s.sysReg r l)) ∧
        (a = 6 → q.sx = 1 → s.FenceMet .sc → ∃ (t : State) (x : W64), ok (reads t fun _ => x.toNat) ∧ s.stamp ≤ x ∧ x ≤ t.gseen ∧
          t = { s with gseen := t.gseen, tr := { s.tr with lanes := t.tr.lanes } } ∧ ∀ l < s.tr.width, t.tr.lane l = { s.tr.lane l with seen := (t.tr.lane l).seen })) ∧
      (i = .srd n → let q := k.q dSrd
        let x := s.withArgs m fun l => [⟨q.type, BitVec.ofNat 64 (s.src? l n.sb.toNat q.wide)⟩]
        let back (t : State) : State := { t with tr := { t.tr with lanes := s.tr.lanes.map Lane.dropTmp } }
        q.aux = 2 ^ 13 →
        (n.sa = 0x0E → ∃ t, exec (.opReq 0) x = .next t ∧ ok (back { s with cores := t.cores })) ∧
        (n.sa = 0x0A → s.sup = true → ∃ u : State, ok u ∧ u = { s with tr := { s.tr with lanes := u.tr.lanes } } ∧ ∀ l < s.tr.width,
          u.tr.lane l = { (s.tr.lane l).dropTmp with sticky := if inMask m l then (s.tr.lane l).sticky &&& ~~~(BitVec.ofNat 32 (s.src? l n.sb.toNat q.wide)) else (s.tr.lane l).sticky }) ∧
        (n.sa = 0x0D → s.sup = true → ∃ t, exec (.sysWrStubv 0) x = .next t ∧
          ok (back { s with tr := { s.tr with stubv := t.tr.stubv, splits := t.tr.splits }, sp := { s.sp with rq := t.sp.rq } }))) ∧
      (i = .sadd n → let q := k.q dScalar
        let a := if q.za then 0 else sc n.sa
        let b := if q.ib then litVal k.lits else sc n.sb
        let r : Nat := match q.sx with
          | 0 => (a + b) % 2 ^ 64
          | 1 => (a + 2 ^ 64 - b % 2 ^ 64) % 2 ^ 64
          | 2 => if 64 ≤ b then 0 else a * 2 ^ b % 2 ^ 64
          | 3 => a ||| b
          | 4 => a &&& b
          | _ => if 64 ≤ b then 0 else a / 2 ^ b
        ok (fly [scalarFlight 1 n.dst.toNat r])) ∧
      (i = .smov n → let q := k.q dScalar
        (q.sx = 0 → ok (fly [scalarFlight 1 n.dst.toNat (if q.za then 0 else sc n.sa)])) ∧
        (q.sx = 1 → ∀ l, (lanesOf s.tr.width m).head? = some l → ok (fly [scalarFlight 1 n.dst.toNat (if q.za then 0 else s.src? l n.sa.toNat q.wide)])) ∧
        (q.sx = 2 → ok (fly [scalarFlight 1 n.dst.toNat (litVal k.lits)]))) ∧
      (i = .scmp n → let q := k.q dScalar
        let a := if q.za then 0 else sc n.sa
        let b := if q.ib then litVal k.lits else sc n.sb
        let x := if q.type = .i64 then (BitVec.ofNat 64 a).toInt else (a : Int)
        let y := if q.type = .i64 then (BitVec.ofNat 64 b).toInt else (b % 2 ^ 64 : Nat)
        lanes ≠ [] → ∀ cc, Cc.ofCode q.md = some cc → ∃ u : State, ok u ∧
          u = { s with tr := { s.tr with lanes := s.tr.lanes.map Lane.dropTmp }, sp := { s.sp with fl := s.sp.fl ++ both (match cc with
            | .eq => decide (x = y)
            | .ne => decide (x ≠ y)
            | .lt => decide (x < y)
            | .le => decide (x ≤ y)
            | .gt => decide (y < x)
            | .ge => decide (y ≤ x)) } }) ∧
      (i = .natYield n → s.sup = false →
        (s.sp.yielded = false → s.offerTaken = false → ok { fly (both false) with
          sp := { (fly (both false)).sp with aged := false, yielded := false, issued := (s.coreOf s.cp.core).issues } }) ∧
        (s.sp.yielded = true → ok { fly (both true) with
          sp := { (fly (both true)).sp with aged := false, yielded := false, issued := (s.coreOf s.cp.core).issues } }) ∧
        (s.sp.yielded = false → s.offerTaken = true → ∃ u : State, exec i s = .next u ∧ u.tr = s.tr ∧ u.sp = { s.sp with yielded := true } ∧ Micro.campTakeoff s.cp.ref ∈ u.todo)))) ∧
  (∀ (s : State) (i : Instr) (n : NOp) (p : Spot),
    let k := s.slot i
    let a : Nat := s.sp.scalar n.sa.toNat
    let e : Nat := s.sp.scalar n.sb.toNat % 2 ^ 32
    let lanes := lanesOf s.tr.width s.sp.mask
    let w := BWord.ofNat (s.readPlace p 8)
    let both (b : Bool) : List Flight := guardFlights 1 n.dst.toNat (lanes.map fun l => (l, b))
    let outside (u : State) : Prop := (∀ a, (∀ bs, p = .phys bs → a ∉ bs) → memRead u.mem a = memRead s.mem a) ∧
      (∀ o, (∀ q, p = .scratch q → o < q ∨ q + 8 ≤ o) → memRead u.cp.scr o = memRead s.cp.scr o) ∧
      ∀ l < s.tr.width, u.tr.lane l = { (s.tr.lane l).dropTmp with seen := (u.tr.lane l).seen }
    let waits (ref : Bool) : Prop := ∃ u : State, exec i s = .next u ∧ outside u ∧ u.sp = { s.sp with st := .barrier (BitVec.ofNat 64 a) ref } ∧ u.bnd = none
    let goes (f : List Flight) : Prop := ∃ u : State, exec i s = .next u.slotDone ∧ outside u ∧ SameBytes s u ∧ u.cp.scr = s.cp.scr ∧
      u.sp = { s.sp with fl := s.sp.fl ++ f }
    WordAt s a p → s.sup = false → k.op = i → s.okC k = true → s.adm n.gd.toNat ≠ 0 → s.sp.st = .ready → s.sp.arrived = false → s.sp.word = none →
    s.FenceMet .rel →
    (i = .barr n → let v := (k.q dZero).v
      let bal := w.bal + e
      let done := w.parr ≤ 1 ∧ bal = 0
      let after (u : State) : Prop := outside u ∧ u.tr.larr = some (BitVec.ofNat 64 a, w.phase) ∧ BWord.ofNat (u.readPlace p 8) =
        (if done then ⟨!w.phase, w.expect, w.expect, 0, w.scope⟩
         else ⟨w.phase, w.expect, w.parr - 1, if bal < -(2 ^ 24 - 1) then -(2 ^ 24 - 1) else if 2 ^ 24 - 1 < bal then 2 ^ 24 - 1 else bal, w.scope⟩)
      (v ≠ 3 → s.Converged → s.Unreported → e < 2 ^ 24 → wordOk (s.readPlace p 8) = true →
        (v = 0 → ∃ u : State, exec i s = .next u.slotDone ∧ after u ∧ u.sp = { s.sp with fl := s.sp.fl ++ if n.dst = 0 then [] else both w.phase }) ∧
        ((v = 1 ∨ v = 2 ∧ s.readsLeft = false) → done → ∃ u : State, exec i s = .next u.slotDone ∧ after u ∧ u.sp = s.sp) ∧
        ((v = 1 ∨ v = 2 ∧ s.readsLeft = false) → ¬ done → ∃ u : State, exec i s = .next u ∧ after u ∧ u.sp = { s.sp with st := .barrier (BitVec.ofNat 64 a) w.phase } ∧ u.bnd = none)) ∧
      (v = 3 → s.campDue = none → 1 ≤ e → e ≤ 4095 → ∃ u : State, exec i s = .next u.slotDone ∧ outside u ∧ u.sp = s.sp ∧
        BWord.ofNat (u.readPlace p 8) = ⟨false, e, e, 0, (k.q dZero).sx⟩)) ∧
    (i = .bwait n → let v := (k.q dWait).v
      let ph := (s.tr.lane ((lanesOf s.tr.width (s.adm n.gd.toNat)).headD 0)).guard n.sb.toNat
      let ref := if v = 1 then (match s.tr.larr with
        | some (b, x) => if b = BitVec.ofNat 64 a then x else w.phase
        | none => w.phase) else ph
      wordOk (s.readPlace p 8) = true →
      (v ≤ 1 → s.Converged → (w.phase ≠ ref → goes []) ∧ (w.phase = ref → waits ref)) ∧
      (v = 2 → goes (both (decide (w.phase ≠ ref))))))

/-- R265, R272, R273, R276, R280, R384: a header whose bundle is legal and waits for nothing lands what is due and starts the bundle; an illegal bundle makes its bank INVALID and nothing of it issues. After a slot the next slot follows; after the last one the marked queues lose their heads, every count of results in flight goes down by one, and the split stands at the next bundle, or, after a delay bundle, takes the branch. R272, R273, R276, R277: results whose count has run out land in the lanes of their split, of two for one register the later issued; an entry whose values have returned becomes landed; the rows of a matrix operation land a quarter at a time. -/
def Obligations.Bundles : Prop :=
  ((∀ (s : State) (h : Hdr) (p : NPos) (b : Bank), s.sp.nat = some p → s.natBank = some b →
    (∀ ss, b.bundle s.cp.core.die p.off h = some ss → s.landDue.okBundle ss = true →
      let s1 := if h.pp then s.landDue.atNatPoint else s.landDue
      s1.headWait (heads h ss) = none → s1.room ss = true → (∀ k ∈ ss, s1.slotStop k = none) → ss ≠ [] →
      ∃ u : State, exec (.header h) s = .next u ∧ u.bnd = some ⟨h, 4 * (1 + (slotKinds h.tm.toNat).length + h.lc.toNat), ss, none⟩ ∧
        u = { s1 with bnd := u.bnd, clusters := u.clusters, cores := u.cores, sp := { s1.sp with aged := false, issued := (s.coreOf s.cp.core).issues + 1 } } ∧
        (u.clusterOf s.cp.core).c = (s.clusterOf s.cp.core).c + (ss.map s1.slotCharge).sum) ∧
    ((b.bundle s.cp.core.die p.off h = none ∨ ∃ ss, b.bundle s.cp.core.die p.off h = some ss ∧ s.landDue.okBundle ss = false) →
      s.sup = false → ((s.tenantOf s.lch).bind Tenant.handler).isSome = true →
      ∃ u : State, exec (.header h) s = .next u ∧ u.bnd = none ∧ ((u.coreOf s.cp.core).bank p.bank).st = .invalid ∧ u.sp.mask = s.sp.mask)) ∧
  (∀ (s : State) (b : Bundle) (k k' : NSlot) (r : List NSlot), s.bnd = some b → s.sp.mask ≠ 0 → b.rest = k :: k' :: r →
    s.slotDone = { s with bnd := some { b with rest := k' :: r } }) ∧
  ∀ (s : State) (b : Bundle) (k : NSlot) (p : NPos), s.bnd = some b → s.sp.mask ≠ 0 → b.rest = [k] → s.sp.nat = some p → s.sp.pw = [] →
    let lq := (List.range 8).foldl (fun l q => if b.hdr.pm.getLsbD q then popQueue q l else l) s.sp.lq
    let t : State := { s with bnd := none, sp := { s.sp with
      lq := lq, matched := false, arrived := false, word := none, peerRec := none
      fl := s.sp.fl.map fun f => { f with left := f.left - 1 }, mp := s.sp.mp.map fun w => { w with left := w.left - 1 } } }
    (∀ q e x, (∀ y ∈ e, y.1 ≠ q) → popQueue q (e ++ (q, x) :: s.sp.lq) = e ++ s.sp.lq) ∧
    (p.pend = none → s.slotDone = { t with sp := { t.sp with nat := some { p with off := p.off + b.size, pend := b.br } } }) ∧
    (∀ a, p.pend = some (.go a) → s.slotDone = let u := t.landDue
      { u with sp := { u.sp with nat := some { p with off := a, pend := none, due := false } } }) ∧
    ∀ a m j, p.pend = some (.cond a m j) →
      ∃ u : State, s.slotDone = u ∧ (u.sp.mask = s.sp.mask &&& m ∨ u.sp.mask = s.sp.mask) ∧
        (s.sp.mask &&& ~~~m = 0 → u.sp.nat = some { p with off := a, pend := none, due := false } ∧ u.tr.splits = s.tr.splits) ∧
        (s.sp.mask &&& m = 0 → s.sp.mask &&& ~~~m ≠ 0 → u.sp.nat = some { p with off := p.off + b.size, pend := none, due := false } ∧ u.tr.splits = s.tr.splits) ∧
        (s.sp.mask &&& ~~~m ≠ 0 → s.sp.mask &&& m ≠ 0 → u.sp.mask = s.sp.mask &&& m ∧ u.sp.nat.map (fun x => (x.bank, x.off, x.pend)) = some (p.bank, a, none) ∧
          ∃ q, u.tr.splits = s.tr.splits ++ [q] ∧ q.mask = s.sp.mask &&& ~~~m ∧ q.nat.map (fun x => (x.bank, x.off, x.pend)) = some (p.bank, p.off + b.size, none) ∧
            q.group = u.sp.group ∧ ∀ w ∈ q.mp, w.own = false)) ∧
  (∀ (s : State) (r : SplitRef) (f : State), s.focusOn r = some f →
    (∃ g : State, exec (.resultLanding r) s = .next g.unfocus ∧
      g = { f with tr := { f.tr with lanes := g.tr.lanes }, sp := { f.sp with fl := f.sp.fl.filter (fun x => x.left ≠ 0), scal := g.sp.scal } } ∧
      (∀ l, inMask f.sp.mask l = false → g.tr.lane l = f.tr.lane l) ∧
      (∀ l < f.tr.width, inMask f.sp.mask l = true →
        (∀ k, (g.tr.lane l).reg k = (((f.sp.fl.filter fun x => x.left = 0 && x.dst = .reg k).filterMap fun x => x.lane? l).getLast?).getD ((f.tr.lane l).reg k)) ∧
        ∀ k, 2 ≤ k → k < 16 → (g.tr.lane l).guard k =
          ((((f.sp.fl.filter fun x => x.left = 0 && x.dst = .guard k).filterMap fun x => x.lane? l).getLast?).map fun v => v.getLsbD 0).getD ((f.tr.lane l).guard k)) ∧
      ∀ k, g.sp.scalar k = (((f.sp.fl.filter fun x => x.left = 0 && x.dst = .scalar k).getLast?).map fun x =>
        ((x.lane? 0).getD 0).toNat + 2 ^ 32 * ((x.lane? 1).getD 0).toNat).getD (f.sp.scalar k)) ∧
    (∀ (q : Fin 8) (i : Nat), ∃ t lq, exec (.loadResponse r q i) s = .next t ∧ t.focusOn r = some { f with sp := { f.sp with lq := lq } } ∧
      ∀ j x, ({ f.sp with lq := lq } : Split).entry j x = if j = i ∧ x = q.val then
        (f.sp.entry i q.val).map fun e => if e.reqs = [] ∧ e.cmd = none then { e with landed := true } else e else f.sp.entry j x) ∧
    (∀ (p : MPend) (pre post : List MPend), f.sp.mp = pre ++ p :: post → (∀ w ∈ pre ++ post, w.left ≠ 0 ∧ (w.op ≠ p.op ∨ w.quarter ≠ p.quarter)) → p.left = 0 → p.own = true → p.was = none → f.sp.trapping = false → f.sup = false →
      let a := AccRef.ofNat p.acc
      let t0 := f.accTile a
      t0.Rising → ∃ g : State, exec (.matrixRowLanding r) s = .next g.unfocus ∧ g.sp = { f.sp with mp := pre ++ post } ∧ SameBytes f g ∧
        (g.tr.splits = f.tr.splits.map fun x => { x with mp := x.mp.map fun w =>
          if w.op = p.op ∧ w.quarter = p.quarter ∧ w.was = none then { w with was := some t0, own := false } else w }) ∧
        (∀ b, b ≠ a → g.accTile b = f.accTile b) ∧
        (∀ i < 16384, (g.accTile a).el i = if i / 4096 = p.quarter then ((t0.el i).addRow ((p.as[i / 128 % 32]?).getD []) ((p.bs[i % 128]?).getD [])).1 else t0.el i) ∧
        ∀ l < f.tr.width, ∀ b, ((g.tr.lane l).sticky.getLsbD b = true ↔ (f.tr.lane l).sticky.getLsbD b = true ∨
          ∃ i < 16384, i / 4096 = p.quarter ∧ ((t0.el i).addRow ((p.as[i / 128 % 32]?).getD []) ((p.bs[i % 128]?).getD [])).2.getLsbD b = true)))

/-- R353, R356, R357: a completion is one record of 64 bytes in the master's completion ring when its slot is free, with the stamp, the status, code and tag; every other byte is as before. A reserved code completes with status BADCMD, a command with operands out of range with BADARG, an owner's command from another master with NOTOWNER and an OWNER event; none of them has any other effect. In ember only the commands that it accepts are executed; the others complete with status 7. -/
def Obligations.CompletionRecords : Prop :=
  (∀ (s : State) (c : Cmd) (status : Nat) (res : List Nat),
    let x := s.master c.master
    let a := hostPhys (x.cpbase.toNat + 64 * (x.cpidx.toNat % 2 ^ x.clog2))
    x.en = true → x.link = true → x.cpdrop = 0 → memNat s.mem a 8 = 0 → status < 256 →
    let t := s.complete c status res
    (∀ y, (y < a ∨ a + 64 ≤ y) → memRead t.mem y = memRead s.mem y) ∧
    t.gseen = maxW s.stamp (s.gseen + 1) ∧ memNat t.mem a 8 = t.gseen.toNat ∧
    memNat t.mem (a + 16) 8 = 0x80 + status * 2 ^ 8 + c.code.toNat * 2 ^ 16 + c.tag.toNat * 2 ^ 24 ∧
    (∀ i < 4, memNat t.mem (a + 32 + 8 * i) 8 = (res[i]?).getD 0 % 2 ^ 64) ∧
    (t.master c.master).cpidx = x.cpidx + 1 ∧
    t = { s with mem := t.mem, gseen := t.gseen, masters := t.masters, poison := t.poison, camps := t.camps, cp := t.cp }) ∧
  ∀ (s : State) (c : Cmd), s.focused = false → c.rsv = false →
    exec (.reservedCommand c) s = .next (s.complete c 1 []) ∧
    (∀ i ∈ [Instr.setPackageNumber c, .emberEnter c, .fencecmd c, .debugChallenge c, .poolDeny c], s.ember ≠ .running → s.owner = some c.master →
      c.a0.toNat < 2 → exec i s = .next (s.complete c 7 [])) ∧
    (s.ember = .running → ∀ i ∈ [Instr.setPackageNumber c, .emberEnter c, .fencecmd c, .debugChallenge c], s.owner ≠ some c.master → c.a0.toNat < 8 →
      exec i s = .next ((s.postOwner ⟨0x14, 4, s.gsrc srcMgmt, 0, EvBody.pack ⟨0, 0, 0, 0, 0, c.master⟩⟩).complete c 3 [])) ∧
    (s.ember = .running → (c.a0.toNat < 32 ∨ 4096 < c.a0.toNat ∨ c.a0.toNat % 32 ≠ 0) → exec (.setRunLimit c) s = .next (s.complete c 2 []))

/-- R239, R349, R358 to R361, R429, R465, R468, R473, R99: the owner's settings, with operands in range, each change the one setting they name. -/
def Obligations.OwnerSettings : Prop :=
  ∀ (s : State) (c : Cmd), s.focused = false → c.rsv = false → s.ember = .running → s.owner = some c.master →
    let a := c.a0.toNat
    let b := c.a1.toNat
    let entry : BitVec 256 := c.a4 ++ c.a3 ++ c.a2 ++ c.a1
    (32 ≤ a → a ≤ 4096 → a % 32 = 0 → Completes (.setRunLimit c) c s { s with runlim := a } []) ∧
    (5000 ≤ a → a ≤ 200000 → Completes (.setHold c) c s { s with hold := a } []) ∧
    (a < 320 → Completes (.setPackageNumber c) c s { s with pkg := a } []) ∧
    (100 ≤ a → a ≤ 100000 → Completes (.setPeerTimeout c) c s { s with peerTo := a } []) ∧
    (a < 320 → b < 18 → ∃ t, Completes (.routeWrite c) c s t [] ∧ t = { s with routes := t.routes } ∧
      ∀ k, (t.routes.find? fun r => r.1 = k) = if k = a then some (a, b) else s.routes.find? fun r => r.1 = k) ∧
    (a < 1024 → entry.extractLsb' 0 2 ≠ 3 → entry.extractLsb' 2 4 = 0 → entry.extractLsb' 9 46 = 0 → entry.extractLsb' 200 16 = 0 →
      (entry.extractLsb' 0 2 = 2 → entry.extractLsb' 88 56 = 0) →
      ∃ t, Completes (.exportWrite c) c s t [] ∧ t = { s with exports := t.exports } ∧
        ∀ k, (t.exports.find? fun r => r.1 = k) = if k = a then some (a, entry) else s.exports.find? fun r => r.1 = k) ∧
    (1 ≤ a → a < 4096 → b + 64 ≤ 2 ^ 47 → ∃ t, Completes (.keyInstall c) c s t [] ∧ t = { s with keys := t.keys } ∧
      ∀ k, (t.keys.find? fun r => r.1 = k) = if k = a then some (a, memBytes s.mem (hostPhys b) 64) else s.keys.find? fun r => r.1 = k) ∧
    (a + 432 ≤ 2 ^ 47 → Completes (.supervisorKey c) c s { s with
      superKeys := some ((memBytes s.mem (hostPhys a) 432).take 384, (memBytes s.mem (hostPhys a) 432).drop 384) } []) ∧
    (s.pkg = 0 → Completes (.domainAlign c) c s { s with aligned := true } []) ∧
    (1 ≤ a → a ≤ 255 → b ≤ (0x6000000000 - ((s.reserved.filter fun r => inHbm r.1).map fun r => r.2 - r.1).sum) / 65536 →
      Completes (.setTier c) c s { s with promo := a, lowmark := b } []) ∧
    (∀ (x : Die), a < 8 → s.dies.find? (fun d => d.die = a) = some x → x.fenced = false →
      ∃ t : State, Completes (.fencecmd c) c s t [] ∧ t.dies = s.dies.map (fun y => if y.die = a then { y with fenced := true, queue := [] } else y) ∧
        t.stores = s.stores.filter (fun q => q.die != a) ∧
        ((∀ k ∈ s.camps, k.resident = false) → (∀ k ∈ s.camps, ∀ j, k.place ≠ .image j) → s.claims = [] →
          t = ({ s with stores := t.stores, tlbs := s.tlbs.filter (fun e => e.unit.die? != some a), dies := t.dies, cores := t.cores } : State).postOwner (s.fenceEv 0x2B a))) ∧
    (∀ (x : Die), a < 8 → s.dies.find? (fun d => d.die = a) = some x →
      (x.fenced = true → ∃ t, Completes (.unfence c) c s t [] ∧ t = { s with dies := t.dies, cores := t.cores } ∧ (t.dieOf a) = { x with fenced := false } ∧
        ∀ k ∈ t.cores, (k.id.die = a → k = { Core.reset k.id with idle := s.stamp.toNat }) ∧ (k.id.die ≠ a → k ∈ s.cores)) ∧
      (x.fenced = false → Completes (.unfence c) c s s []) ∧
      Completes (.errorCounts c) c s s ((List.range 4).map fun i => fld ((x.corrected.map fun y => y.2.toNat * 2 ^ (16 * (y.1 - 1))).sum) (64 * i) 64)) ∧
    (s.finjBad a = false → let k : CoreId := ⟨a / 2 ^ 12 % 16, a / 2 ^ 16 % 256, 0⟩
      Completes (.finjRead c) c s s [(s.clusterOf k).finj.toNat] ∧
      (b / 2 ^ 28 % 16 = 0 → b / 2 ^ 11 % 2 ^ 13 = 0 → b / 8 % 32 = 0 → b / 2 % 4 ≠ 3 →
        ∃ t, Completes (.finjWrite c) c s t [] ∧ t = { s with clusters := t.clusters } ∧
          (t.clusterOf k).finj.toNat / 2 = b / 2 ∧
          ((t.clusterOf k).finj.getLsbD 0 = true ↔ b / 2 % 4 ≠ 0 ∧ (b % 2 = 1 ∨ (s.clusterOf k).finj.getLsbD 0 = true)) ∧
          ∀ j, (j.die, j.cl) ≠ (k.die, k.cl) → t.clusterOf j = s.clusterOf j)) ∧
    (2 * 8 * min b s.reserved.length + a ≤ 2 ^ 47 → ∃ t, Completes (.reservedMap c) c s t [s.reserved.length] ∧
      WritesHost s t c.a0 ((s.reserved.take b).flatMap fun r => leBytes 8 r.1 ++ leBytes 8 r.2)) ∧
    (∃ t, Completes (.emberEnter c) c s t [] ∧ t.ember = .entering ∧ (∀ q ∈ t.queues, q.mapped = false) ∧ (∀ k ∈ t.camps, ∀ j, k.place ≠ .on j) ∧
      t = { s with ember := .entering, emberByBrown := false, exitDue := false, queues := t.queues, camps := t.camps }) ∧
    (s.brownout = false → s.emberByBrown = false → Completes (.emberExit c) c s s []) ∧
    (let n := Config.nonce s.nonces;
      Completes (.debugChallenge c) c s { s with nonces := s.nonces + 1, nonce := some n } [n.toNat % 2 ^ 64, n.toNat / 2 ^ 64 % 2 ^ 64, n.toNat / 2 ^ 128 % 2 ^ 64, n.toNat / 2 ^ 192 % 2 ^ 64])

/-- R340, R347, R351, R363, R364: commands that ember accepts or that need no owner. A rack cap newer than the last sets cap and lease, an older one changes nothing; a subscription is written in its entry; an attestation report with its signature is put in host memory; a debug token that passes every check erases the keys and unlocks the package, and one that fails is refused with the reason in a SECURITY event. -/
def Obligations.AcceptedInEmber : Prop :=
  ∀ (s : State) (c : Cmd), s.focused = false → c.rsv = false →
    let a := c.a0.toNat
    let b := c.a1.toNat
    (s.owner = some c.master → s.brownout = false → s.emberByBrown = false →
      (s.ember = .entering → Completes (.emberExit c) c s { s with exitDue := true } []) ∧
      (s.ember = .ember → ∃ t, Completes (.emberExit c) c s t [] ∧ t.ember = .leaving ∧
        t = { s with ember := .leaving, exitDue := false, cores := t.cores, dies := t.dies })) ∧
    (4 ≤ c.master → 400 ≤ b → b ≤ 1900 → 10 ≤ c.a2.toNat → c.a2.toNat ≤ 60000 → a < 2 ^ 32 →
      let newer := ∀ q, s.capSeq = some q → 1 ≤ (BitVec.ofNat 32 a - q).toNat ∧ (BitVec.ofNat 32 a - q).toNat < 2 ^ 31
      (newer → ∃ t : State, exec (.rackCap c) s = .next t ∧ t.capSeq = some (BitVec.ofNat 32 a) ∧ t.cap = b ∧ t.capNow = 10 * b ∧ t.floor = false ∧
        t.lease = some (s.stamp.toNat + c.a2.toNat * 1000000)) ∧
      (¬ newer → exec (.rackCap c) s = .next s)) ∧
    (a < 1024 → s.subBad c.master ⟨a, c.a4 ++ c.a3 ++ c.a2 ++ c.a1, c.master, true⟩ = false →
      let x : Sub := ⟨a, c.a4 ++ c.a3 ++ c.a2 ++ c.a1, c.master, true⟩
      ∃ t, Completes (.subscribe c) c s t [] ∧ t = { s with subs := t.subs } ∧
        ∀ y, y ∈ t.subs ↔ (y ∈ s.subs ∧ y.i ≠ a) ∨ (y = x ∧ x.kind ≠ 0)) ∧
    (a + 32 ≤ 2 ^ 47 → let r := s.report (memBytes s.mem (hostPhys a) 32)
      let all := r ++ leBytes 16608 (Config.attestSig r).toNat
      b + all.length ≤ 2 ^ 47 → ∃ t, Completes (.attest c) c s t [] ∧ WritesHost s t c.a1 all) ∧
    (s.ember = .running → s.owner = some c.master → a + 16736 ≤ 2 ^ 47 →
      let img := memBytes s.mem (hostPhys a) 16736
      let body := img.take 128
      let fault := s.tokenFault body ((img.drop 128).take 384) (img.drop 512)
      (fault = none → ∃ u : State, Completes (.debugToken c) c s (u.securityEv 6 c.master) [] ∧
        u.keys = [] ∧ u.wiped = true ∧ u.lifecycle = 3 ∧ u.nonce = none ∧ u.debugPort = true ∧
        (∀ i, i ≠ 7 → u.meas[i]? = s.meas[i]?) ∧ u.meas[7]? = ((s.meas[7]?).map fun m => extend m (sha384 body)) ∧
        ((∀ l ∈ s.launches, l.done = true) → u = { s with keys := [], wiped := true, lifecycle := 3, nonce := none, debugPort := true, meas := u.meas })) ∧
      (∀ r, fault = some r → exec (.debugToken c) s = .next (({ s.complete c 9 [] with nonce := none } : State).securityEv r c.master)))

/-- R149, R256, R320, R326, R330, R358, R436, R439: queues, tenants, regions and modules: a descriptor write with V = 1 maps the queue empty unless its region is suspended; a binding replaces the one of its root; a suspended region has its queues unmapped and no camp of it on a core that is not packing; a module that passes its checks gets the next handle with its images in place, and an unloaded one is gone. -/
def Obligations.QueuesTenantsModules : Prop :=
  ∀ (s : State) (c : Cmd), s.focused = false → c.rsv = false → s.ember = .running →
    let a := c.a0.toNat
    (∀ (v : Nat), a < 4096 → c.a1.toNat + 64 ≤ 2 ^ 47 → v = leNat (memBytes s.mem (hostPhys c.a1.toNat) 64) → s.entitled c.master (fld v 192 64) = true →
      (v % 2 = 1 → s.descBad v = false → (∀ r ∈ (s.queueOf a).recs, r.2 = true) →
        ∃ t, Completes (.queueWrite c) c s t [] ∧ t = { s with queues := t.queues } ∧ (∀ q, q ≠ a → t.queueOf q = s.queueOf q) ∧
          t.queueOf a = { s.queueOf a with
            doneaddr := BitVec.ofNat 64 (fld v 320 64), rbase := BitVec.ofNat 64 (fld v 256 64), bind := BitVec.ofNat 64 (fld v 192 64), qlog2 := fld v 4 4
            pendw := 0, doneN := 0, adm := 0, write := 0, pv := false, v := true, mapped := !s.bindHeld (fld v 192 64), recs := []
            waiting := none, reload := false, badBind := false }) ∧
      (v % 2 = 0 → ∃ t, Completes (.queueWrite c) c s t [] ∧ t = { s with queues := t.queues } ∧ (t.queueOf a).v = false ∧ (t.queueOf a).mapped = false)) ∧
    (a < 4096 → c.a1.toNat + 64 ≤ 2 ^ 47 → s.entitled c.master (s.queueOf a).bind.toNat = true →
      ∃ t, Completes (.queueRead c) c s t [] ∧ WritesHost s t c.a1 (leBytes 64 (s.queueOf a).image)) ∧
    (s.owner = some c.master →
      (∀ h, h = handlerArg c.a2 → s.rootOk a = true → c.a1.toNat < 4 → s.handlerOk a h = true →
        ∃ t, Completes (.tenantBind c) c s t [] ∧ t = { s with tenants := t.tenants, tlbs := t.tlbs, tiers := t.tiers } ∧
          (∀ e, e ∈ t.tlbs ↔ e ∈ s.tlbs ∧ e.tree ≠ (s.rcbAt a).tree) ∧ ∀ x, x ∈ t.tenants ↔ x = ⟨a, c.a1.toNat, h⟩ ∨ x ∈ s.tenants ∧ x.root ≠ a) ∧
      ((∃ x ∈ s.tenants, x.root = a) → (∀ l ∈ s.launches, l.root = a → l.done = true) →
        ∃ t, Completes (.tenantUnbind c) c s t [] ∧ t = { s with tenants := t.tenants } ∧ ∀ x, x ∈ t.tenants ↔ x ∈ s.tenants ∧ x.root ≠ a)) ∧
    ((s.path a).isSome = true → s.entitled c.master a = true →
      (∃ t, Completes (.regionSuspend c) c s t [] ∧ SameBytes s t ∧ (∀ n, n ∈ t.suspended ↔ n = a ∨ n ∈ s.suspended) ∧
        (∀ q ∈ s.queues, (∃ p, s.path q.bind.toNat = some p ∧ inPath a p = true) → (t.queueOf q.q).mapped = false) ∧
        ∀ k ∈ t.camps, inPath a (s.launch k.ref.lid).path = true → ∀ j, k.place ≠ .on j) ∧
      ∃ t, Completes (.regionResume c) c s t [] ∧ ∀ n, n ∈ t.suspended ↔ n ≠ a ∧ n ∈ s.suspended) ∧
    (∀ r j, s.leafOk a = true → s.entitled c.master a = true → s.campOfLeaf a c.a1.toNat = some r → (s.launch r.lid).cohort = false →
      (∃ k ∈ s.camps, k.ref = r ∧ k.place = .on j) → (s.camps.map Camp.ref).Nodup →
      ∃ t, Completes (.packRequest c) c s t [] ∧ t = { s with camps := t.camps } ∧ ∀ k ∈ s.camps, ∃ k' ∈ t.camps, k'.ref = k.ref ∧
        k' = if k.ref = r then { k with place := .packing j } else k) ∧
    (∀ m, s.module? a = some m → s.entitled c.master m.tenant = true → (∀ l ∈ s.launches, l.mh = a → l.done = true) →
      ∃ t, Completes (.moduleUnload c) c s t [] ∧ t = { s with modules := t.modules, tcache := t.tcache, tcFree := t.tcFree } ∧
        (∀ x, x ∈ t.modules ↔ x ∈ s.modules ∧ x.mh ≠ a) ∧ ∀ e ∈ t.tcache, e ∈ s.tcache ∧ ¬ (e.key.origin = true ∧ e.key.hash = BitVec.ofNat 256 a)) ∧
    (a + c.a1.toNat ≤ 2 ^ 47 →
      let im := memBytes s.mem (hostPhys a) c.a1.toNat
      let l : Load := ⟨im, sectsOf im, c.a2.toNat, c.a3.toNat, c.a4.toNat, c.a5.toNat⟩
      l.db % 65536 = 0 → l.cb % 65536 = 0 → l.tb % 65536 = 0 → s.rootOk l.root = true → s.entitled c.master l.root = true →
      (∀ r, s.refuses l = some r → exec (.moduleLoad c) s = .next (s.complete c 8 [r])) ∧
      (s.refuses l = none → s.cacheRoom l.pages = none → exec (.moduleLoad c) s = .next (s.complete c 6 [])) ∧
      (∀ u es, s.refuses l = none → s.cacheRoom l.pages = some (u, es) →
        ∃ t, Completes (.moduleLoad c) c s t [s.nextMh] ∧ t.nextMh = s.nextMh + 1 ∧ t.modules = s.modules ++ [s.moduleOf l s.nextMh] ∧
          t.tcFree = u.tcFree - l.pages ∧ t.launches = s.launches ∧ t.queues = s.queues))

/-- R13, R421, R424: the owner's commands on the reserved pools: a pool takes the size it is given, growing by pages above the reserved memory of its tier or giving up free pages; pages that are added are reserved and free, and splits that wait for the pool are tried again, denied after POOL DENY. -/
def Obligations.PoolCommands : Prop :=
  ∀ (s : State) (c : Cmd), s.focused = false → c.rsv = false → s.ember = .running → s.owner = some c.master → c.a0.toNat < 2 →
    let cap := decide (c.a0.toNat = 1)
    let n := c.a1.toNat / 65536
    (c.a1.toNat ≤ 2 ^ 36 → c.a1.toNat % 65536 = 0 →
      ((s.pool cap).size < n → s.resTop cap + 65536 * (n - (s.pool cap).size) ≤ tierHi cap →
        ∃ u : State, Completes (.setPoolSize c) c s u.poolChecks [] ∧ (u.pool cap).size = n ∧ (u.pool cap).count = (s.pool cap).count + (n - (s.pool cap).size) ∧
          (u.pool !cap) = (s.pool !cap) ∧ ∀ x, s.resTop cap ≤ x → x < s.resTop cap + 65536 * (n - (s.pool cap).size) → u.isReserved x = true) ∧
      (n ≤ (s.pool cap).size →
        ∃ u : State, Completes (.setPoolSize c) c s u.poolChecks [] ∧ (u.pool cap).size = n ∧ (u.pool !cap) = (s.pool !cap) ∧
          (u.pool cap).count = (s.pool cap).count - min (s.pool cap).count ((s.pool cap).size - n))) ∧
    (∀ k, k = c.a2.toNat → k ≤ 1572864 → c.a1.toNat + 8 * k ≤ 2 ^ 47 →
      let ps := (List.range k).map fun i => memNat s.mem (hostPhys (c.a1.toNat + 8 * i)) 8
      ps.Nodup → (∀ p ∈ ps, p % 65536 = 0 ∧ tierLo cap ≤ p ∧ p < tierHi cap ∧ ∀ r ∈ (s.pool cap).free, p < r.1 ∨ r.1 + 65536 * r.2 ≤ p) →
      ∃ (u v : State), Completes (.poolAdd c) c s v.poolChecks [] ∧ v = u.poolAnswer cap false ∧ (u.pool cap).count = (s.pool cap).count + k ∧ u.camps = s.camps ∧
        ∀ p ∈ ps, u.isReserved p = true ∧ (p, 1) ∈ (u.pool cap).free) ∧
    (∃ t, Completes (.poolDeny c) c s t [] ∧ t = { s with camps := t.camps } ∧ t.camps.length = s.camps.length ∧
      ∀ k ∈ t.camps, k.dry = false ∧ ∀ u ∈ k.troops, ∀ p ∈ u.splits, p.st ≠ .pool (!cap))

/-- R412 to R417: debugger commands. ATTACH and DETACH list and unlist a leaf; STOP, RESUME, STEP and TO POINT stop splits of the named troop or let them go on; breakpoints are set and cleared on the attached leaf; READ and SPLITS put the words of a value and the splits of a troop in host memory; WRITE changes the value in the lanes of its mask. -/
def Obligations.DebugCommands : Prop :=
  ∀ (s : State) (c : Cmd), s.focused = false → c.rsv = false → s.ember = .running →
    let a := c.a0.toNat
    (∀ l, s.launchOfRegion a = some l → s.mayDebug c.master l = true → s.dbgs.length < 256 →
      ∃ t, Completes (.attach c) c s t [] ∧ t = { s with dbgs := t.dbgs } ∧ (∃ d ∈ t.dbgs, d.region = a) ∧
        ∀ d, d.region ≠ a → (d ∈ t.dbgs ↔ d ∈ s.dbgs)) ∧
    (∀ l, s.launches.find? (fun l => l.region = a && s.dbgs.any fun d => d.region = a) = some l → s.mayDebug c.master l = true →
      ∃ t, Completes (.detach c) c s t [] ∧ t = { s with dbgs := t.dbgs, camps := t.camps } ∧ (∀ d, d ∈ t.dbgs ↔ d ∈ s.dbgs ∧ d.region ≠ a) ∧
        ∀ k ∈ t.camps, (s.launch k.ref.lid).region = a → ∀ u ∈ k.troops, ∀ p ∈ u.splits, p.stop = none ∧ p.stepping = false) ∧
    (∀ r u, s.troopNamed c.master a c.a1.toNat = some r → s.troop? r = some u →
      let goOn (p : Split) : Split := { p with stop := none, passBrk := decide (p.stop = some .brk), toPoint := false }
      let troop (i : Instr) (f : Split → Split) : Prop := ∃ t, Completes i c s t [] ∧ t = { s with camps := t.camps, dbgs := t.dbgs } ∧
        t.troop? r = some { u with splits := u.splits.map f } ∧ ∀ k, k ≠ r.camp → t.camp? k = s.camp? k
      (c.a2 = 0 → troop (.stop c) fun p => if p.stop = none then { p with stop := some .other } else p) ∧
      (c.a2 ≠ 0 → ∃ t, Completes (.stop c) c s t [] ∧ t = { s with camps := t.camps, dbgs := t.dbgs } ∧
        ∀ k, t.camp? r.camp = some k → ∀ x ∈ k.troops, ∀ p ∈ x.splits, p.stop ≠ none) ∧
      troop (.resume c) (fun p => if p.stop = none then { p with stepping := false } else { goOn p with stepping := false }) ∧
      (∀ x, s.splitNamed r c.a2.toNat = some x →
        troop (.step c) (fun p => if p.sid = x.sid then { goOn p with stepping := true } else p) ∧
        troop (.toPoint c) (fun p => if p.sid = x.sid then { goOn p with toPoint := true } else p)) ∧
      (let bs := u.sorted.flatMap Split.describe;
        c.a2.toNat + bs.length ≤ 2 ^ 47 → ∃ (t v : State), Completes (.splits c) c s t [u.sorted.length] ∧ WritesHost v t c.a2 bs ∧ v = { s with dbgs := v.dbgs })) ∧
    (∀ d, s.dbgOf c.master = some d → (s.dbgs.map Dbg.region).Nodup → a < 64 →
      (∃ t, Completes (.bkptSet c) c s t [] ∧ t = { s with dbgs := t.dbgs } ∧ ∃ e ∈ t.dbgs, e.region = d.region ∧
        ∀ b, b ∈ e.bkpts ↔ b = (a, c.a1.toNat, c.a2.toNat) ∨ b ∈ d.bkpts ∧ b.1 ≠ a) ∧
      ∃ t, Completes (.bkptClear c) c s t [] ∧ t = { s with dbgs := t.dbgs } ∧ ∃ e ∈ t.dbgs, e.region = d.region ∧ ∀ b, b ∈ e.bkpts ↔ b ∈ d.bkpts ∧ b.1 ≠ a) ∧
    (∀ x f h, s.splitLast c.master a = some x → s.focusOn x = some f → f.holding c.a1.toNat = some h →
      (c.a2.toNat + 8 * f.tr.width ≤ 2 ^ 47 → ∃ t, Completes (.read c) c s t [] ∧
        WritesHost s t c.a2 ((List.range f.tr.width).flatMap fun l => leBytes 8 (if inMask f.sp.mask l then f.readHeld c.a1.toNat h l else 0))) ∧
      ∀ m : Mask, c.a2.toNat + 128 ≤ 2 ^ 47 → m = BitVec.ofNat 1024 (leNat (memBytes s.mem (hostPhys c.a2.toNat) 128)) → m &&& ~~~f.sp.mask = 0 →
        ∀ ty, h = .val ty → ty ≠ .acc → ∃ g : State, Completes (.write c) c s g.unfocus [] ∧ g = { f with tr := { f.tr with lanes := g.tr.lanes } } ∧
          (∀ l < f.tr.width, inMask m l = true → (f.tr.lane l).frames ≠ [] → (g.tr.lane l).val c.a1.toNat = patTy ty c.a3.toNat) ∧
          ∀ l, inMask m l = false → g.tr.lane l = f.tr.lane l)

/-- R353, R355, R450, R451: ownership and the registers of a master's window. A claim takes vacant ownership and nothing else; a release leaves it vacant and cancels a pending offer; an offer is taken by its target within 100 ms, told to the owner when another accepts or it lapses; the owner's link lost for 1 s vacates it. Register writes change the master's own registers; a valid CRCFG starts the ring at slot 0, and CRDB announces no more commands than the ring has slots. -/
def Obligations.OwnershipAndRegisters : Prop :=
  ∀ (s : State) (m : Nat), m < 4 →
    let u := s.linkUp m
    let owned (t : State) (o : Option Nat) : State := { t with owner := o, hoff := none, nonce := none }
    (s.owner = none → (∃ t, exec (.clm m) s = .next t ∧ t.owner = some m ∧ t.hoff = none ∧ t.nonce = none) ∧
      (s.poolWaits false = false → s.poolWaits true = false → exec (.clm m) s = .next (owned u (some m)))) ∧
    (∀ o, s.owner = some o → exec (.clm m) s = .next u) ∧
    (s.owner = some m →
      (s.hoff = none → exec (.rls m) s = .next (owned u none) ∧ exec (.hoff m) s = .next { u with hoff := some s.stamp.toNat }) ∧
      ∀ t, s.hoff = some t → exec (.rls m) s = .next (owned (u.postOwner (u.ownerEv 3 s.htgt)) none) ∧ exec (.hoff m) s = .next u) ∧
    (s.owner ≠ some m → exec (.rls m) s = .next u ∧ exec (.hoff m) s = .next u) ∧
    (∀ t, s.hoff = some t →
      (s.stamp.toNat < t + 100000000 →
        (m = s.htgt → exec (.acpt m) s = .next (owned u (some m))) ∧
        (m ≠ s.htgt → exec (.acpt m) s = .next (u.postOwner (u.ownerEv 2 m)))) ∧
      (t + 100000000 ≤ s.stamp.toNat →
        exec (.acpt m) s = .next (u.postOwner (u.ownerEv 2 m)) ∧
        exec .handoverLapse s = .next (({ s with hoff := none } : State).postOwner (s.ownerEv 1 s.htgt)))) ∧
    (s.hoff = none → exec (.acpt m) s = .next (u.postOwner (u.ownerEv 2 m))) ∧
    (s.owner = some m → (s.master m).link = false → (s.master m).linkLost + 1000000000 ≤ s.stamp.toNat → exec .ownerVacate s = .next (owned s none)) ∧
    (∀ v, (s.owner = some m → exec (.registerWrite m .htgt v) s = .next { u with htgt := v.toNat % 16 }) ∧
      (s.owner ≠ some m → exec (.registerWrite m .htgt v) s = .next u)) ∧
    ∀ x, s.masters.find? (fun y => y.m = m) = some x →
      let sets (i : Instr) (y : Master) (bs : List (Nat × W32)) : Prop :=
        ∃ t, exec i s = .next t ∧ t = { s with masters := t.masters, bells := bs } ∧ t.master m = y ∧ ∀ n, n ≠ m → t.master n = s.master n
      (∀ v, sets (.registerWrite m .crbase v) { x with link := true, crbase := v } s.bells ∧
        sets (.registerWrite m .cpbase v) { x with link := true, cpbase := v } s.bells) ∧
      (∀ w : W32, let log := w.toNat % 16
        let rest := s.bells.filter fun b => b.1 != m
        (w.toNat / 256 % 2 = 1 → 4 ≤ log → log ≤ 12 → x.crbase.toNat % 4096 = 0 → x.crbase.toNat < 2 ^ 48 → x.cpbase.toNat % 4096 = 0 → x.cpbase.toNat < 2 ^ 48 →
          sets (.crcfg m w) { x with link := true, clog2 := log, en := true, crcfg := BitVec.ofNat 32 (log + 256), crhead := 0, cpidx := 0, cpdrop := 0 }
            (if x.crdb ≠ 0 ∧ x.crdb.toNat ≤ 2 ^ log then rest ++ [(m, x.crdb)] else rest)) ∧
        (w.toNat / 256 % 2 = 0 → sets (.crcfg m w) { x with link := true, clog2 := log, en := false, crcfg := BitVec.ofNat 32 log } rest)) ∧
      ∀ w : W32, (x.en = true →
          ((w - x.crhead).toNat ≤ 2 ^ x.clog2 → sets (.crdb m w) { x with link := true, crdb := w } (s.bells ++ [(m, w)])) ∧
          (2 ^ x.clog2 < (w - x.crhead).toNat → exec (.crdb m w) s = .next u)) ∧
        (x.en = false → sets (.crdb m w) { x with link := true, crdb := w } s.bells)

/-- R94, R352, R425, R466, R469: accesses of a host through its apertures. The register window reads as its registers, 0 at any other offset, and a write of 4 bytes at a NOTIFY offset is the doorbell. An access that updates a barrier word in the middle of its completion waits. The physical aperture gives the owner every byte that exists and is not reserved, and an error to anyone else; an address without memory does not exist. Outside running state every access ends with an error. A lost link ends the master's outstanding accesses with an error. -/
def Obligations.HostAccesses : Prop :=
  ∀ (s : State) (m n : Nat) (a : W64), s.focused = false →
    let v := s.linkUp m
    let u : State := { v with gseen := maxW v.gseen v.hseen, hseen := maxW v.gseen v.hseen }
    let bs (k : Nat) : List Nat := (List.range k).map fun i => a.toNat + i
    let err (i : Instr) : Prop := exec i s = .next { u with hostStatus := 1, hostOut := [] }
    let regs (o k : Nat) : List Byte := (List.range k).map fun i => u.windowByte m (o + i);
    (regs 0x1000000 4 = leBytes 4 (m % 16 + s.owner.getD 15 * 2 ^ 8 + boolN s.hoff.isSome * 2 ^ 19 + s.htgt * 2 ^ 20) ∧
      regs 0x1001000 8 = leBytes 8 (s.master m).crbase.toNat ∧ regs 0x1001008 4 = leBytes 4 (s.master m).crcfg.toNat ∧
      regs 0x100100C 4 = leBytes 4 (s.master m).crdb.toNat ∧ regs 0x1001010 4 = leBytes 4 (s.master m).crhead.toNat ∧
      regs 0x1001018 8 = leBytes 8 (s.master m).cpbase.toNat ∧ regs 0x1001020 4 = leBytes 4 (s.master m).cpidx.toNat ∧
      regs 0x1001024 4 = leBytes 4 (s.master m).cpdrop.toNat ∧ ∀ x < 0x1000000, u.windowByte m x = 0) ∧
    (exec (.hostAccess m .window a n .load) s = .next { u with hostStatus := 0, hostOut := regs a.toNat n } ∧
      ∀ (q : Nat) (w : W32), q < 4096 → a.toNat = 4096 * q → ∃ t, exec (.notify m q w) u = .next t ∧
        exec (.hostAccess m .window a n (.store (leBytes 4 w.toNat))) s = .next { t with hostStatus := 0, hostOut := [] }) ∧
    (s.completing = true → ∀ ap k, v.hostHeld m ap a.toNat n k = true → exec (.hostAccess m ap a n k) s = .next v) ∧
    (s.completing = false →
    (s.ember = .running → s.boot = .running → s.owner = some m →
      (∀ k, (∀ b ∈ bs (AccKind.len k n), s.isReserved b = false) → (∃ b ∈ bs (AccKind.len k n), physOk b = false) →
        exec (.hostAccess m .physical a n k) s = .fault .absentPhysical) ∧
      ((∀ b ∈ bs n, physOk b = true ∧ s.isReserved b = false) → s.poisoned (bs n) = false →
        exec (.hostAccess m .physical a n .load) s = .next { u with hostStatus := 0, hostOut := (bs n).map (memRead s.mem) }) ∧
      (∀ d : List Byte, (∀ b ∈ bs d.length, physOk b = true ∧ s.isReserved b = false) →
        ∃ t, exec (.hostAccess m .physical a n (.store d)) s = .next t ∧ t.hostStatus = 0 ∧
          (∀ i b, d[i]? = some b → memRead t.mem (a.toNat + i) = b) ∧
          (∀ x, (x < a.toNat ∨ a.toNat + d.length ≤ x) → memRead t.mem x = memRead s.mem x) ∧
          t = { u with mem := t.mem, poison := t.poison, cp := t.cp, camps := t.camps, hostStatus := 0, hostOut := [] }) ∧
      (∀ op ty v w, a.toNat % ty.bytes = 0 → (∀ b ∈ bs ty.bytes, physOk b = true ∧ s.isReserved b = false) → s.poisoned (bs ty.bytes) = false →
        ∃ t, exec (.hostAccess m .physical a n (.amo op ty v w)) s = .next t ∧ t.hostStatus = 0 ∧ t.hostOut = (bs ty.bytes).map (memRead s.mem) ∧
          (∀ i, i < ty.bytes → memRead t.mem (a.toNat + i) =
            if casFails op (memNat s.mem a.toNat ty.bytes) v.toNat then memRead s.mem (a.toNat + i)
            else BitVec.ofNat 8 (atomNew op ty (memNat s.mem a.toNat ty.bytes) v.toNat w.toNat / 2 ^ (8 * i))) ∧
          ∀ x, (x < a.toNat ∨ a.toNat + ty.bytes ≤ x) → memRead t.mem x = memRead s.mem x)) ∧
    (s.ember = .running → s.boot = .running → ∀ k, (s.owner ≠ some m ∨ ∃ b ∈ bs (AccKind.len k n), s.isReserved b = true) →
      err (.hostAccess m .physical a n k)) ∧
    (s.ember = .running → s.boot = .running → s.rootOfMaster m = none → ∀ k, err (.hostAccess m .tenant a n k)) ∧
    (s.ember = .running → s.boot = .running → ∀ r t ps, s.rootOfMaster m = some r →
      u.engSpots .mgmt 0 (s.rcbAt r).tree (u.rootPath r) needR (bs n) = (t, .ok ps) → (∀ p ∈ ps, ∃ b, p.2 = .phys [b]) →
      exec (.hostAccess m .tenant a n .load) s = .next { t.noteUnit .mgmt (s.rcbAt r).tree a.toNat n with
        hostStatus := 0, hostOut := ps.map fun p => match p.2 with
          | .phys (b :: _) => memRead t.mem b
          | _ => 0 }) ∧
    ((s.ember ≠ .running ∨ s.boot ≠ .running) → ∀ ap k, ap ≠ .window → err (.hostAccess m ap a n k))) ∧
    ∀ x, s.masters.find? (fun y => y.m = m) = some x → x.link = true →
      ∃ t, exec (.guylineLinkLoss m) s = .next t ∧ t.master m = { x with link := false, linkLost := s.stamp.toNat } ∧
        (∀ q, q ∈ t.reqs ↔ q ∈ s.reqs ∧ q.by_ ≠ .host m) ∧
        ((∃ q ∈ s.reqs, q.by_ = .host m) → t.hostStatus = 1 ∧ t.hostOut = []) ∧
        t = { s with masters := t.masters, reqs := t.reqs, hostStatus := t.hostStatus, hostOut := t.hostOut }

/-- R342, R344, R346, R347, R351: a move between operating points relocks, then changes CUR, then TGT, and the mailbox starts the next; every 100 us a die's ceiling falls by one above the cap, rises by one below 95 per cent of it, and is at most 2 from 105 degrees; a charge window books each core's energy to its camps and clears the charge records; a subscription fires once when its threshold is crossed and is armed again past the hysteresis; a lease that expires puts the floor cap in force. Energies, power and temperatures are those measured (log 14: model's choice that they come with the step). -/
def Obligations.PowerManagement : Prop :=
  (∀ (s : State) (k : CoreId) (mv : OpMove), (s.coreOf k).move = some mv →
    let c := s.coreOf k
    let sets (i : Instr) (y : Core) : Prop := ∃ t, exec i s = .next t ∧ t = { s with cores := t.cores } ∧ t.coreOf k = y ∧ ∀ j, j ≠ k → t.coreOf j = s.coreOf j
    sets (.relock k) { c with move := some { mv with relocking := true } } ∧
    (mv.relocking = true → mv.relocked = false → sets (.opRelockEnd k) { c with cur := mv.dst, move := some { mv with relocked := true } }) ∧
    (mv.relocked = true →
      (c.mail = none → sets (.opMoveComplete k) { c with move := none, tgt := mv.dst }) ∧
      ∀ p, c.mail = some p → p ≠ c.cur → sets (.opMoveComplete k) { c with move := some ⟨c.cur, p, decide (p < c.cur), false⟩, tgt := mv.dst, mail := none })) ∧
  (∀ (s : State) (power d : Nat) (temps : List Nat) (x : Die), s.dies.find? (fun y => y.die = d) = some x →
    let cap := 100 * s.capNow
    let temp := (temps[d]?).getD x.temp
    let c := if cap < power then x.opceil - 1 else if 100 * power < 95 * cap ∧ x.lastUp + 1000000 ≤ s.stamp.toNat then min 7 (x.opceil + 1) else x.opceil
    ∃ t, exec (.opceilUpdate power temps) s = .next t ∧ t.power = power ∧ (t.dieOf d).temp = temp ∧
      (t.dieOf d).opceil = (if 105000 ≤ temp then min c 2 else c) ∧ SameBytes s t ∧ t.camps = s.camps) ∧
  (∀ (s : State) (es : List (CoreId × Nat)),
    (∃ t, exec (.chargeWindow es) s = .next t ∧ (∀ c ∈ t.clusters, c.c = 0) ∧ (∀ c ∈ t.cores, c.charge = []) ∧ SameBytes s t) ∧
    ∀ k e r n, (s.coreOf k).charge = [(r, n)] → n ≠ 0 → ((s.launch r.lid).path.map Rcb.addr).Nodup →
      ∃ t, exec (.chargeWindow [(k, e)]) s = .next t ∧ (t.coreOf k).energy = (s.coreOf k).energy + e ∧
        ∀ x ∈ (s.launch r.lid).path, (t.energy.find? fun q => q.1 = x.addr).map Prod.snd = some (((s.energy.find? fun q => q.1 = x.addr).map Prod.snd).getD 0 + e)) ∧
  (∀ (s : State) (x : Sub) (src r : Nat) (v : Int) (ps : List Nat), s.subs = [x] → x.kind ≠ 3 → x.kind ≠ 4 → (x.kind = 1 → x.src = src) →
    s.rootOfMaster x.master = some r → s.notifyPlace (s.rcbAt r).tree x.naddr 16 = some ps →
    let g := maxW s.stamp (s.gseen + 1)
    let i : Instr := .subscriptionSample x.kind src v
    let crossed := if x.falling then v ≤ x.thresh else x.thresh ≤ v
    let back := if x.falling then x.thresh + x.hyst < v else v < x.thresh - x.hyst
    (x.armed = true → crossed → exec i s = .next { ({ s with gseen := g } : State).commit (ps.zip (leBytes 8 g.toNat ++ leBytes 8 (BitVec.ofInt 64 v).toNat)) with
      subs := [{ x with armed := false }] }) ∧
    (x.armed = true → ¬ crossed → exec i s = .next s) ∧
    (x.armed = false → back → exec i s = .next { s with subs := [{ x with armed := true }] }) ∧
    (x.armed = false → ¬ back → exec i s = .next s)) ∧
  ∀ (s : State) (e : Nat), s.lease = some e →
    (e ≤ s.stamp.toNat → ∃ t, exec .leaseExpiry s = .next t ∧ t.lease = none ∧ t.floor = true ∧ (s.subs = [] → t = { s with lease := none, floor := true })) ∧
    (s.stamp.toNat < e → exec .leaseExpiry s = .next s)

/-- R99, R327, R346, R349, R350, R446, R453: an idle core begins its power-off when its hold has passed and loses its residency tiles; a wake that came meanwhile joins the arbiter, which brings up, at the end of a round, at most four of the cores that joined before it began, at min(OP5, OPCEIL). After 64 issues of a core its splits that were ready throughout and have not issued for 64 are aged. A period boundary clears energy and spent nodes and halves the access counters. Shedding packs the camp that is next. -/
def Obligations.GatingAndPeriods : Prop :=
  (∀ (s : State) (k : CoreId), let c := s.coreOf k
    (s.ember = .running → c.pow = .up → s.coreIdle k = true → c.idle + s.hold ≤ s.stamp.toNat →
      ∃ t, exec (.coreGate k) s = .next t ∧ t.coreOf k = { c with pow := .offing s.stamp.toNat, wake := false, b0 := Bank.reset, b1 := Bank.reset } ∧
        (∀ x ∈ t.allCamps, ∀ r ∈ x.res, ∀ q ∈ r.tiles, q.core ≠ k) ∧ (∀ j, j ≠ k → t.coreOf j = s.coreOf j) ∧
        t = { s with cores := t.cores, camps := t.camps, cp := t.cp, tlbs := s.tlbs.filter fun e => e.unit != .core k }) ∧
    (s.coreIdle k = false ∨ s.stamp.toNat < c.idle + s.hold → exec (.coreGate k) s = .next s) ∧
    (∀ z, c.pow = .offing z →
      (c.wake = false → ∃ t, exec (.corePowerOffDone k) s = .next t ∧ t = { s with cores := t.cores } ∧ t.coreOf k = { c with pow := .gated }) ∧
      ∀ x, c.wake = true → s.dies.find? (fun y => y.die = k.die) = some x →
        ∃ t, exec (.corePowerOffDone k) s = .next t ∧ t = { s with cores := t.cores, dies := t.dies } ∧ t.coreOf k = { c with pow := .waking, wake := false } ∧
          (t.dieOf k.die).queue = x.queue ++ [(k, s.stamp.toNat)])) ∧
  (∀ (s : State) (d : Nat) (x : Die), s.dies.find? (fun y => y.die = d) = some x →
    ∃ t, exec (.arbiterRound d) s = .next t ∧ t = { s with cores := t.cores, dies := t.dies } ∧ (let due := x.queue.filter fun q => q.2 < roundBegan s.stamp.toNat
      (t.dieOf d).queue.length = x.queue.length - min 4 due.length ∧ (∀ q ∈ x.queue, roundBegan s.stamp.toNat ≤ q.2 → q ∈ (t.dieOf d).queue) ∧
      (due.length ≤ 4 → ∀ q ∈ due, (t.coreOf q.1).pow = .up ∧ (t.coreOf q.1).cur = min 5 x.opceil ∧ (t.coreOf q.1).tgt = min 5 x.opceil))) ∧
  (∀ (s : State) (k : CoreId), s.focused = false →
    (64 ≤ (s.coreOf k).sinceAge → ∃ t, exec (.agingStep k) s = .next t ∧ (t.coreOf k) = { s.coreOf k with sinceAge := 0 } ∧
      t = { s with cores := t.cores, camps := t.camps } ∧
      ∀ c ∈ s.camps, c.issuesOn k = true → ∀ u ∈ c.troops, ∀ p ∈ u.splits,
        ∃ c' ∈ t.camps, c'.ref = c.ref ∧ ∃ u' ∈ c'.troops, u'.mem = u.mem ∧ ∃ p' ∈ u'.splits, p'.sid = p.sid ∧ p'.waited = false ∧
          (p'.aged = true ↔ p.aged = true ∨
            (p.st = .ready ∧ (p.stop = none ∨ p.sup ≠ none) ∧ p.mask ≠ 0 ∧ p.waited = false ∧ p.issued + 64 ≤ (s.coreOf k).issues))) ∧
    ((s.coreOf k).sinceAge < 64 → exec (.agingStep k) s = .next s)) ∧
  (∀ s : State, s.focused = false → ∃ t, exec .periodBoundary s = .next t ∧ t.period = s.period + 1 ∧ t.energy = [] ∧ t.spent = [] ∧
    t.counters = ((s.counters.map fun c => (c.1, c.2 / 2)).filter fun c => c.2 != 0) ∧ (∀ c ∈ t.cores, c.energy = 0) ∧ SameBytes s t) ∧
  ∀ (s : State) (x : Camp) (j : CoreId), s.focused = false → s.shedNext = some x → s.sheds = true → (s.launch x.ref.lid).cohort = false →
    x.place = .on j → (s.camps.map Camp.ref).Nodup →
    ∃ t, exec (.shed x.ref) s = .next t ∧ t.lastShed = s.stamp.toNat ∧ ∀ k ∈ t.camps, k.ref = x.ref → k.shed = true ∧ k.place = .packing j

/-- R339, R340, R362, R454, R455: a brown-out enters ember, gives requests 100 us, and holds an exit until the supply is good again; a package reset leaves memory and the boot ROM measures each stage that verifies and holds the package at the first that does not; after a loss of supply host memory is as before and device memory is what comes with the step (log 16: model's choice). -/
def Obligations.SupplyAndReset : Prop :=
  ∀ s : State, s.focused = false →
    ((s.ember = .running ∨ s.ember = .leaving) → ∃ t, exec .brownOut s = .next t ∧ t.brownout = true ∧ t.emberByBrown = true ∧ t.ember = .entering ∧
      (∀ q ∈ t.queues, q.mapped = false) ∧ (∀ k ∈ t.camps, ∀ j, k.place ≠ .on j) ∧ (∀ q ∈ t.reqs, q.time ≤ s.stamp.toNat + 100000) ∧ SameBytes s t) ∧
    (s.ember = .ember → exec .brownOut s = .next { s with brownout := true, emberByBrown := true }) ∧
    (s.ember = .entering → ∃ t, exec .brownOut s = .next t ∧ t = { s with brownout := true, emberByBrown := true, exitDue := false, reqs := t.reqs } ∧
      ∀ q ∈ t.reqs, q.time ≤ s.stamp.toNat + 100000) ∧
    (s.emberByBrown = false → exec .powerGood s = .next { s with brownout := false }) ∧
    (s.emberByBrown = true →
      (s.ember = .entering → exec .powerGood s = .next { s with brownout := false, exitDue := true }) ∧
      (s.ember = .ember → ∃ t, exec .powerGood s = .next t ∧ t.ember = .leaving ∧ t = { s with brownout := false, ember := .leaving, exitDue := false, cores := t.cores, dies := t.dies })) ∧
    (let r : State := { State.reset with mem := s.mem, poison := s.poison, freeCnt := s.freeCnt, nonces := s.nonces, inputs := s.inputs }
     exec (.packageReset []) s = .next r ∧
     ∀ g : Stage, let ok := Config.rsaOk Config.fwKeys.1 g.image (g.sigs.take Config.rsaSigBytes) && Config.slhOk Config.fwKeys.2 g.image (g.sigs.drop Config.rsaSigBytes)
       (ok = true → exec (.packageReset [g]) s = .next { r with meas := r.meas.mapIdx fun j m => if j = 0 then extend m (sha384 g.image) else m }) ∧
       (ok = false → ∀ gs, exec (.packageReset (g :: gs)) s = .next { r with boot := .held 0 })) ∧
    ∀ m : List (Nat × Byte), ∃ t, exec (.supplyLoss m) s = .next t ∧
      t = { State.reset with mem := t.mem, resetCause := 1, freeCnt := s.freeCnt, nonces := s.nonces, inputs := s.inputs } ∧
      (∀ a, inHost a = true → memRead t.mem a = memRead s.mem a) ∧ (Memory.wf m = true → ∀ a, inHost a = false → memRead t.mem a = memRead m a)

/-- R99, R100, R460, R463: a die that overheats or hangs is fenced: its stores that were not acknowledged are dropped, and it takes no more camps. A migration takes a free page of the other tier for a granule that the policy moves; at its end the bytes have moved, the page table entry names the new page and the old page is free, unless software has changed the entry. R460, R465, R466: errors of structures: an uncorrectable memory line is poisoned and told with SOFTERR; a corrected error is counted, the count staying at its greatest value; a save area with an error fails the restore of its camp; a residency tile with an error is dropped; a clean line of the last-level cache or of the code cache and the directory are told only. -/
def Obligations.FencingAndErrors : Prop :=
  ((∀ (s : State) (d : Nat) (x : Die), s.focused = false → d < 8 → s.dies.find? (fun y => y.die = d) = some x →
    (x.fenced = true → exec (.thermal d) s = .next s ∧ exec (.hang d) s = .next s) ∧
    (x.fenced = false → ∀ i code, (i = Instr.thermal d ∧ code = 0x29) ∨ (i = Instr.hang d ∧ code = 0x2A) →
      ∃ t, exec i s = .next t ∧ t.dies = s.dies.map (fun y => if y.die = d then { y with fenced := true, queue := [] } else y) ∧
        t.stores = s.stores.filter (fun q => q.die != d) ∧
        ((∀ k ∈ s.camps, k.resident = false) → (∀ k ∈ s.camps, ∀ j, k.place ≠ .image j) → s.claims = [] →
          t = ({ s with stores := t.stores, tlbs := s.tlbs.filter (fun e => e.unit.die? != some d), dies := t.dies, cores := t.cores } : State).postOwner (s.fenceEv code d)))) ∧
  (∀ (s : State) (root va dst : Nat) (d : RangeDesc) (a v : Nat) (cap : Bool) (p : Pool), s.level2 (s.rcbAt root).tree va = some (d, a, v) →
    (∀ m ∈ s.migs, m.entry ≠ a) → s.moves (s.rcbAt root).tree d v = some cap → (if cap then s.capp else s.fast).takeAt dst = some p →
    exec (.migration root va dst) s = .next { s with
      migs := s.migs ++ [⟨root, va / 65536 * 65536, a, BitVec.ofNat 64 v, v / 2 ^ 16 % 2 ^ 32 * 65536, dst, cap⟩]
      capp := if cap then p else s.capp, fast := if cap then s.fast else p }) ∧
  ∀ (s : State) (n : Nat) (m : Migr), Inv s → s.migs[n]? = some m →
    (memNat s.mem m.entry 8 ≠ m.old.toNat → ∃ u : State, exec (.migrationDone n) s = .next u.poolChecks ∧ u.mem = s.mem ∧ u.migs = s.migs.eraseIdx n ∧
      (m.dst, 1) ∈ (if m.toCap then u.capp else u.fast).free) ∧
    (memNat s.mem m.entry 8 = m.old.toNat → m.src % 65536 = 0 → m.dst % 65536 = 0 → m.src ≠ m.dst →
      m.entry + 8 ≤ min m.src m.dst ∨ (m.src + 65536 ≤ m.entry ∧ m.entry + 8 ≤ m.dst) ∨ (m.dst + 65536 ≤ m.entry ∧ m.entry + 8 ≤ m.src) ∨ max m.src m.dst + 65536 ≤ m.entry →
      ∃ u : State, exec (.migrationDone n) s = .next u.poolChecks ∧ u.migs = s.migs.eraseIdx n ∧
        (∀ i < 65536, memRead u.mem (m.dst + i) = memRead s.mem (m.src + i)) ∧ memNat u.mem m.entry 8 = entryVal m.dst m.toCap % 2 ^ 64 ∧
        (∀ x, (x < m.src ∨ m.src + 65536 ≤ x) → (x < m.dst ∨ m.dst + 65536 ≤ x) → (x < m.entry ∨ m.entry + 8 ≤ x) → memRead u.mem x = memRead s.mem x) ∧
        (m.src, 1) ∈ (if m.toCap then u.fast else u.capp).free ∧ ∀ e ∈ u.tlbs, ¬ (e.pkg = none ∧ e.phys = m.src))) ∧
  (∀ (s : State), s.focused = false →
    (∀ ln, exec (.softError (.memLine ln)) s = .next ((s.postOwner (s.softEv 0x0B (64 * ln) 14)).poisonLine ln) ∧
      exec (.softError (.llc ln false)) s = .next (s.postOwner (s.softEv 0x09 (64 * ln) 14)) ∧
      exec (.softError (.llc ln true)) s = .next ((s.postOwner (s.softEv 0x09 (64 * ln) 14)).poisonLine ln) ∧
      ∀ u : State, ln ∈ (u.poisonLine ln).poison ∧ ∀ a, a / 64 = ln → (u.poisonLine ln).poisoned [a] = true) ∧
    (∀ k : CoreId, exec (.softError (.cacheLine k)) s = .next (s.postOwner (s.softEv 0x06 0 k.die)) ∧
      ∀ b, ((s.coreOf k).bank b).st ≠ .empty → (∃ t, exec (.softError (.swapBank k b)) s = .next t ∧ ((t.coreOf k).bank b).st = .invalid)) ∧
    (∀ d code x, s.dies.find? (fun y => y.die = d) = some x → ∃ t, exec (.softError (.corrected d code)) s = .next t ∧ t = { s with dies := t.dies } ∧
      let n := ((x.corrected.find? fun q => q.1 = code).map Prod.snd).getD 0
      ((t.dieOf d).corrected.find? fun q => q.1 = code).map Prod.snd = some (if n = 0xFFFF then n else n + 1)) ∧
    (∀ c k, s.camps.find? (fun y => y.ref = c) = some k →
      (∃ t, exec (.softError (.saveArea c)) s = .next t ∧ ∀ y ∈ t.camps, y.ref = c → y.bad = true) ∧
      ∀ num tile, k.resident = true → ∃ t, exec (.softError (.resStore c num tile)) s = .next t ∧
        ∀ y ∈ t.camps, y.ref = c → ∀ r ∈ y.res, r.num = num → ∀ q ∈ r.tiles, q.j ≠ tile))

/-- R218, R219, R339, R361, R428: a package in ember refuses what comes in; an access that no export entry admits is refused with a PEERFAULT on the owner's path, one that its entry and the lookup allow is performed at once; a landing in a camp's scratchpad writes its bytes there. R404, R428, R429, R469: a response or a timeout ends its request, which leaves the list: a load's answer is defined in its lane, a store's refusal or timeout sets the lane's sticky bit, a host's access gets its bytes; a response without request is discarded, and a request whose time has not come stays. -/
def Obligations.PeerTraffic : Prop :=
  (∀ (s : State) (src n : Nat) (wa seen : W64), s.focused = false →
    let refused (u : State) (r : Nat) : State := { u with hostStatus := 16 + r, hostOut := [] }
    let fault (r w : Nat) : Ev := ⟨0x09, r, s.linkSrc src, 0, EvBody.pack ⟨w, 0, 0, 0, 0, src⟩⟩
    let sum (ck : Option W32) (data : List Byte) : List Byte := match ck with
      | some v => leBytes 4 (adler v.toNat data)
      | none => []
    ((s.ember ≠ .running ∨ s.boot ≠ .running) →
      (∀ k, exec (.inboundPeerAccess src wa n k seen) s = .next (refused s 0)) ∧
      ∀ d data bw ck, exec (.inboundLanding src d data bw ⟨ck, seen⟩) s = .next (refused s 0)) ∧
    (s.ember = .running → s.boot = .running →
      (s.windowEntry src wa.toNat = none →
        (∀ k, exec (.inboundPeerAccess src wa n k seen) s = .next (refused (s.postOwner (fault 1 wa.toNat)) 1)) ∧
        ∀ data bw ck, (bw = none ∨ s.completing = false) → exec (.inboundLanding src (.window wa) data bw ⟨ck, seen⟩) s =
          .next (refused (({ s with gseen := maxW s.gseen seen } : State).postOwner (fault 1 wa.toNat)) 1)) ∧
      (∀ t bs, s.inCheck src wa.toNat n needR = (t, .ok bs) → exec (.inboundPeerAccess src wa n .load seen) s = .next { t with
        gseen := maxW t.gseen seen, hostStatus := 0, hostOut := bs.map (memRead t.mem) }) ∧
      (∀ (t : State) (bs : List Nat) (data : List Byte), s.inCheck src wa.toNat data.length needW = (t, .ok bs) → bs.length = data.length → bs.Nodup →
        (s.completing = true → s.updateHeld bs (.store data) = true → exec (.inboundPeerAccess src wa n (.store data) seen) s = .next s) ∧
        (s.completing = false ∨ s.updateHeld bs (.store data) = false → ∃ v, exec (.inboundPeerAccess src wa n (.store data) seen) s = .next v ∧ v.hostStatus = 0 ∧
          (∀ (i a : Nat), bs[i]? = some a → data[i]? = some (memRead v.mem a)) ∧ ∀ a, a ∉ bs → memRead v.mem a = memRead t.mem a)) ∧
      (∀ (t : State) (bs : List Nat) (data : List Byte) (ck : Option W32), ({ s with gseen := maxW s.gseen seen } : State).inCheck src wa.toNat data.length needW = (t, .ok bs) → bs.length = data.length → bs.Nodup →
        ∃ v, exec (.inboundLanding src (.window wa) data none ⟨ck, seen⟩) s = .next v ∧ v.hostStatus = 0 ∧ v.hostOut = sum ck data ∧
          (∀ (i a : Nat), bs[i]? = some a → data[i]? = some (memRead v.mem a)) ∧ ∀ a, a ∉ bs → memRead v.mem a = memRead t.mem a) ∧
      ∀ (region camp off e : Nat) (c : Camp) (data : List Byte) (ck : Option W32), s.scratchEntry src region = some e → exW e = true → s.landCamp region camp = some c →
        off + data.length ≤ (s.launch c.ref.lid).scratch →
        ∃ t, exec (.inboundLanding src (.scratch region camp off) data none ⟨ck, seen⟩) s = .next t ∧
          t = { s with gseen := maxW s.gseen seen, camps := t.camps, mem := t.mem, poison := t.poison, hostStatus := 0, hostOut := sum ck data } ∧
          ((∀ k ∈ s.camps, k.ref = c.ref → k.place ≠ .packed) → t.mem = s.mem ∧ t.poison = s.poison) ∧
          ∀ k ∈ t.camps, k.ref = c.ref → (∀ i b, data[i]? = some b → memRead k.scr (off + i) = b))) ∧
  (∀ (s : State) (id : Nat) (q : PeerReq), s.focused = false → s.req? id = some q →
    let gone (t : State) : Prop := ∀ x, x ∈ t.reqs ↔ x ∈ s.reqs ∧ x.id ≠ q.id
    (∀ r l dst ty a b d seen, q.by_ = .load r l dst ty a b → ∃ t, exec (.peerResponse id (.ack d) seen) s = .next t ∧ gone t ∧ t.gseen = maxW s.gseen seen ∧ SameBytes s t ∧
      ∀ u, s.troop? r.tr = some u → ∃ v, t.troop? r.tr = some v ∧ v.lanes.length = u.lanes.length ∧ (∀ i, i ≠ l → v.lane i = u.lane i) ∧
        ((u.lane l).frames ≠ [] → (v.lane l).val dst = patTy ty (leNat d))) ∧
    (∀ r l, q.by_ = .store r l →
      (∀ n seen, ∃ t, exec (.peerResponse id (.nack n) seen) s = .next t ∧ gone t ∧
        ∀ u, s.troop? r = some u → l < u.lanes.length → ∃ v, t.troop? r = some v ∧ (v.lane l).sticky = (u.lane l).sticky ||| fRN) ∧
      (q.time ≤ s.stamp.toNat → ∀ i, (i = Instr.peerTimeout id ∧ q.pkg < 512) ∨ (i = Instr.hostMemoryTimeout id ∧ 512 ≤ q.pkg) →
        ∃ t, exec i s = .next t ∧ gone t ∧
          ∀ u, s.troop? r = some u → l < u.lanes.length → ∃ v, t.troop? r = some v ∧ (v.lane l).sticky = (u.lane l).sticky ||| fRT)) ∧
    (∀ m d seen, q.by_ = .host m → ∃ t, exec (.peerResponse id (.ack d) seen) s = .next t ∧ gone t ∧ t.hostStatus = 0 ∧ t.hostOut = d) ∧
    (s.stamp.toNat < q.time → exec (.peerTimeout id) s = .next s ∧ exec (.hostMemoryTimeout id) s = .next s) ∧
    ∀ j a seen, s.req? j = none → exec (.peerResponse j a seen) s = .next s)

/-- R359, R468: a flit whose CRC holds is delivered when it is the next in sequence, and its acknowledgement frees the flits that it covers; one whose CRC does not hold, or that the other side asks for again, counts as a replay, and more than 8 in 1 ms or the same flit four times retrain the port at the next lower rate. Retraining ends with the port up or, at 56 GB/s, lost; a lost port trains from 56 every second; 10 s without retraining raise the rate by one step. -/
def Obligations.PortageLinks : Prop :=
  ∀ (s : State) (p : Nat) (x : Port), s.ports.find? (fun y => y.p = p) = some x →
    let now := s.stamp.toNat
    let upd (i : Instr) (f : Port → Port) : Prop := exec i s = .next { s with ports := s.ports.map fun y => if y.p = p then f y else y }
    let ev (u : State) (reason : Nat) (i : Instr) : Prop := exec i s = .next (u.linkEv p reason)
    let put (f : Port → Port) : State := { s with ports := s.ports.map fun y => if y.p = p then f y else y }
    (x.st = .up →
      (∀ f, flitOk f = true → ∃ t, exec (.flitReceive p f) s = .next t ∧ t = { s with ports := t.ports, reqs := t.reqs } ∧
        (t.port p).sent = x.sent.filter (fun e => !(ackedBy (flitAck f) x.sent).contains e) ∧
        (flitSeq f = x.rxSeq → (t.port p).rxSeq = x.rxSeq + 1 ∧ (t.port p).delivered = x.delivered ++ [(f.take 244).drop 8]) ∧
        (flitSeq f ≠ x.rxSeq → (t.port p).rxSeq = x.rxSeq ∧ (t.port p).delivered = x.delivered)) ∧
      (∀ f, flitOk f = false → ∃ t, exec (.flitReceive p f) s = .next t ∧ t = { s with ports := t.ports } ∧ (t.port p).rxSeq = x.rxSeq ∧ (t.port p).delivered = x.delivered) ∧
      (∀ q, ∃ u, exec (.replayRequest p q) s = .next u ∧ u = { s with ports := u.ports } ∧
          let again := now :: x.replays.filter fun t => now < t + 1000000
          let same := match x.lastReplay with
            | some (r, k) => if r = q then k + 1 else 1
            | none => 1
          if 8 < again.length ∨ 4 ≤ same then
            (u.port p).st = .retraining ∧ (u.port p).rate = (if x.rate = 224 then 168 else if x.rate = 168 then 112 else 56) ∧ (u.port p).since = now
          else (u.port p) = { x with replays := again, lastReplay := some (q, same) }) ∧
      (x.rate < 224 → x.since + 10000000000 ≤ now → ∃ t, exec (.linkRateRaise p) s = .next t ∧ t = { s with ports := t.ports } ∧
        t.port p = { x with rate := if x.rate = 56 then 112 else if x.rate = 112 then 168 else 224, since := now }) ∧
      (now < x.since + 10000000000 → ∃ t, exec (.linkRateRaise p) s = .next t ∧ t.port p = x)) ∧
    (x.st = .retraining → now ≤ x.since + 100000 →
      ev (put fun y => { y with st := .up, since := now }) 1 (.linkRetrainDone p true) ∧
      (x.rate ≠ 56 → upd (.linkRetrainDone p false) fun y => { y with rate := lowerRate y.rate })) ∧
    (x.st = .lost →
      (x.since + 1000000000 ≤ now → ev (put fun y => { y with st := .up, rate := 56, rxSeq := 0, txSeq := 0, since := now }) 3 (.linkTrainAttempt p true) ∧
        upd (.linkTrainAttempt p false) fun y => { y with since := now }) ∧
      (∀ ok, now < x.since + 1000000000 → exec (.linkTrainAttempt p ok) s = .next s)) ∧
    (x.st ≠ .lost → s.focused = false → (∀ q ∈ s.reqs, q.port = p → q.acked = true ∨ 512 ≤ q.pkg) →
      let lost := put fun y => { y with st := .lost, since := now, sent := [], replays := [], lastReplay := none }
      ev lost 2 (.linkLoss p) ∧
      (x.st = .retraining → x.since + 100000 < now ∨ x.rate = 56 → ev lost 2 (.linkRetrainDone p false)))

/-- R237 to R240, R255, R258, R283, R285, R380: a parked split whose region is cached in a bank goes on; one whose region is in no cache waits on a claim, a new one or the one that another made; a translation that verification refuses is remembered, any other is installed and every split that waits is served again; an overlay that passes its checks marks its lines, and the bank is VALID with the last of them, one that fails is INVALID; a troop whose budget has changed takes the new map at its point. -/
def Obligations.TranslationService : Prop :=
  (∀ (s f : State) (r : SplitRef), s.focusOn r = some f → f.sp.st = .parked → f.vfail? f.spKey.hash f.spKey.func = none →
    (f.module? f.sp.mh).isSome = true → f.invalidHere = false →
    (f.cached f.spKey f.sp.mh = none →
      (f.claims.find? (fun c => c.key = f.spKey) = none → exec (.translationRequest r) s = .next ({ f with
        claims := f.claims ++ [⟨f.nextClaim, f.spKey, f.sp.mh, f.cp.core.die, f.cp.core.cl, f.stamp.toNat, f.spRef, [], false, f.cp.core.core⟩]
        nextClaim := f.nextClaim + 1, sp := { f.sp with st := .claim f.nextClaim } } : State).unfocus) ∧
      ∀ c, f.claims.find? (fun c => c.key = f.spKey) = some c → exec (.translationRequest r) s = .next ({ f with
        claims := f.claims.map (fun x => if x.n = c.n then { x with waiters := x.waiters ++ [f.spRef] } else x)
        sp := { f.sp with st := .claim c.n } } : State).unfocus) ∧
    (∀ e b, f.cached f.spKey f.sp.mh = some e → (e.key.origin = true → e.hit = true) → f.cp.oldb = none → (f.coreOf f.cp.core).bankOf f.spKey f.sp.mh = some b →
      ∃ g : State, exec (.translationRequest r) s = .next g.unfocus ∧ g = { f with
        tcUse := f.tcUse + 1, tcache := g.tcache, sp := { f.sp with st := .ready, nat := f.sp.nat.map fun p => { p with bank := b } } })) ∧
  (∀ (s f : State) (r : SplitRef) (b : Fin 2), s.focusOn r = some f → f.sp.st = .parked → f.cp.resident = true → f.repeated = false → f.sp.rq = false →
    (f.coreOf f.cp.core).bankOf f.spKey f.sp.mh = some b → f.cp.oldb = none →
    exec (.stubService r) s = .next ({ f with sp := { f.sp with st := .ready, nat := f.sp.nat.map fun p => { p with bank := b } } } : State).unfocus) ∧
  (∀ (s : State) (c : Claim) (m : Module), s.focused = false → s.claims.find? (fun x => x.n = c.n) = some c → s.module? c.mh = some m →
    (∀ reason off, verify m c.key.func = some (reason, off) → ∃ t, exec (.translate c.n) s = .next t ∧
      t.vfails = ⟨c.key.hash, c.key.func, reason, c.key.func, off⟩ :: s.vfails ∧ t.claims = s.claims.filter (fun x => x.n != c.n) ∧ t.tcache = s.tcache) ∧
    (verify m c.key.func = none → m.calleeKeys c.key = [] → c.again = false → s.cacheRoom (s.makeEntry m c.key).pages = none → exec (.translate c.n) s = .next s) ∧
    (verify m c.key.func = none → m.calleeKeys c.key = [] → c.again = false → ∀ v es, s.cacheRoom (s.makeEntry m c.key).pages = some (v, es) →
      ∃ t, exec (.translate c.n) s = .next t ∧ t.tcache = v.makeEntry m c.key :: v.tcache ∧ (v.makeEntry m c.key).key = c.key ∧ t.tcFree = v.tcFree - (v.makeEntry m c.key).pages ∧
        t.claims = s.claims.filter (fun x => x.n != c.n) ∧
        ∀ r ∈ c.by_ :: c.waiters, ∀ p, s.split? r = some p → p.st = .claim c.n → p.mask ≠ 0 → ∃ q, t.split? r = some q ∧ q.st = .parked)) ∧
  (∀ (s f : State) (r : SplitRef), s.focusOn r = some f → f.switching = true → f.sp.lq.all (fun e => e.2.landed) = true → f.sp.nat = none → (∀ p ∈ f.tr.splits, p.nat = none) →
    ∃ g : State, exec (.translationSwitch r) s = .next g.unfocus ∧ g = { f with
      cp := { f.cp with oldb := g.cp.oldb }, sp := { f.sp with st := .parked }
      tr := { f.tr with budget := f.cp.budget, tiles := f.cp.tiles, stubv := stubVal f.tr.stubv 4 f.sp.func f.sp.off } }) ∧
  ∀ (s : State) (k : CoreId) (b : Fin 2) (cmd : Nat × Nat × Nat × W32 × CampRef) (rest : List (Nat × Nat × Nat × W32 × CampRef)), ((s.coreOf k).bank b).ovl = cmd :: rest →
    let x := (s.coreOf k).bank b
    x.st = .loading →
    ∃ t, exec (.overlayComplete k b) s = .next t ∧ t = { s with cores := t.cores } ∧ (∀ j, j ≠ k → t.coreOf j = s.coreOf j) ∧
      (s.ovlOk k.die x cmd = none → (t.coreOf k).bank b = { x with st := .invalid, ovl := rest, bad := true }) ∧
      ∀ bs, s.ovlOk k.die x cmd = some bs → ((t.coreOf k).bank b).ovl = rest ∧
        (∀ i, i ∈ ((t.coreOf k).bank b).marks ↔ i ∈ x.marks ∨ (cmd.2.2.1 / 64 ≤ i ∧ i < cmd.2.2.1 / 64 + cmd.2.1 / 64)) ∧
        (((t.coreOf k).bank b).st = .valid ↔ ∀ i < x.total, i ∈ ((t.coreOf k).bank b).marks)

/-- R36, R48, R325, R326, R329 to R331, R337, R366, R367, R445: a camp that may be placed now goes to the core of the scheduler's choice: a queued one at its launch state, every lane at the entry of the launch's function with the arguments read at admission; one held as a native image with its budget and tiles; a packed one with the stamp of its pack in SEEN. A camp all of whose splits stand at points leaves its core as a pack. A launch queued for 100 ms is told once. R48, R328, R330, R331: taking a camp off its core leaves a native image of its kind of core, with its budget, tiles and scratchpad; the core's request for an operating point is discarded. The camps of a COHORT launch all run to their points for a pack. -/
def Obligations.PlacementAndPacks : Prop :=
  ((∀ (s : State) (c : CampRef) (k : CoreId) (b : Nat) (x : Camp), s.focused = false → (s.camps.map Camp.ref).Nodup →
    let u := s.reread c.lid
    let l := u.launch c.lid
    let bare (v : Troop) : Troop := { v with ctx := 0, splits := v.splits.map fun p => { p with seat := .none, waited := false } }
    u.camps.find? (fun y => y.ref = c) = some x → u.waiting x = true → (u.path l.leaf).isSome = true → u.outOfTurn x = false → u.linksAll (u.placedWith x) = .ok →
    (u.placedWith x).all (fun y => u.waiting y) = true → ((u.placedWith x).head?.map Camp.ref) = some c → (∀ y ∈ u.placedWith x, y.wants = false ∧ y.bad = false) →
    (l.cohort = true → ∀ plan, u.planAll (u.placedWith x) = .ok plan → (plan.head?.map fun q => q.2.1) = some k →
      plan.map Prod.fst = u.cohortLeft c.lid ∧
      let all (i : Instr) : Prop := ∃ t, exec i s = .next t ∧ ∀ q ∈ plan, ∃ y, t.camps.find? (fun z => z.ref = q.1.ref) = some y ∧ y.place = .on q.2.1 ∧ y.budget = q.2.2
      (x.place = .queued → ∀ scr, all (.campPlacement c k scr)) ∧ (x.place = .packed → k.die < 8 → all (.packRestore c k none))) ∧
    (l.cohort = false → u.choice x = some (k, b) →
    (∀ scr, x.place = .queued → ∃ t y, exec (.campPlacement c k scr) s = .next t ∧ t.camps.find? (fun z => z.ref = c) = some y ∧
      y.place = .on k ∧ y.budget = b ∧ y.tiles = u.tileGrant l ∧ y.troops.length = l.campsize ∧ (t.coreOf k).pow ≠ .gated ∧
      (∀ v ∈ y.troops, v.live = fullMask l.width ∧ v.budget = b ∧ v.splits = [{ Split.reset with mask := fullMask l.width, mh := l.mh, func := l.func }] ∧
        v.lanes.length = l.width ∧ ∀ n ∈ v.lanes, n = { Lane.reset with frames := [u.entryFrame l] }) ∧
      ∀ o < l.scratch, memRead y.scr o = memRead (memWriteAll [] scr) o) ∧
    (∀ j, x.place = .image j → ∃ t y, exec (.nativeImageRestore c k) s = .next t ∧ t.camps.find? (fun z => z.ref = c) = some y ∧
      y.place = .on k ∧ y.budget = b ∧ y.scr = x.scr ∧ y.troops.map bare = x.troops.map bare) ∧
    (x.place = .packed → k.die < 8 → ∃ t y, exec (.packRestore c k none) s = .next t ∧ t.camps.find? (fun z => z.ref = c) = some y ∧
      y.place = .on k ∧ y.budget = b ∧ y.scr = x.scr ∧ y.troops.length = x.troops.length ∧
      ∀ v ∈ y.troops, v.budget = b ∧ ∀ n ∈ v.lanes, n.seen = (x.pack.map Pack.stamp).getD 0))) ∧
  (∀ (s : State) (x : Camp) (j : CoreId), s.focused = false → s.camps.find? (fun y => y.ref = x.ref) = some x → x.place = .packing j → s.packable x = true →
    (s.camps.map Camp.ref).Nodup →
    ∃ t y, exec (.packComplete x.ref) s = .next t ∧ t.camps.find? (fun z => z.ref = x.ref) = some y ∧ y.place = .packed ∧ y.fails = 0 ∧
      ((s.launch x.ref.lid).cohort = false → (y.pack.map Pack.stamp) = some t.gseen ∧ t.gseen = maxW s.stamp (s.gseen + 1)) ∧ (t.coreOf j).left = true ∧ (∀ v ∈ y.troops, ∀ p ∈ v.splits, p.nat = none)) ∧
  ∀ (s : State) (c : Camp) (lid : Nat), s.camp? ⟨lid, 0⟩ = some c → c.place = .queued → (s.launch lid).done = false →
    ((s.launch lid).placewait = false → (s.launch lid).admitted + 100000000 ≤ s.stamp.toNat → (s.launch? lid).isSome = true →
      ∃ t, exec (.placewait lid) s = .next t ∧ (t.launch lid).placewait = true) ∧
    ((s.launch lid).placewait = true ∨ s.stamp.toNat < (s.launch lid).admitted + 100000000 → exec (.placewait lid) s = .next s)) ∧
  (∀ (s : State) (c : CampRef) (k : Camp), s.focused = false → (s.camps.map Camp.ref).Nodup → s.camps.find? (fun x => x.ref = c) = some k →
    ((s.launch c.lid).cohort = false → ∀ j, k.place = .on j → ∃ t y, exec (.campTakeoff c) s = .next t ∧ t.camps.find? (fun x => x.ref = c) = some y ∧
      y.place = .image j ∧ y.budget = k.budget ∧ y.tiles = k.tiles ∧ y.scr = k.scr ∧ (t.coreOf j).left = true ∧ (t.coreOf j).mail = none ∧ SameBytes s t) ∧
    ((s.launch c.lid).cohort = true → exec (.campTakeoff c) s = .next { s with camps := s.camps.map fun x =>
      if x.ref.lid = c.lid then match x.place with
        | .on j => { x with place := .packing j }
        | .image _ => { x with wants := true }
        | _ => x
      else x }))

/-- R320 to R324, R436 to R442: a NOTIFY value is acted on while the queue is mapped and kept while it is not; a record in turn that passes its checks becomes a launch with its camps queued, and one that fails is told, counts as completed and launches nothing; a waiting record's flag is loaded again. R324, R47, R48: a launch all of whose camps have ended, with nothing outstanding, completes when no ordered reduction of it is left to be answered: its camps are no more, it is done, its record counts as completed, and no other queue's records change; one killed makes no posts; one not ready to complete waits. -/
def Obligations.QueueRecords : Prop :=
  ((∀ (s : State) (m q : Nat) (v : W32), q < 4096 → (s.queueOf q).v = true → s.entitled m (s.queueOf q).bind.toNat = true →
    let out (t : State) : Prop := t = { s with queues := t.queues } ∧ ∀ p, p ≠ q → { t.queueOf p with reload := false } = { s.queueOf p with reload := false }
    ((s.queueOf q).mapped = true → (v - (s.queueOf q).doneN).toNat ≤ 2 ^ (s.queueOf q).qlog2 →
      ∃ t, exec (.notify m q v) s = .next t ∧ out t ∧ { t.queueOf q with reload := false } = { s.queueOf q with write := v, reload := false }) ∧
    ((s.queueOf q).mapped = false → ∃ t, exec (.notify m q v) s = .next t ∧ out t ∧
      { t.queueOf q with reload := false } = { s.queueOf q with pendw := v, pv := true, reload := false })) ∧
  (∀ (s t : State) (q : Nat) (bp : List Rcb) (bs : List Byte), s.focused = false → (s.queueOf q).ready = true → (s.queueOf q).waiting = none →
    s.path (s.queueOf q).bind.toNat = some bp → s.queueRead q bp.getLast?.toList (s.queueOf q).slotAddr 64 = (t, .ok bs) →
    let r := LRec.ofNat (leNat bs)
    (t.recordFaults (s.queueOf q) r = [] → r.wait = 0 → r.op = 1 → ∀ p u as, t.path r.leaf = some p → t.argBlock q p (p.headD ⟨0, 0⟩) = (u, .ok as) →
      ∃ v, exec (.recordAdmission q) s = .next v ∧ v.nextLid = u.nextLid + 1 ∧
        v.launches = u.launches ++ [{ t.leafLaunch (t.queueOf q) r p with args := argSlots (p.headD ⟨0, 0⟩).arglen as }] ∧
        v.camps = u.camps ++ (List.range ((p.headD ⟨0, 0⟩).troops / (p.headD ⟨0, 0⟩).campsize)).map (fun i => { Camp.reset with ref := ⟨t.nextLid, i⟩ }) ∧
        (v.queueOf q).adm = (u.queueOf q).adm + 1 ∧ (v.queueOf q).recs = (u.queueOf q).recs ++ [((u.queueOf q).adm.toNat, false)]) ∧
    ∀ f fs, t.recordFaults (s.queueOf q) r = f :: fs → ∃ v, exec (.recordAdmission q) s = .next v ∧ (v.queueOf q).adm = (s.queueOf q).adm + 1 ∧ v.launches = s.launches ∧ v.camps.length = s.camps.length) ∧
  ∀ (s : State) (q : Nat) (w : BitVec 512), (s.queueOf q).waiting = some w →
    ∃ t, exec (.waitFlagReload q) s = .next t ∧ t = { s with queues := t.queues } ∧ t.queueOf q = { s.queueOf q with reload := true } ∧ ∀ p, p ≠ q → t.queueOf p = s.queueOf p) ∧
  (∀ (s : State) (lid : Nat) (l : Launch), s.focused = false → s.launch? lid = some l → l.lid = lid →
    (s.completable l = false → exec (.launchCompletion lid) s = .next s) ∧
    (s.completable l = true → ∀ u : State, (l.killed = true ∧ u = s) ∨ (l.killed = false ∧ s.applyOrbs l = (u, false)) →
      ∃ t, exec (.launchCompletion lid) s = .next t ∧ t.camps = u.camps.filter (fun c => c.ref.lid ≠ lid) ∧ (t.launch lid).done = true ∧
        (l.queue < 4096 → (∀ x ∈ (t.queueOf l.queue).recs, x.1 = l.rcd → x.2 = true) ∧ ∀ q, q ≠ l.queue → (t.queueOf q).recs = (s.queueOf q).recs) ∧
        ((l.killed = true ∨ ∀ p ∈ l.posts, p.1 = 0) → l.queue ≥ 4096 → SameBytes u t)) ∧
    (s.completable l = true → l.killed = false → ∀ u, s.applyOrbs l = (u, true) → exec (.launchCompletion lid) s = .next u))

/-- R118, R192, R212, R213, R232, R466: a granule whose places are known writes the bytes of its command there and lands, and updates the command's barrier word; a command all of whose granules have ended leaves the list, and its status is defined in the split that waits for it; a tile of a residency is filled, unless a line of it is poisoned: then the residency is stale; a split that waits on a barrier word goes on when the phase has changed, and else waits on. -/
def Obligations.BackgroundLandings : Prop :=
  (∀ (s s1 s2 : State) (k : Camp) (x : CopyCmd) (g : Nat) (gr : Gran) (ss ds : List (Nat × Spot)), s.focused = false → s.cmd? k.ref x.id = some (k, x) →
    k.resident = true → s.granFree k x g = true →
    s.firstBad k x (((List.range (g + 1)).zip x.grans).filter fun q => s.granFree k x q.1) = (s1, none) → x.grans[g]? = some gr → s1.granSpots k x gr = (s2, .ok (ss, ds)) →
    x.loc = none → x.bw = none → missingRun x.fetched ss = none → (∀ d ∈ ds, ∃ a, d.2 = .phys [a]) → ds.length = gr.n → (ds.map Prod.snd).Nodup → s2.cmd? k.ref x.id = some (k, x) →
    (∀ e, x.kind ≠ .tcopy e) →
    ∃ t, exec (.granuleLanding k.ref x.id g) s = .next t ∧
      (∀ i a, ds[i]?.map Prod.snd = some (.phys [a]) → memRead t.mem a = x.byteAt ((s2.countGran k x gr).knownBytes k x ss) (gr.off + i)) ∧
      (∀ a, Spot.phys [a] ∉ ds.map Prod.snd → memRead t.mem a = memRead s2.mem a) ∧
      ∃ y, t.cmd? k.ref x.id = some y ∧ g ∈ y.2.landed) ∧
  (∀ (s : State) (k : Camp) (x : CopyCmd), s.focused = false → s.cmd? k.ref x.id = some (k, x) → s.cmdDone k x = true →
    (∀ t ∈ k.troops, ∀ p ∈ t.splits, p.awaits x = false) →
    ∃ t, exec (.commandComplete k.ref x.id) s = .next t ∧ t = { s with camps := t.camps } ∧ t.cmd? k.ref x.id = none) ∧
  (∀ (s : State) (k : Camp) (x : CopyCmd) (u : Troop) (p : Split) (f : State), s.focused = false → s.cmd? k.ref x.id = some (k, x) → s.cmdDone k x = true →
    k.troops.find? (fun t => t.mem = x.mem) = some u → u.splits.find? (fun p => p.awaits x) = some p → s.focusOn ⟨⟨k.ref, x.mem⟩, p.sid⟩ = some f → f.sp.mask ≠ 0 →
    ∃ t g, exec (.commandComplete k.ref x.id) s = .next t ∧ t.focusOn ⟨⟨k.ref, x.mem⟩, p.sid⟩ = some g ∧ g.sp.st = .ready ∧ g.sp.off = f.setCtx.ctx.next ∧
      ∀ l, f.active l → (f.tr.lane l).frames ≠ [] → (g.tr.lane l).val f.setCtx.ctx.dst = ⟨.w64, BitVec.ofNat 64 (x.status k)⟩) ∧
  (∀ (s : State) (k : Camp) (r : Res) (j : Nat), s.focused = false → s.camps.find? (fun y => y.ref = k.ref) = some k → k.res? r.num = some r → k.resident = true →
    (r.todo.head? ≠ some j → exec (.residencyTileFill k.ref r.num j) s = .next s) ∧
    (r.todo.head? = some j →
    (s.poisoned (r.tileBytes j) = true → ∃ t, exec (.residencyTileFill k.ref r.num j) s = .next t ∧
      ∀ y, t.camps.find? (fun z => z.ref = k.ref) = some y → y.res? r.num = some { r with stale := some (r.stale.getD 3), todo := [] }) ∧
    (s.poisoned (r.tileBytes j) = false → ∃ t, exec (.residencyTileFill k.ref r.num j) s = .next t ∧ SameBytes s t ∧
      ∀ y, t.camps.find? (fun z => z.ref = k.ref) = some y → ∃ q, y.res? r.num = some q ∧ j ∉ q.todo ∧ s.readTile r j (s.coreOf k.core).issues k.core ∈ q.tiles))) ∧
  ∀ (s f : State) (r : SplitRef) (a : W64) (ref ph : Bool), s.focusOn r = some f → f.cp.resident = true → f.sp.st = .barrier a ref → f.phaseAt a.toNat = some ph →
    (ph = ref → exec (.barrierWaitEnd r) s = .next f.unfocus) ∧
    (ph ≠ ref → f.sp.nat = none → exec (.barrierWaitEnd r) s = .next (({ f with sp := { f.sp with st := .ready } } : State).setCtx.acquired.advance).unfocus)
end

