-- ==== Sys2Proof/Laws/Lanes.lean ====
section
/-! SUPPORT. What the shared lane operations do, said once: `defTuple`, `defLanes`, `doLanes` and what they leave (07 R155). -/

namespace Sys2Proof.Machine

/-! ### Lists of lanes -/

theorem onLanes_length (m : Mask) (f : Nat → Lane → Lane) (ls : List Lane) : (onLanes m f ls).length = ls.length := by
  simp [onLanes]

theorem lane_onLanes {t : Troop} {m : Mask} {f : Nat → Lane → Lane} {i : Nat} (h : i < t.width) :
    ({ t with lanes := onLanes m f t.lanes } : Troop).lane i = if inMask m i then f i (t.lane i) else t.lane i := by
  have h' : i < t.lanes.length := h
  simp [Troop.lane, onLanes, h']

theorem lane_onLanes_idle {t : Troop} {m : Mask} {f : Nat → Lane → Lane} {i : Nat} (h : inMask m i = false) :
    ({ t with lanes := onLanes m f t.lanes } : Troop).lane i = t.lane i := by
  by_cases hi : i < t.width
  · simp [lane_onLanes hi, h]
  · have h' : t.lanes.length ≤ i := Nat.le_of_not_lt hi
    simp [Troop.lane, onLanes, h']

/-! ### Values of a lane -/

theorem find_setNum {α : Type} (n k : Nat) (x : α) (l : List (Nat × α)) :
    ((setNum n x l).find? fun p => p.1 = k) = if k = n then some (n, x) else l.find? fun p => p.1 = k := by
  by_cases h : k = n
  · simp [setNum, h]
  · have h' : ¬ n = k := fun e => h e.symm
    simp only [setNum, List.find?_cons, h', decide_false, h, if_false]
    induction l with
    | nil => rfl
    | cons a r ih =>
      by_cases ha : a.1 = n
      · have : ¬ a.1 = k := fun e => h' (ha.symm.trans e)
        simp [List.filter, ha, h', ih]
      · have hb : (a.1 != n) = true := by simpa using ha
        simp only [List.filter, hb, List.find?_cons, ih]

theorem Lane.val_define (l : Lane) (n : Nat) (v : TVal) (k : Nat) :
    (l.define n v).val k = if k = n ∧ l.frames ≠ [] then v else l.val k := by
  unfold Lane.define Lane.val
  cases h : l.frames with
  | nil => simp
  | cons f r =>
    simp only [List.head?_cons, Option.map_some, Option.getD_some, Frame.define, Frame.val, find_setNum]
    by_cases hk : k = n <;> simp [hk]

theorem sameFrames_trans {x y z : List Frame} (a : sameFrames x y) (b : sameFrames y z) : sameFrames x z := by
  unfold sameFrames at *
  cases x with
  | nil => have h : y = [] := a
           rw [h] at b; exact b
  | cons g r => rw [a] at b; rw [b]; rfl

theorem Lane.define_frames (l : Lane) (n : Nat) (v : TVal) : sameFrames l.frames (l.define n v).frames := by
  unfold sameFrames Lane.define
  cases h : l.frames <;> rfl

theorem sameFrames_ne {x y : List Frame} (a : sameFrames x y) (h : x ≠ []) : y ≠ [] := by
  unfold sameFrames at a
  cases x with
  | nil => exact absurd rfl h
  | cons g r => rw [a]; simp

theorem Lane.defines_spec (vs : List TVal) : ∀ (l : Lane) (n : Nat),
    l.defines n vs = { l with frames := (l.defines n vs).frames } ∧
    sameFrames l.frames (l.defines n vs).frames ∧
    (l.frames ≠ [] → ∀ k v, vs[k]? = some v → (l.defines n vs).val (n + k) = v) ∧
    (∀ k, k < n ∨ n + vs.length ≤ k → (l.defines n vs).val k = l.val k) := by
  induction vs with
  | nil =>
    intro l n
    refine ⟨rfl, ?_, by simp, fun _ _ => rfl⟩
    unfold sameFrames Lane.defines
    cases l.frames <;> rfl
  | cons v r ih =>
    intro l n
    obtain ⟨h1, h2, h4, h5⟩ := ih (l.define n v) (n + 1)
    have g1 := Lane.define_frames l n v
    refine ⟨?_, sameFrames_trans g1 h2, ?_, ?_⟩
    · show Lane.defines (l.define n v) (n + 1) r = _
      rw [h1]; rfl
    · intro hl k w hk
      cases k with
      | zero =>
        simp only [List.getElem?_cons_zero, Option.some.injEq] at hk
        show (Lane.defines (l.define n v) (n + 1) r).val n = w
        rw [h5 n (Or.inl (Nat.lt_succ_self n)), Lane.val_define]
        simp [hl, hk]
      | succ k =>
        simp only [List.getElem?_cons_succ] at hk
        have := h4 (sameFrames_ne g1 hl) k w hk
        show (Lane.defines (l.define n v) (n + 1) r).val (n + (k + 1)) = w
        rw [show n + (k + 1) = n + 1 + k by omega]; exact this
    · intro k hk
      simp only [List.length_cons] at hk
      show (Lane.defines (l.define n v) (n + 1) r).val k = _
      rw [h5 k (by omega), Lane.val_define]
      have : ¬ k = n := by omega
      simp [this]

theorem Lane.val_raise (l : Lane) (b : Bool) (f : W32) (k : Nat) : (l.raise b f).val k = l.val k := by
  unfold Lane.raise; split <;> rfl

theorem Lane.raise_frames (l : Lane) (b : Bool) (f : W32) : (l.raise b f).frames = l.frames := by
  unfold Lane.raise; split <;> rfl

theorem Lane.raise_sticky (l : Lane) (b : Bool) (f : W32) :
    (l.raise b f).sticky = if b then l.sticky else l.sticky ||| f := by
  unfold Lane.raise; cases b <;> rfl

theorem Lane.raise_rest (l : Lane) (b : Bool) (f : W32) :
    l.raise b f = { l with sticky := if b then l.sticky else l.sticky ||| f } := by
  unfold Lane.raise; cases b <;> rfl

/-- A lane that defines values and raises status. -/
theorem Lane.defines_raise (l : Lane) (b : Bool) (n : Nat) (vs : List TVal) (f : W32) :
    LaneDefines l ((l.defines n vs).raise b f) b n vs f := by
  obtain ⟨h1, h2, h4, h5⟩ := Lane.defines_spec vs l n
  have hs : (l.defines n vs).sticky = l.sticky := by rw [h1]
  refine ⟨?_, ?_, ?_, ?_, ?_⟩
  · rw [Lane.raise_frames, Lane.raise_sticky, hs, Lane.raise_rest, hs]; rw [h1]
  · rw [Lane.raise_sticky, hs]
  · rw [Lane.raise_frames]; exact h2
  · intro hl k v hk; rw [Lane.val_raise]; exact h4 hl k v hk
  · intro k hk; rw [Lane.val_raise]; exact h5 k hk

/-! ### The shared operations -/

theorem defLanes_eq (s : State) (f : Nat → Lane → TVal × W32) :
    s.defLanes f = s.defTuple fun i l => ([(f i l).1], (f i l).2) := rfl

/-- All that an operation which changes active lanes and goes on can do. -/
theorem doLanes_spec (s : State) (f : Nat → Lane → Lane) :
    OnlyLanes s (s.doLanes f) s.ctx.next ∧
    ∀ l, l < s.tr.width → inMask s.sp.mask l = true → (s.doLanes f).tr.lane l = f l (s.tr.lane l) := by
  refine ⟨⟨rfl, onLanes_length _ _ _, fun i h => lane_onLanes_idle h, fun _ => rfl⟩, ?_⟩
  intro l hl hm
  exact (lane_onLanes hl).trans (by simp [hm])

/-- All that an operation which defines values in active lanes can do. -/
theorem defTuple_spec (s : State) (f : Nat → Lane → List TVal × W32) :
    OnlyLanes s (s.defTuple f) s.ctx.next ∧
    ∀ l, l < s.tr.width → inMask s.sp.mask l = true →
      LaneDefines (s.tr.lane l) ((s.defTuple f).tr.lane l) s.sup s.ctx.dst (f l (s.tr.lane l)).1 (f l (s.tr.lane l)).2 := by
  obtain ⟨h, k⟩ := doLanes_spec s fun i l => (l.defines s.ctx.dst (f i l).1).raise s.sup (f i l).2
  refine ⟨h, fun l hl hm => ?_⟩
  have := k l hl hm
  show LaneDefines _ ((s.doLanes _).tr.lane l) _ _ _ _
  rw [this]
  exact Lane.defines_raise _ _ _ _ _

/-- An instruction whose meaning defines values keeps the form of `Defines`. -/
theorem defines_of {i : Instr} {s : State} {f g : Nat → Lane → List TVal × W32} (h : exec i s = .next (s.defTuple f))
    (e : ∀ l, f l (s.tr.lane l) = g l (s.tr.lane l)) : Defines i s g := by
  refine ⟨_, h, (defTuple_spec s f).1, fun l hl hm => ?_⟩
  rw [← e l]
  exact (defTuple_spec s f).2 l hl hm

/-- The same for a meaning that defines one value. -/
theorem defines_of_lanes {i : Instr} {s : State} {f : Nat → Lane → TVal × W32} {g : Nat → Lane → List TVal × W32}
    (h : exec i s = .next (s.defLanes f)) (e : ∀ l, ([(f l (s.tr.lane l)).1], (f l (s.tr.lane l)).2) = g l (s.tr.lane l)) :
    Defines i s g := defines_of (f := fun i l => ([(f i l).1], (f i l).2)) h e

end Sys2Proof.Machine
end

