-- ==== Sys2Proof/Laws/Memory.lean ====
section
/-! SUPPORT. Memory: a read after a write, and the canonical form that every memory operation keeps (04 R101, log 1). -/

namespace Sys2Proof.Machine

/-! ### The canonical form -/

theorem wfFrom_mono {lo lo' : Nat} {m : List Host.Cell} (h : lo' ≤ lo) (w : Memory.wfFrom lo m = true) :
    Memory.wfFrom lo' m = true := by
  cases m with
  | nil => rfl
  | cons c r => simp only [Memory.wfFrom, Bool.and_eq_true, decide_eq_true_eq] at w ⊢; exact ⟨⟨by omega, w.1.2⟩, w.2⟩

theorem wf_cons {lo : Nat} {c : Host.Cell} {r : List Host.Cell} :
    Memory.wfFrom lo (c :: r) = true ↔ (lo ≤ c.1 ∧ c.2 ≠ 0) ∧ Memory.wfFrom (c.1 + 1) r = true := by
  simp only [Memory.wfFrom, Bool.and_eq_true, decide_eq_true_eq, bne_iff_ne]

theorem memPut_lt {c : Host.Cell} {a : Nat} (h : a < c.1) (b : Byte) (r : List Host.Cell) :
    memPut (c :: r) a b = (a, b) :: c :: r := by rw [memPut, if_pos h]

theorem memPut_eq (c : Host.Cell) (b : Byte) (r : List Host.Cell) : memPut (c :: r) c.1 b = (c.1, b) :: r := by
  rw [memPut, if_neg (Nat.lt_irrefl _), if_pos rfl]

theorem memPut_gt {c : Host.Cell} {a : Nat} (h : c.1 < a) (b : Byte) (r : List Host.Cell) :
    memPut (c :: r) a b = c :: memPut r a b := by rw [memPut, if_neg (by omega), if_neg (by omega)]

theorem memErase_wfFrom {lo : Nat} {m : List Host.Cell} (a : Nat) (w : Memory.wfFrom lo m = true) :
    Memory.wfFrom lo (memErase m a) = true := by
  induction m generalizing lo with
  | nil => rfl
  | cons c r ih =>
    rw [wf_cons] at w
    by_cases h : c.1 = a
    · rw [memErase, if_pos h]; exact ih (wfFrom_mono (by omega) w.2)
    · rw [memErase, if_neg h, wf_cons]; exact ⟨w.1, ih w.2⟩

theorem memPut_wfFrom {lo : Nat} {m : List Host.Cell} {a : Nat} {b : Byte} (hb : b ≠ 0) (hl : lo ≤ a)
    (w : Memory.wfFrom lo m = true) : Memory.wfFrom lo (memPut m a b) = true := by
  induction m generalizing lo with
  | nil => rw [memPut, wf_cons]; exact ⟨⟨hl, hb⟩, rfl⟩
  | cons c r ih =>
    rw [wf_cons] at w
    rcases Nat.lt_trichotomy a c.1 with h | h | h
    · rw [memPut_lt h, wf_cons, wf_cons]; exact ⟨⟨hl, hb⟩, ⟨h, w.1.2⟩, w.2⟩
    · subst h; rw [memPut_eq, wf_cons]; exact ⟨⟨hl, hb⟩, w.2⟩
    · rw [memPut_gt h, wf_cons]; exact ⟨w.1, ih (by omega) w.2⟩

theorem memWrite_wf {m : List Host.Cell} (a : Nat) (b : Byte) (w : Memory.wf m = true) : Memory.wf (memWrite m a b) = true := by
  unfold memWrite
  split
  · exact memErase_wfFrom a w
  · exact memPut_wfFrom ‹_› (Nat.zero_le _) w

theorem memWriteAll_wf (cs : List (Nat × Byte)) {m : List Host.Cell} (w : Memory.wf m = true) :
    Memory.wf (memWriteAll m cs) = true := by
  induction cs generalizing m with
  | nil => exact w
  | cons c r ih => exact ih (memWrite_wf c.1 c.2 w)

theorem filter_wfFrom {lo : Nat} {m : List Host.Cell} (p : Host.Cell → Bool) (w : Memory.wfFrom lo m = true) :
    Memory.wfFrom lo (m.filter p) = true := by
  induction m generalizing lo with
  | nil => rfl
  | cons c r ih =>
    simp only [Memory.wfFrom, Bool.and_eq_true, decide_eq_true_eq] at w
    by_cases h : p c = true
    · simp only [List.filter, h, Memory.wfFrom, Bool.and_eq_true, decide_eq_true_eq]
      exact ⟨w.1, ih w.2⟩
    · simp only [List.filter, h]
      exact ih (wfFrom_mono (by omega) w.2)

theorem filter_wf {m : List Host.Cell} (p : Host.Cell → Bool) (w : Memory.wf m = true) : Memory.wf (m.filter p) = true :=
  filter_wfFrom p w

theorem memZero_wf {m : List Host.Cell} (lo hi : Nat) (w : Memory.wf m = true) : Memory.wf (memZero m lo hi) = true :=
  filter_wf _ w

/-! ### A block written at once -/

theorem wfFrom_filter_ge {lo k : Nat} {m : List Host.Cell} (w : Memory.wfFrom lo m = true) :
    Memory.wfFrom k (m.filter fun c => k ≤ c.1) = true := by
  induction m generalizing lo with
  | nil => rfl
  | cons c r ih =>
    rw [wf_cons] at w
    by_cases h : k ≤ c.1
    · simp only [List.filter, h, decide_true, wf_cons]
      exact ⟨⟨trivial, w.1.2⟩, filter_wfFrom _ w.2⟩
    · simp only [List.filter, h, decide_false]
      exact ih w.2

theorem wfFrom_append {lo hi : Nat} {m n : List Host.Cell} (w : Memory.wfFrom lo m = true) (h : ∀ c ∈ m, c.1 < hi) (l : lo ≤ hi)
    (v : Memory.wfFrom hi n = true) : Memory.wfFrom lo (m ++ n) = true := by
  induction m generalizing lo with
  | nil => exact wfFrom_mono l v
  | cons c r ih =>
    rw [wf_cons] at w
    rw [List.cons_append, wf_cons]
    exact ⟨w.1, ih w.2 (fun d hd => h d (List.mem_cons_of_mem _ hd)) (h c List.mem_cons_self)⟩

theorem cellsAt_wf (bs : List Byte) (a : Nat) :
    Memory.wfFrom a ((cellsAt a bs).filter fun c => c.2 != 0) = true ∧ ∀ c ∈ cellsAt a bs, c.1 < a + bs.length := by
  induction bs generalizing a with
  | nil => exact ⟨rfl, fun c h => by cases h⟩
  | cons b r ih =>
    obtain ⟨h1, h2⟩ := ih (a + 1)
    refine ⟨?_, ?_⟩
    · by_cases hb : b = 0
      · simp only [cellsAt, List.filter, hb, bne_self_eq_false]
        exact wfFrom_mono (by omega) h1
      · have : (b != 0) = true := by simpa using hb
        simp only [cellsAt, List.filter, this, wf_cons]
        exact ⟨⟨Nat.le_refl _, hb⟩, h1⟩
    · intro c hc
      simp only [cellsAt, List.mem_cons, List.length_cons] at hc ⊢
      rcases hc with rfl | hc
      · show a < _; omega
      · have := h2 c hc; omega

theorem memBlock_wf {m : List Host.Cell} (a : Nat) (bs : List Byte) (w : Memory.wf m = true) : Memory.wf (memBlock m a bs) = true := by
  obtain ⟨h1, h2⟩ := cellsAt_wf bs a
  refine wfFrom_append (hi := a + bs.length) (wfFrom_append (hi := a) (filter_wf _ w) ?_ (Nat.zero_le _) h1) ?_ (Nat.zero_le _) (wfFrom_filter_ge w)
  · intro c hc
    simpa using (List.mem_filter.1 hc).2
  · intro c hc
    rcases List.mem_append.1 hc with hc | hc
    · have : c.1 < a := by simpa using (List.mem_filter.1 hc).2
      omega
    · exact h2 c (List.mem_filter.1 hc).1

/-! ### Reading after writing -/

theorem memRead_lt {lo : Nat} {m : List Host.Cell} (w : Memory.wfFrom lo m = true) {a : Nat} (h : a < lo) :
    memRead m a = 0 := by
  induction m generalizing lo with
  | nil => rfl
  | cons c r ih =>
    simp only [Memory.wfFrom, Bool.and_eq_true, decide_eq_true_eq] at w
    have : c.1 ≠ a := by omega
    simp only [memRead, this, if_false]
    exact ih w.2 (by omega)

theorem memRead_erase_self {m : List Host.Cell} (a : Nat) : memRead (memErase m a) a = 0 := by
  induction m with
  | nil => rfl
  | cons c r ih =>
    by_cases h : c.1 = a
    · rw [memErase, if_pos h, ih]
    · rw [memErase, if_neg h, memRead, if_neg h, ih]

theorem memRead_erase_ne {m : List Host.Cell} {a x : Nat} (h : x ≠ a) : memRead (memErase m a) x = memRead m x := by
  induction m with
  | nil => rfl
  | cons c r ih =>
    by_cases hc : c.1 = a
    · rw [memErase, if_pos hc, memRead, if_neg (by omega), ih]
    · rw [memErase, if_neg hc, memRead, memRead, ih]

theorem memRead_put {m : List Host.Cell} {a : Nat} {b : Byte} (x : Nat) :
    memRead (memPut m a b) x = if x = a then b else memRead m x := by
  induction m with
  | nil => by_cases h : a = x <;> simp [memPut, memRead, h, eq_comm]
  | cons c r ih =>
    rcases Nat.lt_trichotomy a c.1 with h | h | h
    · rw [memPut_lt h, memRead]; simp only [eq_comm]
    · subst h; rw [memPut_eq, memRead, memRead]; by_cases hx : c.1 = x <;> simp [hx, eq_comm]
      intro h; exact absurd h.symm hx
    · rw [memPut_gt h, memRead, memRead, ih]; by_cases hx : c.1 = x
      · rw [if_pos hx, if_pos hx, if_neg (by omega)]
      · rw [if_neg hx, if_neg hx]

/-- A read after a write: the byte written, or what the address held. -/
theorem memRead_write {m : List Host.Cell} (a : Nat) (b : Byte) (x : Nat) :
    memRead (memWrite m a b) x = if x = a then b else memRead m x := by
  unfold memWrite
  split
  · by_cases h : x = a
    · subst h; simp [memRead_erase_self, *]
    · simp [memRead_erase_ne h, h]
  · exact memRead_put x

theorem memRead_writeAll (cs : List (Nat × Byte)) {m : List Host.Cell} (x : Nat) :
    memRead (memWriteAll m cs) x = (lastTo cs x).getD (memRead m x) := by
  induction cs generalizing m with
  | nil => rfl
  | cons c r ih =>
    rw [memWriteAll, ih, memRead_write]
    simp only [lastTo, List.reverse_cons, List.find?_append]
    cases h : r.reverse.find? fun c => c.1 = x with
    | some d => simp
    | none => by_cases hx : x = c.1
              · subst hx; simp
              · simp [hx, Ne.symm hx]

theorem memRead_writeAll_other (cs : List (Nat × Byte)) {m : List Host.Cell} {x : Nat} (h : ∀ c ∈ cs, c.1 ≠ x) :
    memRead (memWriteAll m cs) x = memRead m x := by
  induction cs generalizing m with
  | nil => rfl
  | cons c r ih =>
    rw [memWriteAll, ih fun d hd => h d (List.mem_cons_of_mem _ hd)]
    have hc : x ≠ c.1 := fun e => h c List.mem_cons_self e.symm
    unfold memWrite
    split
    · exact memRead_erase_ne hc
    · simp [memRead_put, hc]

theorem memRead_zero {m : List Host.Cell} (lo hi x : Nat) :
    memRead (memZero m lo hi) x = if lo ≤ x ∧ x < hi then 0 else memRead m x := by
  induction m with
  | nil => simp [memZero, memRead]
  | cons c r ih =>
    simp only [memZero] at ih ⊢
    by_cases hc : lo ≤ c.1 ∧ c.1 < hi
    · simp only [List.filter, hc.1, hc.2, decide_true, Bool.and_self, Bool.not_true, ih]
      by_cases hx : c.1 = x
      · subst hx; simp [hc.1, hc.2]
      · simp [memRead, hx]
    · have : (!(decide (lo ≤ c.1) && decide (c.1 < hi))) = true := by simp; omega
      simp only [List.filter, this, memRead, ih]
      by_cases hx : c.1 = x
      · subst hx; simp; omega
      · simp [hx]

/-! ### The operations of the machine that write memory -/

theorem commit_wf (s : State) (cs : List (Nat × Byte)) (w : Memory.wf s.mem = true) : Memory.wf (s.commit cs).mem = true :=
  memWriteAll_wf cs w

theorem commit_read (s : State) (cs : List (Nat × Byte)) (x : Nat) :
    memRead (s.commit cs).mem x = (lastTo cs x).getD (memRead s.mem x) := memRead_writeAll cs x

theorem commit_other (s : State) (cs : List (Nat × Byte)) {x : Nat} (h : ∀ c ∈ cs, c.1 ≠ x) :
    memRead (s.commit cs).mem x = memRead s.mem x := memRead_writeAll_other cs h

theorem putEntry_wf (s : State) (a v : Nat) (w : Memory.wf s.mem = true) : Memory.wf (s.putEntry a v).mem = true :=
  memWriteAll_wf _ w

theorem takePage_wf (s t : State) (cap : Bool) (p : Nat) (h : s.takePage cap = some (p, t)) (w : Memory.wf s.mem = true) :
    Memory.wf t.mem = true := by
  unfold State.takePage at h
  split at h <;>
  · simp only [Option.map_eq_some_iff, Prod.mk.injEq] at h
    obtain ⟨r, -, -, rfl⟩ := h
    exact memZero_wf _ _ w

/-- Every write of the machine's memory is one of these: bytes written, a page filled with zeros, a block of bytes, or what a loss of supply keeps. -/
theorem memory_ops_wf (m : List Host.Cell) (w : Memory.wf m = true) :
    (∀ cs, Memory.wf (memWriteAll m cs) = true) ∧ (∀ lo hi, Memory.wf (memZero m lo hi) = true) ∧ (∀ a bs, Memory.wf (memBlock m a bs) = true) ∧
    (∀ p, Memory.wf (m.filter p) = true) :=
  ⟨fun cs => memWriteAll_wf cs w, fun lo hi => memZero_wf lo hi w, fun a bs => memBlock_wf a bs w, fun p => filter_wf p w⟩

end Sys2Proof.Machine
end

