-- ==== Sys2Proof/Laws/PerInstr.lean ====
section
/-! SUPPORT. For each instruction, that a portable word of it has an opcode of the table, which the decoder takes (06 R137, 17 R382). -/

namespace Sys2Proof.Laws.DecEnc

open Sys2Proof

/-- The opcode of a portable instruction is assigned, and no other than 1 to 255. -/
def Statement (i : Instr) : Prop := ∀ p, i.parts = some p → opAssigned p.op = true ∧ 0 < p.op ∧ p.op < 0x100

theorem br (e : Edge) : Statement (.br e) := by rintro p ⟨⟩; simp [opAssigned]
theorem cbr (c : Val) (e1 e0 : Edge) : Statement (.cbr c e1 e0) := by rintro p ⟨⟩; simp [opAssigned]
theorem switch (ty : Ty) (v : Val) (dflt : Edge) (cases : List (W32 × Edge)) : Statement (.switch ty v dflt cases) := by rintro p ⟨⟩; simp [opAssigned]
theorem brx (i : Val) (es : List Edge) : Statement (.brx i es) := by rintro p ⟨⟩; simp [opAssigned]
theorem call (f : Nat) (args : List Val) : Statement (.call f args) := by rintro p ⟨⟩; simp [opAssigned]
theorem ret (vs : List Val) : Statement (.ret vs) := by rintro p ⟨⟩; simp [opAssigned]
theorem exit : Statement .exit := by rintro p ⟨⟩; simp [opAssigned]
theorem trap (code : Byte) : Statement (.trap code) := by rintro p ⟨⟩; simp [opAssigned]
theorem brk : Statement .brk := by rintro p ⟨⟩; simp [opAssigned]
theorem const (ty : Ty) (v : W64) : Statement (.const ty v) := by rintro p ⟨⟩; simp [opAssigned]
theorem constSymbol (ty : Ty) (sec : Sec) (off : BitVec 30) : Statement (.constSymbol ty sec off) := by rintro p ⟨⟩; simp [opAssigned]
theorem add (ty : Ty) (a b : Val) : Statement (.add ty a b) := by rintro p ⟨⟩; simp [opAssigned]
theorem sub (ty : Ty) (a b : Val) : Statement (.sub ty a b) := by rintro p ⟨⟩; simp [opAssigned]
theorem mul (ty : Ty) (a b : Val) : Statement (.mul ty a b) := by rintro p ⟨⟩; simp [opAssigned]
theorem mulhi (ty : Ty) (a b : Val) : Statement (.mulhi ty a b) := by rintro p ⟨⟩; simp [opAssigned]
theorem mad (ty : Ty) (a b c : Val) : Statement (.mad ty a b c) := by rintro p ⟨⟩; simp [opAssigned]
theorem div (ty : Ty) (a b : Val) : Statement (.div ty a b) := by rintro p ⟨⟩; simp [opAssigned]
theorem rem (ty : Ty) (a b : Val) : Statement (.rem ty a b) := by rintro p ⟨⟩; simp [opAssigned]
theorem neg (ty : Ty) (a : Val) : Statement (.neg ty a) := by rintro p ⟨⟩; simp [opAssigned]
theorem abs (ty : Ty) (a : Val) : Statement (.abs ty a) := by rintro p ⟨⟩; simp [opAssigned]
theorem min (ty : Ty) (a b : Val) : Statement (.min ty a b) := by rintro p ⟨⟩; simp [opAssigned]
theorem max (ty : Ty) (a b : Val) : Statement (.max ty a b) := by rintro p ⟨⟩; simp [opAssigned]
theorem addsat (ty : Ty) (a b : Val) : Statement (.addsat ty a b) := by rintro p ⟨⟩; simp [opAssigned]
theorem subsat (ty : Ty) (a b : Val) : Statement (.subsat ty a b) := by rintro p ⟨⟩; simp [opAssigned]
theorem and (ty : Ty) (a b : Val) : Statement (.and ty a b) := by rintro p ⟨⟩; simp [opAssigned]
theorem or (ty : Ty) (a b : Val) : Statement (.or ty a b) := by rintro p ⟨⟩; simp [opAssigned]
theorem xor (ty : Ty) (a b : Val) : Statement (.xor ty a b) := by rintro p ⟨⟩; simp [opAssigned]
theorem not (ty : Ty) (a : Val) : Statement (.not ty a) := by rintro p ⟨⟩; simp [opAssigned]
theorem shl (ty : Ty) (a s : Val) : Statement (.shl ty a s) := by rintro p ⟨⟩; simp [opAssigned]
theorem shr (ty : Ty) (a s : Val) : Statement (.shr ty a s) := by rintro p ⟨⟩; simp [opAssigned]
theorem rotl (ty : Ty) (a s : Val) : Statement (.rotl ty a s) := by rintro p ⟨⟩; simp [opAssigned]
theorem popc (ty : Ty) (a : Val) : Statement (.popc ty a) := by rintro p ⟨⟩; simp [opAssigned]
theorem clz (ty : Ty) (a : Val) : Statement (.clz ty a) := by rintro p ⟨⟩; simp [opAssigned]
theorem ctz (ty : Ty) (a : Val) : Statement (.ctz ty a) := by rintro p ⟨⟩; simp [opAssigned]
theorem brev (ty : Ty) (a : Val) : Statement (.brev ty a) := by rintro p ⟨⟩; simp [opAssigned]
theorem bfx (ty : Ty) (a p l : Val) : Statement (.bfx ty a p l) := by rintro p ⟨⟩; simp [opAssigned]
theorem bfi (ty : Ty) (a b p l : Val) : Statement (.bfi ty a b p l) := by rintro p ⟨⟩; simp [opAssigned]
theorem cmp (ty : Ty) (cc : Cc) (a b : Val) : Statement (.cmp ty cc a b) := by rintro p ⟨⟩; simp [opAssigned]
theorem sel (ty : Ty) (c a b : Val) : Statement (.sel ty c a b) := by rintro p ⟨⟩; simp [opAssigned]
theorem fadd (ty : Ty) (rm : Rm) (a b : Val) : Statement (.fadd ty rm a b) := by rintro p ⟨⟩; simp [opAssigned]
theorem fsub (ty : Ty) (rm : Rm) (a b : Val) : Statement (.fsub ty rm a b) := by rintro p ⟨⟩; simp [opAssigned]
theorem fmul (ty : Ty) (rm : Rm) (a b : Val) : Statement (.fmul ty rm a b) := by rintro p ⟨⟩; simp [opAssigned]
theorem fma (ty : Ty) (rm : Rm) (a b c : Val) : Statement (.fma ty rm a b c) := by rintro p ⟨⟩; simp [opAssigned]
theorem fdiv (ty : Ty) (rm : Rm) (a b : Val) : Statement (.fdiv ty rm a b) := by rintro p ⟨⟩; simp [opAssigned]
theorem fsqrt (ty : Ty) (rm : Rm) (a : Val) : Statement (.fsqrt ty rm a) := by rintro p ⟨⟩; simp [opAssigned]
theorem frsq (ty : Ty) (rm : Rm) (a : Val) : Statement (.frsq ty rm a) := by rintro p ⟨⟩; simp [opAssigned]
theorem frcp (ty : Ty) (rm : Rm) (a : Val) : Statement (.frcp ty rm a) := by rintro p ⟨⟩; simp [opAssigned]
theorem fexp2 (ty : Ty) (a : Val) : Statement (.fexp2 ty a) := by rintro p ⟨⟩; simp [opAssigned]
theorem flog2 (ty : Ty) (a : Val) : Statement (.flog2 ty a) := by rintro p ⟨⟩; simp [opAssigned]
theorem fsin (ty : Ty) (a : Val) : Statement (.fsin ty a) := by rintro p ⟨⟩; simp [opAssigned]
theorem fcos (ty : Ty) (a : Val) : Statement (.fcos ty a) := by rintro p ⟨⟩; simp [opAssigned]
theorem ftanh (ty : Ty) (a : Val) : Statement (.ftanh ty a) := by rintro p ⟨⟩; simp [opAssigned]
theorem fmin (ty : Ty) (a b : Val) : Statement (.fmin ty a b) := by rintro p ⟨⟩; simp [opAssigned]
theorem fmax (ty : Ty) (a b : Val) : Statement (.fmax ty a b) := by rintro p ⟨⟩; simp [opAssigned]
theorem fabs (ty : Ty) (a : Val) : Statement (.fabs ty a) := by rintro p ⟨⟩; simp [opAssigned]
theorem fneg (ty : Ty) (a : Val) : Statement (.fneg ty a) := by rintro p ⟨⟩; simp [opAssigned]
theorem fcmp (ty : Ty) (cc : Fcc) (a b : Val) : Statement (.fcmp ty cc a b) := by rintro p ⟨⟩; simp [opAssigned]
theorem fclass (ty : Ty) (a : Val) : Statement (.fclass ty a) := by rintro p ⟨⟩; simp [opAssigned]
theorem fround (ty : Ty) (rm : Rm) (a : Val) : Statement (.fround ty rm a) := by rintro p ⟨⟩; simp [opAssigned]
theorem fcopysign (ty : Ty) (a b : Val) : Statement (.fcopysign ty a b) := by rintro p ⟨⟩; simp [opAssigned]
theorem cvt (ty : Ty) (sat : Bool) (rm : Rm) (a : Val) : Statement (.cvt ty sat rm a) := by rintro p ⟨⟩; simp [opAssigned]
theorem bitcast (ty : Ty) (a : Val) : Statement (.bitcast ty a) := by rintro p ⟨⟩; simp [opAssigned]
theorem pack (ty : Ty) (lo hi : Val) : Statement (.pack ty lo hi) := by rintro p ⟨⟩; simp [opAssigned]
theorem unpack (ty : Ty) (a : Val) : Statement (.unpack ty a) := by rintro p ⟨⟩; simp [opAssigned]
theorem dxbPackElem (ty : Ty) (x : Val) : Statement (.dxbPackElem ty x) := by rintro p ⟨⟩; simp [opAssigned]
theorem dxbPackScale (ty : Ty) (hi : Bool) (x old : Val) : Statement (.dxbPackScale ty hi x old) := by rintro p ⟨⟩; simp [opAssigned]
theorem dxbUnpack (ty : Ty) (rm : Rm) (hi : Bool) (e sc : Val) : Statement (.dxbUnpack ty rm hi e sc) := by rintro p ⟨⟩; simp [opAssigned]
theorem shfl (ty : Ty) (mode : ShMode) (seg : Nat) (v d : Val) : Statement (.shfl ty mode seg v d) := by rintro p ⟨⟩; simp [opAssigned]
theorem vote (op : VoteOp) (c : Val) : Statement (.vote op c) := by rintro p ⟨⟩; simp [opAssigned]
theorem ballot (word : Fin 32) (c : Val) : Statement (.ballot word c) := by rintro p ⟨⟩; simp [opAssigned]
theorem redux (ty : Ty) (op : RedOp) (rm : Rm) (v : Val) : Statement (.redux ty op rm v) := by rintro p ⟨⟩; simp [opAssigned]
theorem scan (ty : Ty) (op : RedOp) (rm : Rm) (excl : Bool) (v : Val) : Statement (.scan ty op rm excl v) := by rintro p ⟨⟩; simp [opAssigned]
theorem rand (wide : Bool) (seed : Val) : Statement (.rand wide seed) := by rintro p ⟨⟩; simp [opAssigned]
theorem ld (ty : Ty) (m : MemOpnd) : Statement (.ld ty m) := by rintro p ⟨⟩; simp [opAssigned]
theorem st (ty : Ty) (m : MemOpnd) (v : Val) : Statement (.st ty m v) := by rintro p ⟨⟩; simp [opAssigned]
theorem ldv (ty : Ty) (n : Nat) (m : MemOpnd) : Statement (.ldv ty n m) := by rintro p ⟨⟩; simp [opAssigned]
theorem stv (ty : Ty) (n : Nat) (m : MemOpnd) (vs : List Val) : Statement (.stv ty n m vs) := by rintro p ⟨⟩; simp [opAssigned]
theorem atom (ty : Ty) (op : AtomOp) (m : MemOpnd) (v : Val) (new : Option Val) : Statement (.atom ty op m v new) := by rintro p ⟨⟩; simp [opAssigned]
theorem fence (ord : Ord) (sc : Scope) : Statement (.fence ord sc) := by rintro p ⟨⟩; simp [opAssigned]
theorem prefetch (llc : Bool) (a : Val) : Statement (.prefetch llc a) := by rintro p ⟨⟩; simp [opAssigned]
theorem tier (cap : Bool) (a len : Val) : Statement (.tier cap a len) := by rintro p ⟨⟩; simp [opAssigned]
theorem barInit (sc : Scope) (b e : Val) : Statement (.barInit sc b e) := by rintro p ⟨⟩; simp [opAssigned]
theorem barArrive (b : Val) (n : Option Val) : Statement (.barArrive b n) := by rintro p ⟨⟩; simp [opAssigned]
theorem barWait (b : Val) (ph : Option Val) : Statement (.barWait b ph) := by rintro p ⟨⟩; simp [opAssigned]
theorem barTry (b ph : Val) : Statement (.barTry b ph) := by rintro p ⟨⟩; simp [opAssigned]
theorem barSync (b : Val) (n : Option Val) : Statement (.barSync b n) := by rintro p ⟨⟩; simp [opAssigned]
theorem stepSync (b : Val) (n : Option Val) : Statement (.stepSync b n) := by rintro p ⟨⟩; simp [opAssigned]
theorem copy (st : Bool) (sc : Scope) (dst src len : Val) (bw cv want : Option Val) : Statement (.copy st sc dst src len bw cv want) := by rintro p ⟨⟩; simp [opAssigned]
theorem tcopy (var : TVar) (st : Bool) (sc : Scope) (sp tr : Val) (os : List Val) (bw cv want : Option Val) : Statement (.tcopy var st sc sp tr os bw cv want) := by rintro p ⟨⟩; simp [opAssigned]
theorem copyRemote (st : Bool) (sc : Scope) (dst src len : Val) (loc bw cv want : Option Val) : Statement (.copyRemote st sc dst src len loc bw cv want) := by rintro p ⟨⟩; simp [opAssigned]
theorem accInit (slot : Fin 8) (ceil : Fin 16) (e : Val) : Statement (.accInit slot ceil e) := by rintro p ⟨⟩; simp [opAssigned]
theorem mma (fa fb : MFmt) (t : Fin 4) (a pa pb : Val) : Statement (.mma fa fb t a pa pb) := by rintro p ⟨⟩; simp [opAssigned]
theorem mmaRes (fa fb : MFmt) (t : Fin 4) (a pa h j : Val) : Statement (.mmaRes fa fb t a pa h j) := by rintro p ⟨⟩; simp [opAssigned]
theorem accNorm (a : Val) : Statement (.accNorm a) := by rintro p ⟨⟩; simp [opAssigned]
theorem accRd (ty : Ty) (rm : Rm) (a row col : Val) : Statement (.accRd ty rm a row col) := by rintro p ⟨⟩; simp [opAssigned]
theorem accRdWord (hi : Bool) (a row col : Val) : Statement (.accRdWord hi a row col) := by rintro p ⟨⟩; simp [opAssigned]
theorem accWr (ty : Ty) (rm : Rm) (a row col v : Val) : Statement (.accWr ty rm a row col v) := by rintro p ⟨⟩; simp [opAssigned]
theorem accWrWord (hi : Bool) (a row col v : Val) : Statement (.accWrWord hi a row col v) := by rintro p ⟨⟩; simp [opAssigned]
theorem ropeForm (mem : Val) : Statement (.ropeForm mem) := by rintro p ⟨⟩; simp [opAssigned]
theorem ropeFree : Statement .ropeFree := by rintro p ⟨⟩; simp [opAssigned]
theorem resPitch (sc : Scope) (tr i0 i1 tk tn num : Val) : Statement (.resPitch sc tr i0 i1 tk tn num) := by rintro p ⟨⟩; simp [opAssigned]
theorem resPitchAttach (num : Val) : Statement (.resPitchAttach num) := by rintro p ⟨⟩; simp [opAssigned]
theorem resPitchRefill (num : Val) : Statement (.resPitchRefill num) := by rintro p ⟨⟩; simp [opAssigned]
theorem resStrike (byNum : Bool) (x : Val) : Statement (.resStrike byNum x) := by rintro p ⟨⟩; simp [opAssigned]
theorem resPin (byNum : Bool) (x : Val) : Statement (.resPin byNum x) := by rintro p ⟨⟩; simp [opAssigned]
theorem resUnpin (byNum : Bool) (x : Val) : Statement (.resUnpin byNum x) := by rintro p ⟨⟩; simp [opAssigned]
theorem resQuery (byNum : Bool) (x : Val) : Statement (.resQuery byNum x) := by rintro p ⟨⟩; simp [opAssigned]
theorem sloop (t : Val) (specs : List StreamSpec) (bases inits : List Val) : Statement (.sloop t specs bases inits) := by rintro p ⟨⟩; simp [opAssigned]
theorem sget (ty : Ty) (k : Nat) : Statement (.sget ty k) := by rintro p ⟨⟩; simp [opAssigned]
theorem sput (ty : Ty) (k : Nat) (v : Val) : Statement (.sput ty k v) := by rintro p ⟨⟩; simp [opAssigned]
theorem sloopEnd (vs : List Val) : Statement (.sloopEnd vs) := by rintro p ⟨⟩; simp [opAssigned]
theorem sysRd (r : SysReg) : Statement (.sysRd r) := by rintro p ⟨⟩; simp [opAssigned]
theorem sysWrXstat (v : Val) : Statement (.sysWrXstat v) := by rintro p ⟨⟩; simp [opAssigned]
theorem sysWrStubv (v : Val) : Statement (.sysWrStubv v) := by rintro p ⟨⟩; simp [opAssigned]
theorem stamp : Statement .stamp := by rintro p ⟨⟩; simp [opAssigned]
theorem stampSc : Statement .stampSc := by rintro p ⟨⟩; simp [opAssigned]
theorem yield : Statement .yield := by rintro p ⟨⟩; simp [opAssigned]
theorem xretRetry : Statement .xretRetry := by rintro p ⟨⟩; simp [opAssigned]
theorem xretNext : Statement .xretNext := by rintro p ⟨⟩; simp [opAssigned]
theorem tlbInv (pkg : Bool) (a len : Val) : Statement (.tlbInv pkg a len) := by rintro p ⟨⟩; simp [opAssigned]
theorem opReq (p : Val) : Statement (.opReq p) := by rintro p ⟨⟩; simp [opAssigned]
theorem header (h : Hdr) : Statement (.header h) := nofun
theorem natIadd (n : NOp) : Statement (.natIadd n) := nofun
theorem natIsub (n : NOp) : Statement (.natIsub n) := nofun
theorem natImul (n : NOp) : Statement (.natImul n) := nofun
theorem natImad (n : NOp) : Statement (.natImad n) := nofun
theorem natAnd (n : NOp) : Statement (.natAnd n) := nofun
theorem natOr (n : NOp) : Statement (.natOr n) := nofun
theorem natXor (n : NOp) : Statement (.natXor n) := nofun
theorem natShl (n : NOp) : Statement (.natShl n) := nofun
theorem natShr (n : NOp) : Statement (.natShr n) := nofun
theorem natSar (n : NOp) : Statement (.natSar n) := nofun
theorem natMin (n : NOp) : Statement (.natMin n) := nofun
theorem natMax (n : NOp) : Statement (.natMax n) := nofun
theorem natSel (n : NOp) : Statement (.natSel n) := nofun
theorem natIcmp (n : NOp) : Statement (.natIcmp n) := nofun
theorem natFadd (n : NOp) : Statement (.natFadd n) := nofun
theorem natFmul (n : NOp) : Statement (.natFmul n) := nofun
theorem natFma (n : NOp) : Statement (.natFma n) := nofun
theorem natFmad (n : NOp) : Statement (.natFmad n) := nofun
theorem natFcmp (n : NOp) : Statement (.natFcmp n) := nofun
theorem natFmin (n : NOp) : Statement (.natFmin n) := nofun
theorem natFmax (n : NOp) : Statement (.natFmax n) := nofun
theorem natCvt (n : NOp) : Statement (.natCvt n) := nofun
theorem natMov (n : NOp) : Statement (.natMov n) := nofun
theorem natMovi (n : NOp) : Statement (.natMovi n) := nofun
theorem natSfu (n : NOp) : Statement (.natSfu n) := nofun
theorem natLane (n : NOp) : Statement (.natLane n) := nofun
theorem natLds (n : NOp) : Statement (.natLds n) := nofun
theorem natSts (n : NOp) : Statement (.natSts n) := nofun
theorem natLdg (n : NOp) : Statement (.natLdg n) := nofun
theorem natStg (n : NOp) : Statement (.natStg n) := nofun
theorem natAtg (n : NOp) : Statement (.natAtg n) := nofun
theorem natLdp (n : NOp) : Statement (.natLdp n) := nofun
theorem natStp (n : NOp) : Statement (.natStp n) := nofun
theorem natPrf (n : NOp) : Statement (.natPrf n) := nofun
theorem natFnc (n : NOp) : Statement (.natFnc n) := nofun
theorem natMma (n : NOp) : Statement (.natMma n) := nofun
theorem natMmar (n : NOp) : Statement (.natMmar n) := nofun
theorem natAccn (n : NOp) : Statement (.natAccn n) := nofun
theorem natTcopy (n : NOp) : Statement (.natTcopy n) := nofun
theorem natCopy (n : NOp) : Statement (.natCopy n) := nofun
theorem ovl (n : NOp) : Statement (.ovl n) := nofun
theorem natRpitch (n : NOp) : Statement (.natRpitch n) := nofun
theorem natRstrike (n : NOp) : Statement (.natRstrike n) := nofun
theorem natAcci (n : NOp) : Statement (.natAcci n) := nofun
theorem natBr (n : NOp) : Statement (.natBr n) := nofun
theorem natBrc (n : NOp) : Statement (.natBrc n) := nofun
theorem brsw (n : NOp) : Statement (.brsw n) := nofun
theorem natCall (n : NOp) : Statement (.natCall n) := nofun
theorem natRet (n : NOp) : Statement (.natRet n) := nofun
theorem ifence (n : NOp) : Statement (.ifence n) := nofun
theorem join (n : NOp) : Statement (.join n) := nofun
theorem natExit (n : NOp) : Statement (.natExit n) := nofun
theorem natTrap (n : NOp) : Statement (.natTrap n) := nofun
theorem bwait (n : NOp) : Statement (.bwait n) := nofun
theorem barr (n : NOp) : Statement (.barr n) := nofun
theorem srd (n : NOp) : Statement (.srd n) := nofun
theorem natYield (n : NOp) : Statement (.natYield n) := nofun
theorem point (n : NOp) : Statement (.point n) := nofun
theorem sadd (n : NOp) : Statement (.sadd n) := nofun
theorem smov (n : NOp) : Statement (.smov n) := nofun
theorem scmp (n : NOp) : Statement (.scmp n) := nofun
theorem prd (p : POp) : Statement (.prd p) := nofun
theorem pwr (p : POp) : Statement (.pwr p) := nofun
theorem prdPwr (p : POp) : Statement (.prdPwr p) := nofun
theorem reservedCommand (c : Cmd) : Statement (.reservedCommand c) := nofun
theorem moduleLoad (c : Cmd) : Statement (.moduleLoad c) := nofun
theorem moduleUnload (c : Cmd) : Statement (.moduleUnload c) := nofun
theorem queueWrite (c : Cmd) : Statement (.queueWrite c) := nofun
theorem queueRead (c : Cmd) : Statement (.queueRead c) := nofun
theorem tenantBind (c : Cmd) : Statement (.tenantBind c) := nofun
theorem tenantUnbind (c : Cmd) : Statement (.tenantUnbind c) := nofun
theorem regionSuspend (c : Cmd) : Statement (.regionSuspend c) := nofun
theorem regionResume (c : Cmd) : Statement (.regionResume c) := nofun
theorem packRequest (c : Cmd) : Statement (.packRequest c) := nofun
theorem setRunLimit (c : Cmd) : Statement (.setRunLimit c) := nofun
theorem setHold (c : Cmd) : Statement (.setHold c) := nofun
theorem exportWrite (c : Cmd) : Statement (.exportWrite c) := nofun
theorem setPackageNumber (c : Cmd) : Statement (.setPackageNumber c) := nofun
theorem keyInstall (c : Cmd) : Statement (.keyInstall c) := nofun
theorem routeWrite (c : Cmd) : Statement (.routeWrite c) := nofun
theorem setPeerTimeout (c : Cmd) : Statement (.setPeerTimeout c) := nofun
theorem setPoolSize (c : Cmd) : Statement (.setPoolSize c) := nofun
theorem supervisorKey (c : Cmd) : Statement (.supervisorKey c) := nofun
theorem domainAlign (c : Cmd) : Statement (.domainAlign c) := nofun
theorem setTier (c : Cmd) : Statement (.setTier c) := nofun
theorem subscribe (c : Cmd) : Statement (.subscribe c) := nofun
theorem rackCap (c : Cmd) : Statement (.rackCap c) := nofun
theorem emberEnter (c : Cmd) : Statement (.emberEnter c) := nofun
theorem emberExit (c : Cmd) : Statement (.emberExit c) := nofun
theorem attest (c : Cmd) : Statement (.attest c) := nofun
theorem debugChallenge (c : Cmd) : Statement (.debugChallenge c) := nofun
theorem debugToken (c : Cmd) : Statement (.debugToken c) := nofun
theorem attach (c : Cmd) : Statement (.attach c) := nofun
theorem detach (c : Cmd) : Statement (.detach c) := nofun
theorem stop (c : Cmd) : Statement (.stop c) := nofun
theorem resume (c : Cmd) : Statement (.resume c) := nofun
theorem step (c : Cmd) : Statement (.step c) := nofun
theorem bkptSet (c : Cmd) : Statement (.bkptSet c) := nofun
theorem bkptClear (c : Cmd) : Statement (.bkptClear c) := nofun
theorem toPoint (c : Cmd) : Statement (.toPoint c) := nofun
theorem read (c : Cmd) : Statement (.read c) := nofun
theorem write (c : Cmd) : Statement (.write c) := nofun
theorem splits (c : Cmd) : Statement (.splits c) := nofun
theorem poolAdd (c : Cmd) : Statement (.poolAdd c) := nofun
theorem poolDeny (c : Cmd) : Statement (.poolDeny c) := nofun
theorem unfence (c : Cmd) : Statement (.unfence c) := nofun
theorem finjWrite (c : Cmd) : Statement (.finjWrite c) := nofun
theorem finjRead (c : Cmd) : Statement (.finjRead c) := nofun
theorem errorCounts (c : Cmd) : Statement (.errorCounts c) := nofun
theorem reservedMap (c : Cmd) : Statement (.reservedMap c) := nofun
theorem fencecmd (c : Cmd) : Statement (.fencecmd c) := nofun
theorem resultLanding (s : SplitRef) : Statement (.resultLanding s) := nofun
theorem loadResponse (s : SplitRef) (q : Fin 8) (i : Nat) : Statement (.loadResponse s q i) := nofun
theorem matrixRowLanding (s : SplitRef) : Statement (.matrixRowLanding s) := nofun
theorem storeCommit (n : Nat) : Statement (.storeCommit n) := nofun
theorem granuleLanding (c : CampRef) (cmd g : Nat) : Statement (.granuleLanding c cmd g) := nofun
theorem barrierWaitEnd (s : SplitRef) : Statement (.barrierWaitEnd s) := nofun
theorem rendezvousMatch (c : CampRef) (rope : Nat) : Statement (.rendezvousMatch c rope) := nofun
theorem ropeFormed (c : CampRef) (mem : BitVec 32) : Statement (.ropeFormed c mem) := nofun
theorem commandComplete (c : CampRef) (cmd : Nat) : Statement (.commandComplete c cmd) := nofun
theorem residencyTileFill (c : CampRef) (num tile : Nat) : Statement (.residencyTileFill c num tile) := nofun
theorem agingStep (k : CoreId) : Statement (.agingStep k) := nofun
theorem troopEnd (t : TroopRef) : Statement (.troopEnd t) := nofun
theorem launchCompletion (lid : Nat) : Statement (.launchCompletion lid) := nofun
theorem notify (m q : Nat) (v : W32) : Statement (.notify m q v) := nofun
theorem recordAdmission (q : Nat) : Statement (.recordAdmission q) := nofun
theorem waitFlagReload (q : Nat) : Statement (.waitFlagReload q) := nofun
theorem campTakeoff (c : CampRef) : Statement (.campTakeoff c) := nofun
theorem packComplete (c : CampRef) : Statement (.packComplete c) := nofun
theorem translationRequest (s : SplitRef) : Statement (.translationRequest s) := nofun
theorem translate (claim : Nat) : Statement (.translate claim) := nofun
theorem translationSwitch (s : SplitRef) : Statement (.translationSwitch s) := nofun
theorem stubService (s : SplitRef) : Statement (.stubService s) := nofun
theorem overlayComplete (k : CoreId) (bank : Fin 2) : Statement (.overlayComplete k bank) := nofun
theorem trapEntry (s : SplitRef) : Statement (.trapEntry s) := nofun
theorem campPlacement (c : CampRef) (k : CoreId) (scr : List (Nat × Byte)) : Statement (.campPlacement c k scr) := nofun
theorem periodBoundary : Statement .periodBoundary := nofun
theorem nativeImageRestore (c : CampRef) (k : CoreId) : Statement (.nativeImageRestore c k) := nofun
theorem packRestore (c : CampRef) (k : CoreId) (foreign : Option (List Byte)) : Statement (.packRestore c k foreign) := nofun
theorem softError (e : ErrSite) : Statement (.softError e) := nofun
theorem thermal (die : Nat) : Statement (.thermal die) := nofun
theorem hang (die : Nat) : Statement (.hang die) := nofun
theorem migration (root va dst : Nat) : Statement (.migration root va dst) := nofun
theorem migrationDone (n : Nat) : Statement (.migrationDone n) := nofun
theorem placewait (lid : Nat) : Statement (.placewait lid) := nofun
theorem shed (c : CampRef) : Statement (.shed c) := nofun
theorem opRelockEnd (k : CoreId) : Statement (.opRelockEnd k) := nofun
theorem opMoveComplete (k : CoreId) : Statement (.opMoveComplete k) := nofun
theorem opceilUpdate (power : Nat) (temps : List Nat) : Statement (.opceilUpdate power temps) := nofun
theorem chargeWindow (energy : List (CoreId × Nat)) : Statement (.chargeWindow energy) := nofun
theorem subscriptionSample (kind src : Nat) (v : Int) : Statement (.subscriptionSample kind src v) := nofun
theorem coreGate (k : CoreId) : Statement (.coreGate k) := nofun
theorem corePowerOffDone (k : CoreId) : Statement (.corePowerOffDone k) := nofun
theorem arbiterRound (die : Nat) : Statement (.arbiterRound die) := nofun
theorem leaseExpiry : Statement .leaseExpiry := nofun
theorem clm (m : Nat) : Statement (.clm m) := nofun
theorem rls (m : Nat) : Statement (.rls m) := nofun
theorem hoff (m : Nat) : Statement (.hoff m) := nofun
theorem acpt (m : Nat) : Statement (.acpt m) := nofun
theorem handoverLapse : Statement .handoverLapse := nofun
theorem ownerVacate : Statement .ownerVacate := nofun
theorem crcfg (m : Nat) (v : W32) : Statement (.crcfg m v) := nofun
theorem crdb (m : Nat) (v : W32) : Statement (.crdb m v) := nofun
theorem registerWrite (m : Nat) (r : HostReg) (v : W64) : Statement (.registerWrite m r v) := nofun
theorem hostAccess (m : Nat) (ap : Aperture) (a : W64) (n : Nat) (k : AccKind) : Statement (.hostAccess m ap a n k) := nofun
theorem inboundPeerAccess (src : Nat) (wa : W64) (n : Nat) (k : AccKind) (seen : W64) : Statement (.inboundPeerAccess src wa n k seen) := nofun
theorem inboundLanding (src : Nat) (dst : LandTo) (data : List Byte) (bw : Option W64) (tail : LandTail) : Statement (.inboundLanding src dst data bw tail) := nofun
theorem peerResponse (id : Nat) (a : PeerAns) (seen : W64) : Statement (.peerResponse id a seen) := nofun
theorem peerTimeout (id : Nat) : Statement (.peerTimeout id) := nofun
theorem flitReceive (port : Nat) (flit : List Byte) : Statement (.flitReceive port flit) := nofun
theorem replayRequest (port : Nat) (seq : BitVec 12) : Statement (.replayRequest port seq) := nofun
theorem linkRetrainDone (port : Nat) (ok : Bool) : Statement (.linkRetrainDone port ok) := nofun
theorem linkRateRaise (port : Nat) : Statement (.linkRateRaise port) := nofun
theorem linkLoss (port : Nat) : Statement (.linkLoss port) := nofun
theorem linkTrainAttempt (port : Nat) (ok : Bool) : Statement (.linkTrainAttempt port ok) := nofun
theorem guylineLinkLoss (m : Nat) : Statement (.guylineLinkLoss m) := nofun
theorem packageReset (stages : List Stage) : Statement (.packageReset stages) := nofun
theorem brownOut : Statement .brownOut := nofun
theorem powerGood : Statement .powerGood := nofun
theorem supplyLoss (mem : List (Nat × Byte)) : Statement (.supplyLoss mem) := nofun
theorem relock (k : CoreId) : Statement (.relock k) := nofun
theorem hostMemoryTimeout (id : Nat) : Statement (.hostMemoryTimeout id) := nofun

end Sys2Proof.Laws.DecEnc
end

