-- ==== Sys2Proof/Laws/State.lean ====
section
/-! SUPPORT. State: what each named update leaves, field by field, and what it makes of the record that it changes. -/

namespace Sys2Proof.Machine

variable (s : State) (n : Nat) (k : CoreId) (c : CampRef) (cs : List (Nat × Byte)) (lf : Nat → Lane → Lane) (cf : Camp → Camp) (kf : Core → Core)
  (uf : Cluster → Cluster) (df : Die → Die) (nf : Launch → Launch) (qf : Queue → Queue) (mf : Master → Master) (pf : Port → Port)

/-! ### `State.advance` -/

@[simp] theorem State.advance_stamp : (s.advance).stamp = s.stamp := rfl
@[simp] theorem State.advance_pkg : (s.advance).pkg = s.pkg := rfl
@[simp] theorem State.advance_aligned : (s.advance).aligned = s.aligned := rfl
@[simp] theorem State.advance_gseen : (s.advance).gseen = s.gseen := rfl
@[simp] theorem State.advance_freeCnt : (s.advance).freeCnt = s.freeCnt := rfl
@[simp] theorem State.advance_mem : (s.advance).mem = s.mem := rfl
@[simp] theorem State.advance_stores : (s.advance).stores = s.stores := rfl
@[simp] theorem State.advance_poison : (s.advance).poison = s.poison := rfl
@[simp] theorem State.advance_counters : (s.advance).counters = s.counters := rfl
@[simp] theorem State.advance_migs : (s.advance).migs = s.migs := rfl
@[simp] theorem State.advance_tlbs : (s.advance).tlbs = s.tlbs := rfl
@[simp] theorem State.advance_tiers : (s.advance).tiers = s.tiers := rfl
@[simp] theorem State.advance_reserved : (s.advance).reserved = s.reserved := rfl
@[simp] theorem State.advance_fast : (s.advance).fast = s.fast := rfl
@[simp] theorem State.advance_capp : (s.advance).capp = s.capp := rfl
@[simp] theorem State.advance_promo : (s.advance).promo = s.promo := rfl
@[simp] theorem State.advance_lowmark : (s.advance).lowmark = s.lowmark := rfl
@[simp] theorem State.advance_keys : (s.advance).keys = s.keys := rfl
@[simp] theorem State.advance_wiped : (s.advance).wiped = s.wiped := rfl
@[simp] theorem State.advance_pages : (s.advance).pages = s.pages := rfl
@[simp] theorem State.advance_owner : (s.advance).owner = s.owner := rfl
@[simp] theorem State.advance_htgt : (s.advance).htgt = s.htgt := rfl
@[simp] theorem State.advance_hoff : (s.advance).hoff = s.hoff := rfl
@[simp] theorem State.advance_masters : (s.advance).masters = s.masters := rfl
@[simp] theorem State.advance_bells : (s.advance).bells = s.bells := rfl
@[simp] theorem State.advance_hostStatus : (s.advance).hostStatus = s.hostStatus := rfl
@[simp] theorem State.advance_hostOut : (s.advance).hostOut = s.hostOut := rfl
@[simp] theorem State.advance_hseen : (s.advance).hseen = s.hseen := rfl
@[simp] theorem State.advance_runlim : (s.advance).runlim = s.runlim := rfl
@[simp] theorem State.advance_hold : (s.advance).hold = s.hold := rfl
@[simp] theorem State.advance_peerTo : (s.advance).peerTo = s.peerTo := rfl
@[simp] theorem State.advance_routes : (s.advance).routes = s.routes := rfl
@[simp] theorem State.advance_exports : (s.advance).exports = s.exports := rfl
@[simp] theorem State.advance_subs : (s.advance).subs = s.subs := rfl
@[simp] theorem State.advance_capSeq : (s.advance).capSeq = s.capSeq := rfl
@[simp] theorem State.advance_cap : (s.advance).cap = s.cap := rfl
@[simp] theorem State.advance_lease : (s.advance).lease = s.lease := rfl
@[simp] theorem State.advance_floor : (s.advance).floor = s.floor := rfl
@[simp] theorem State.advance_lifecycle : (s.advance).lifecycle = s.lifecycle := rfl
@[simp] theorem State.advance_meas : (s.advance).meas = s.meas := rfl
@[simp] theorem State.advance_nonces : (s.advance).nonces = s.nonces := rfl
@[simp] theorem State.advance_nonce : (s.advance).nonce = s.nonce := rfl
@[simp] theorem State.advance_debugPort : (s.advance).debugPort = s.debugPort := rfl
@[simp] theorem State.advance_superKeys : (s.advance).superKeys = s.superKeys := rfl
@[simp] theorem State.advance_boot : (s.advance).boot = s.boot := rfl
@[simp] theorem State.advance_resetCause : (s.advance).resetCause = s.resetCause := rfl
@[simp] theorem State.advance_ember : (s.advance).ember = s.ember := rfl
@[simp] theorem State.advance_brownout : (s.advance).brownout = s.brownout := rfl
@[simp] theorem State.advance_emberByBrown : (s.advance).emberByBrown = s.emberByBrown := rfl
@[simp] theorem State.advance_exitDue : (s.advance).exitDue = s.exitDue := rfl
@[simp] theorem State.advance_power : (s.advance).power = s.power := rfl
@[simp] theorem State.advance_atOp0 : (s.advance).atOp0 = s.atOp0 := rfl
@[simp] theorem State.advance_lastShed : (s.advance).lastShed = s.lastShed := rfl
@[simp] theorem State.advance_tenants : (s.advance).tenants = s.tenants := rfl
@[simp] theorem State.advance_modules : (s.advance).modules = s.modules := rfl
@[simp] theorem State.advance_nextMh : (s.advance).nextMh = s.nextMh := rfl
@[simp] theorem State.advance_queues : (s.advance).queues = s.queues := rfl
@[simp] theorem State.advance_launches : (s.advance).launches = s.launches := rfl
@[simp] theorem State.advance_nextLid : (s.advance).nextLid = s.nextLid := rfl
@[simp] theorem State.advance_suspended : (s.advance).suspended = s.suspended := rfl
@[simp] theorem State.advance_dbgs : (s.advance).dbgs = s.dbgs := rfl
@[simp] theorem State.advance_rings : (s.advance).rings = s.rings := rfl
@[simp] theorem State.advance_period : (s.advance).period = s.period := rfl
@[simp] theorem State.advance_energy : (s.advance).energy = s.energy := rfl
@[simp] theorem State.advance_spent : (s.advance).spent = s.spent := rfl
@[simp] theorem State.advance_dies : (s.advance).dies = s.dies := rfl
@[simp] theorem State.advance_clusters : (s.advance).clusters = s.clusters := rfl
@[simp] theorem State.advance_cores : (s.advance).cores = s.cores := rfl
@[simp] theorem State.advance_ports : (s.advance).ports = s.ports := rfl
@[simp] theorem State.advance_reqs : (s.advance).reqs = s.reqs := rfl
@[simp] theorem State.advance_nextReq : (s.advance).nextReq = s.nextReq := rfl
@[simp] theorem State.advance_tcache : (s.advance).tcache = s.tcache := rfl
@[simp] theorem State.advance_tcFree : (s.advance).tcFree = s.tcFree := rfl
@[simp] theorem State.advance_tcUse : (s.advance).tcUse = s.tcUse := rfl
@[simp] theorem State.advance_claims : (s.advance).claims = s.claims := rfl
@[simp] theorem State.advance_nextClaim : (s.advance).nextClaim = s.nextClaim := rfl
@[simp] theorem State.advance_vfails : (s.advance).vfails = s.vfails := rfl
@[simp] theorem State.advance_trapFree : (s.advance).trapFree = s.trapFree := rfl
@[simp] theorem State.advance_save : (s.advance).save = s.save := rfl
@[simp] theorem State.advance_camps : (s.advance).camps = s.camps := rfl
@[simp] theorem State.advance_focused : (s.advance).focused = s.focused := rfl
@[simp] theorem State.advance_tr : (s.advance).tr = s.tr := rfl
@[simp] theorem State.advance_cp : (s.advance).cp = s.cp := rfl
@[simp] theorem State.advance_ctx : (s.advance).ctx = s.ctx := rfl
@[simp] theorem State.advance_bnd : (s.advance).bnd = s.bnd := rfl
@[simp] theorem State.advance_todo : (s.advance).todo = s.todo := rfl
@[simp] theorem State.advance_inputs : (s.advance).inputs = s.inputs := rfl
@[simp] theorem State.advance_turn : (s.advance).turn = s.turn := rfl

/-! ### `State.doLanes` -/

@[simp] theorem State.doLanes_stamp : (s.doLanes lf).stamp = s.stamp := rfl
@[simp] theorem State.doLanes_pkg : (s.doLanes lf).pkg = s.pkg := rfl
@[simp] theorem State.doLanes_aligned : (s.doLanes lf).aligned = s.aligned := rfl
@[simp] theorem State.doLanes_gseen : (s.doLanes lf).gseen = s.gseen := rfl
@[simp] theorem State.doLanes_freeCnt : (s.doLanes lf).freeCnt = s.freeCnt := rfl
@[simp] theorem State.doLanes_mem : (s.doLanes lf).mem = s.mem := rfl
@[simp] theorem State.doLanes_stores : (s.doLanes lf).stores = s.stores := rfl
@[simp] theorem State.doLanes_poison : (s.doLanes lf).poison = s.poison := rfl
@[simp] theorem State.doLanes_counters : (s.doLanes lf).counters = s.counters := rfl
@[simp] theorem State.doLanes_migs : (s.doLanes lf).migs = s.migs := rfl
@[simp] theorem State.doLanes_tlbs : (s.doLanes lf).tlbs = s.tlbs := rfl
@[simp] theorem State.doLanes_tiers : (s.doLanes lf).tiers = s.tiers := rfl
@[simp] theorem State.doLanes_reserved : (s.doLanes lf).reserved = s.reserved := rfl
@[simp] theorem State.doLanes_fast : (s.doLanes lf).fast = s.fast := rfl
@[simp] theorem State.doLanes_capp : (s.doLanes lf).capp = s.capp := rfl
@[simp] theorem State.doLanes_promo : (s.doLanes lf).promo = s.promo := rfl
@[simp] theorem State.doLanes_lowmark : (s.doLanes lf).lowmark = s.lowmark := rfl
@[simp] theorem State.doLanes_keys : (s.doLanes lf).keys = s.keys := rfl
@[simp] theorem State.doLanes_wiped : (s.doLanes lf).wiped = s.wiped := rfl
@[simp] theorem State.doLanes_pages : (s.doLanes lf).pages = s.pages := rfl
@[simp] theorem State.doLanes_owner : (s.doLanes lf).owner = s.owner := rfl
@[simp] theorem State.doLanes_htgt : (s.doLanes lf).htgt = s.htgt := rfl
@[simp] theorem State.doLanes_hoff : (s.doLanes lf).hoff = s.hoff := rfl
@[simp] theorem State.doLanes_masters : (s.doLanes lf).masters = s.masters := rfl
@[simp] theorem State.doLanes_bells : (s.doLanes lf).bells = s.bells := rfl
@[simp] theorem State.doLanes_hostStatus : (s.doLanes lf).hostStatus = s.hostStatus := rfl
@[simp] theorem State.doLanes_hostOut : (s.doLanes lf).hostOut = s.hostOut := rfl
@[simp] theorem State.doLanes_hseen : (s.doLanes lf).hseen = s.hseen := rfl
@[simp] theorem State.doLanes_runlim : (s.doLanes lf).runlim = s.runlim := rfl
@[simp] theorem State.doLanes_hold : (s.doLanes lf).hold = s.hold := rfl
@[simp] theorem State.doLanes_peerTo : (s.doLanes lf).peerTo = s.peerTo := rfl
@[simp] theorem State.doLanes_routes : (s.doLanes lf).routes = s.routes := rfl
@[simp] theorem State.doLanes_exports : (s.doLanes lf).exports = s.exports := rfl
@[simp] theorem State.doLanes_subs : (s.doLanes lf).subs = s.subs := rfl
@[simp] theorem State.doLanes_capSeq : (s.doLanes lf).capSeq = s.capSeq := rfl
@[simp] theorem State.doLanes_cap : (s.doLanes lf).cap = s.cap := rfl
@[simp] theorem State.doLanes_lease : (s.doLanes lf).lease = s.lease := rfl
@[simp] theorem State.doLanes_floor : (s.doLanes lf).floor = s.floor := rfl
@[simp] theorem State.doLanes_lifecycle : (s.doLanes lf).lifecycle = s.lifecycle := rfl
@[simp] theorem State.doLanes_meas : (s.doLanes lf).meas = s.meas := rfl
@[simp] theorem State.doLanes_nonces : (s.doLanes lf).nonces = s.nonces := rfl
@[simp] theorem State.doLanes_nonce : (s.doLanes lf).nonce = s.nonce := rfl
@[simp] theorem State.doLanes_debugPort : (s.doLanes lf).debugPort = s.debugPort := rfl
@[simp] theorem State.doLanes_superKeys : (s.doLanes lf).superKeys = s.superKeys := rfl
@[simp] theorem State.doLanes_boot : (s.doLanes lf).boot = s.boot := rfl
@[simp] theorem State.doLanes_resetCause : (s.doLanes lf).resetCause = s.resetCause := rfl
@[simp] theorem State.doLanes_ember : (s.doLanes lf).ember = s.ember := rfl
@[simp] theorem State.doLanes_brownout : (s.doLanes lf).brownout = s.brownout := rfl
@[simp] theorem State.doLanes_emberByBrown : (s.doLanes lf).emberByBrown = s.emberByBrown := rfl
@[simp] theorem State.doLanes_exitDue : (s.doLanes lf).exitDue = s.exitDue := rfl
@[simp] theorem State.doLanes_power : (s.doLanes lf).power = s.power := rfl
@[simp] theorem State.doLanes_atOp0 : (s.doLanes lf).atOp0 = s.atOp0 := rfl
@[simp] theorem State.doLanes_lastShed : (s.doLanes lf).lastShed = s.lastShed := rfl
@[simp] theorem State.doLanes_tenants : (s.doLanes lf).tenants = s.tenants := rfl
@[simp] theorem State.doLanes_modules : (s.doLanes lf).modules = s.modules := rfl
@[simp] theorem State.doLanes_nextMh : (s.doLanes lf).nextMh = s.nextMh := rfl
@[simp] theorem State.doLanes_queues : (s.doLanes lf).queues = s.queues := rfl
@[simp] theorem State.doLanes_launches : (s.doLanes lf).launches = s.launches := rfl
@[simp] theorem State.doLanes_nextLid : (s.doLanes lf).nextLid = s.nextLid := rfl
@[simp] theorem State.doLanes_suspended : (s.doLanes lf).suspended = s.suspended := rfl
@[simp] theorem State.doLanes_dbgs : (s.doLanes lf).dbgs = s.dbgs := rfl
@[simp] theorem State.doLanes_rings : (s.doLanes lf).rings = s.rings := rfl
@[simp] theorem State.doLanes_period : (s.doLanes lf).period = s.period := rfl
@[simp] theorem State.doLanes_energy : (s.doLanes lf).energy = s.energy := rfl
@[simp] theorem State.doLanes_spent : (s.doLanes lf).spent = s.spent := rfl
@[simp] theorem State.doLanes_dies : (s.doLanes lf).dies = s.dies := rfl
@[simp] theorem State.doLanes_clusters : (s.doLanes lf).clusters = s.clusters := rfl
@[simp] theorem State.doLanes_cores : (s.doLanes lf).cores = s.cores := rfl
@[simp] theorem State.doLanes_ports : (s.doLanes lf).ports = s.ports := rfl
@[simp] theorem State.doLanes_reqs : (s.doLanes lf).reqs = s.reqs := rfl
@[simp] theorem State.doLanes_nextReq : (s.doLanes lf).nextReq = s.nextReq := rfl
@[simp] theorem State.doLanes_tcache : (s.doLanes lf).tcache = s.tcache := rfl
@[simp] theorem State.doLanes_tcFree : (s.doLanes lf).tcFree = s.tcFree := rfl
@[simp] theorem State.doLanes_tcUse : (s.doLanes lf).tcUse = s.tcUse := rfl
@[simp] theorem State.doLanes_claims : (s.doLanes lf).claims = s.claims := rfl
@[simp] theorem State.doLanes_nextClaim : (s.doLanes lf).nextClaim = s.nextClaim := rfl
@[simp] theorem State.doLanes_vfails : (s.doLanes lf).vfails = s.vfails := rfl
@[simp] theorem State.doLanes_trapFree : (s.doLanes lf).trapFree = s.trapFree := rfl
@[simp] theorem State.doLanes_save : (s.doLanes lf).save = s.save := rfl
@[simp] theorem State.doLanes_camps : (s.doLanes lf).camps = s.camps := rfl
@[simp] theorem State.doLanes_focused : (s.doLanes lf).focused = s.focused := rfl
@[simp] theorem State.doLanes_cp : (s.doLanes lf).cp = s.cp := rfl
@[simp] theorem State.doLanes_ctx : (s.doLanes lf).ctx = s.ctx := rfl
@[simp] theorem State.doLanes_bnd : (s.doLanes lf).bnd = s.bnd := rfl
@[simp] theorem State.doLanes_todo : (s.doLanes lf).todo = s.todo := rfl
@[simp] theorem State.doLanes_inputs : (s.doLanes lf).inputs = s.inputs := rfl
@[simp] theorem State.doLanes_turn : (s.doLanes lf).turn = s.turn := rfl

/-! ### `State.commit` -/

@[simp] theorem State.commit_stamp : (s.commit cs).stamp = s.stamp := rfl
@[simp] theorem State.commit_pkg : (s.commit cs).pkg = s.pkg := rfl
@[simp] theorem State.commit_aligned : (s.commit cs).aligned = s.aligned := rfl
@[simp] theorem State.commit_gseen : (s.commit cs).gseen = s.gseen := rfl
@[simp] theorem State.commit_freeCnt : (s.commit cs).freeCnt = s.freeCnt := rfl
@[simp] theorem State.commit_stores : (s.commit cs).stores = s.stores := rfl
@[simp] theorem State.commit_counters : (s.commit cs).counters = s.counters := rfl
@[simp] theorem State.commit_migs : (s.commit cs).migs = s.migs := rfl
@[simp] theorem State.commit_tlbs : (s.commit cs).tlbs = s.tlbs := rfl
@[simp] theorem State.commit_tiers : (s.commit cs).tiers = s.tiers := rfl
@[simp] theorem State.commit_reserved : (s.commit cs).reserved = s.reserved := rfl
@[simp] theorem State.commit_fast : (s.commit cs).fast = s.fast := rfl
@[simp] theorem State.commit_capp : (s.commit cs).capp = s.capp := rfl
@[simp] theorem State.commit_promo : (s.commit cs).promo = s.promo := rfl
@[simp] theorem State.commit_lowmark : (s.commit cs).lowmark = s.lowmark := rfl
@[simp] theorem State.commit_keys : (s.commit cs).keys = s.keys := rfl
@[simp] theorem State.commit_wiped : (s.commit cs).wiped = s.wiped := rfl
@[simp] theorem State.commit_pages : (s.commit cs).pages = s.pages := rfl
@[simp] theorem State.commit_owner : (s.commit cs).owner = s.owner := rfl
@[simp] theorem State.commit_htgt : (s.commit cs).htgt = s.htgt := rfl
@[simp] theorem State.commit_hoff : (s.commit cs).hoff = s.hoff := rfl
@[simp] theorem State.commit_masters : (s.commit cs).masters = s.masters := rfl
@[simp] theorem State.commit_bells : (s.commit cs).bells = s.bells := rfl
@[simp] theorem State.commit_hostStatus : (s.commit cs).hostStatus = s.hostStatus := rfl
@[simp] theorem State.commit_hostOut : (s.commit cs).hostOut = s.hostOut := rfl
@[simp] theorem State.commit_hseen : (s.commit cs).hseen = s.hseen := rfl
@[simp] theorem State.commit_runlim : (s.commit cs).runlim = s.runlim := rfl
@[simp] theorem State.commit_hold : (s.commit cs).hold = s.hold := rfl
@[simp] theorem State.commit_peerTo : (s.commit cs).peerTo = s.peerTo := rfl
@[simp] theorem State.commit_routes : (s.commit cs).routes = s.routes := rfl
@[simp] theorem State.commit_exports : (s.commit cs).exports = s.exports := rfl
@[simp] theorem State.commit_subs : (s.commit cs).subs = s.subs := rfl
@[simp] theorem State.commit_capSeq : (s.commit cs).capSeq = s.capSeq := rfl
@[simp] theorem State.commit_cap : (s.commit cs).cap = s.cap := rfl
@[simp] theorem State.commit_lease : (s.commit cs).lease = s.lease := rfl
@[simp] theorem State.commit_floor : (s.commit cs).floor = s.floor := rfl
@[simp] theorem State.commit_lifecycle : (s.commit cs).lifecycle = s.lifecycle := rfl
@[simp] theorem State.commit_meas : (s.commit cs).meas = s.meas := rfl
@[simp] theorem State.commit_nonces : (s.commit cs).nonces = s.nonces := rfl
@[simp] theorem State.commit_nonce : (s.commit cs).nonce = s.nonce := rfl
@[simp] theorem State.commit_debugPort : (s.commit cs).debugPort = s.debugPort := rfl
@[simp] theorem State.commit_superKeys : (s.commit cs).superKeys = s.superKeys := rfl
@[simp] theorem State.commit_boot : (s.commit cs).boot = s.boot := rfl
@[simp] theorem State.commit_resetCause : (s.commit cs).resetCause = s.resetCause := rfl
@[simp] theorem State.commit_ember : (s.commit cs).ember = s.ember := rfl
@[simp] theorem State.commit_brownout : (s.commit cs).brownout = s.brownout := rfl
@[simp] theorem State.commit_emberByBrown : (s.commit cs).emberByBrown = s.emberByBrown := rfl
@[simp] theorem State.commit_exitDue : (s.commit cs).exitDue = s.exitDue := rfl
@[simp] theorem State.commit_power : (s.commit cs).power = s.power := rfl
@[simp] theorem State.commit_atOp0 : (s.commit cs).atOp0 = s.atOp0 := rfl
@[simp] theorem State.commit_lastShed : (s.commit cs).lastShed = s.lastShed := rfl
@[simp] theorem State.commit_tenants : (s.commit cs).tenants = s.tenants := rfl
@[simp] theorem State.commit_modules : (s.commit cs).modules = s.modules := rfl
@[simp] theorem State.commit_nextMh : (s.commit cs).nextMh = s.nextMh := rfl
@[simp] theorem State.commit_queues : (s.commit cs).queues = s.queues := rfl
@[simp] theorem State.commit_launches : (s.commit cs).launches = s.launches := rfl
@[simp] theorem State.commit_nextLid : (s.commit cs).nextLid = s.nextLid := rfl
@[simp] theorem State.commit_suspended : (s.commit cs).suspended = s.suspended := rfl
@[simp] theorem State.commit_dbgs : (s.commit cs).dbgs = s.dbgs := rfl
@[simp] theorem State.commit_rings : (s.commit cs).rings = s.rings := rfl
@[simp] theorem State.commit_period : (s.commit cs).period = s.period := rfl
@[simp] theorem State.commit_energy : (s.commit cs).energy = s.energy := rfl
@[simp] theorem State.commit_spent : (s.commit cs).spent = s.spent := rfl
@[simp] theorem State.commit_dies : (s.commit cs).dies = s.dies := rfl
@[simp] theorem State.commit_clusters : (s.commit cs).clusters = s.clusters := rfl
@[simp] theorem State.commit_cores : (s.commit cs).cores = s.cores := rfl
@[simp] theorem State.commit_ports : (s.commit cs).ports = s.ports := rfl
@[simp] theorem State.commit_reqs : (s.commit cs).reqs = s.reqs := rfl
@[simp] theorem State.commit_nextReq : (s.commit cs).nextReq = s.nextReq := rfl
@[simp] theorem State.commit_tcache : (s.commit cs).tcache = s.tcache := rfl
@[simp] theorem State.commit_tcFree : (s.commit cs).tcFree = s.tcFree := rfl
@[simp] theorem State.commit_tcUse : (s.commit cs).tcUse = s.tcUse := rfl
@[simp] theorem State.commit_claims : (s.commit cs).claims = s.claims := rfl
@[simp] theorem State.commit_nextClaim : (s.commit cs).nextClaim = s.nextClaim := rfl
@[simp] theorem State.commit_vfails : (s.commit cs).vfails = s.vfails := rfl
@[simp] theorem State.commit_trapFree : (s.commit cs).trapFree = s.trapFree := rfl
@[simp] theorem State.commit_save : (s.commit cs).save = s.save := rfl
@[simp] theorem State.commit_focused : (s.commit cs).focused = s.focused := rfl
@[simp] theorem State.commit_sp : (s.commit cs).sp = s.sp := rfl
@[simp] theorem State.commit_tr : (s.commit cs).tr = s.tr := rfl
@[simp] theorem State.commit_ctx : (s.commit cs).ctx = s.ctx := rfl
@[simp] theorem State.commit_bnd : (s.commit cs).bnd = s.bnd := rfl
@[simp] theorem State.commit_todo : (s.commit cs).todo = s.todo := rfl
@[simp] theorem State.commit_inputs : (s.commit cs).inputs = s.inputs := rfl
@[simp] theorem State.commit_turn : (s.commit cs).turn = s.turn := rfl

/-! ### `State.modCamp` -/

@[simp] theorem State.modCamp_stamp : (s.modCamp c cf).stamp = s.stamp := rfl
@[simp] theorem State.modCamp_pkg : (s.modCamp c cf).pkg = s.pkg := rfl
@[simp] theorem State.modCamp_aligned : (s.modCamp c cf).aligned = s.aligned := rfl
@[simp] theorem State.modCamp_gseen : (s.modCamp c cf).gseen = s.gseen := rfl
@[simp] theorem State.modCamp_freeCnt : (s.modCamp c cf).freeCnt = s.freeCnt := rfl
@[simp] theorem State.modCamp_mem : (s.modCamp c cf).mem = s.mem := rfl
@[simp] theorem State.modCamp_stores : (s.modCamp c cf).stores = s.stores := rfl
@[simp] theorem State.modCamp_poison : (s.modCamp c cf).poison = s.poison := rfl
@[simp] theorem State.modCamp_counters : (s.modCamp c cf).counters = s.counters := rfl
@[simp] theorem State.modCamp_migs : (s.modCamp c cf).migs = s.migs := rfl
@[simp] theorem State.modCamp_tlbs : (s.modCamp c cf).tlbs = s.tlbs := rfl
@[simp] theorem State.modCamp_tiers : (s.modCamp c cf).tiers = s.tiers := rfl
@[simp] theorem State.modCamp_reserved : (s.modCamp c cf).reserved = s.reserved := rfl
@[simp] theorem State.modCamp_fast : (s.modCamp c cf).fast = s.fast := rfl
@[simp] theorem State.modCamp_capp : (s.modCamp c cf).capp = s.capp := rfl
@[simp] theorem State.modCamp_promo : (s.modCamp c cf).promo = s.promo := rfl
@[simp] theorem State.modCamp_lowmark : (s.modCamp c cf).lowmark = s.lowmark := rfl
@[simp] theorem State.modCamp_keys : (s.modCamp c cf).keys = s.keys := rfl
@[simp] theorem State.modCamp_wiped : (s.modCamp c cf).wiped = s.wiped := rfl
@[simp] theorem State.modCamp_pages : (s.modCamp c cf).pages = s.pages := rfl
@[simp] theorem State.modCamp_owner : (s.modCamp c cf).owner = s.owner := rfl
@[simp] theorem State.modCamp_htgt : (s.modCamp c cf).htgt = s.htgt := rfl
@[simp] theorem State.modCamp_hoff : (s.modCamp c cf).hoff = s.hoff := rfl
@[simp] theorem State.modCamp_masters : (s.modCamp c cf).masters = s.masters := rfl
@[simp] theorem State.modCamp_bells : (s.modCamp c cf).bells = s.bells := rfl
@[simp] theorem State.modCamp_hostStatus : (s.modCamp c cf).hostStatus = s.hostStatus := rfl
@[simp] theorem State.modCamp_hostOut : (s.modCamp c cf).hostOut = s.hostOut := rfl
@[simp] theorem State.modCamp_hseen : (s.modCamp c cf).hseen = s.hseen := rfl
@[simp] theorem State.modCamp_runlim : (s.modCamp c cf).runlim = s.runlim := rfl
@[simp] theorem State.modCamp_hold : (s.modCamp c cf).hold = s.hold := rfl
@[simp] theorem State.modCamp_peerTo : (s.modCamp c cf).peerTo = s.peerTo := rfl
@[simp] theorem State.modCamp_routes : (s.modCamp c cf).routes = s.routes := rfl
@[simp] theorem State.modCamp_exports : (s.modCamp c cf).exports = s.exports := rfl
@[simp] theorem State.modCamp_subs : (s.modCamp c cf).subs = s.subs := rfl
@[simp] theorem State.modCamp_capSeq : (s.modCamp c cf).capSeq = s.capSeq := rfl
@[simp] theorem State.modCamp_cap : (s.modCamp c cf).cap = s.cap := rfl
@[simp] theorem State.modCamp_lease : (s.modCamp c cf).lease = s.lease := rfl
@[simp] theorem State.modCamp_floor : (s.modCamp c cf).floor = s.floor := rfl
@[simp] theorem State.modCamp_lifecycle : (s.modCamp c cf).lifecycle = s.lifecycle := rfl
@[simp] theorem State.modCamp_meas : (s.modCamp c cf).meas = s.meas := rfl
@[simp] theorem State.modCamp_nonces : (s.modCamp c cf).nonces = s.nonces := rfl
@[simp] theorem State.modCamp_nonce : (s.modCamp c cf).nonce = s.nonce := rfl
@[simp] theorem State.modCamp_debugPort : (s.modCamp c cf).debugPort = s.debugPort := rfl
@[simp] theorem State.modCamp_superKeys : (s.modCamp c cf).superKeys = s.superKeys := rfl
@[simp] theorem State.modCamp_boot : (s.modCamp c cf).boot = s.boot := rfl
@[simp] theorem State.modCamp_resetCause : (s.modCamp c cf).resetCause = s.resetCause := rfl
@[simp] theorem State.modCamp_ember : (s.modCamp c cf).ember = s.ember := rfl
@[simp] theorem State.modCamp_brownout : (s.modCamp c cf).brownout = s.brownout := rfl
@[simp] theorem State.modCamp_emberByBrown : (s.modCamp c cf).emberByBrown = s.emberByBrown := rfl
@[simp] theorem State.modCamp_exitDue : (s.modCamp c cf).exitDue = s.exitDue := rfl
@[simp] theorem State.modCamp_power : (s.modCamp c cf).power = s.power := rfl
@[simp] theorem State.modCamp_atOp0 : (s.modCamp c cf).atOp0 = s.atOp0 := rfl
@[simp] theorem State.modCamp_lastShed : (s.modCamp c cf).lastShed = s.lastShed := rfl
@[simp] theorem State.modCamp_tenants : (s.modCamp c cf).tenants = s.tenants := rfl
@[simp] theorem State.modCamp_modules : (s.modCamp c cf).modules = s.modules := rfl
@[simp] theorem State.modCamp_nextMh : (s.modCamp c cf).nextMh = s.nextMh := rfl
@[simp] theorem State.modCamp_queues : (s.modCamp c cf).queues = s.queues := rfl
@[simp] theorem State.modCamp_launches : (s.modCamp c cf).launches = s.launches := rfl
@[simp] theorem State.modCamp_nextLid : (s.modCamp c cf).nextLid = s.nextLid := rfl
@[simp] theorem State.modCamp_suspended : (s.modCamp c cf).suspended = s.suspended := rfl
@[simp] theorem State.modCamp_dbgs : (s.modCamp c cf).dbgs = s.dbgs := rfl
@[simp] theorem State.modCamp_rings : (s.modCamp c cf).rings = s.rings := rfl
@[simp] theorem State.modCamp_period : (s.modCamp c cf).period = s.period := rfl
@[simp] theorem State.modCamp_energy : (s.modCamp c cf).energy = s.energy := rfl
@[simp] theorem State.modCamp_spent : (s.modCamp c cf).spent = s.spent := rfl
@[simp] theorem State.modCamp_dies : (s.modCamp c cf).dies = s.dies := rfl
@[simp] theorem State.modCamp_clusters : (s.modCamp c cf).clusters = s.clusters := rfl
@[simp] theorem State.modCamp_cores : (s.modCamp c cf).cores = s.cores := rfl
@[simp] theorem State.modCamp_ports : (s.modCamp c cf).ports = s.ports := rfl
@[simp] theorem State.modCamp_reqs : (s.modCamp c cf).reqs = s.reqs := rfl
@[simp] theorem State.modCamp_nextReq : (s.modCamp c cf).nextReq = s.nextReq := rfl
@[simp] theorem State.modCamp_tcache : (s.modCamp c cf).tcache = s.tcache := rfl
@[simp] theorem State.modCamp_tcFree : (s.modCamp c cf).tcFree = s.tcFree := rfl
@[simp] theorem State.modCamp_tcUse : (s.modCamp c cf).tcUse = s.tcUse := rfl
@[simp] theorem State.modCamp_claims : (s.modCamp c cf).claims = s.claims := rfl
@[simp] theorem State.modCamp_nextClaim : (s.modCamp c cf).nextClaim = s.nextClaim := rfl
@[simp] theorem State.modCamp_vfails : (s.modCamp c cf).vfails = s.vfails := rfl
@[simp] theorem State.modCamp_trapFree : (s.modCamp c cf).trapFree = s.trapFree := rfl
@[simp] theorem State.modCamp_save : (s.modCamp c cf).save = s.save := rfl
@[simp] theorem State.modCamp_focused : (s.modCamp c cf).focused = s.focused := rfl
@[simp] theorem State.modCamp_sp : (s.modCamp c cf).sp = s.sp := rfl
@[simp] theorem State.modCamp_tr : (s.modCamp c cf).tr = s.tr := rfl
@[simp] theorem State.modCamp_cp : (s.modCamp c cf).cp = s.cp := rfl
@[simp] theorem State.modCamp_ctx : (s.modCamp c cf).ctx = s.ctx := rfl
@[simp] theorem State.modCamp_bnd : (s.modCamp c cf).bnd = s.bnd := rfl
@[simp] theorem State.modCamp_todo : (s.modCamp c cf).todo = s.todo := rfl
@[simp] theorem State.modCamp_inputs : (s.modCamp c cf).inputs = s.inputs := rfl
@[simp] theorem State.modCamp_turn : (s.modCamp c cf).turn = s.turn := rfl

/-! ### `State.modCore` -/

@[simp] theorem State.modCore_stamp : (s.modCore k kf).stamp = s.stamp := rfl
@[simp] theorem State.modCore_pkg : (s.modCore k kf).pkg = s.pkg := rfl
@[simp] theorem State.modCore_aligned : (s.modCore k kf).aligned = s.aligned := rfl
@[simp] theorem State.modCore_gseen : (s.modCore k kf).gseen = s.gseen := rfl
@[simp] theorem State.modCore_freeCnt : (s.modCore k kf).freeCnt = s.freeCnt := rfl
@[simp] theorem State.modCore_mem : (s.modCore k kf).mem = s.mem := rfl
@[simp] theorem State.modCore_stores : (s.modCore k kf).stores = s.stores := rfl
@[simp] theorem State.modCore_poison : (s.modCore k kf).poison = s.poison := rfl
@[simp] theorem State.modCore_counters : (s.modCore k kf).counters = s.counters := rfl
@[simp] theorem State.modCore_migs : (s.modCore k kf).migs = s.migs := rfl
@[simp] theorem State.modCore_tlbs : (s.modCore k kf).tlbs = s.tlbs := rfl
@[simp] theorem State.modCore_tiers : (s.modCore k kf).tiers = s.tiers := rfl
@[simp] theorem State.modCore_reserved : (s.modCore k kf).reserved = s.reserved := rfl
@[simp] theorem State.modCore_fast : (s.modCore k kf).fast = s.fast := rfl
@[simp] theorem State.modCore_capp : (s.modCore k kf).capp = s.capp := rfl
@[simp] theorem State.modCore_promo : (s.modCore k kf).promo = s.promo := rfl
@[simp] theorem State.modCore_lowmark : (s.modCore k kf).lowmark = s.lowmark := rfl
@[simp] theorem State.modCore_keys : (s.modCore k kf).keys = s.keys := rfl
@[simp] theorem State.modCore_wiped : (s.modCore k kf).wiped = s.wiped := rfl
@[simp] theorem State.modCore_pages : (s.modCore k kf).pages = s.pages := rfl
@[simp] theorem State.modCore_owner : (s.modCore k kf).owner = s.owner := rfl
@[simp] theorem State.modCore_htgt : (s.modCore k kf).htgt = s.htgt := rfl
@[simp] theorem State.modCore_hoff : (s.modCore k kf).hoff = s.hoff := rfl
@[simp] theorem State.modCore_masters : (s.modCore k kf).masters = s.masters := rfl
@[simp] theorem State.modCore_bells : (s.modCore k kf).bells = s.bells := rfl
@[simp] theorem State.modCore_hostStatus : (s.modCore k kf).hostStatus = s.hostStatus := rfl
@[simp] theorem State.modCore_hostOut : (s.modCore k kf).hostOut = s.hostOut := rfl
@[simp] theorem State.modCore_hseen : (s.modCore k kf).hseen = s.hseen := rfl
@[simp] theorem State.modCore_runlim : (s.modCore k kf).runlim = s.runlim := rfl
@[simp] theorem State.modCore_hold : (s.modCore k kf).hold = s.hold := rfl
@[simp] theorem State.modCore_peerTo : (s.modCore k kf).peerTo = s.peerTo := rfl
@[simp] theorem State.modCore_routes : (s.modCore k kf).routes = s.routes := rfl
@[simp] theorem State.modCore_exports : (s.modCore k kf).exports = s.exports := rfl
@[simp] theorem State.modCore_subs : (s.modCore k kf).subs = s.subs := rfl
@[simp] theorem State.modCore_capSeq : (s.modCore k kf).capSeq = s.capSeq := rfl
@[simp] theorem State.modCore_cap : (s.modCore k kf).cap = s.cap := rfl
@[simp] theorem State.modCore_lease : (s.modCore k kf).lease = s.lease := rfl
@[simp] theorem State.modCore_floor : (s.modCore k kf).floor = s.floor := rfl
@[simp] theorem State.modCore_lifecycle : (s.modCore k kf).lifecycle = s.lifecycle := rfl
@[simp] theorem State.modCore_meas : (s.modCore k kf).meas = s.meas := rfl
@[simp] theorem State.modCore_nonces : (s.modCore k kf).nonces = s.nonces := rfl
@[simp] theorem State.modCore_nonce : (s.modCore k kf).nonce = s.nonce := rfl
@[simp] theorem State.modCore_debugPort : (s.modCore k kf).debugPort = s.debugPort := rfl
@[simp] theorem State.modCore_superKeys : (s.modCore k kf).superKeys = s.superKeys := rfl
@[simp] theorem State.modCore_boot : (s.modCore k kf).boot = s.boot := rfl
@[simp] theorem State.modCore_resetCause : (s.modCore k kf).resetCause = s.resetCause := rfl
@[simp] theorem State.modCore_ember : (s.modCore k kf).ember = s.ember := rfl
@[simp] theorem State.modCore_brownout : (s.modCore k kf).brownout = s.brownout := rfl
@[simp] theorem State.modCore_emberByBrown : (s.modCore k kf).emberByBrown = s.emberByBrown := rfl
@[simp] theorem State.modCore_exitDue : (s.modCore k kf).exitDue = s.exitDue := rfl
@[simp] theorem State.modCore_power : (s.modCore k kf).power = s.power := rfl
@[simp] theorem State.modCore_atOp0 : (s.modCore k kf).atOp0 = s.atOp0 := rfl
@[simp] theorem State.modCore_lastShed : (s.modCore k kf).lastShed = s.lastShed := rfl
@[simp] theorem State.modCore_tenants : (s.modCore k kf).tenants = s.tenants := rfl
@[simp] theorem State.modCore_modules : (s.modCore k kf).modules = s.modules := rfl
@[simp] theorem State.modCore_nextMh : (s.modCore k kf).nextMh = s.nextMh := rfl
@[simp] theorem State.modCore_queues : (s.modCore k kf).queues = s.queues := rfl
@[simp] theorem State.modCore_launches : (s.modCore k kf).launches = s.launches := rfl
@[simp] theorem State.modCore_nextLid : (s.modCore k kf).nextLid = s.nextLid := rfl
@[simp] theorem State.modCore_suspended : (s.modCore k kf).suspended = s.suspended := rfl
@[simp] theorem State.modCore_dbgs : (s.modCore k kf).dbgs = s.dbgs := rfl
@[simp] theorem State.modCore_rings : (s.modCore k kf).rings = s.rings := rfl
@[simp] theorem State.modCore_period : (s.modCore k kf).period = s.period := rfl
@[simp] theorem State.modCore_energy : (s.modCore k kf).energy = s.energy := rfl
@[simp] theorem State.modCore_spent : (s.modCore k kf).spent = s.spent := rfl
@[simp] theorem State.modCore_dies : (s.modCore k kf).dies = s.dies := rfl
@[simp] theorem State.modCore_clusters : (s.modCore k kf).clusters = s.clusters := rfl
@[simp] theorem State.modCore_ports : (s.modCore k kf).ports = s.ports := rfl
@[simp] theorem State.modCore_reqs : (s.modCore k kf).reqs = s.reqs := rfl
@[simp] theorem State.modCore_nextReq : (s.modCore k kf).nextReq = s.nextReq := rfl
@[simp] theorem State.modCore_tcache : (s.modCore k kf).tcache = s.tcache := rfl
@[simp] theorem State.modCore_tcFree : (s.modCore k kf).tcFree = s.tcFree := rfl
@[simp] theorem State.modCore_tcUse : (s.modCore k kf).tcUse = s.tcUse := rfl
@[simp] theorem State.modCore_claims : (s.modCore k kf).claims = s.claims := rfl
@[simp] theorem State.modCore_nextClaim : (s.modCore k kf).nextClaim = s.nextClaim := rfl
@[simp] theorem State.modCore_vfails : (s.modCore k kf).vfails = s.vfails := rfl
@[simp] theorem State.modCore_trapFree : (s.modCore k kf).trapFree = s.trapFree := rfl
@[simp] theorem State.modCore_save : (s.modCore k kf).save = s.save := rfl
@[simp] theorem State.modCore_camps : (s.modCore k kf).camps = s.camps := rfl
@[simp] theorem State.modCore_focused : (s.modCore k kf).focused = s.focused := rfl
@[simp] theorem State.modCore_sp : (s.modCore k kf).sp = s.sp := rfl
@[simp] theorem State.modCore_tr : (s.modCore k kf).tr = s.tr := rfl
@[simp] theorem State.modCore_cp : (s.modCore k kf).cp = s.cp := rfl
@[simp] theorem State.modCore_ctx : (s.modCore k kf).ctx = s.ctx := rfl
@[simp] theorem State.modCore_bnd : (s.modCore k kf).bnd = s.bnd := rfl
@[simp] theorem State.modCore_todo : (s.modCore k kf).todo = s.todo := rfl
@[simp] theorem State.modCore_inputs : (s.modCore k kf).inputs = s.inputs := rfl
@[simp] theorem State.modCore_turn : (s.modCore k kf).turn = s.turn := rfl

/-! ### `State.modCluster` -/

@[simp] theorem State.modCluster_stamp : (s.modCluster k uf).stamp = s.stamp := rfl
@[simp] theorem State.modCluster_pkg : (s.modCluster k uf).pkg = s.pkg := rfl
@[simp] theorem State.modCluster_aligned : (s.modCluster k uf).aligned = s.aligned := rfl
@[simp] theorem State.modCluster_gseen : (s.modCluster k uf).gseen = s.gseen := rfl
@[simp] theorem State.modCluster_freeCnt : (s.modCluster k uf).freeCnt = s.freeCnt := rfl
@[simp] theorem State.modCluster_mem : (s.modCluster k uf).mem = s.mem := rfl
@[simp] theorem State.modCluster_stores : (s.modCluster k uf).stores = s.stores := rfl
@[simp] theorem State.modCluster_poison : (s.modCluster k uf).poison = s.poison := rfl
@[simp] theorem State.modCluster_counters : (s.modCluster k uf).counters = s.counters := rfl
@[simp] theorem State.modCluster_migs : (s.modCluster k uf).migs = s.migs := rfl
@[simp] theorem State.modCluster_tlbs : (s.modCluster k uf).tlbs = s.tlbs := rfl
@[simp] theorem State.modCluster_tiers : (s.modCluster k uf).tiers = s.tiers := rfl
@[simp] theorem State.modCluster_reserved : (s.modCluster k uf).reserved = s.reserved := rfl
@[simp] theorem State.modCluster_fast : (s.modCluster k uf).fast = s.fast := rfl
@[simp] theorem State.modCluster_capp : (s.modCluster k uf).capp = s.capp := rfl
@[simp] theorem State.modCluster_promo : (s.modCluster k uf).promo = s.promo := rfl
@[simp] theorem State.modCluster_lowmark : (s.modCluster k uf).lowmark = s.lowmark := rfl
@[simp] theorem State.modCluster_keys : (s.modCluster k uf).keys = s.keys := rfl
@[simp] theorem State.modCluster_wiped : (s.modCluster k uf).wiped = s.wiped := rfl
@[simp] theorem State.modCluster_pages : (s.modCluster k uf).pages = s.pages := rfl
@[simp] theorem State.modCluster_owner : (s.modCluster k uf).owner = s.owner := rfl
@[simp] theorem State.modCluster_htgt : (s.modCluster k uf).htgt = s.htgt := rfl
@[simp] theorem State.modCluster_hoff : (s.modCluster k uf).hoff = s.hoff := rfl
@[simp] theorem State.modCluster_masters : (s.modCluster k uf).masters = s.masters := rfl
@[simp] theorem State.modCluster_bells : (s.modCluster k uf).bells = s.bells := rfl
@[simp] theorem State.modCluster_hostStatus : (s.modCluster k uf).hostStatus = s.hostStatus := rfl
@[simp] theorem State.modCluster_hostOut : (s.modCluster k uf).hostOut = s.hostOut := rfl
@[simp] theorem State.modCluster_hseen : (s.modCluster k uf).hseen = s.hseen := rfl
@[simp] theorem State.modCluster_runlim : (s.modCluster k uf).runlim = s.runlim := rfl
@[simp] theorem State.modCluster_hold : (s.modCluster k uf).hold = s.hold := rfl
@[simp] theorem State.modCluster_peerTo : (s.modCluster k uf).peerTo = s.peerTo := rfl
@[simp] theorem State.modCluster_routes : (s.modCluster k uf).routes = s.routes := rfl
@[simp] theorem State.modCluster_exports : (s.modCluster k uf).exports = s.exports := rfl
@[simp] theorem State.modCluster_subs : (s.modCluster k uf).subs = s.subs := rfl
@[simp] theorem State.modCluster_capSeq : (s.modCluster k uf).capSeq = s.capSeq := rfl
@[simp] theorem State.modCluster_cap : (s.modCluster k uf).cap = s.cap := rfl
@[simp] theorem State.modCluster_lease : (s.modCluster k uf).lease = s.lease := rfl
@[simp] theorem State.modCluster_floor : (s.modCluster k uf).floor = s.floor := rfl
@[simp] theorem State.modCluster_lifecycle : (s.modCluster k uf).lifecycle = s.lifecycle := rfl
@[simp] theorem State.modCluster_meas : (s.modCluster k uf).meas = s.meas := rfl
@[simp] theorem State.modCluster_nonces : (s.modCluster k uf).nonces = s.nonces := rfl
@[simp] theorem State.modCluster_nonce : (s.modCluster k uf).nonce = s.nonce := rfl
@[simp] theorem State.modCluster_debugPort : (s.modCluster k uf).debugPort = s.debugPort := rfl
@[simp] theorem State.modCluster_superKeys : (s.modCluster k uf).superKeys = s.superKeys := rfl
@[simp] theorem State.modCluster_boot : (s.modCluster k uf).boot = s.boot := rfl
@[simp] theorem State.modCluster_resetCause : (s.modCluster k uf).resetCause = s.resetCause := rfl
@[simp] theorem State.modCluster_ember : (s.modCluster k uf).ember = s.ember := rfl
@[simp] theorem State.modCluster_brownout : (s.modCluster k uf).brownout = s.brownout := rfl
@[simp] theorem State.modCluster_emberByBrown : (s.modCluster k uf).emberByBrown = s.emberByBrown := rfl
@[simp] theorem State.modCluster_exitDue : (s.modCluster k uf).exitDue = s.exitDue := rfl
@[simp] theorem State.modCluster_power : (s.modCluster k uf).power = s.power := rfl
@[simp] theorem State.modCluster_atOp0 : (s.modCluster k uf).atOp0 = s.atOp0 := rfl
@[simp] theorem State.modCluster_lastShed : (s.modCluster k uf).lastShed = s.lastShed := rfl
@[simp] theorem State.modCluster_tenants : (s.modCluster k uf).tenants = s.tenants := rfl
@[simp] theorem State.modCluster_modules : (s.modCluster k uf).modules = s.modules := rfl
@[simp] theorem State.modCluster_nextMh : (s.modCluster k uf).nextMh = s.nextMh := rfl
@[simp] theorem State.modCluster_queues : (s.modCluster k uf).queues = s.queues := rfl
@[simp] theorem State.modCluster_launches : (s.modCluster k uf).launches = s.launches := rfl
@[simp] theorem State.modCluster_nextLid : (s.modCluster k uf).nextLid = s.nextLid := rfl
@[simp] theorem State.modCluster_suspended : (s.modCluster k uf).suspended = s.suspended := rfl
@[simp] theorem State.modCluster_dbgs : (s.modCluster k uf).dbgs = s.dbgs := rfl
@[simp] theorem State.modCluster_rings : (s.modCluster k uf).rings = s.rings := rfl
@[simp] theorem State.modCluster_period : (s.modCluster k uf).period = s.period := rfl
@[simp] theorem State.modCluster_energy : (s.modCluster k uf).energy = s.energy := rfl
@[simp] theorem State.modCluster_spent : (s.modCluster k uf).spent = s.spent := rfl
@[simp] theorem State.modCluster_dies : (s.modCluster k uf).dies = s.dies := rfl
@[simp] theorem State.modCluster_cores : (s.modCluster k uf).cores = s.cores := rfl
@[simp] theorem State.modCluster_ports : (s.modCluster k uf).ports = s.ports := rfl
@[simp] theorem State.modCluster_reqs : (s.modCluster k uf).reqs = s.reqs := rfl
@[simp] theorem State.modCluster_nextReq : (s.modCluster k uf).nextReq = s.nextReq := rfl
@[simp] theorem State.modCluster_tcache : (s.modCluster k uf).tcache = s.tcache := rfl
@[simp] theorem State.modCluster_tcFree : (s.modCluster k uf).tcFree = s.tcFree := rfl
@[simp] theorem State.modCluster_tcUse : (s.modCluster k uf).tcUse = s.tcUse := rfl
@[simp] theorem State.modCluster_claims : (s.modCluster k uf).claims = s.claims := rfl
@[simp] theorem State.modCluster_nextClaim : (s.modCluster k uf).nextClaim = s.nextClaim := rfl
@[simp] theorem State.modCluster_vfails : (s.modCluster k uf).vfails = s.vfails := rfl
@[simp] theorem State.modCluster_trapFree : (s.modCluster k uf).trapFree = s.trapFree := rfl
@[simp] theorem State.modCluster_save : (s.modCluster k uf).save = s.save := rfl
@[simp] theorem State.modCluster_camps : (s.modCluster k uf).camps = s.camps := rfl
@[simp] theorem State.modCluster_focused : (s.modCluster k uf).focused = s.focused := rfl
@[simp] theorem State.modCluster_sp : (s.modCluster k uf).sp = s.sp := rfl
@[simp] theorem State.modCluster_tr : (s.modCluster k uf).tr = s.tr := rfl
@[simp] theorem State.modCluster_cp : (s.modCluster k uf).cp = s.cp := rfl
@[simp] theorem State.modCluster_ctx : (s.modCluster k uf).ctx = s.ctx := rfl
@[simp] theorem State.modCluster_bnd : (s.modCluster k uf).bnd = s.bnd := rfl
@[simp] theorem State.modCluster_todo : (s.modCluster k uf).todo = s.todo := rfl
@[simp] theorem State.modCluster_inputs : (s.modCluster k uf).inputs = s.inputs := rfl
@[simp] theorem State.modCluster_turn : (s.modCluster k uf).turn = s.turn := rfl

/-! ### `State.modDie` -/

@[simp] theorem State.modDie_stamp : (s.modDie n df).stamp = s.stamp := rfl
@[simp] theorem State.modDie_pkg : (s.modDie n df).pkg = s.pkg := rfl
@[simp] theorem State.modDie_aligned : (s.modDie n df).aligned = s.aligned := rfl
@[simp] theorem State.modDie_gseen : (s.modDie n df).gseen = s.gseen := rfl
@[simp] theorem State.modDie_freeCnt : (s.modDie n df).freeCnt = s.freeCnt := rfl
@[simp] theorem State.modDie_mem : (s.modDie n df).mem = s.mem := rfl
@[simp] theorem State.modDie_stores : (s.modDie n df).stores = s.stores := rfl
@[simp] theorem State.modDie_poison : (s.modDie n df).poison = s.poison := rfl
@[simp] theorem State.modDie_counters : (s.modDie n df).counters = s.counters := rfl
@[simp] theorem State.modDie_migs : (s.modDie n df).migs = s.migs := rfl
@[simp] theorem State.modDie_tlbs : (s.modDie n df).tlbs = s.tlbs := rfl
@[simp] theorem State.modDie_tiers : (s.modDie n df).tiers = s.tiers := rfl
@[simp] theorem State.modDie_reserved : (s.modDie n df).reserved = s.reserved := rfl
@[simp] theorem State.modDie_fast : (s.modDie n df).fast = s.fast := rfl
@[simp] theorem State.modDie_capp : (s.modDie n df).capp = s.capp := rfl
@[simp] theorem State.modDie_promo : (s.modDie n df).promo = s.promo := rfl
@[simp] theorem State.modDie_lowmark : (s.modDie n df).lowmark = s.lowmark := rfl
@[simp] theorem State.modDie_keys : (s.modDie n df).keys = s.keys := rfl
@[simp] theorem State.modDie_wiped : (s.modDie n df).wiped = s.wiped := rfl
@[simp] theorem State.modDie_pages : (s.modDie n df).pages = s.pages := rfl
@[simp] theorem State.modDie_owner : (s.modDie n df).owner = s.owner := rfl
@[simp] theorem State.modDie_htgt : (s.modDie n df).htgt = s.htgt := rfl
@[simp] theorem State.modDie_hoff : (s.modDie n df).hoff = s.hoff := rfl
@[simp] theorem State.modDie_masters : (s.modDie n df).masters = s.masters := rfl
@[simp] theorem State.modDie_bells : (s.modDie n df).bells = s.bells := rfl
@[simp] theorem State.modDie_hostStatus : (s.modDie n df).hostStatus = s.hostStatus := rfl
@[simp] theorem State.modDie_hostOut : (s.modDie n df).hostOut = s.hostOut := rfl
@[simp] theorem State.modDie_hseen : (s.modDie n df).hseen = s.hseen := rfl
@[simp] theorem State.modDie_runlim : (s.modDie n df).runlim = s.runlim := rfl
@[simp] theorem State.modDie_hold : (s.modDie n df).hold = s.hold := rfl
@[simp] theorem State.modDie_peerTo : (s.modDie n df).peerTo = s.peerTo := rfl
@[simp] theorem State.modDie_routes : (s.modDie n df).routes = s.routes := rfl
@[simp] theorem State.modDie_exports : (s.modDie n df).exports = s.exports := rfl
@[simp] theorem State.modDie_subs : (s.modDie n df).subs = s.subs := rfl
@[simp] theorem State.modDie_capSeq : (s.modDie n df).capSeq = s.capSeq := rfl
@[simp] theorem State.modDie_cap : (s.modDie n df).cap = s.cap := rfl
@[simp] theorem State.modDie_lease : (s.modDie n df).lease = s.lease := rfl
@[simp] theorem State.modDie_floor : (s.modDie n df).floor = s.floor := rfl
@[simp] theorem State.modDie_lifecycle : (s.modDie n df).lifecycle = s.lifecycle := rfl
@[simp] theorem State.modDie_meas : (s.modDie n df).meas = s.meas := rfl
@[simp] theorem State.modDie_nonces : (s.modDie n df).nonces = s.nonces := rfl
@[simp] theorem State.modDie_nonce : (s.modDie n df).nonce = s.nonce := rfl
@[simp] theorem State.modDie_debugPort : (s.modDie n df).debugPort = s.debugPort := rfl
@[simp] theorem State.modDie_superKeys : (s.modDie n df).superKeys = s.superKeys := rfl
@[simp] theorem State.modDie_boot : (s.modDie n df).boot = s.boot := rfl
@[simp] theorem State.modDie_resetCause : (s.modDie n df).resetCause = s.resetCause := rfl
@[simp] theorem State.modDie_ember : (s.modDie n df).ember = s.ember := rfl
@[simp] theorem State.modDie_brownout : (s.modDie n df).brownout = s.brownout := rfl
@[simp] theorem State.modDie_emberByBrown : (s.modDie n df).emberByBrown = s.emberByBrown := rfl
@[simp] theorem State.modDie_exitDue : (s.modDie n df).exitDue = s.exitDue := rfl
@[simp] theorem State.modDie_power : (s.modDie n df).power = s.power := rfl
@[simp] theorem State.modDie_atOp0 : (s.modDie n df).atOp0 = s.atOp0 := rfl
@[simp] theorem State.modDie_lastShed : (s.modDie n df).lastShed = s.lastShed := rfl
@[simp] theorem State.modDie_tenants : (s.modDie n df).tenants = s.tenants := rfl
@[simp] theorem State.modDie_modules : (s.modDie n df).modules = s.modules := rfl
@[simp] theorem State.modDie_nextMh : (s.modDie n df).nextMh = s.nextMh := rfl
@[simp] theorem State.modDie_queues : (s.modDie n df).queues = s.queues := rfl
@[simp] theorem State.modDie_launches : (s.modDie n df).launches = s.launches := rfl
@[simp] theorem State.modDie_nextLid : (s.modDie n df).nextLid = s.nextLid := rfl
@[simp] theorem State.modDie_suspended : (s.modDie n df).suspended = s.suspended := rfl
@[simp] theorem State.modDie_dbgs : (s.modDie n df).dbgs = s.dbgs := rfl
@[simp] theorem State.modDie_rings : (s.modDie n df).rings = s.rings := rfl
@[simp] theorem State.modDie_period : (s.modDie n df).period = s.period := rfl
@[simp] theorem State.modDie_energy : (s.modDie n df).energy = s.energy := rfl
@[simp] theorem State.modDie_spent : (s.modDie n df).spent = s.spent := rfl
@[simp] theorem State.modDie_clusters : (s.modDie n df).clusters = s.clusters := rfl
@[simp] theorem State.modDie_cores : (s.modDie n df).cores = s.cores := rfl
@[simp] theorem State.modDie_ports : (s.modDie n df).ports = s.ports := rfl
@[simp] theorem State.modDie_reqs : (s.modDie n df).reqs = s.reqs := rfl
@[simp] theorem State.modDie_nextReq : (s.modDie n df).nextReq = s.nextReq := rfl
@[simp] theorem State.modDie_tcache : (s.modDie n df).tcache = s.tcache := rfl
@[simp] theorem State.modDie_tcFree : (s.modDie n df).tcFree = s.tcFree := rfl
@[simp] theorem State.modDie_tcUse : (s.modDie n df).tcUse = s.tcUse := rfl
@[simp] theorem State.modDie_claims : (s.modDie n df).claims = s.claims := rfl
@[simp] theorem State.modDie_nextClaim : (s.modDie n df).nextClaim = s.nextClaim := rfl
@[simp] theorem State.modDie_vfails : (s.modDie n df).vfails = s.vfails := rfl
@[simp] theorem State.modDie_trapFree : (s.modDie n df).trapFree = s.trapFree := rfl
@[simp] theorem State.modDie_save : (s.modDie n df).save = s.save := rfl
@[simp] theorem State.modDie_camps : (s.modDie n df).camps = s.camps := rfl
@[simp] theorem State.modDie_focused : (s.modDie n df).focused = s.focused := rfl
@[simp] theorem State.modDie_sp : (s.modDie n df).sp = s.sp := rfl
@[simp] theorem State.modDie_tr : (s.modDie n df).tr = s.tr := rfl
@[simp] theorem State.modDie_cp : (s.modDie n df).cp = s.cp := rfl
@[simp] theorem State.modDie_ctx : (s.modDie n df).ctx = s.ctx := rfl
@[simp] theorem State.modDie_bnd : (s.modDie n df).bnd = s.bnd := rfl
@[simp] theorem State.modDie_todo : (s.modDie n df).todo = s.todo := rfl
@[simp] theorem State.modDie_inputs : (s.modDie n df).inputs = s.inputs := rfl
@[simp] theorem State.modDie_turn : (s.modDie n df).turn = s.turn := rfl

/-! ### `State.modLaunch` -/

@[simp] theorem State.modLaunch_stamp : (s.modLaunch n nf).stamp = s.stamp := rfl
@[simp] theorem State.modLaunch_pkg : (s.modLaunch n nf).pkg = s.pkg := rfl
@[simp] theorem State.modLaunch_aligned : (s.modLaunch n nf).aligned = s.aligned := rfl
@[simp] theorem State.modLaunch_gseen : (s.modLaunch n nf).gseen = s.gseen := rfl
@[simp] theorem State.modLaunch_freeCnt : (s.modLaunch n nf).freeCnt = s.freeCnt := rfl
@[simp] theorem State.modLaunch_mem : (s.modLaunch n nf).mem = s.mem := rfl
@[simp] theorem State.modLaunch_stores : (s.modLaunch n nf).stores = s.stores := rfl
@[simp] theorem State.modLaunch_poison : (s.modLaunch n nf).poison = s.poison := rfl
@[simp] theorem State.modLaunch_counters : (s.modLaunch n nf).counters = s.counters := rfl
@[simp] theorem State.modLaunch_migs : (s.modLaunch n nf).migs = s.migs := rfl
@[simp] theorem State.modLaunch_tlbs : (s.modLaunch n nf).tlbs = s.tlbs := rfl
@[simp] theorem State.modLaunch_tiers : (s.modLaunch n nf).tiers = s.tiers := rfl
@[simp] theorem State.modLaunch_reserved : (s.modLaunch n nf).reserved = s.reserved := rfl
@[simp] theorem State.modLaunch_fast : (s.modLaunch n nf).fast = s.fast := rfl
@[simp] theorem State.modLaunch_capp : (s.modLaunch n nf).capp = s.capp := rfl
@[simp] theorem State.modLaunch_promo : (s.modLaunch n nf).promo = s.promo := rfl
@[simp] theorem State.modLaunch_lowmark : (s.modLaunch n nf).lowmark = s.lowmark := rfl
@[simp] theorem State.modLaunch_keys : (s.modLaunch n nf).keys = s.keys := rfl
@[simp] theorem State.modLaunch_wiped : (s.modLaunch n nf).wiped = s.wiped := rfl
@[simp] theorem State.modLaunch_pages : (s.modLaunch n nf).pages = s.pages := rfl
@[simp] theorem State.modLaunch_owner : (s.modLaunch n nf).owner = s.owner := rfl
@[simp] theorem State.modLaunch_htgt : (s.modLaunch n nf).htgt = s.htgt := rfl
@[simp] theorem State.modLaunch_hoff : (s.modLaunch n nf).hoff = s.hoff := rfl
@[simp] theorem State.modLaunch_masters : (s.modLaunch n nf).masters = s.masters := rfl
@[simp] theorem State.modLaunch_bells : (s.modLaunch n nf).bells = s.bells := rfl
@[simp] theorem State.modLaunch_hostStatus : (s.modLaunch n nf).hostStatus = s.hostStatus := rfl
@[simp] theorem State.modLaunch_hostOut : (s.modLaunch n nf).hostOut = s.hostOut := rfl
@[simp] theorem State.modLaunch_hseen : (s.modLaunch n nf).hseen = s.hseen := rfl
@[simp] theorem State.modLaunch_runlim : (s.modLaunch n nf).runlim = s.runlim := rfl
@[simp] theorem State.modLaunch_hold : (s.modLaunch n nf).hold = s.hold := rfl
@[simp] theorem State.modLaunch_peerTo : (s.modLaunch n nf).peerTo = s.peerTo := rfl
@[simp] theorem State.modLaunch_routes : (s.modLaunch n nf).routes = s.routes := rfl
@[simp] theorem State.modLaunch_exports : (s.modLaunch n nf).exports = s.exports := rfl
@[simp] theorem State.modLaunch_subs : (s.modLaunch n nf).subs = s.subs := rfl
@[simp] theorem State.modLaunch_capSeq : (s.modLaunch n nf).capSeq = s.capSeq := rfl
@[simp] theorem State.modLaunch_cap : (s.modLaunch n nf).cap = s.cap := rfl
@[simp] theorem State.modLaunch_lease : (s.modLaunch n nf).lease = s.lease := rfl
@[simp] theorem State.modLaunch_floor : (s.modLaunch n nf).floor = s.floor := rfl
@[simp] theorem State.modLaunch_lifecycle : (s.modLaunch n nf).lifecycle = s.lifecycle := rfl
@[simp] theorem State.modLaunch_meas : (s.modLaunch n nf).meas = s.meas := rfl
@[simp] theorem State.modLaunch_nonces : (s.modLaunch n nf).nonces = s.nonces := rfl
@[simp] theorem State.modLaunch_nonce : (s.modLaunch n nf).nonce = s.nonce := rfl
@[simp] theorem State.modLaunch_debugPort : (s.modLaunch n nf).debugPort = s.debugPort := rfl
@[simp] theorem State.modLaunch_superKeys : (s.modLaunch n nf).superKeys = s.superKeys := rfl
@[simp] theorem State.modLaunch_boot : (s.modLaunch n nf).boot = s.boot := rfl
@[simp] theorem State.modLaunch_resetCause : (s.modLaunch n nf).resetCause = s.resetCause := rfl
@[simp] theorem State.modLaunch_ember : (s.modLaunch n nf).ember = s.ember := rfl
@[simp] theorem State.modLaunch_brownout : (s.modLaunch n nf).brownout = s.brownout := rfl
@[simp] theorem State.modLaunch_emberByBrown : (s.modLaunch n nf).emberByBrown = s.emberByBrown := rfl
@[simp] theorem State.modLaunch_exitDue : (s.modLaunch n nf).exitDue = s.exitDue := rfl
@[simp] theorem State.modLaunch_power : (s.modLaunch n nf).power = s.power := rfl
@[simp] theorem State.modLaunch_atOp0 : (s.modLaunch n nf).atOp0 = s.atOp0 := rfl
@[simp] theorem State.modLaunch_lastShed : (s.modLaunch n nf).lastShed = s.lastShed := rfl
@[simp] theorem State.modLaunch_tenants : (s.modLaunch n nf).tenants = s.tenants := rfl
@[simp] theorem State.modLaunch_modules : (s.modLaunch n nf).modules = s.modules := rfl
@[simp] theorem State.modLaunch_nextMh : (s.modLaunch n nf).nextMh = s.nextMh := rfl
@[simp] theorem State.modLaunch_queues : (s.modLaunch n nf).queues = s.queues := rfl
@[simp] theorem State.modLaunch_nextLid : (s.modLaunch n nf).nextLid = s.nextLid := rfl
@[simp] theorem State.modLaunch_suspended : (s.modLaunch n nf).suspended = s.suspended := rfl
@[simp] theorem State.modLaunch_dbgs : (s.modLaunch n nf).dbgs = s.dbgs := rfl
@[simp] theorem State.modLaunch_rings : (s.modLaunch n nf).rings = s.rings := rfl
@[simp] theorem State.modLaunch_period : (s.modLaunch n nf).period = s.period := rfl
@[simp] theorem State.modLaunch_energy : (s.modLaunch n nf).energy = s.energy := rfl
@[simp] theorem State.modLaunch_spent : (s.modLaunch n nf).spent = s.spent := rfl
@[simp] theorem State.modLaunch_dies : (s.modLaunch n nf).dies = s.dies := rfl
@[simp] theorem State.modLaunch_clusters : (s.modLaunch n nf).clusters = s.clusters := rfl
@[simp] theorem State.modLaunch_cores : (s.modLaunch n nf).cores = s.cores := rfl
@[simp] theorem State.modLaunch_ports : (s.modLaunch n nf).ports = s.ports := rfl
@[simp] theorem State.modLaunch_reqs : (s.modLaunch n nf).reqs = s.reqs := rfl
@[simp] theorem State.modLaunch_nextReq : (s.modLaunch n nf).nextReq = s.nextReq := rfl
@[simp] theorem State.modLaunch_tcache : (s.modLaunch n nf).tcache = s.tcache := rfl
@[simp] theorem State.modLaunch_tcFree : (s.modLaunch n nf).tcFree = s.tcFree := rfl
@[simp] theorem State.modLaunch_tcUse : (s.modLaunch n nf).tcUse = s.tcUse := rfl
@[simp] theorem State.modLaunch_claims : (s.modLaunch n nf).claims = s.claims := rfl
@[simp] theorem State.modLaunch_nextClaim : (s.modLaunch n nf).nextClaim = s.nextClaim := rfl
@[simp] theorem State.modLaunch_vfails : (s.modLaunch n nf).vfails = s.vfails := rfl
@[simp] theorem State.modLaunch_trapFree : (s.modLaunch n nf).trapFree = s.trapFree := rfl
@[simp] theorem State.modLaunch_save : (s.modLaunch n nf).save = s.save := rfl
@[simp] theorem State.modLaunch_camps : (s.modLaunch n nf).camps = s.camps := rfl
@[simp] theorem State.modLaunch_focused : (s.modLaunch n nf).focused = s.focused := rfl
@[simp] theorem State.modLaunch_sp : (s.modLaunch n nf).sp = s.sp := rfl
@[simp] theorem State.modLaunch_tr : (s.modLaunch n nf).tr = s.tr := rfl
@[simp] theorem State.modLaunch_cp : (s.modLaunch n nf).cp = s.cp := rfl
@[simp] theorem State.modLaunch_ctx : (s.modLaunch n nf).ctx = s.ctx := rfl
@[simp] theorem State.modLaunch_bnd : (s.modLaunch n nf).bnd = s.bnd := rfl
@[simp] theorem State.modLaunch_todo : (s.modLaunch n nf).todo = s.todo := rfl
@[simp] theorem State.modLaunch_inputs : (s.modLaunch n nf).inputs = s.inputs := rfl
@[simp] theorem State.modLaunch_turn : (s.modLaunch n nf).turn = s.turn := rfl

/-! ### `State.modQueue` -/

@[simp] theorem State.modQueue_stamp : (s.modQueue n qf).stamp = s.stamp := rfl
@[simp] theorem State.modQueue_pkg : (s.modQueue n qf).pkg = s.pkg := rfl
@[simp] theorem State.modQueue_aligned : (s.modQueue n qf).aligned = s.aligned := rfl
@[simp] theorem State.modQueue_gseen : (s.modQueue n qf).gseen = s.gseen := rfl
@[simp] theorem State.modQueue_freeCnt : (s.modQueue n qf).freeCnt = s.freeCnt := rfl
@[simp] theorem State.modQueue_mem : (s.modQueue n qf).mem = s.mem := rfl
@[simp] theorem State.modQueue_stores : (s.modQueue n qf).stores = s.stores := rfl
@[simp] theorem State.modQueue_poison : (s.modQueue n qf).poison = s.poison := rfl
@[simp] theorem State.modQueue_counters : (s.modQueue n qf).counters = s.counters := rfl
@[simp] theorem State.modQueue_migs : (s.modQueue n qf).migs = s.migs := rfl
@[simp] theorem State.modQueue_tlbs : (s.modQueue n qf).tlbs = s.tlbs := rfl
@[simp] theorem State.modQueue_tiers : (s.modQueue n qf).tiers = s.tiers := rfl
@[simp] theorem State.modQueue_reserved : (s.modQueue n qf).reserved = s.reserved := rfl
@[simp] theorem State.modQueue_fast : (s.modQueue n qf).fast = s.fast := rfl
@[simp] theorem State.modQueue_capp : (s.modQueue n qf).capp = s.capp := rfl
@[simp] theorem State.modQueue_promo : (s.modQueue n qf).promo = s.promo := rfl
@[simp] theorem State.modQueue_lowmark : (s.modQueue n qf).lowmark = s.lowmark := rfl
@[simp] theorem State.modQueue_keys : (s.modQueue n qf).keys = s.keys := rfl
@[simp] theorem State.modQueue_wiped : (s.modQueue n qf).wiped = s.wiped := rfl
@[simp] theorem State.modQueue_pages : (s.modQueue n qf).pages = s.pages := rfl
@[simp] theorem State.modQueue_owner : (s.modQueue n qf).owner = s.owner := rfl
@[simp] theorem State.modQueue_htgt : (s.modQueue n qf).htgt = s.htgt := rfl
@[simp] theorem State.modQueue_hoff : (s.modQueue n qf).hoff = s.hoff := rfl
@[simp] theorem State.modQueue_masters : (s.modQueue n qf).masters = s.masters := rfl
@[simp] theorem State.modQueue_bells : (s.modQueue n qf).bells = s.bells := rfl
@[simp] theorem State.modQueue_hostStatus : (s.modQueue n qf).hostStatus = s.hostStatus := rfl
@[simp] theorem State.modQueue_hostOut : (s.modQueue n qf).hostOut = s.hostOut := rfl
@[simp] theorem State.modQueue_hseen : (s.modQueue n qf).hseen = s.hseen := rfl
@[simp] theorem State.modQueue_runlim : (s.modQueue n qf).runlim = s.runlim := rfl
@[simp] theorem State.modQueue_hold : (s.modQueue n qf).hold = s.hold := rfl
@[simp] theorem State.modQueue_peerTo : (s.modQueue n qf).peerTo = s.peerTo := rfl
@[simp] theorem State.modQueue_routes : (s.modQueue n qf).routes = s.routes := rfl
@[simp] theorem State.modQueue_exports : (s.modQueue n qf).exports = s.exports := rfl
@[simp] theorem State.modQueue_subs : (s.modQueue n qf).subs = s.subs := rfl
@[simp] theorem State.modQueue_capSeq : (s.modQueue n qf).capSeq = s.capSeq := rfl
@[simp] theorem State.modQueue_cap : (s.modQueue n qf).cap = s.cap := rfl
@[simp] theorem State.modQueue_lease : (s.modQueue n qf).lease = s.lease := rfl
@[simp] theorem State.modQueue_floor : (s.modQueue n qf).floor = s.floor := rfl
@[simp] theorem State.modQueue_lifecycle : (s.modQueue n qf).lifecycle = s.lifecycle := rfl
@[simp] theorem State.modQueue_meas : (s.modQueue n qf).meas = s.meas := rfl
@[simp] theorem State.modQueue_nonces : (s.modQueue n qf).nonces = s.nonces := rfl
@[simp] theorem State.modQueue_nonce : (s.modQueue n qf).nonce = s.nonce := rfl
@[simp] theorem State.modQueue_debugPort : (s.modQueue n qf).debugPort = s.debugPort := rfl
@[simp] theorem State.modQueue_superKeys : (s.modQueue n qf).superKeys = s.superKeys := rfl
@[simp] theorem State.modQueue_boot : (s.modQueue n qf).boot = s.boot := rfl
@[simp] theorem State.modQueue_resetCause : (s.modQueue n qf).resetCause = s.resetCause := rfl
@[simp] theorem State.modQueue_ember : (s.modQueue n qf).ember = s.ember := rfl
@[simp] theorem State.modQueue_brownout : (s.modQueue n qf).brownout = s.brownout := rfl
@[simp] theorem State.modQueue_emberByBrown : (s.modQueue n qf).emberByBrown = s.emberByBrown := rfl
@[simp] theorem State.modQueue_exitDue : (s.modQueue n qf).exitDue = s.exitDue := rfl
@[simp] theorem State.modQueue_power : (s.modQueue n qf).power = s.power := rfl
@[simp] theorem State.modQueue_atOp0 : (s.modQueue n qf).atOp0 = s.atOp0 := rfl
@[simp] theorem State.modQueue_lastShed : (s.modQueue n qf).lastShed = s.lastShed := rfl
@[simp] theorem State.modQueue_tenants : (s.modQueue n qf).tenants = s.tenants := rfl
@[simp] theorem State.modQueue_modules : (s.modQueue n qf).modules = s.modules := rfl
@[simp] theorem State.modQueue_nextMh : (s.modQueue n qf).nextMh = s.nextMh := rfl
@[simp] theorem State.modQueue_launches : (s.modQueue n qf).launches = s.launches := rfl
@[simp] theorem State.modQueue_nextLid : (s.modQueue n qf).nextLid = s.nextLid := rfl
@[simp] theorem State.modQueue_suspended : (s.modQueue n qf).suspended = s.suspended := rfl
@[simp] theorem State.modQueue_dbgs : (s.modQueue n qf).dbgs = s.dbgs := rfl
@[simp] theorem State.modQueue_rings : (s.modQueue n qf).rings = s.rings := rfl
@[simp] theorem State.modQueue_period : (s.modQueue n qf).period = s.period := rfl
@[simp] theorem State.modQueue_energy : (s.modQueue n qf).energy = s.energy := rfl
@[simp] theorem State.modQueue_spent : (s.modQueue n qf).spent = s.spent := rfl
@[simp] theorem State.modQueue_dies : (s.modQueue n qf).dies = s.dies := rfl
@[simp] theorem State.modQueue_clusters : (s.modQueue n qf).clusters = s.clusters := rfl
@[simp] theorem State.modQueue_cores : (s.modQueue n qf).cores = s.cores := rfl
@[simp] theorem State.modQueue_ports : (s.modQueue n qf).ports = s.ports := rfl
@[simp] theorem State.modQueue_reqs : (s.modQueue n qf).reqs = s.reqs := rfl
@[simp] theorem State.modQueue_nextReq : (s.modQueue n qf).nextReq = s.nextReq := rfl
@[simp] theorem State.modQueue_tcache : (s.modQueue n qf).tcache = s.tcache := rfl
@[simp] theorem State.modQueue_tcFree : (s.modQueue n qf).tcFree = s.tcFree := rfl
@[simp] theorem State.modQueue_tcUse : (s.modQueue n qf).tcUse = s.tcUse := rfl
@[simp] theorem State.modQueue_claims : (s.modQueue n qf).claims = s.claims := rfl
@[simp] theorem State.modQueue_nextClaim : (s.modQueue n qf).nextClaim = s.nextClaim := rfl
@[simp] theorem State.modQueue_vfails : (s.modQueue n qf).vfails = s.vfails := rfl
@[simp] theorem State.modQueue_trapFree : (s.modQueue n qf).trapFree = s.trapFree := rfl
@[simp] theorem State.modQueue_save : (s.modQueue n qf).save = s.save := rfl
@[simp] theorem State.modQueue_camps : (s.modQueue n qf).camps = s.camps := rfl
@[simp] theorem State.modQueue_focused : (s.modQueue n qf).focused = s.focused := rfl
@[simp] theorem State.modQueue_sp : (s.modQueue n qf).sp = s.sp := rfl
@[simp] theorem State.modQueue_tr : (s.modQueue n qf).tr = s.tr := rfl
@[simp] theorem State.modQueue_cp : (s.modQueue n qf).cp = s.cp := rfl
@[simp] theorem State.modQueue_ctx : (s.modQueue n qf).ctx = s.ctx := rfl
@[simp] theorem State.modQueue_bnd : (s.modQueue n qf).bnd = s.bnd := rfl
@[simp] theorem State.modQueue_todo : (s.modQueue n qf).todo = s.todo := rfl
@[simp] theorem State.modQueue_inputs : (s.modQueue n qf).inputs = s.inputs := rfl
@[simp] theorem State.modQueue_turn : (s.modQueue n qf).turn = s.turn := rfl

/-! ### `State.modMaster` -/

@[simp] theorem State.modMaster_stamp : (s.modMaster n mf).stamp = s.stamp := rfl
@[simp] theorem State.modMaster_pkg : (s.modMaster n mf).pkg = s.pkg := rfl
@[simp] theorem State.modMaster_aligned : (s.modMaster n mf).aligned = s.aligned := rfl
@[simp] theorem State.modMaster_gseen : (s.modMaster n mf).gseen = s.gseen := rfl
@[simp] theorem State.modMaster_freeCnt : (s.modMaster n mf).freeCnt = s.freeCnt := rfl
@[simp] theorem State.modMaster_mem : (s.modMaster n mf).mem = s.mem := rfl
@[simp] theorem State.modMaster_stores : (s.modMaster n mf).stores = s.stores := rfl
@[simp] theorem State.modMaster_poison : (s.modMaster n mf).poison = s.poison := rfl
@[simp] theorem State.modMaster_counters : (s.modMaster n mf).counters = s.counters := rfl
@[simp] theorem State.modMaster_migs : (s.modMaster n mf).migs = s.migs := rfl
@[simp] theorem State.modMaster_tlbs : (s.modMaster n mf).tlbs = s.tlbs := rfl
@[simp] theorem State.modMaster_tiers : (s.modMaster n mf).tiers = s.tiers := rfl
@[simp] theorem State.modMaster_reserved : (s.modMaster n mf).reserved = s.reserved := rfl
@[simp] theorem State.modMaster_fast : (s.modMaster n mf).fast = s.fast := rfl
@[simp] theorem State.modMaster_capp : (s.modMaster n mf).capp = s.capp := rfl
@[simp] theorem State.modMaster_promo : (s.modMaster n mf).promo = s.promo := rfl
@[simp] theorem State.modMaster_lowmark : (s.modMaster n mf).lowmark = s.lowmark := rfl
@[simp] theorem State.modMaster_keys : (s.modMaster n mf).keys = s.keys := rfl
@[simp] theorem State.modMaster_wiped : (s.modMaster n mf).wiped = s.wiped := rfl
@[simp] theorem State.modMaster_pages : (s.modMaster n mf).pages = s.pages := rfl
@[simp] theorem State.modMaster_owner : (s.modMaster n mf).owner = s.owner := rfl
@[simp] theorem State.modMaster_htgt : (s.modMaster n mf).htgt = s.htgt := rfl
@[simp] theorem State.modMaster_hoff : (s.modMaster n mf).hoff = s.hoff := rfl
@[simp] theorem State.modMaster_bells : (s.modMaster n mf).bells = s.bells := rfl
@[simp] theorem State.modMaster_hostStatus : (s.modMaster n mf).hostStatus = s.hostStatus := rfl
@[simp] theorem State.modMaster_hostOut : (s.modMaster n mf).hostOut = s.hostOut := rfl
@[simp] theorem State.modMaster_hseen : (s.modMaster n mf).hseen = s.hseen := rfl
@[simp] theorem State.modMaster_runlim : (s.modMaster n mf).runlim = s.runlim := rfl
@[simp] theorem State.modMaster_hold : (s.modMaster n mf).hold = s.hold := rfl
@[simp] theorem State.modMaster_peerTo : (s.modMaster n mf).peerTo = s.peerTo := rfl
@[simp] theorem State.modMaster_routes : (s.modMaster n mf).routes = s.routes := rfl
@[simp] theorem State.modMaster_exports : (s.modMaster n mf).exports = s.exports := rfl
@[simp] theorem State.modMaster_subs : (s.modMaster n mf).subs = s.subs := rfl
@[simp] theorem State.modMaster_capSeq : (s.modMaster n mf).capSeq = s.capSeq := rfl
@[simp] theorem State.modMaster_cap : (s.modMaster n mf).cap = s.cap := rfl
@[simp] theorem State.modMaster_lease : (s.modMaster n mf).lease = s.lease := rfl
@[simp] theorem State.modMaster_floor : (s.modMaster n mf).floor = s.floor := rfl
@[simp] theorem State.modMaster_lifecycle : (s.modMaster n mf).lifecycle = s.lifecycle := rfl
@[simp] theorem State.modMaster_meas : (s.modMaster n mf).meas = s.meas := rfl
@[simp] theorem State.modMaster_nonces : (s.modMaster n mf).nonces = s.nonces := rfl
@[simp] theorem State.modMaster_nonce : (s.modMaster n mf).nonce = s.nonce := rfl
@[simp] theorem State.modMaster_debugPort : (s.modMaster n mf).debugPort = s.debugPort := rfl
@[simp] theorem State.modMaster_superKeys : (s.modMaster n mf).superKeys = s.superKeys := rfl
@[simp] theorem State.modMaster_boot : (s.modMaster n mf).boot = s.boot := rfl
@[simp] theorem State.modMaster_resetCause : (s.modMaster n mf).resetCause = s.resetCause := rfl
@[simp] theorem State.modMaster_ember : (s.modMaster n mf).ember = s.ember := rfl
@[simp] theorem State.modMaster_brownout : (s.modMaster n mf).brownout = s.brownout := rfl
@[simp] theorem State.modMaster_emberByBrown : (s.modMaster n mf).emberByBrown = s.emberByBrown := rfl
@[simp] theorem State.modMaster_exitDue : (s.modMaster n mf).exitDue = s.exitDue := rfl
@[simp] theorem State.modMaster_power : (s.modMaster n mf).power = s.power := rfl
@[simp] theorem State.modMaster_atOp0 : (s.modMaster n mf).atOp0 = s.atOp0 := rfl
@[simp] theorem State.modMaster_lastShed : (s.modMaster n mf).lastShed = s.lastShed := rfl
@[simp] theorem State.modMaster_tenants : (s.modMaster n mf).tenants = s.tenants := rfl
@[simp] theorem State.modMaster_modules : (s.modMaster n mf).modules = s.modules := rfl
@[simp] theorem State.modMaster_nextMh : (s.modMaster n mf).nextMh = s.nextMh := rfl
@[simp] theorem State.modMaster_queues : (s.modMaster n mf).queues = s.queues := rfl
@[simp] theorem State.modMaster_launches : (s.modMaster n mf).launches = s.launches := rfl
@[simp] theorem State.modMaster_nextLid : (s.modMaster n mf).nextLid = s.nextLid := rfl
@[simp] theorem State.modMaster_suspended : (s.modMaster n mf).suspended = s.suspended := rfl
@[simp] theorem State.modMaster_dbgs : (s.modMaster n mf).dbgs = s.dbgs := rfl
@[simp] theorem State.modMaster_rings : (s.modMaster n mf).rings = s.rings := rfl
@[simp] theorem State.modMaster_period : (s.modMaster n mf).period = s.period := rfl
@[simp] theorem State.modMaster_energy : (s.modMaster n mf).energy = s.energy := rfl
@[simp] theorem State.modMaster_spent : (s.modMaster n mf).spent = s.spent := rfl
@[simp] theorem State.modMaster_dies : (s.modMaster n mf).dies = s.dies := rfl
@[simp] theorem State.modMaster_clusters : (s.modMaster n mf).clusters = s.clusters := rfl
@[simp] theorem State.modMaster_cores : (s.modMaster n mf).cores = s.cores := rfl
@[simp] theorem State.modMaster_ports : (s.modMaster n mf).ports = s.ports := rfl
@[simp] theorem State.modMaster_reqs : (s.modMaster n mf).reqs = s.reqs := rfl
@[simp] theorem State.modMaster_nextReq : (s.modMaster n mf).nextReq = s.nextReq := rfl
@[simp] theorem State.modMaster_tcache : (s.modMaster n mf).tcache = s.tcache := rfl
@[simp] theorem State.modMaster_tcFree : (s.modMaster n mf).tcFree = s.tcFree := rfl
@[simp] theorem State.modMaster_tcUse : (s.modMaster n mf).tcUse = s.tcUse := rfl
@[simp] theorem State.modMaster_claims : (s.modMaster n mf).claims = s.claims := rfl
@[simp] theorem State.modMaster_nextClaim : (s.modMaster n mf).nextClaim = s.nextClaim := rfl
@[simp] theorem State.modMaster_vfails : (s.modMaster n mf).vfails = s.vfails := rfl
@[simp] theorem State.modMaster_trapFree : (s.modMaster n mf).trapFree = s.trapFree := rfl
@[simp] theorem State.modMaster_save : (s.modMaster n mf).save = s.save := rfl
@[simp] theorem State.modMaster_camps : (s.modMaster n mf).camps = s.camps := rfl
@[simp] theorem State.modMaster_focused : (s.modMaster n mf).focused = s.focused := rfl
@[simp] theorem State.modMaster_sp : (s.modMaster n mf).sp = s.sp := rfl
@[simp] theorem State.modMaster_tr : (s.modMaster n mf).tr = s.tr := rfl
@[simp] theorem State.modMaster_cp : (s.modMaster n mf).cp = s.cp := rfl
@[simp] theorem State.modMaster_ctx : (s.modMaster n mf).ctx = s.ctx := rfl
@[simp] theorem State.modMaster_bnd : (s.modMaster n mf).bnd = s.bnd := rfl
@[simp] theorem State.modMaster_todo : (s.modMaster n mf).todo = s.todo := rfl
@[simp] theorem State.modMaster_inputs : (s.modMaster n mf).inputs = s.inputs := rfl
@[simp] theorem State.modMaster_turn : (s.modMaster n mf).turn = s.turn := rfl

/-! ### `State.modPort` -/

@[simp] theorem State.modPort_stamp : (s.modPort n pf).stamp = s.stamp := rfl
@[simp] theorem State.modPort_pkg : (s.modPort n pf).pkg = s.pkg := rfl
@[simp] theorem State.modPort_aligned : (s.modPort n pf).aligned = s.aligned := rfl
@[simp] theorem State.modPort_gseen : (s.modPort n pf).gseen = s.gseen := rfl
@[simp] theorem State.modPort_freeCnt : (s.modPort n pf).freeCnt = s.freeCnt := rfl
@[simp] theorem State.modPort_mem : (s.modPort n pf).mem = s.mem := rfl
@[simp] theorem State.modPort_stores : (s.modPort n pf).stores = s.stores := rfl
@[simp] theorem State.modPort_poison : (s.modPort n pf).poison = s.poison := rfl
@[simp] theorem State.modPort_counters : (s.modPort n pf).counters = s.counters := rfl
@[simp] theorem State.modPort_migs : (s.modPort n pf).migs = s.migs := rfl
@[simp] theorem State.modPort_tlbs : (s.modPort n pf).tlbs = s.tlbs := rfl
@[simp] theorem State.modPort_tiers : (s.modPort n pf).tiers = s.tiers := rfl
@[simp] theorem State.modPort_reserved : (s.modPort n pf).reserved = s.reserved := rfl
@[simp] theorem State.modPort_fast : (s.modPort n pf).fast = s.fast := rfl
@[simp] theorem State.modPort_capp : (s.modPort n pf).capp = s.capp := rfl
@[simp] theorem State.modPort_promo : (s.modPort n pf).promo = s.promo := rfl
@[simp] theorem State.modPort_lowmark : (s.modPort n pf).lowmark = s.lowmark := rfl
@[simp] theorem State.modPort_keys : (s.modPort n pf).keys = s.keys := rfl
@[simp] theorem State.modPort_wiped : (s.modPort n pf).wiped = s.wiped := rfl
@[simp] theorem State.modPort_pages : (s.modPort n pf).pages = s.pages := rfl
@[simp] theorem State.modPort_owner : (s.modPort n pf).owner = s.owner := rfl
@[simp] theorem State.modPort_htgt : (s.modPort n pf).htgt = s.htgt := rfl
@[simp] theorem State.modPort_hoff : (s.modPort n pf).hoff = s.hoff := rfl
@[simp] theorem State.modPort_masters : (s.modPort n pf).masters = s.masters := rfl
@[simp] theorem State.modPort_bells : (s.modPort n pf).bells = s.bells := rfl
@[simp] theorem State.modPort_hostStatus : (s.modPort n pf).hostStatus = s.hostStatus := rfl
@[simp] theorem State.modPort_hostOut : (s.modPort n pf).hostOut = s.hostOut := rfl
@[simp] theorem State.modPort_hseen : (s.modPort n pf).hseen = s.hseen := rfl
@[simp] theorem State.modPort_runlim : (s.modPort n pf).runlim = s.runlim := rfl
@[simp] theorem State.modPort_hold : (s.modPort n pf).hold = s.hold := rfl
@[simp] theorem State.modPort_peerTo : (s.modPort n pf).peerTo = s.peerTo := rfl
@[simp] theorem State.modPort_routes : (s.modPort n pf).routes = s.routes := rfl
@[simp] theorem State.modPort_exports : (s.modPort n pf).exports = s.exports := rfl
@[simp] theorem State.modPort_subs : (s.modPort n pf).subs = s.subs := rfl
@[simp] theorem State.modPort_capSeq : (s.modPort n pf).capSeq = s.capSeq := rfl
@[simp] theorem State.modPort_cap : (s.modPort n pf).cap = s.cap := rfl
@[simp] theorem State.modPort_lease : (s.modPort n pf).lease = s.lease := rfl
@[simp] theorem State.modPort_floor : (s.modPort n pf).floor = s.floor := rfl
@[simp] theorem State.modPort_lifecycle : (s.modPort n pf).lifecycle = s.lifecycle := rfl
@[simp] theorem State.modPort_meas : (s.modPort n pf).meas = s.meas := rfl
@[simp] theorem State.modPort_nonces : (s.modPort n pf).nonces = s.nonces := rfl
@[simp] theorem State.modPort_nonce : (s.modPort n pf).nonce = s.nonce := rfl
@[simp] theorem State.modPort_debugPort : (s.modPort n pf).debugPort = s.debugPort := rfl
@[simp] theorem State.modPort_superKeys : (s.modPort n pf).superKeys = s.superKeys := rfl
@[simp] theorem State.modPort_boot : (s.modPort n pf).boot = s.boot := rfl
@[simp] theorem State.modPort_resetCause : (s.modPort n pf).resetCause = s.resetCause := rfl
@[simp] theorem State.modPort_ember : (s.modPort n pf).ember = s.ember := rfl
@[simp] theorem State.modPort_brownout : (s.modPort n pf).brownout = s.brownout := rfl
@[simp] theorem State.modPort_emberByBrown : (s.modPort n pf).emberByBrown = s.emberByBrown := rfl
@[simp] theorem State.modPort_exitDue : (s.modPort n pf).exitDue = s.exitDue := rfl
@[simp] theorem State.modPort_power : (s.modPort n pf).power = s.power := rfl
@[simp] theorem State.modPort_atOp0 : (s.modPort n pf).atOp0 = s.atOp0 := rfl
@[simp] theorem State.modPort_lastShed : (s.modPort n pf).lastShed = s.lastShed := rfl
@[simp] theorem State.modPort_tenants : (s.modPort n pf).tenants = s.tenants := rfl
@[simp] theorem State.modPort_modules : (s.modPort n pf).modules = s.modules := rfl
@[simp] theorem State.modPort_nextMh : (s.modPort n pf).nextMh = s.nextMh := rfl
@[simp] theorem State.modPort_queues : (s.modPort n pf).queues = s.queues := rfl
@[simp] theorem State.modPort_launches : (s.modPort n pf).launches = s.launches := rfl
@[simp] theorem State.modPort_nextLid : (s.modPort n pf).nextLid = s.nextLid := rfl
@[simp] theorem State.modPort_suspended : (s.modPort n pf).suspended = s.suspended := rfl
@[simp] theorem State.modPort_dbgs : (s.modPort n pf).dbgs = s.dbgs := rfl
@[simp] theorem State.modPort_rings : (s.modPort n pf).rings = s.rings := rfl
@[simp] theorem State.modPort_period : (s.modPort n pf).period = s.period := rfl
@[simp] theorem State.modPort_energy : (s.modPort n pf).energy = s.energy := rfl
@[simp] theorem State.modPort_spent : (s.modPort n pf).spent = s.spent := rfl
@[simp] theorem State.modPort_dies : (s.modPort n pf).dies = s.dies := rfl
@[simp] theorem State.modPort_clusters : (s.modPort n pf).clusters = s.clusters := rfl
@[simp] theorem State.modPort_cores : (s.modPort n pf).cores = s.cores := rfl
@[simp] theorem State.modPort_reqs : (s.modPort n pf).reqs = s.reqs := rfl
@[simp] theorem State.modPort_nextReq : (s.modPort n pf).nextReq = s.nextReq := rfl
@[simp] theorem State.modPort_tcache : (s.modPort n pf).tcache = s.tcache := rfl
@[simp] theorem State.modPort_tcFree : (s.modPort n pf).tcFree = s.tcFree := rfl
@[simp] theorem State.modPort_tcUse : (s.modPort n pf).tcUse = s.tcUse := rfl
@[simp] theorem State.modPort_claims : (s.modPort n pf).claims = s.claims := rfl
@[simp] theorem State.modPort_nextClaim : (s.modPort n pf).nextClaim = s.nextClaim := rfl
@[simp] theorem State.modPort_vfails : (s.modPort n pf).vfails = s.vfails := rfl
@[simp] theorem State.modPort_trapFree : (s.modPort n pf).trapFree = s.trapFree := rfl
@[simp] theorem State.modPort_save : (s.modPort n pf).save = s.save := rfl
@[simp] theorem State.modPort_camps : (s.modPort n pf).camps = s.camps := rfl
@[simp] theorem State.modPort_focused : (s.modPort n pf).focused = s.focused := rfl
@[simp] theorem State.modPort_sp : (s.modPort n pf).sp = s.sp := rfl
@[simp] theorem State.modPort_tr : (s.modPort n pf).tr = s.tr := rfl
@[simp] theorem State.modPort_cp : (s.modPort n pf).cp = s.cp := rfl
@[simp] theorem State.modPort_ctx : (s.modPort n pf).ctx = s.ctx := rfl
@[simp] theorem State.modPort_bnd : (s.modPort n pf).bnd = s.bnd := rfl
@[simp] theorem State.modPort_todo : (s.modPort n pf).todo = s.todo := rfl
@[simp] theorem State.modPort_inputs : (s.modPort n pf).inputs = s.inputs := rfl
@[simp] theorem State.modPort_turn : (s.modPort n pf).turn = s.turn := rfl

/-! ### The record that an update changes -/

theorem find_mapIf {α β : Type} [DecidableEq β] (key : α → β) (f : α → α) (hf : ∀ x, key (f x) = key x) (j i : β) (l : List α) :
    ((l.map fun x => if key x = j then f x else x).find? fun x => key x = i) = (l.find? fun x => key x = i).map fun x => if i = j then f x else x := by
  induction l with
  | nil => rfl
  | cons a r ih =>
    have e : key (if key a = j then f a else a) = key a := by split <;> simp [hf]
    simp only [List.map_cons, List.find?_cons, e]
    by_cases h : key a = i
    · subst h; simp
    · simp [h, ih]

theorem find_putNew {α β : Type} [DecidableEq β] (key : α → β) (x : α) (j i : β) (h : key x = j) (l : List α) :
    ((x :: l.filter fun y => key y != j).find? fun y => key y = i) = if i = j then some x else l.find? fun y => key y = i := by
  by_cases e : i = j
  · simp [h, e]
  · have e' : j ≠ i := fun q => e q.symm
    simp only [List.find?_cons, h, e', decide_false, e, if_false]
    induction l with
    | nil => rfl
    | cons a r ih =>
      by_cases ha : key a = j
      · have : ¬ key a = i := fun q => e' (ha.symm.trans q)
        simp [List.filter, ha, e', ih]
      · have hb : (key a != j) = true := by simpa using ha
        simp only [List.filter, hb, List.find?_cons, ih]

/-- A core's record after a change that keeps its number. -/
theorem coreOf_modCore (h : (kf (s.coreOf k)).id = k) (j : CoreId) : (s.modCore k kf).coreOf j = if j = k then kf (s.coreOf k) else s.coreOf j := by
  show ((State.modCore s k kf).cores.find? _).getD _ = _
  simp only [State.modCore, find_putNew Core.id _ k j h]
  split <;> rfl

/-- A queue's record after a change that keeps its number. -/
theorem queueOf_modQueue (h : (qf (s.queueOf n)).q = n) (j : Nat) : (s.modQueue n qf).queueOf j = if j = n then qf (s.queueOf n) else s.queueOf j := by
  show ((State.modQueue s n qf).queues.find? _).getD _ = _
  simp only [State.modQueue, find_putNew Queue.q _ n j h]
  split <;> rfl

/-- Whether two listed records have one number is not asked: every listed one with the number changes. -/
theorem master_modMaster (h : ∀ x, (mf x).m = x.m) (j : Nat) :
    (s.modMaster n mf).master j = if j = n then ((s.masters.find? fun x => x.m = j).map mf).getD (Master.reset j) else s.master j := by
  show ((State.modMaster s n mf).masters.find? _).getD _ = _
  simp only [State.modMaster, find_mapIf Master.m mf h n j]
  by_cases e : j = n
  · simp [e]
  · simp [e, State.master]

theorem port_modPort (h : ∀ x, (pf x).p = x.p) (j : Nat) :
    (s.modPort n pf).port j = if j = n then ((s.ports.find? fun x => x.p = j).map pf).getD (Port.reset j) else s.port j := by
  show ((State.modPort s n pf).ports.find? _).getD _ = _
  simp only [State.modPort, find_mapIf Port.p pf h n j]
  by_cases e : j = n
  · simp [e]
  · simp [e, State.port]

theorem dieOf_modDie (h : ∀ x, (df x).die = x.die) (j : Nat) :
    (s.modDie n df).dieOf j = if j = n then ((s.dies.find? fun x => x.die = j).map df).getD (Die.reset j) else s.dieOf j := by
  show ((State.modDie s n df).dies.find? _).getD _ = _
  simp only [State.modDie, find_mapIf Die.die df h n j]
  by_cases e : j = n
  · simp [e]
  · simp [e, State.dieOf]

theorem launch_modLaunch (h : ∀ x, (nf x).lid = x.lid) (j : Nat) :
    (s.modLaunch n nf).launch? j = if j = n then (s.launch? j).map nf else s.launch? j := by
  show (State.modLaunch s n nf).launches.find? _ = _
  simp only [State.modLaunch, find_mapIf Launch.lid nf h n j]
  by_cases e : j = n
  · simp [e, State.launch?]
  · simp [e, State.launch?]

/-- A camp of the list after a change that keeps its name. -/
theorem find_modCamp (h : ∀ x, (cf x).ref = x.ref) (j : CampRef) :
    (s.modCamp c cf).camps.find? (fun x => x.ref = j) = if j = c then (s.camps.find? fun x => x.ref = j).map cf else s.camps.find? fun x => x.ref = j := by
  simp only [State.modCamp, find_mapIf Camp.ref cf h c j]
  by_cases e : j = c <;> simp [e]

end Sys2Proof.Machine
end

