-- ==== Sys2Proof/Tests/Slice0.lean ====
section
/-! SUPPORT. Tests of the model: decoding of words written out from the encoding tables, ill-formed terms that are refused, small runs of one step, and witnesses that the hypotheses of the obligations can be met. -/

namespace Sys2Proof.Tests

open Sys2Proof Sys2Proof.Machine

set_option maxRecDepth 100000

/-! ### Decoding: words written out from the encoding tables (06 R137 to R143, 07, 08, 09; 11 R265 to R279; 14 R356, R358) -/

/-- Each list of words decodes to its instruction and takes them all. -/
def decodesAll (l : List (List Nat × Instr)) : Bool :=
  l.all fun p => match decodePortable p.1 with
    | .ok r => decide (r = (p.2, p.1.length))
    | .error _ => false

/-- Each word decodes to its operation in a slot, both A slots alike. -/
def syllablesAll (s : Slot) (l : List (Nat × Instr)) : Bool :=
  l.all fun p => decide (decodeSyl s p.1 = some p.2) && (s != .a0 || decide (decodeSyl .a1 p.1 = some p.2))

/-- A command of 64 bytes: code, tag 0x1234, operands 1 to 7, and its qwords as the path reads them. -/
def commandsAll (l : List (Nat × (Cmd → Instr))) : Bool :=
  l.all fun p => decide (decodeCommand 2
    ([BitVec.ofNat 8 p.1, 0, 0x34, 0x12, 0, 0, 0, 0] ++ [1, 2, 3, 4, 5, 6, 7].flatMap fun (b : Byte) => [b, 0, 0, 0, 0, 0, 0, 0x80]) =
    p.2 ⟨2, 0x1234, BitVec.ofNat 8 p.1, false, 0x8000000000000001, 0x8000000000000002, 0x8000000000000003,
      0x8000000000000004, 0x8000000000000005, 0x8000000000000006, 0x8000000000000007⟩)

theorem test_decode_control : decodesAll [
    ([0x01000100, 0x00000004, 0x00020100], .br ⟨2, [4]⟩),
    ([0x02000200, 0x00000300, 0x00010000, 0x00020100], .cbr 0 ⟨1, []⟩ ⟨2, [3]⟩),
    ([0x03200202, 0x00000404, 0x00000000, 0x00000002, 0x00010000, 0x00020000, 0x00030100], .switch .w32 4 ⟨1, []⟩ [(0, ⟨2, []⟩), (2, ⟨3, [4]⟩)]),
    ([0x04000202, 0x00000404, 0x00020000, 0x00030100], .brx 4 [⟨2, []⟩, ⟨3, [4]⟩]),
    ([0x05001200, 0x012C0001, 0x00000007], .call 7 [1, 300]),
    ([0x06000100, 0x00000005], .ret [5]),
    ([0x06000F00, 0x0000000F, 0x04030201, 0x08070605, 0x0C0B0A09, 0x000F0E0D], .ret [1, 2, 3, 4, 5, 6, 7, 8, 9, 10, 11, 12, 13, 14, 15]),
    ([0x07000000], .exit),
    ([0x080000A5], .trap 0xA5),
    ([0x09000000], .brk)] = true := by decide

theorem test_decode_constants : decodesAll [
    ([0x10080000, 0xFFFFFFFE], .const .i8 0xFE),
    ([0x10240000, 0x11223344, 0x55667788], .const .w64 0x5566778811223344),
    ([0x10380001, 0x80000040], .constSymbol .addr .const 0x40),
    ([0x10900001, 0xC0000080], .constSymbol .trec .tensor 0x80)] = true := by decide

theorem test_decode_integers : decodesAll [
    ([0x11100200, 0x00000605], .add .i32 5 6),
    ([0x12100200, 0x00000605], .sub .i32 5 6),
    ([0x13100200, 0x00000605], .mul .i32 5 6),
    ([0x14100200, 0x00000605], .mulhi .i32 5 6),
    ([0x16100200, 0x00000605], .div .i32 5 6),
    ([0x17100200, 0x00000605], .rem .i32 5 6),
    ([0x1A100200, 0x00000605], .min .i32 5 6),
    ([0x1B100200, 0x00000605], .max .i32 5 6),
    ([0x1C100200, 0x00000605], .addsat .i32 5 6),
    ([0x1D100200, 0x00000605], .subsat .i32 5 6),
    ([0x1E100200, 0x00000605], .and .i32 5 6),
    ([0x1F100200, 0x00000605], .or .i32 5 6),
    ([0x20100200, 0x00000605], .xor .i32 5 6),
    ([0x15240300, 0x00030201], .mad .w64 1 2 3),
    ([0x18080100, 0x00000001], .neg .i8 1),
    ([0x190C0100, 0x00000001], .abs .i16 1),
    ([0x21040100, 0x00000001], .not .b1 1)] = true := by decide

theorem test_decode_bits : decodesAll [
    ([0x22201200, 0x01000005], .shl .w32 5 256),
    ([0x23201200, 0x01000005], .shr .w32 5 256),
    ([0x24201200, 0x01000005], .rotl .w32 5 256),
    ([0x251C0100, 0x00000009], .popc .w16 9),
    ([0x261C0100, 0x00000009], .clz .w16 9),
    ([0x271C0100, 0x00000009], .ctz .w16 9),
    ([0x281C0100, 0x00000009], .brev .w16 9),
    ([0x29100300, 0x00030201], .bfx .i32 1 2 3),
    ([0x2A100400, 0x04030201], .bfi .i32 1 2 3 4),
    ([0x2B108200, 0x00000605], .cmp .i32 .lt 5 6),
    ([0x2C380300, 0x00030201], .sel .addr 1 2 3)] = true := by decide

theorem test_decode_floats : decodesAll [
    ([0x40304200, 0x00000201], .fadd .f32 .tz 1 2),
    ([0x41304200, 0x00000201], .fsub .f32 .tz 1 2),
    ([0x42304200, 0x00000201], .fmul .f32 .tz 1 2),
    ([0x44304200, 0x00000201], .fdiv .f32 .tz 1 2),
    ([0x43304300, 0x00030201], .fma .f32 .tz 1 2 3),
    ([0x45348100, 0x00000001], .fsqrt .f64 .up 1),
    ([0x46348100, 0x00000001], .frsq .f64 .up 1),
    ([0x47348100, 0x00000001], .frcp .f64 .up 1),
    ([0x53348100, 0x00000001], .fround .f64 .up 1),
    ([0x483C0100, 0x00000001], .fexp2 .x2f16 1),
    ([0x493C0100, 0x00000001], .flog2 .x2f16 1),
    ([0x4A3C0100, 0x00000001], .fsin .x2f16 1),
    ([0x4B3C0100, 0x00000001], .fcos .x2f16 1),
    ([0x4C3C0100, 0x00000001], .ftanh .x2f16 1),
    ([0x4F3C0100, 0x00000001], .fabs .x2f16 1),
    ([0x503C0100, 0x00000001], .fneg .x2f16 1),
    ([0x4D2C0200, 0x00000201], .fmin .bf16 1 2),
    ([0x4E2C0200, 0x00000201], .fmax .bf16 1 2),
    ([0x542C0200, 0x00000201], .fcopysign .bf16 1 2),
    ([0x512B4200, 0x00000201], .fcmp .f16 .uge 1 2),
    ([0x52300100, 0x00000001], .fclass .f32 1)] = true := by decide

theorem test_decode_conversions : decodesAll [
    ([0x7011C100, 0x00000001], .cvt .i32 true .dn 1),
    ([0x70300100, 0x00000001], .cvt .f32 false .ne 1),
    ([0x718C0100, 0x00000001], .bitcast .barref 1),
    ([0x723C0200, 0x00000201], .pack .x2f16 1 2),
    ([0x73240100, 0x00000001], .unpack .w64 1),
    ([0x74500100, 0x00000001], .dxbPackElem .dxb4 1),
    ([0x74540201, 0x00000201], .dxbPackScale .dxb6 false 1 2),
    ([0x74600203, 0x00000201], .dxbPackScale .dxb16 true 1 2),
    ([0x7530C202, 0x00000201], .dxbUnpack .f32 .dn true 1 2)] = true := by decide

theorem test_decode_lanes : decodesAll [
    ([0x8030C200, 0x00000201], .shfl .f32 .flip 0 1 2),
    ([0x80204205, 0x00000201], .shfl .w32 .slide 5 1 2),
    ([0x81048100, 0x00000001], .vote .uni 1),
    ([0x8220011F, 0x00000001], .ballot 31 1),
    ([0x83304108, 0x00000001], .redux .f32 .fadd .tz 1),
    ([0x84110102, 0x00000001], .scan .i32 .max .ne true 1),
    ([0x85240100, 0x00000001], .rand true 1)] = true := by decide

theorem test_decode_memory : decodesAll [
    ([0x90304109, 0x00000003, 0x00000010], .ld .f32 ⟨.acq, .camp, some 16, 3⟩),
    ([0x91208203, 0x00000504], .st .w32 ⟨.rel, .pkg, none, 4⟩ 5),
    ([0x92200120, 0x00000009], .ldv .w32 2 ⟨.rlx, .troop, none, 9⟩),
    ([0x93210315, 0x00020109], .stv .w32 1 ⟨.sc, .sys, none, 9⟩ [1, 2]),
    ([0x94100375, 0x00070604], .atom .i32 .cas ⟨.rlx, .sys, none, 4⟩ 6 (some 7)),
    ([0x94300293, 0x00000504], .atom .f32 (.fadd .tz) ⟨.rlx, .pkg, none, 4⟩ 5 none),
    ([0x95010004], .fence .sc .dom),
    ([0x96000101, 0x00000001], .prefetch true 1),
    ([0x97000201, 0x00000201], .tier true 1 2)] = true := by decide

theorem test_decode_synchronisation : decodesAll [
    ([0xB0000201, 0x00000201], .barInit .camp 1 2),
    ([0xB1040200, 0x00000201], .barArrive 1 (some 2)),
    ([0xB2000100, 0x00000001], .barWait 1 none),
    ([0xB3040200, 0x00000201], .barTry 1 2),
    ([0xB4000100, 0x00000001], .barSync 1 none),
    ([0xB5000200, 0x00000201], .stepSync 1 (some 2))] = true := by decide

theorem test_decode_copies : decodesAll [
    ([0xC024C615, 0x04030201, 0x00000605], .copy true .sys 1 2 3 (some 4) (some 5) (some 6)),
    ([0xC1000441, 0x04030201], .tcopy .planes false .camp 1 2 [3, 4] none none none),
    ([0xC224450D, 0x04030201, 0x00000005], .copyRemote true .sys 1 2 3 (some 4) none (some 5) none)] = true := by decide

theorem test_decode_engines : decodesAll [
    ([0xD080017F, 0x00000001], .accInit 7 15 1),
    ([0xD180C329, 0x00030201], .mma .dxb8 .pl16 3 1 2 3),
    ([0xD2800450, 0x04030201], .mmaRes .pl1 .dxb4 0 1 2 3 4),
    ([0xD3800100, 0x00000001], .accNorm 1),
    ([0xD4308300, 0x00030201], .accRd .f32 .up 1 2 3),
    ([0xD4240302, 0x00030201], .accRdWord true 1 2 3),
    ([0xD5804430, 0x04030201], .accWr .f32 .tz 1 2 3 4),
    ([0xD5800425, 0x04030201], .accWrWord false 1 2 3 4),
    ([0xD6000100, 0x00000001], .ropeForm 1),
    ([0xD7000000], .ropeFree),
    ([0xE0880601, 0x04030201, 0x00000605], .resPitch .camp 1 2 3 4 5 6),
    ([0xE0880108, 0x00000001], .resPitchAttach 1),
    ([0xE0000110, 0x00000001], .resPitchRefill 1),
    ([0xE1000101, 0x00000001], .resStrike true 1),
    ([0xE2000100, 0x00000001], .resPin false 1),
    ([0xE3000101, 0x00000001], .resUnpin true 1),
    ([0xE4200100, 0x00000001], .resQuery false 1)] = true := by decide

theorem test_decode_streams : decodesAll [
    ([0xE8000513, 0x04030201, 0x00000005, 0x0000020C, 0x00000010, 0x00000004, 0x00000004, 0x00000004, 0x0000010C, 0x00000004, 0x00000004, 0x0000018C, 0x00000004, 0x00000010], .sloop 1 [⟨.f32, false, [(16, 4), (4, 4)]⟩, ⟨.f32, false, [(4, 4)]⟩, ⟨.f32, true, [(4, 16)]⟩] [2, 3, 4] [5]),
    ([0xE9300001], .sget .f32 1),
    ([0xEA300102, 0x00000001], .sput .f32 2 1),
    ([0xEB000100, 0x00000001], .sloopEnd [1])] = true := by decide

theorem test_decode_system : decodesAll [
    ([0xF0200000], .sysRd .laneid),
    ([0xF0240008], .sysRd .xpc),
    ([0xF020003F], .sysRd (.xmask 31)),
    ([0xF120010A, 0x00000001], .sysWrXstat 1),
    ([0xF124010D, 0x00000001], .sysWrStubv 1),
    ([0xF2240000], .stamp),
    ([0xF2240001], .stampSc),
    ([0xF3040000], .yield),
    ([0xF4000000], .xretRetry),
    ([0xF4000001], .xretNext),
    ([0xF5000202, 0x00000201], .tlbInv false 1 2),
    ([0xF5000203, 0x00000201], .tlbInv true 1 2),
    ([0xF6000100, 0x00000001], .opReq 1)] = true := by decide

theorem test_decode_a_slot :
    let n : NOp := ⟨true, true, 9, 0x55, 3, 127⟩
    syllablesAll .a0
  [(0xC13541FF, .natIadd n),
    (0xC33541FF, .natIsub n),
    (0xC53541FF, .natImul n),
    (0xC73541FF, .natImad n),
    (0xC93541FF, .natAnd n),
    (0xCB3541FF, .natOr n),
    (0xCD3541FF, .natXor n),
    (0xCF3541FF, .natShl n),
    (0xD13541FF, .natShr n),
    (0xD33541FF, .natSar n),
    (0xD53541FF, .natMin n),
    (0xD73541FF, .natMax n),
    (0xD93541FF, .natSel n),
    (0xDB3541FF, .natIcmp n),
    (0xDD3541FF, .natFadd n),
    (0xDF3541FF, .natFmul n),
    (0xE13541FF, .natFma n),
    (0xE33541FF, .natFmad n),
    (0xE53541FF, .natFcmp n),
    (0xE73541FF, .natFmin n),
    (0xE93541FF, .natFmax n),
    (0xEB3541FF, .natCvt n),
    (0xED3541FF, .natMov n),
    (0xEF3541FF, .natMovi n),
    (0xF13541FF, .natSfu n),
    (0xF33541FF, .natLane n)] = true := by decide

theorem test_decode_m_slot :
    let n : NOp := ⟨true, true, 9, 0x55, 3, 127⟩
    syllablesAll .m
  [(0xC13541FF, .natLds n),
    (0xC33541FF, .natSts n),
    (0xC53541FF, .natLdg n),
    (0xC73541FF, .natStg n),
    (0xC93541FF, .natAtg n),
    (0xCB3541FF, .natLdp n),
    (0xCD3541FF, .natStp n),
    (0xCF3541FF, .natPrf n),
    (0xD13541FF, .natFnc n)] = true := by decide

theorem test_decode_x_slot :
    let n : NOp := ⟨true, true, 9, 0x55, 3, 127⟩
    syllablesAll .x
  [(0xC13541FF, .natMma n),
    (0xC33541FF, .natMmar n),
    (0xC53541FF, .natAccn n),
    (0xC73541FF, .natTcopy n),
    (0xC93541FF, .natCopy n),
    (0xCB3541FF, .ovl n),
    (0xCD3541FF, .natRpitch n),
    (0xCF3541FF, .natRstrike n),
    (0xD13541FF, .natAcci n)] = true := by decide

theorem test_decode_c_slot :
    let n : NOp := ⟨true, true, 9, 0x55, 3, 127⟩
    syllablesAll .c
  [(0xC13541FF, .natBr n),
    (0xC33541FF, .natBrc n),
    (0xC53541FF, .brsw n),
    (0xC73541FF, .natCall n),
    (0xC93541FF, .natRet n),
    (0xCB3541FF, .ifence n),
    (0xCD3541FF, .join n),
    (0xCF3541FF, .natExit n),
    (0xD13541FF, .natTrap n),
    (0xD33541FF, .bwait n),
    (0xD53541FF, .barr n),
    (0xD73541FF, .srd n),
    (0xD93541FF, .natYield n),
    (0xDB3541FF, .point n),
    (0xDD3541FF, .sadd n),
    (0xDF3541FF, .smov n),
    (0xE13541FF, .scmp n)] = true := by decide

theorem test_decode_p_slot :
    let p : POp := ⟨true, 0xA, 0x15, 0x5, 0xA, 2, 29, 0xC⟩
    syllablesAll .p [(0xD55555DC, .prd p), (0xB55555DC, .pwr p), (0xF55555DC, .prdPwr p)] = true ∧ decodeSyl .p 0x955555DC = none := by decide

theorem test_decode_commands : commandsAll
    [(0x01, .moduleLoad), (0x02, .moduleUnload), (0x10, .queueWrite), (0x11, .queueRead), (0x12, .tenantBind), (0x13, .tenantUnbind), (0x14, .regionSuspend), (0x15, .regionResume), (0x16, .packRequest), (0x20, .setRunLimit), (0x21, .setHold), (0x22, .exportWrite), (0x23, .setPackageNumber), (0x24, .keyInstall), (0x25, .routeWrite), (0x26, .setPeerTimeout), (0x27, .setPoolSize), (0x28, .supervisorKey), (0x29, .domainAlign), (0x2A, .setTier), (0x30, .subscribe), (0x31, .rackCap), (0x32, .emberEnter), (0x33, .emberExit), (0x38, .attest), (0x39, .debugChallenge), (0x3A, .debugToken), (0x40, .attach), (0x41, .detach), (0x42, .stop), (0x43, .resume), (0x44, .step), (0x45, .bkptSet), (0x46, .bkptClear), (0x47, .toPoint), (0x48, .read), (0x49, .write), (0x4A, .splits), (0x50, .poolAdd), (0x51, .poolDeny), (0x52, .fencecmd), (0x53, .unfence), (0x54, .finjWrite), (0x55, .finjRead), (0x56, .errorCounts), (0x57, .reservedMap), (0x03, .reservedCommand), (0xFF, .reservedCommand)] = true := by decide
/-- Case 1 of 11: a header and the syllables of its bundle; reserved header bits and three literals are refused. -/
theorem test_decode_header :
    decodeHeader 0x50020400 = some ⟨false, 0x28, 0x01, 0, false, 0, true⟩ ∧
    decodeHeader 0xD2FEB400 = some ⟨true, 0x29, 0x7F, 2, true, 2, true⟩ ∧
    decodeSyl .a0 0x00017C02 = some (.natIadd ⟨false, false, 0, 5, 120, 2⟩) ∧
    decodeSyl .m 0x80018180 = some (.natLds ⟨true, false, 0, 6, 3, 0⟩) ∧
    decodeHeader 0x50020401 = none ∧ decodeHeader 0x50021800 = none := by decide

/-- Reserved opcodes, operand sizes, types, fields, paddings and extension words are refused by their reason (17 R382). -/
theorem test_decode_refused :
    [([0x0A000000], DecErr.opcode), ([0x11103200, 0], .osize), ([0x11100200, 0x00010201], .osize), ([0x11440200, 0x0201], .type),
      ([0x11108200, 0x0201], .fields), ([0x11300200, 0x0201], .fields), ([0x10080000, 0x80], .extword),
      ([0x01000000, 0x00020001], .extword), ([0x01000000, 0x00020100], .branchCount), ([0xE8000200, 0x0201, 0x10, 4, 4], .fields),
      ([0xE8000201, 0x0201, 0x10C, 4, 0], .stream), ([], .truncated), ([0x11100200], .truncated)].all (fun p =>
        match decodePortable p.1 with
        | .error e => decide (e = p.2)
        | .ok _ => false) = true := by decide

/-! ### Ill-formed instructions, one for each check -/

/-- None of the instructions is well-formed. -/
def refusedAll (l : List Instr) : Bool := l.all fun i => !i.wf

theorem test_wf_control : refusedAll
    [.br ⟨65536, []⟩, .br ⟨0, List.replicate 256 0⟩, .br ⟨0, [1048575]⟩, .cbr 1048575 ⟨0, []⟩ ⟨0, []⟩,
      .cbr 0 ⟨65536, []⟩ ⟨0, []⟩, .cbr 0 ⟨0, []⟩ ⟨65536, []⟩, .cbr 0 ⟨0, List.replicate 200 0⟩ ⟨0, List.replicate 55 0⟩,
      .switch .w64 0 ⟨0, []⟩ [], .switch .f32 0 ⟨0, []⟩ [], .switch .w8 0 ⟨0, []⟩ [(256, ⟨0, []⟩)],
      .switch .i8 0 ⟨0, []⟩ [(128, ⟨0, []⟩)], .switch .i16 0 ⟨0, []⟩ [(32768, ⟨0, []⟩)], .switch .w16 0 ⟨0, []⟩ [(65536, ⟨0, []⟩)],
      .switch .w32 1048575 ⟨0, []⟩ [], .switch .w32 0 ⟨65536, []⟩ [], .switch .w32 0 ⟨0, []⟩ [(0, ⟨65536, []⟩)],
      .switch .w32 0 ⟨0, []⟩ (List.replicate 256 (0, ⟨0, []⟩)), .switch .w32 0 ⟨0, List.replicate 255 0⟩ [],
      .brx 0 [], .brx 1048575 [⟨0, []⟩], .brx 0 [⟨65536, []⟩], .brx 0 (List.replicate 256 ⟨0, []⟩), .brx 0 [⟨0, List.replicate 255 0⟩],
      .call 65536 [], .call 0 (List.replicate 256 0), .call 0 [1048575], .ret (List.replicate 16 0), .ret [1048575]] = true := by decide

theorem test_wf_integers : refusedAll
    [.const .acc 0, .const .b1 2, .const .i8 256, .const .i16 65536, .const .f32 4294967296, .const .dxb4 16, .const .dxb6 64,
      .const .dxb8 256, .const .dxb12 4096, .const .dxb16 65536, .constSymbol .w64 .data 0, .add .f32 0 0, .add .i32 1048575 0,
      .add .i32 0 1048575, .sub .b1 0 0, .mul .addr 0 0, .mul .i32 1048575 0, .mul .i32 0 1048575, .and .f32 0 0, .or .i32 1048575 0,
      .xor .i32 0 1048575, .mad .b1 0 0 0, .mad .i32 1048575 0 0, .mad .i32 0 1048575 0, .bfx .i32 0 0 1048575, .neg .f32 0,
      .popc .i32 1048575, .abs .w32 0, .abs .i32 1048575, .not .f32 0, .not .i32 1048575, .bfi .f32 0 0 0 0, .bfi .i32 1048575 0 0 0,
      .bfi .i32 0 1048575 0 0, .bfi .i32 0 0 1048575 0, .bfi .i32 0 0 0 1048575, .cmp .b1 .lt 0 0, .cmp .f32 .eq 0 0,
      .cmp .i32 .eq 1048575 0, .cmp .i32 .eq 0 1048575, .sel .acc 0 0 0, .sel .i32 1048575 0 0, .sel .i32 0 1048575 0,
      .sel .i32 0 0 1048575] = true := by decide

theorem test_wf_floats : refusedAll
    [.fadd .i32 .ne 0 0, .fsub .f32 .ne 1048575 0, .fmin .f32 0 1048575, .fma .i32 .ne 0 0 0, .fma .f32 .ne 1048575 0 0,
      .fma .f32 .ne 0 1048575 0, .fma .f32 .ne 0 0 1048575, .fsqrt .w32 .ne 0, .fabs .f32 1048575, .fexp2 .f64 0, .fsin .f32 1048575,
      .fcmp .x2f16 .eq 0 0, .fcmp .f32 .eq 1048575 0, .fcmp .f32 .eq 0 1048575, .fclass .x2f16 0, .fclass .f32 1048575,
      .cvt .addr false .ne 0, .cvt .f32 true .ne 0, .cvt .i32 true .ne 1048575, .bitcast .b1 0, .bitcast .i32 1048575,
      .pack .i32 0 0, .pack .w32 1048575 0, .pack .w32 0 1048575, .unpack .f32 0, .unpack .w32 1048575, .dxbPackElem .f32 0,
      .dxbPackElem .dxb4 1048575, .dxbPackScale .f32 false 0 0, .dxbPackScale .dxb4 false 1048575 0, .dxbPackScale .dxb4 false 0 1048575,
      .dxbUnpack .x2f16 .ne false 0 0, .dxbUnpack .f32 .ne false 1048575 0, .dxbUnpack .f32 .ne false 0 1048575] = true := by decide

theorem test_wf_lanes : refusedAll
    [.shfl .acc .pick 0 0 0, .shfl .i32 .pick 11 0 0, .shfl .i32 .pick 0 1048575 0, .shfl .i32 .pick 0 0 1048575, .vote .any 1048575,
      .ballot 0 1048575, .redux .f32 .add .ne 0, .redux .i32 .add .tz 0, .redux .i32 .fadd .ne 0, .redux .f32 .fmin .tz 0,
      .redux .i32 .fmax .ne 0, .scan .i32 .add .ne true 1048575, .rand true 1048575] = true := by decide

theorem test_wf_memory :
    let m : MemOpnd := ⟨.rlx, .sys, none, 0⟩
    refusedAll
    [.ld .b1 m, .ld .i32 { m with ord := .rel }, .ld .i32 { m with a := 1048575 }, .st .b1 m 0, .st .i32 { m with ord := .acq } 0,
      .st .i32 { m with a := 1048575 } 0, .st .i32 m 1048575, .ldv .acc 1 m, .ldv .i32 0 m, .ldv .i32 5 m,
      .ldv .i32 1 { m with ord := .ar }, .ldv .i32 1 { m with a := 1048575 }, .stv .acc 1 m [0, 0], .stv .i32 0 m [0],
      .stv .i32 5 m (List.replicate 32 0), .stv .i32 1 { m with ord := .ar } [0, 0], .stv .i32 1 { m with a := 1048575 } [0, 0],
      .stv .i32 1 m [0], .stv .i32 1 m [0, 1048575], .atom .i8 .add m 0 none, .atom .f16 .xchg m 0 none, .atom .f32 .cas m 0 (some 0),
      .atom .i32 (.fadd .ne) m 0 none, .atom .i32 .add { m with a := 1048575 } 0 none, .atom .i32 .add m 1048575 none,
      .atom .i32 .cas m 0 (some 1048575), .atom .i32 .cas m 0 none, .atom .i32 .add m 0 (some 0), .fence .rlx .sys,
      .prefetch true 1048575, .tier true 1048575 0, .tier true 0 1048575] = true := by decide

theorem test_wf_engines :
    let x : Val := 1048575
    refusedAll
    [.barInit .sys x 0, .barInit .sys 0 x, .barArrive x none, .barWait 0 (some x), .barTry x 0, .barTry 0 x,
      .copy true .sys x 0 0 none none none, .copy true .sys 0 x 0 none none none, .copy true .sys 0 0 x none none none,
      .copy true .sys 0 0 0 (some x) none none, .copy true .sys 0 0 0 none (some x) none, .copy true .sys 0 0 0 none (some 0) (some x),
      .copy false .sys 0 0 0 none (some 0) none, .copy true .sys 0 0 0 none none (some 0),
      .tcopy .load true .sys x 0 [0] none none none, .tcopy .load true .sys 0 x [0] none none none,
      .tcopy .load true .sys 0 0 [] none none none, .tcopy .load true .sys 0 0 [0, 0, 0, 0, 0, 0] none none none,
      .tcopy .load true .sys 0 0 [x] none none none, .tcopy .load true .sys 0 0 [0] (some x) none none,
      .tcopy .load true .sys 0 0 [0] none (some x) none, .tcopy .load true .sys 0 0 [0] none (some 0) (some x),
      .tcopy .load false .sys 0 0 [0] none (some 0) none, .tcopy .load true .sys 0 0 [0] none none (some 0),
      .copyRemote true .sys x 0 0 none none none none, .copyRemote true .sys 0 x 0 none none none none,
      .copyRemote true .sys 0 0 x none none none none, .copyRemote true .sys 0 0 0 (some x) none none none,
      .copyRemote true .sys 0 0 0 none (some x) none none, .copyRemote true .sys 0 0 0 none none (some x) none,
      .copyRemote true .sys 0 0 0 none none (some 0) (some x), .copyRemote false .sys 0 0 0 none none (some 0) none,
      .copyRemote true .sys 0 0 0 none none none (some 0),
      .accInit 0 0 x, .mma .dxb4 .dxb4 0 x 0 0, .mma .dxb4 .dxb4 0 0 x 0, .mma .dxb4 .dxb4 0 0 0 x, .mmaRes .dxb4 .dxb4 0 x 0 0 0,
      .mmaRes .dxb4 .dxb4 0 0 x 0 0, .mmaRes .dxb4 .dxb4 0 0 0 x 0, .mmaRes .dxb4 .dxb4 0 0 0 0 x, .accNorm x, .accRd .i8 .ne 0 0 0,
      .accRd .f32 .ne x 0 0, .accRd .f32 .ne 0 x 0, .accRd .f32 .ne 0 0 x, .accRdWord true x 0 0, .accRdWord true 0 x 0,
      .accRdWord true 0 0 x, .accWr .i32 .ne 0 0 0 0, .accWr .f32 .ne x 0 0 0, .accWr .f32 .ne 0 x 0 0, .accWr .f32 .ne 0 0 x 0,
      .accWr .f32 .ne 0 0 0 x, .accWrWord true x 0 0 0, .accWrWord true 0 x 0 0, .accWrWord true 0 0 x 0, .accWrWord true 0 0 0 x,
      .ropeForm x, .resPitch .sys x 0 0 0 0 0, .resPitch .sys 0 x 0 0 0 0, .resPitch .sys 0 0 x 0 0 0, .resPitch .sys 0 0 0 x 0 0,
      .resPitch .sys 0 0 0 0 x 0, .resPitch .sys 0 0 0 0 0 x, .resPitchAttach x, .resStrike true x] = true := by decide

theorem test_wf_streams_system_native :
    let x : Val := 1048575
    let p : StreamSpec := ⟨.f32, false, [(4, 4)]⟩
    refusedAll
    [.sloop x [p] [0] [], .sloop 0 [] [] [], .sloop 0 (List.replicate 9 p) (List.replicate 9 0) [], .sloop 0 [p] [] [],
      .sloop 0 [p] [0] (List.replicate 9 0), .sloop 0 [{ p with ety := .b1 }] [0] [], .sloop 0 [{ p with pairs := [] }] [0] [],
      .sloop 0 [{ p with pairs := [(4, 4), (4, 4), (4, 4), (4, 4)] }] [0] [], .sloop 0 [{ p with pairs := [(4, 0)] }] [0] [],
      .sloop 0 [p] [x] [], .sloop 0 [p] [0] [x], .sget .b1 0, .sget .f32 8, .sput .acc 0 0, .sput .f32 8 0, .sput .f32 0 x,
      .sloopEnd (List.replicate 9 0), .sloopEnd [x], .sysWrXstat x, .tlbInv true x 0, .tlbInv true 0 x,
      .header ⟨false, 0, 0, 0, false, 3, false⟩, .clm 4, .crcfg 4 0, .registerWrite 4 .htgt 0, .notify 4 0 0, .notify 0 4096 0] = true := by decide

/-! ### States for the tests -/

/-- One troop of 32 lanes at offset 4 of a function with the given code words, each lane with the same values; 64 KiB of scratchpad, a handler bound, two lanes active. -/
def world (code : List Nat) (vals : List (Nat × TVal)) : State :=
  let s := State.reset.withSplit (code.flatMap (leBytes 4)) (wordSplit 4 none)
  { s with
    launches := [{ wordLaunch with scratch := 65536 }]
    tenants := [⟨0, 0, some (1, 0)⟩]
    ctx := ⟨100, 8⟩
    sp := { s.sp with mask := 3 }
    tr := { s.tr with live := 3, lanes := List.replicate 32 { Lane.reset with frames := [⟨1, 0, 0, 0xFFFFFF, 0, 0, true, vals, false⟩] } } }

/-- A world whose values are of one type, numbered from 0. -/
def withVals (ty : Ty) (vs : List Nat) : State :=
  world [0] ((List.range vs.length).map fun i => (i, ⟨ty, BitVec.ofNat 64 (vs.getD i 0)⟩))

/-- A supervisor record of a cause, with a `trap` at its point. -/
def supOf (cause : W32) : Sup := ⟨0, 4, 1, cause, 0, 3, none, none, [], [], []⟩

/-- A split that runs a handler; its user code has the given words. -/
def handling (code : List Nat) (cause : W32) : State :=
  let s := world code []
  { s with sp := { s.sp with sup := some (supOf cause) } }

theorem active_lt {s : State} {l n : Nat} (h : s.active l) (w : s.tr.width = n) : l < n := w ▸ h.1

theorem canTrap_world (code : List Nat) (vals : List (Nat × TVal)) : CanTrap (world code vals) 1 0 :=
  ⟨rfl, rfl, rfl, by simp only [world, State.withSplit]; decide, rfl, rfl⟩

/-! ### Witnesses: the hypotheses of each statement can be met -/

theorem wit_PortableIntegers : ∃ ty : Ty, ty.isI = true ∧ ty.isS = true := ⟨.i8, by decide⟩

theorem wit_PortableBits :
    (∃ ty : Ty, ty.isL = true ∧ ty.isI = true) ∧
    (∃ cc a b, (Instr.cmp .b1 cc a b).wf = true) ∧
    (∃ (s : State) (ty : Ty) (m : Module), ty.width = 64 ∧ s.module? s.sp.mh = some m) :=
  ⟨⟨.w64, by decide⟩, ⟨.ne, 0, 1, by decide⟩, ⟨world [0] [], .addr, _, rfl, rfl⟩⟩

theorem wit_FloatInstructions : ∃ ty : Ty, ty.isHP = true ∧ (ty.isF || ty.isP) = true ∧ ty.isF = true := ⟨.f16, by decide⟩

theorem wit_FloatSpecialValues :
    let f := f32F
    (f.isNan 0x7F800001 || f.isNan 0) = true ∧ (f.isInf 0x7F800000 = true ∧ f.isInf 0xFF800000 = true) ∧
    (f.isZero 0x80000000 = true ∧ f.isInf 0x7F800000 = true) ∧ (f.isZero 0 = true ∧ f.isZero 0x80000000 = true) ∧
    (f.isZero 0 = true ∧ f.isNan 1 = false ∧ f.isInf 1 = false ∧ f.isZero 1 = false) ∧
    (f.isNan 0xBF800000 = false ∧ f.isZero 0xBF800000 = false ∧ f.sign 0xBF800000 = true) ∧
    (f.isNan 1 = false ∧ f.isNan 0xFF7FFFFF = false) := by decide

/-- 1 + 1 = 2, 1 × 2 = 2, 1 × 1 + 1 = 2 and 2 ÷ 1 = 2 in f32. -/
theorem wit_FloatExactResults :
    let f := f32F
    let one := 0x3F800000
    let two := 0x40000000
    f ∈ [f16F, bf16F, f32F, f64F] ∧ one < 2 ^ f.width ∧ two < 2 ^ f.width ∧ f.expo one ≠ f.emask ∧ f.expo two ≠ f.emask ∧
    f.isZero two = false ∧ f.isZero one = false ∧
    (let e : Int := -23; e ≤ f.ex one ∧ e ≤ f.ex two ∧ f.at one e + f.at one e = f.at two e) ∧
    (let e : Int := -46; e ≤ f.ex one + f.ex two ∧ e ≤ f.ex two ∧ e ≤ f.ex one ∧
      (if f.sign one = f.sign two then 1 else -1) * ((f.sig one * f.sig two : Nat) : Int) * 2 ^ (f.ex one + f.ex two - e).toNat = f.at two e ∧
      (if f.sign one = f.sign one then 1 else -1) * ((f.sig one * f.sig one : Nat) : Int) * 2 ^ (f.ex one + f.ex one - e).toNat + f.at one e = f.at two e ∧
      (if f.sign two = f.sign one then 1 else -1) * ((f.sig two * f.sig one : Nat) : Int) * 2 ^ (f.ex two + f.ex one - e).toNat = f.at two e) := by
  decide

theorem wit_FloatClasses :
    let f := f32F
    let frac (x : Nat) : Nat := x % 2 ^ f.fb
    (f.expo 0xFF800000 = f.emask ∧ frac 0xFF800000 = 0) ∧ (f.expo 0x7F800001 = f.emask ∧ frac 0x7F800001 ≠ 0) ∧
    (f.expo 0x80000000 = 0 ∧ frac 0x80000000 = 0) ∧ (f.expo 1 = 0 ∧ frac 1 ≠ 0) ∧
    (f.expo 0x00800000 ≠ 0 ∧ f.expo 0x00800000 ≠ f.emask) := by decide

/-- The classes of R166 on f32. -/
theorem test_fclass :
    ([0xFF800000, 0xBF800000, 0x80000001, 0x80000000, 0, 1, 0x3F800000, 0x7F800000, 0x7F800001, 0x7FC00000].map (fClass f32F)) =
      [1, 2, 4, 8, 16, 32, 64, 128, 256, 512] := by decide

theorem wit_ConversionsAndBlocks :
    (∃ ty : Ty, ty.isMem = true) ∧ (∃ a b, (Instr.pack .x2f16 a b).wf = true) ∧ (∃ pair : Nat, pair % 256 = 255) ∧
    (∃ l : Lane, (l.val 0).ty.isL = true) ∧ (∃ l : Lane, (l.val 0).ty.isF = true ∧ (fmtOf (l.val 0).ty).isNan (l.nat 0) = true) ∧
    (∃ l : Lane, (l.val 0).ty.isF = true ∧ (fmtOf (l.val 0).ty).isInf (l.nat 0) = true) ∧
    (∃ l : Lane, (l.val 0).ty.isF = true ∧ (fmtOf (l.val 0).ty).expo (l.nat 0) ≠ (fmtOf (l.val 0).ty).emask) ∧
    (∃ l : Lane, (l.val 0).ty.isI = true ∧ readInt (l.val 0).ty (l.nat 0) = 0) :=
  let lane (ty : Ty) (n : Nat) : Lane := (withVals ty [n]).tr.lane 0
  ⟨⟨.trec, rfl⟩, ⟨0, 1, rfl⟩, ⟨255, rfl⟩, ⟨lane .i32 1, rfl⟩, ⟨lane .f32 0x7FC00000, by decide⟩, ⟨lane .f32 0xFF800000, by decide⟩,
    ⟨lane .f64 1, by decide⟩, ⟨lane .i8 0, by decide⟩⟩

theorem wit_LaneExchange : ∃ s : State, (∀ i, (s.tr.lane i).late = none) ∧ s.tr.width % 32 = 0 := by
  refine ⟨withVals .i32 [1], fun i => ?_, by decide⟩
  by_cases h : i < 32
  · revert i; decide
  · have : (withVals .i32 [1]).tr.lanes.length = 32 := by decide
    simp [Troop.lane, List.getElem?_eq_none (by omega : (withVals .i32 [1]).tr.lanes.length ≤ i), Lane.reset]

theorem wit_VotesAndBallots :
    (∃ s : State, (∀ i, (s.tr.lane i).late = none) ∧ s.tr.width % 32 = 0) ∧
    ∃ (s : State) (l : Nat), inMask s.tr.dead l = true ∧ s.sp.mask &&& s.tr.dead = 0 ∧ l < 1024 :=
  ⟨wit_LaneExchange, let s := withVals .i32 [1]; ⟨{ s with tr := { s.tr with dead := 4 } }, 2, by decide⟩⟩


/-- Two blocks that end the function, after a `cbr` on value 0. -/
def cbrCode : List Nat := [0, 0x02000100, 0, 0x00010000, 0x00020000, 0, 0x07000000, 0, 0x07000000]

/-- The world of that code; value 0 of a lane is 1 in lane 0 alone, or the same in all. -/
def forked (same : Bool) : State :=
  let s := world cbrCode [(0, mkB same)]
  { s with tr := { s.tr with lanes := s.tr.lanes.modify 0 fun l => l.define 0 (mkB true) } }

theorem wit_Branches :
    (let s := forked true
     s.sp.st = .ready ∧ (∃ l, l < s.tr.width ∧ inMask s.sp.mask l = true) ∧ ¬ s.joins ⟨1, []⟩ ∧
      (∀ l, l < s.tr.width → inMask s.sp.mask l = true → (s.tr.lane l).bool 0 = true ∧ (s.tr.lane l).pat .w32 0 = 1 ∧ (s.tr.lane l).nat 0 = 1) ∧
      ([(1, ⟨1, []⟩)].map fun (c : W32 × Edge) => c.1.toNat % 2 ^ Ty.width .w32).Nodup ∧ ([⟨2, []⟩, ⟨1, []⟩] : List Edge)[1]? = some ⟨1, []⟩) ∧
    (let s := forked false
     s.sp.st = .ready ∧ (∀ p ∈ s.tr.splits, p.mask ≠ 0 ∧ p.joined = false ∧ p.converging = false ∧ p.sid < s.tr.nextId) ∧
      s.joinHere ≠ some (s.blockAt 1).off ∧ s.joinHere ≠ some (s.blockAt 2).off ∧
      (∃ l, l < s.tr.width ∧ inMask s.sp.mask l = true ∧ (s.tr.lane l).bool 0 = true) ∧
      (∃ l, l < s.tr.width ∧ inMask s.sp.mask l = true ∧ (s.tr.lane l).bool 0 = false)) ∧
    ∃ (s : State) (mh f : Nat) (es : List Edge), CanTrap s mh f ∧
      (∀ l, l < s.tr.width → inMask s.sp.mask l = true → es.length ≤ (s.tr.lane l).nat 0) ∧
      (∀ l, inMask s.sp.mask l = true → l < s.tr.width) ∧ s.sp.mask ≠ 0 := by
  refine ⟨⟨rfl, ⟨0, by decide⟩, ?_, by decide, by decide, rfl⟩, ⟨rfl, by decide, by decide, by decide, ⟨0, by decide⟩, ⟨1, by decide⟩⟩, ?_⟩
  · unfold State.joins; decide
  · refine ⟨withVals .w32 [1], 1, 0, [⟨1, []⟩], canTrap_world _ _, by decide, fun l h => ?_, by decide⟩
    by_cases w : l < 32
    · exact w
    · have : inMask (3 : Mask) l = false := by
        by_cases k : l < 1024
        · exact (by decide : ∀ l < 1024, 32 ≤ l → inMask (3 : Mask) l = false) l k (by omega)
        · simp [inMask, BitVec.getLsbD_of_ge _ _ (by omega : 1024 ≤ l)]
      exact absurd h (by simp only [withVals, world]; rw [this]; decide)

/-- The world off the focus, with the given lanes of its one troop alive. -/
def endingAs (m : Mask) : State :=
  let s := world [0] []
  ({ s with tr := { s.tr with live := m } } : State).unfocus

theorem wit_GroupsAndExit :
    (let q (m : Mask) (j : SState) : Split := { wordSplit 4 none with mask := m, group := 1, st := j }
     let t (j : SState) : Troop := { wordTroop with groups := [⟨1, 0, 1, 0, some 4, 0, none⟩], splits := [q 1 .join, q 2 j] }
     (⟨1, 0, 1, 0, some 4, 0, none⟩ : Group).parent ≠ (⟨1, 0, 1, 0, some 4, 0, none⟩ : Group).gid ∧
      (∀ x ∈ (t .join).splits, x.group = 1 ∧ x.mask ≠ 0 ∧ x.converging = false) ∧ (∀ x ∈ (t .join).splits, x.joined = true) ∧
      ∃ x ∈ (t .ready).splits, x.joined = false) ∧
    (let s := world [0] []
     s.topFrame.root = true ∧ s.sup = false ∧ s.dueBits s.sp.mask = none ∧ s.dueCmd s.sp.mask = none ∧ s.tr.newDead = [] ∧
      (∀ l, l < s.tr.width → inMask s.sp.mask l = true → (s.tr.lane l).sticky &&& reportSet = 0)) ∧
    (let s := world [0] []
     let u : State := { s with tr := { s.tr with newDead := [5], lanes := s.tr.lanes.modify 1 fun l => { l with sticky := reportSet } } }
     u.tr.newDead ≠ [] ∧ ∃ l, l < u.tr.width ∧ inMask u.sp.mask l = true ∧ (u.tr.lane l).sticky &&& reportSet ≠ 0) ∧
    (∃ c, (endingAs 0).focused = false ∧ ((endingAs 0).camps.map Camp.ref).Nodup ∧ (endingAs 0).camps.find? (fun k => k.ref = ⟨1, 0⟩) = some c ∧ (endingAs 0).campDone c = true) ∧
    ∃ c, (endingAs 3).camps.find? (fun k => k.ref = ⟨1, 0⟩) = some c ∧ (endingAs 3).campDone c = false := by
  refine ⟨by decide, by decide, ⟨by decide, 1, by decide⟩, ⟨_, rfl, by decide, rfl, by decide⟩, _, rfl, by decide⟩

theorem wit_CallsAndReturns :
    (let s := world [0, 0x07000000] []
     let u : State := { s with tr := { s.tr with hwm := 65536 } }
     (∃ m, u.module? u.sp.mh = some m) ∧ frameAbove u.topFrame.fp (u.frameMapOf u.sp.mh u.sp.func).size + (u.frameMapOf u.sp.mh 0).size ≤ u.frameLimit ∧
      ∀ l, l < 32 → inMask u.sp.mask l = true → backing u.tr.width l (frameAbove u.topFrame.fp (u.frameMapOf u.sp.mh u.sp.func).size + (u.frameMapOf u.sp.mh 0).imageBase - 1) / 65536 < u.tr.hwm) ∧
    (let s := handling [0, 0x07000000] 0
     (∃ m, s.module? s.sp.mh = some m) ∧ frameAbove s.topFrame.fp (s.frameMapOf s.sp.mh s.sp.func).size + (s.frameMapOf s.sp.mh 0).size ≤ s.frameLimit ∧ s.sup = true) ∧
    (let s := world [0] []
     let u : State := { s with sp := { s.sp with sup := some (supOf 0) }, tr := { s.tr with lanes := s.tr.lanes.map fun l => { l with frames := ⟨1, 0, 4, 8, 5, 64, false, [], false⟩ :: l.frames } } }
     u.topFrame.root = false ∧ u.endsHere = false ∧ ((u.tr.lane u.lead).frames.drop 1).head? ≠ none ∧
      (∀ l, l < u.tr.width → inMask u.sp.mask l = true → (u.tr.lane l).frames ≠ []) ∧ u.sup = true) := by
  refine ⟨⟨⟨_, rfl⟩, by decide⟩, ⟨⟨_, rfl⟩, by decide⟩, by decide⟩

/-- An outcome that is a value has one. -/
theorem ok_of {e α : Type} {x : Except e α} (h : x.toOption.isSome = true) : ∃ a, x = .ok a := by
  cases x with
  | error _ => cases h
  | ok a => exact ⟨a, rfl⟩

/-- In user mode the link's place in private memory passes its check below the high-water mark, so that `ret` can read it. -/
theorem wit_CallsAndReturns_user :
    let s := world [0] []
    let u : State := { s with tr := { s.tr with hwm := 65536 } }
    ∀ l, l < u.tr.width → inMask u.sp.mask l = true →
      ∃ ps, u.check l (privVa 64) ⟨8, 2, 8, needR, 3⟩ = .ok ps := by
  intro s u l h m
  apply ok_of
  revert l
  decide

/-- The world off the focus, its split waiting for the handler. -/
def trapping : State :=
  let s := world [0] []
  ({ s with sp := { s.sp with st := .trap ⟨xcause 0x0D false false, 7, 4⟩ } } : State).unfocus

theorem wit_ExceptionEntry :
    (∃ (s : State) (mh f cause : Nat), CanTrap s mh f ∧ cause < 256) ∧
    (∃ s : State, s.sup = false ∧ s.sp.nat = none ∧ (s.tenantOf s.lch).bind Tenant.handler = none) ∧
    (∃ (s : State) (x : Sup), s.sp.sup = some x ∧ s.sp.nat = none) ∧
    (let s := trapping; let r : SplitRef := ⟨⟨⟨1, 0⟩, 0⟩, 0⟩
     ∃ f q, s.focusOn r = some f ∧ f.cp.resident = true ∧ f.sp.st = .trap q ∧ (f.tenantOf f.lch).bind Tenant.handler = some (1, 0) ∧
      f.trapFree ≠ 0 ∧ f.sp.landed = true ∧ f.statusDue = false) ∧
    (let s : State := { trapping with trapFree := 0 }
     ∃ f, s.focusOn ⟨⟨⟨1, 0⟩, 0⟩, 0⟩ = some f ∧ f.trapFree = 0) :=
  ⟨⟨_, 1, 0, 255, canTrap_world [0] [], by decide⟩, ⟨{ world [0] [] with tenants := [] }, rfl, rfl, rfl⟩, ⟨handling [0] 0, _, rfl, rfl⟩, ⟨_, ⟨xcause 0x0D false false, 7, 4⟩, rfl, rfl, rfl, rfl, by decide, rfl, rfl⟩, ⟨_, rfl, rfl⟩⟩

/-- The world with a debugger on its leaf. -/
def debugged (pass : Bool) : State :=
  let s := world [0, 0x09000000] []
  { s with dbgs := [⟨0, [], 0, 0⟩], sp := { s.sp with passBrk := pass } }

theorem wit_TrapAndBreak :
    (∃ (s : State) (mh f : Nat), CanTrap s mh f) ∧ (∃ s : State, ∀ d ∈ s.dbgs, d.region ≠ s.lch.region) ∧ (∃ s : State, s.sup = true) ∧
    (∃ (s : State) (d : Dbg), d ∈ s.dbgs ∧ d.region = s.lch.region ∧ s.sup = false ∧ s.sp.passBrk = false) ∧
    (∃ (s : State) (x : Sup) (off len val : Nat) (code : Byte), s.sp.sup = some x ∧ x.nat = none ∧ x.cause = xcause 0x0D false false ∧
      s.itemAt x.mh x.func x.off = some ⟨off, len, val, .instr (.trap code)⟩) ∧
    (∃ p : Split, p.stop = some .brk) ∧ ∃ s : State, s.sp.passBrk = true :=
  ⟨⟨_, 1, 0, canTrap_world [0] []⟩, ⟨world [0] [], by decide⟩, ⟨handling [0] 0, rfl⟩, ⟨debugged false, _, .head _, rfl, rfl, rfl⟩,
    ⟨handling [0, 0x08000042] (xcause 0x0D false false), _, 4, 1, 0, 0x42, rfl, rfl, rfl, by decide⟩,
    ⟨{ Split.reset with stop := some .brk }, rfl⟩, ⟨debugged true, rfl⟩⟩

theorem wit_ExceptionReturn :
    (∃ (s : State) (x : Sup), s.sp.sup = some x ∧ x.cause.getLsbD 9 = true ∧ x.cause.toNat % 256 = 0x12) ∧
    (∃ (s : State) (x : Sup), s.sp.sup = some x ∧ x.cause.getLsbD 9 = true ∧ x.cause.toNat % 256 = 0x11) ∧
    (∃ (s : State) (x : Sup), s.sp.sup = some x ∧ x.cause.getLsbD 9 = false) ∧
    (∃ (s : State) (x : Sup), s.sp.sup = some x ∧ x.cause.getLsbD 10 = false) ∧
    (∃ (s : State) (x : Sup), s.sp.sup = some x ∧ x.cause.getLsbD 10 = true ∧ x.cause.getLsbD 11 = true) ∧
    (∃ (s : State) (x : Sup) (off len dst : Nat) (ty : Ty) (a b : Val), s.sp.sup = some x ∧ x.cause.getLsbD 10 = true ∧
      x.cause.getLsbD 11 = false ∧ x.nat = none ∧ s.itemAt x.mh x.func x.off = some ⟨off, len, dst, .instr (.add ty a b)⟩) :=
  ⟨⟨handling [0] (xcause 0x12 false false), _, rfl, by decide⟩, ⟨handling [0] (xcause 0x11 false false), _, rfl, by decide⟩,
    ⟨handling [0] (xcause 0x01 false false), _, rfl, by decide⟩, ⟨handling [0] (xcause 0x0C false false), _, rfl, by decide⟩,
    ⟨handling [0] (xcause 0x0E false true), _, rfl, by decide⟩,
    ⟨handling [0, 0x11100200, 0x0201] (xcause 0x0D false false), _, 4, 2, 0, .i32, 1, 2, rfl, by decide⟩⟩


/-- The active lanes of a state of the world's shape. -/
theorem act {s : State} (w : s.tr.width = 32) (m : s.sp.mask = 3) {l : Nat} (h : s.active l) : l = 0 ∨ l = 1 := by
  have h1 : l < 32 := w ▸ h.1
  have h2 : inMask 3 l = true := m ▸ h.2
  exact (by decide : ∀ l < 32, inMask (3 : Mask) l = true → l = 0 ∨ l = 1) l h1 h2

/-- Whether a check gives the places. -/
def okIs (x : Except LFault (List Spot)) (ps : List Spot) : Bool :=
  match x with
  | .ok q => decide (q = ps)
  | .error _ => false

theorem eq_of_okIs {x : Except LFault (List Spot)} {ps : List Spot} (h : okIs x ps = true) : x = .ok ps := by
  cases x with
  | ok q => exact congrArg _ (of_decide_eq_true h)
  | error _ => cases h

/-- Whether a check fails so. -/
def failsAs (x : Except LFault (List Spot)) (e : LFault) : Bool :=
  match x with
  | .ok _ => false
  | .error q => decide (q = e)

theorem eq_of_failsAs {x : Except LFault (List Spot)} {e : LFault} (h : failsAs x e = true) : x = .error e := by
  cases x with
  | ok _ => cases h
  | error q => exact congrArg _ (of_decide_eq_true h)

/-- No barrier word stands in the middle of its completion where no request is out. -/
theorem noBusy {s : State} (h : s.reqs = []) : s.NoWordBusy := fun q hq => absurd hq (by rw [h]; exact List.not_mem_nil)

/-- An access at one scratchpad place, the same in every active lane, passes its checks. -/
theorem placed_scratch (s : State) (ty : Ty) (n : Nat) (ea : Lane → Nat) (need : Need) (acc : Nat) (ps : List Spot)
    (w : s.tr.width = 32) (m : s.sp.mask = 3) (g : s.sp.grant = false) (d : s.sp.denied = false)
    (c0 : okIs (s.check 0 (ea (s.tr.lane 0)) ⟨ty.bytes, n, ty.bytes, need, acc⟩) ps = true)
    (c1 : okIs (s.check 1 (ea (s.tr.lane 1)) ⟨ty.bytes, n, ty.bytes, need, acc⟩) ps = true)
    (here : ∀ k wa, Spot.peer k wa ∉ ps) (b : s.reqs = [] := by rfl) : Placed s ty n ea need acc (fun _ => ps) :=
  ⟨g, d, fun l h => by rcases act w m h with rfl | rfl <;> (apply eq_of_okIs; assumption), fun _ _ => here, noBusy b⟩

/-- Value 0 is a scratchpad address, value 1 some data. -/
def atScratch (o : Nat) : State := withVals .addr [0xFD00000000000000 + o, 0x1234]

/-- The last four bytes of the scratchpad are in reach of a word at order rlx. -/
def lastWord : MemOpnd := ⟨.rlx, .camp, some 4, 0⟩

theorem placed_lastWord (need : Need) (acc : Nat) (h : (need, acc) ∈ [(needR, 0), (needW, 1), (needA, 2)]) :
    Placed (atScratch 65528) .w32 1 (fun l => l.ea lastWord) need acc (fun _ => [.scratch 65532]) := by
  simp only [List.mem_cons, Prod.mk.injEq, List.not_mem_nil, or_false] at h
  rcases h with ⟨rfl, rfl⟩ | ⟨rfl, rfl⟩ | ⟨rfl, rfl⟩ <;>
    exact placed_scratch _ _ _ _ _ _ _ rfl rfl rfl rfl (by decide) (by decide) (by simp)

theorem noOverlap_world (o : Nat) (ps : Nat → List Spot) : (atScratch o).NoOverlap ps := fun _ h => absurd h (by simp [atScratch, withVals, world, State.withSplit, State.reset])

theorem wit_Loads : ∃ (s : State) (i : Instr) (ty : Ty) (count : Nat) (m : MemOpnd) (ps : Nat → List Spot),
    (i = .ld ty m ∧ count = 1 ∨ ∃ n, i = .ldv ty n m ∧ count = 2 ^ n) ∧
    Placed s ty count (fun l => l.ea m) needR 0 ps ∧ s.NoOverlap ps ∧ s.OrderMet m.ord ∧ (∀ q ∈ s.reqs, q.ofSplit s.spRef = false) :=
  ⟨atScratch 65528, .ld .w32 lastWord, .w32, 1, lastWord, _, .inl ⟨rfl, rfl⟩, placed_lastWord _ _ (by simp), noOverlap_world _ _,
    ⟨rfl, fun h => absurd h (by decide)⟩, by decide⟩

theorem wit_Stores :
    (∃ (s : State) (ty : Ty) (m : MemOpnd) (ps : Nat → List Spot), Placed s ty 1 (fun l => l.ea m) needW 1 ps ∧ s.OrderMet m.ord) ∧
    (∃ (s : State) (ty : Ty) (m : MemOpnd) (ps : Nat → List Spot), Placed s ty 2 (fun l => l.ea m) needW 1 ps ∧ s.OrderMet m.ord) ∧
    ∃ (s : State) (p : Pending) (r : List Pending), s.stores = p :: r :=
  ⟨⟨_, _, lastWord, _, placed_lastWord needW 1 (by simp), ⟨rfl, fun h => absurd h (by decide)⟩⟩,
    ⟨atScratch 65520, .w32, ⟨.rlx, .camp, none, 0⟩, _,
      placed_scratch _ _ _ _ _ _ [.scratch 65520, .scratch 65524] rfl rfl rfl rfl (by decide) (by decide) (by simp), ⟨rfl, fun h => absurd h (by decide)⟩⟩,
    ⟨{ State.reset with stores := [⟨0, ⟨0, 0, 0⟩, none, 0, .rlx, [(0, 1)], 0⟩] }, _, _, rfl⟩⟩

theorem wit_Atomics :
    (∃ (s : State) (p : Spot), (Instr.atom .w32 .add lastWord 1 none).wf = true ∧ s.lch.det = false ∧
      Placed s .w32 1 (fun l => l.ea lastWord) needA 2 (fun _ => [p]) ∧ s.NoOverlap (fun _ => [p]) ∧ s.OrderMet lastWord.ord ∧
      (∀ q ∈ s.reqs, q.ofSplit s.spRef = false) ∧ ∀ bs, p = .phys bs → bs.Nodup ∧ bs.length = 4) ∧
    ∃ (s : State) (ps : Nat → List Spot), s.lch.det = true ∧ Placed s .f32 1 (fun l => l.ea lastWord) needRec 2 ps ∧ s.NoOverlap ps ∧
      s.OrderMet lastWord.ord :=
  ⟨⟨atScratch 65528, _, rfl, rfl, placed_lastWord _ _ (by simp), noOverlap_world _ _, ⟨rfl, fun h => absurd h (by decide)⟩, by decide,
      fun _ h => by cases h⟩,
    ⟨let s := atScratch 65528; { s with launches := s.launches.map fun l => { l with det := true } }, _, rfl,
      placed_scratch _ _ _ _ _ _ [.scratch 65532] rfl rfl rfl rfl (by decide) (by decide) (by simp), noOverlap_world 65528 _, ⟨rfl, fun h => absurd h (by decide)⟩⟩⟩

/-- An address under a tag that names no window, in both active lanes. -/
theorem wit_AccessTraps : ∃ (s : State) (m : MemOpnd) (mh f : Nat) (bad : Mask) (fault : LFault) (low : Nat), CanTrap s mh f ∧
    s.sp.grant = false ∧ s.sp.denied = false ∧ s.active low ∧
    s.check low ((s.tr.lane low).ea m) ⟨4, 1, 4, needR, 0⟩ = .error fault ∧
    (∀ l, inMask bad l = true ↔ s.active l ∧ ∃ e, s.check l ((s.tr.lane l).ea m) ⟨4, 1, 4, needR, 0⟩ = .error e ∧ e.cause = fault.cause) ∧
    (∀ l, s.active l → ∀ e, s.check l ((s.tr.lane l).ea m) ⟨4, 1, 4, needR, 0⟩ = .error e →
      e.cause = fault.cause ∧ low ≤ l ∨ causeRank fault.cause < causeRank e.cause) := by
  let s := withVals .addr [0xFE00000000000000]
  have c (l : Nat) (h : s.active l) : s.check l ((s.tr.lane l).ea ⟨.rlx, .camp, none, 0⟩) ⟨4, 1, 4, needR, 0⟩ = .error ⟨cWINDOW, 1, 0xFE00000000000000⟩ := by
    rcases act rfl rfl h with rfl | rfl <;> exact eq_of_failsAs (by decide)
  have a0 : s.active 0 := by unfold State.active; decide
  refine ⟨s, ⟨.rlx, .camp, none, 0⟩, 1, 0, 3, _, 0, canTrap_world _ _, rfl, rfl, a0, c 0 a0, fun l => ⟨fun h => ?_, fun h => h.1.2⟩, fun l h e he => ?_⟩
  · have hl : s.active l := by
      refine ⟨?_, h⟩
      by_cases k : l < 32
      · exact k
      · exfalso
        by_cases j : l < 1024
        · exact absurd h ((by decide : ∀ l < 1024, 32 ≤ l → ¬ inMask (3 : Mask) l = true) l j (by omega))
        · simp [inMask, BitVec.getLsbD_of_ge _ _ (by omega : 1024 ≤ l)] at h
    exact ⟨hl, _, c l hl, rfl⟩
  · rw [c l h] at he
    cases he
    exact .inl ⟨rfl, Nat.zero_le _⟩

theorem wit_FencesAndHints :
    (∃ s : State, s.FenceMet .sc) ∧
    (∃ (s : State) (n : Nat), s.unbound s.sp.mask = none ∧ releases .rel = true ∧ s.pendingOf s.sp.mask = some n) ∧
    (∃ (s : State) (g : Nat), ∀ l, s.active l → (s.tr.lane l).nat 0 = g) :=
  ⟨⟨world [0] [], rfl, fun _ => ⟨rfl, rfl⟩⟩,
    ⟨{ world [0] [] with stores := [⟨0, ⟨0, 0, 0⟩, some ⟨⟨1, 0⟩, 0⟩, 1, .rlx, [(0, 1)], 0⟩] }, 0, by decide⟩,
    ⟨withVals .w64 [65536], 65536, fun l h => by rcases act rfl rfl h with rfl | rfl <;> rfl⟩⟩

/-- A barrier word at a scratchpad address: expect 1, one arrival pending, camp scope. -/
def withWord (p e : Nat) : State :=
  let s := atScratch 65528
  { s with cp := { s.cp with scr := cellsAt 65528 (leBytes 8 (BWord.toNat ⟨false, e, p, 0, 1⟩)) } }

theorem wordAt_withWord (p e : Nat) (h : okIs ((withWord p e).check (withWord p e).lead ((withWord p e).scalar 0) accWord) [.scratch 65528] = true)
    (w : tagOf ((withWord p e).scalar 0) ≠ 0xFC) : WordAt (withWord p e) ((withWord p e).scalar 0) (.scratch 65528) :=
  ⟨rfl, rfl, w, eq_of_okIs h, (fun _ _ h => by cases h), ⟨rfl, fun c h => absurd h (List.not_mem_nil)⟩, (fun _ h => absurd h (List.not_mem_nil)), noBusy rfl⟩

theorem wit_Barriers :
    (∃ (s : State) (b : Val) (p : Spot), WordAt s (s.scalar b) p ∧ s.sup = false ∧ s.Converged ∧ s.Unreported ∧
      s.scalarD none < 2 ^ 24 ∧ wordOk (s.readPlace p 8) = true ∧ s.readsLeft = false ∧ s.FenceMet .rel ∧ s.OrderMet .rel ∧
      (BWord.ofNat (s.readPlace p 8)).parr ≤ 1) ∧
    (∃ (s : State) (b : Val) (p : Spot), WordAt s (s.scalar b) p ∧ s.sup = false ∧ s.Converged ∧ s.Unreported ∧
      wordOk (s.readPlace p 8) = true ∧ ¬ (BWord.ofNat (s.readPlace p 8)).parr ≤ 1) ∧
    (∃ (s : State) (e : Val), 1 ≤ s.scalar e ∧ s.scalar e ≤ 4095) ∧
    ∃ s : State, s.Converged ∧ s.readsLeft = true := by
  have u (p e : Nat) : (withWord p e).Unreported := ⟨rfl, rfl, rfl, rfl, fun l hl _ => (by
    have : ∀ l < 32, ((withWord 1 1).tr.lane l).sticky &&& reportSet = 0 := by decide
    exact this l hl)⟩
  refine ⟨⟨_, 0, _, wordAt_withWord 1 1 (by decide) (by decide), rfl, ⟨rfl, rfl⟩, u 1 1, by decide, by decide, rfl, ⟨rfl, fun _ => ⟨rfl, rfl⟩⟩, ⟨rfl, fun _ => ⟨rfl, rfl⟩⟩, by decide⟩,
    ⟨_, 0, _, wordAt_withWord 2 2 (by decide) (by decide), rfl, ⟨rfl, rfl⟩, u 2 2, by decide, by decide⟩, ⟨withVals .w32 [4095], 0, by decide⟩, ?_⟩
  exact ⟨let s := world [0] []
    { s with cp := { s.cp with cmds := [⟨0, .copy, 0, 0, 0, none, none, .camp, 0, 0, 64, [], [], none, none, none, none, 1, [], none, [], [], 0, 0, 0, none, [], 0, none, none⟩] } },
    ⟨rfl, rfl⟩, by decide⟩

theorem wit_BarrierWaits :
    (∃ s : State, s.sup = false ∧ s.sp.mask ≠ 0 ∧ s.sp.joined = false ∧
      (∀ q ∈ s.tr.splits, q.mask ≠ 0 ∧ q.joined = false ∧ q.sid ≠ s.sp.sid) ∧ ∃ q ∈ s.tr.splits, q.converging = false) ∧
    ∃ (s : State) (x : Sup), s.sp.sup = some x ∧ s.sp.nat = none :=
  ⟨⟨let s := world [0] []; { s with tr := { s.tr with splits := [{ s.sp with sid := 9, mask := 4 }] } }, by decide⟩, ⟨handling [0] 0, _, rfl, rfl⟩⟩

/-- A handler whose value 0 is `n`. -/
def handlingVal (n : Nat) : State :=
  let s := withVals .w64 [n]
  { s with sp := { s.sp with sup := some (supOf 0) } }

theorem wit_SystemRegisters :
    (∃ s : State, s.sup = true ∧ ∀ l, s.active l → (s.tr.lane l).nat 0 % 2 = 0) ∧
    (∃ s : State, s.sup = true ∧ ∃ l, s.active l ∧ (s.tr.lane l).nat 0 % 2 = 1) ∧
    (∃ (s : State) (mh f : Nat), CanTrap s mh f) := by
  refine ⟨⟨handlingVal 2, rfl, fun l a => ?_⟩, ⟨handlingVal 1, rfl, 0, ⟨by decide, by decide⟩, by decide⟩, ⟨_, 1, 0, canTrap_world [0] []⟩⟩
  rcases act rfl rfl a with rfl | rfl <;> decide

/-- A camp of the same launch waits for a core. -/
def offered : State :=
  let s := world [0] []
  { s with camps := [{ s.cp with ref := ⟨1, 1⟩, place := .queued }] }

theorem wit_SystemInstructions :
    (∃ s : State, s.FenceMet .sc) ∧ (∃ s : State, s.sup = false ∧ s.sp.yielded = false ∧ s.offerTaken = false) ∧
    (∃ s : State, s.sup = false ∧ s.sp.yielded = true) ∧ (∃ s : State, s.sup = false ∧ s.sp.yielded = false ∧ s.offerTaken = true) ∧
    (∃ s : State, s.sup = true ∧ s.FenceMet .ar) ∧ (∃ s : State, 7 < s.scalar 0) ∧ (∃ s : State, s.scalar 0 ≤ 7 ∧ (s.coreOf s.cp.core).move = none) ∧
    ∃ s : State, s.scalar 0 ≤ 7 ∧ (s.coreOf s.cp.core).move ≠ none :=
  ⟨⟨world [0] [], rfl, fun _ => ⟨rfl, rfl⟩⟩, ⟨world [0] [], by decide⟩,
    ⟨let s := world [0] []; { s with sp := { s.sp with yielded := true } }, rfl, rfl⟩, ⟨offered, by decide⟩,
    ⟨handling [0] 0, rfl, rfl, fun _ => ⟨rfl, rfl⟩⟩, ⟨withVals .w32 [8], by decide⟩, ⟨withVals .w32 [7], by decide⟩,
    ⟨{ withVals .w32 [3] with cores := [{ Core.reset ⟨0, 0, 0⟩ with move := some ⟨5, 2, true, false⟩ }] }, by decide⟩⟩

/-- A stream loop over one input stream of words at the end of the scratchpad. -/
def looping (t i : Nat) (out : Bool) : State :=
  let s := atScratch 65532
  { s with sp := { s.sp with loop := some ⟨t, i, 12, 50, 1, [⟨.w32, out, [(4, 1)]⟩], [0], []⟩ } }

theorem wit_StreamLoops :
    (∃ (p : Loop) (k : Nat) (x : StreamSpec) (b : Val), p.specs[k]? = some x ∧ p.bases[k]? = some b ∧ ∀ q ∈ x.pairs, q.2.toNat ≠ 0) ∧
    (∃ s : State, s.scalar 0 ≠ 0) ∧ (∃ s : State, s.scalar 0 = 0) ∧
    (∃ (s : State) (p : Loop) (ps : Nat → List Spot), s.sp.loop = some p ∧ Placed s .w32 1 (p.addr 0) needR 0 ps ∧ s.NoOverlap ps ∧
      (∀ q ∈ s.reqs, q.ofSplit s.spRef = false) ∧ s.OrderMet .rlx) ∧
    (∃ (s : State) (p : Loop) (ps : Nat → List Spot), s.sp.loop = some p ∧ Placed s .w32 1 (p.addr 0) needW 1 ps ∧ s.OrderMet .rlx) ∧
    (∃ (s : State) (p : Loop), s.sp.loop = some p ∧ p.i + 1 < p.t) ∧ ∃ (s : State) (p : Loop), s.sp.loop = some p ∧ p.t ≤ p.i + 1 :=
  ⟨⟨⟨2, 0, 12, 50, 1, [⟨.w32, false, [(4, 1)]⟩], [0], []⟩, 0, _, _, rfl, rfl, by simp⟩, ⟨withVals .w32 [1], by decide⟩, ⟨withVals .w32 [0], by decide⟩,
    ⟨looping 2 0 false, _, _, rfl, placed_scratch _ _ _ _ _ _ [.scratch 65532] rfl rfl rfl rfl (by decide) (by decide) (by simp), noOverlap_world _ _, by decide, rfl, fun h => absurd h (by decide)⟩,
    ⟨looping 2 0 true, _, _, rfl, placed_scratch _ _ _ _ _ _ [.scratch 65532] rfl rfl rfl rfl (by decide) (by decide) (by simp), rfl, fun h => absurd h (by decide)⟩,
    ⟨looping 2 0 false, _, rfl, by decide⟩, ⟨looping 2 1 false, _, rfl, by decide⟩⟩


/-! Engines -/

/-- A tensor record: plane format pl8, 64 × 32 elements, boxes of 32 × 32, rows of 64 bytes, base 0x10000. -/
def plRecord : List Byte :=
  leBytes 64 (0x10000 + 28 * 2 ^ 128 + 2 * 2 ^ 136 + 31 * 2 ^ 144 + 31 * 2 ^ 152 + 64 * 2 ^ 184 + 32 * 2 ^ 216 + 64 * 2 ^ 344)

/-- Scalars for the engines: scratchpad addresses, a length, the record's address, zero, a locator of package 0, one, the last entry; the record in scratchpad, and the page of its tensor held by the TLB. -/
def engine : State :=
  let s := withVals .w64 [0xFD00000000000000, 0xFD00000000000800, 64, 0xFD00000000001000, 0, 0, 1, 255]
  { s with
    cp := { s.cp with scr := cellsAt 0x1000 plRecord }
    tlbs := [⟨.ahead 0 0, 0, false, 1, 0x300000000, none, 15, 0⟩] }

theorem readRec_engine : engine.readRec (engine.scalar 3) = .bytes plRecord := by
  have h : okIs (engine.check engine.lead 0xFD00000000001000 accRecord) [.scratch 0x1000] = true := by decide
  have e : engine.scalar 3 = 0xFD00000000001000 := by decide
  unfold State.readRec
  rw [e, eq_of_okIs h]
  have p : leBytes 64 (engine.readPlace (.scratch 0x1000) 64) = plRecord := by decide
  simp only [p]
  rfl

theorem wit_CopyCommands :
    (∃ s : State, s.cmdCount < 16 ∧ s.FenceMet .rel ∧ s.sp.grant = false ∧ s.sp.denied = false ∧ s.finjFlip = (s, none) ∧
      (s.scalar 2 < 2 ^ 24 ∧ rangeErr s.lch.scratch (s.scalar 0) (s.scalar 2) = none ∧
        rangeErr s.lch.scratch (s.scalar 1) (s.scalar 2) = none ∧ s.localWord none 3 = ([], [])) ∧
      (∃ bs, s.readRec (s.scalar 3) = .bytes bs ∧ tcopyBreaches bs .load s.lch.scratch (s.scalar 0) ([4, 4].map s.scalar) = [] ∧
        tcopyBreaches bs .store s.lch.scratch (s.scalar 0) ([4, 4].map s.scalar) = []) ∧
      s.locBreaches (s.scalar 0) (s.scalar 1) (s.scalar 2) (some (s.scalar 5)) none 4 = []) ∧
    (∃ (s : State) (mh f : Nat), CanTrap s mh f ∧ s.cmdCount < 16 ∧ s.FenceMet .rel ∧ s.sp.grant = false ∧
      s.sp.denied = false ∧ 2 ^ 24 ≤ s.scalar 0) :=
  ⟨⟨engine, by decide, ⟨rfl, fun _ => ⟨rfl, rfl⟩⟩, rfl, rfl, rfl, by decide, ⟨plRecord, readRec_engine, by decide, by decide⟩, by decide⟩,
    ⟨withVals .w64 [2 ^ 24], 1, 0, canTrap_world _ _, by decide, ⟨rfl, fun _ => ⟨rfl, rfl⟩⟩, rfl, rfl, by decide⟩⟩

theorem wit_AccumulatorTiles :
    (∃ (t : Tile) (i : Nat), t.Rising ∧ i < 16384) ∧
    (∃ s : State, s.tr.gone (s.accRef 0) = false ∧ s.tr.changes (s.accRef 0) = true ∧ readInt .i32 (s.scalar 1) ≤ 32767 ∧
      -32768 ≤ readInt .i32 (s.scalar 1) ∧ s.tr.changes ⟨7, s.tr.ropeNow⟩ = true ∧
      (∀ l, s.active l → (s.tr.lane l).nat 2 < 128) ∧ ∀ l, s.active l → (s.tr.lane l).nat 3 / 2 ^ 18 % 4 = 0 ∧ (s.tr.lane l).nat 3 < 2 ^ 24) ∧
    (∃ x : AccEl, x.n = true) ∧
    (∃ (x : AccEl) (a b : Blk), x.n = false ∧ (a.nan || b.nan) = true) ∧
    (∃ (x : AccEl) (a b : Blk), x.n = false ∧ a.nan = false ∧ b.nan = false ∧
      let e := x.e.toInt
      let ps : List (Int × Int) := [(dot a.q0 b.q0, a.t0 + b.t0), (dot a.q0 b.q1, a.t0 + b.t1), (dot a.q1 b.q0, a.t1 + b.t0), (dot a.q1 b.q1, a.t1 + b.t1)]
      let part (p : Int × Int) : Int := if p.1 = 0 then 0 else p.1 * 2 ^ (p.2 - e).toNat
      (∀ p ∈ ps, p.1 ≠ 0 → e ≤ p.2 ∧ p.2 - e ≤ x.c.toNat) ∧
      (∀ k, k ≤ 4 → let z := x.gm.toInt + ((ps.take k).map part).sum; z < 2 ^ 63 ∧ -(2 ^ 63) ≤ z)) ∧
    ∃ (x : AccEl) (p f : Int), p ≠ 0 ∧ (x.c.toNat : Int) < f - x.e.toInt := by
  refine ⟨⟨⟨0, none, 0, AccEl.zero, [(3, AccEl.zero)]⟩, 16383, ⟨by decide, by decide⟩, by decide⟩,
    ⟨withVals .w64 [0, 0xFFFF8000, 127, 0xF3FFFF], by decide, by decide, by decide, by decide, by decide, fun l h => ?_, fun l h => ?_⟩,
    ⟨⟨0, 0, false, true, 0⟩, rfl⟩, ⟨AccEl.zero, ⟨true, 0, 0, [], []⟩, ⟨false, 0, 0, [], []⟩, by decide⟩,
    ⟨⟨5, 2, false, false, 4⟩, ⟨false, 2, 0, [3], [0]⟩, ⟨false, 4, 0, [1], [0]⟩, by decide⟩, ⟨⟨0, 0, false, false, 4⟩, 1, 5, by decide⟩⟩
  · rcases act rfl rfl h with rfl | rfl <;> decide
  · rcases act rfl rfl h with rfl | rfl <;> decide

/-- A residency of one tile, filled on core 0. -/
def oneTile (pin : Bool) : Res :=
  ⟨255, 7, 0, 0, 0, 1, 1, .pl8, .camp, pin, none, some [], [⟨0, [], [], 0, ⟨0, 0, 0⟩⟩], plRecord, [], none⟩

def resident (x : Nat) (pin : Bool) : State :=
  let s := withVals .w64 [0, 0xFD00000000000000, x, 0]
  { s with cp := { s.cp with res := [oneTile pin] }, tlbs := engine.tlbs }

theorem wit_MatrixProducts : ∃ (s : State) (fa fb : MFmt) (t : Fin 4),
    inRope s.tr.rope = false ∧ (AccRef.ofNat (s.scalar 0)).rope = none ∧ s.sp.nat = none ∧ s.sup = false ∧
    (tagOf (s.scalar 1) = 0xFD ∧ s.scalar 1 % 256 = 0 ∧ offOf (s.scalar 1) + (t.val + 1) * planeFoot fa.ty ≤ s.lch.scratch) ∧
    (∃ e w, s.cp.named false (s.scalar 2) = some e ∧ e.fmt = fb ∧ s.scalar 3 < e.tk * e.tn ∧ e.stale = none ∧
      e.tiles.find? (fun q => q.j = s.scalar 3 && q.core = s.cp.core && !e.todo.contains (s.scalar 3)) = some w) ∧
    ∃ (d : Tile) (i : Nat), d.Rising ∧ i < 16384 :=
  ⟨resident (255 + 7 * 256) false, .pl8, .pl8, 0, by decide, by decide, rfl, rfl, by decide, ⟨oneTile false, ⟨0, [], [], 0, ⟨0, 0, 0⟩⟩, by decide⟩,
    ⟨⟨0, none, 0, AccEl.zero, []⟩, 0, ⟨by decide, by decide⟩, by decide⟩⟩

/-- ROPE of the first of the members 0 and 1. -/
def ropeWord : W32 := 0xA0000010

/-- A camp of two troops, unfocused, each with one split in the given state. -/
def pair (st : SState) (rope : W32) : State :=
  let t (m : Nat) : Troop := { wordTroop with mem := m, rope := rope, splits := [{ wordSplit 4 none with st := st }] }
  { State.reset with camps := [{ wordCamp with troops := [t 0, t 1] }] }

theorem wit_Ropes :
    (∃ s : State, s.sup = false ∧ s.tr.rfault = none ∧ s.Converged ∧ inRope s.tr.rope = false ∧
      (let ms := (List.range 32).filter fun i => (s.scalar 0).testBit i
       2 ≤ ms.length ∧ ms.length ≤ 6 ∧ s.tr.mem ∈ ms ∧ ∀ k ∈ ms, k < s.lch.campsize)) ∧
    (∃ s : State, s.sup = false ∧ s.tr.rfault = none ∧ s.Converged ∧ inRope s.tr.rope = true) ∧
    (∃ (s : State) (mh f : Nat), CanTrap s mh f ∧ s.tr.rfault = none ∧ inRope s.tr.rope = false) ∧
    (∃ (s : State) (k : Camp) (rest : List Camp), s.focused = false ∧ s.camps = k :: rest ∧ (k.troops.map Troop.mem).Nodup ∧
      (∀ c ∈ rest, c.ref ≠ k.ref) ∧ (∀ u ∈ k.troops, (u.splits.map Split.sid).Nodup ∧ u.live ≠ 0) ∧
      ∃ rope, (∀ u ∈ k.members rope, u.latch = some (0, .free)) ∧ k.members rope ≠ []) ∧
    (∃ (s : State) (k : Camp), s.camps = [k] ∧ ∃ rope, ∃ u ∈ k.members rope, u.latch = none) ∧
    ∃ (s : State) (k : Camp) (set : W32), s.camps = [k] ∧ set ≠ 0 ∧
      (let ms := (List.range 32).filter fun i => set.toNat.testBit i
       (∀ m ∈ ms, ∃ u ∈ k.troops, u.mem = m ∧ inRope u.rope = false ∧ u.forms = some (0, set)) ∧ ms.length ≤ 6 ∧ ∀ m ∈ ms, m < 16) := by
  refine ⟨⟨let s := withVals .w32 [3]; { s with launches := s.launches.map fun l => { l with campsize := 2 } }, rfl, rfl, ⟨rfl, rfl⟩, by decide, by decide⟩,
    ⟨let s := world [0] []; { s with tr := { s.tr with rope := ropeWord } }, rfl, rfl, ⟨rfl, rfl⟩, by decide⟩,
    ⟨world [0] [], 1, 0, canTrap_world _ _, rfl, by decide⟩,
    ⟨pair (.rendezvous .free) ropeWord, _, [], rfl, rfl, by decide, by decide, by decide, 0, by decide, by decide⟩,
    ⟨pair .ready ropeWord, _, rfl, 0, _, .head _, by decide⟩, ⟨pair (.forming 3) 0, _, 3, rfl, by decide, by decide⟩⟩

theorem wit_Residencies :
    (∃ s : State, s.cp.named true (s.scalar 2) = none) ∧
    (∃ (s : State) (r : Res), s.cp.named true (s.scalar 2) = some r ∧ r.pin = false ∧ s.refuser .pslots r.slots s.lch.path = none ∧
      s.scalar 2 ≤ 255 ∧ s.cp.res? (s.scalar 2) = some r ∧ s.FenceMet .rel ∧
      (∃ spans, s.walkSource r.span = (s, .ok ⟨spans, false⟩)) ∧ (r.span = none ∨ r.watch ≠ none ∨ s.watches < 4096)) ∧
    (∃ (s : State) (r : Res), s.cp.named true (s.scalar 2) = some r ∧ r.pin = true) ∧
    ∃ (s s2 : State) (bs : List Byte) (f : MFmt) (spans : List (Nat × Nat)) (lo hi : Nat),
      let p : Pitch := ⟨s.scalar 3, s.scalar 4, s.scalar 4, s.scalar 6, s.scalar 6, s.scalar 7⟩
      let r := TRec.ofBytes bs
      s.FenceMet .rel ∧ s.sp.grant = false ∧ s.sp.denied = false ∧ s.sp.peerRec = none ∧
      s.readRec p.trec = .bytes bs ∧ r.ok = true ∧ r.fmt.mfmt = some f ∧ 2 ≤ r.rank ∧ s.cp.pitchArgs p = [] ∧ tagOf r.base = 0 ∧
      r.span p.i0 p.i1 p.tk p.tn = some (lo, hi) ∧ (s.noteSpan p.trec 64).walkSource (some (lo, hi)) = (s2, .ok ⟨spans, false⟩) ∧
      s2.refuser .rslots (p.tk * p.tn * f.planes) s2.lch.path = none ∧ s2.watches < 4096 := by
  refine ⟨⟨resident 254 false, by decide⟩, ⟨resident 255 false, oneTile false, by decide, rfl, by decide, by decide, by decide, ⟨rfl, fun _ => ⟨rfl, rfl⟩⟩, ⟨[(0x300000000, 0x300000800)], rfl⟩, by decide⟩,
    ⟨resident 255 true, oneTile true, by decide, rfl⟩,
    ⟨engine, engine, plRecord, .pl8, [(0x300000000, 0x300000800)], 0x10000, 0x10800, ⟨rfl, fun _ => ⟨rfl, rfl⟩⟩, rfl, rfl, rfl, readRec_engine, by decide, by decide, by decide,
      by decide, by decide, by decide, rfl, by decide, by decide⟩⟩



/-! Native slots -/

/-- Two active lanes of a troop with 32 registers, four tiles and the given nonzero registers and scalars, about to run one slot at the start of bank 0. -/
def slotted (regs : List (Nat × W32)) (scal : List (Nat × W64)) (k : NSlot) : State :=
  let s := State.reset.withHeader 0
  { s with
    launches := [{ wordLaunch with scratch := 65536, campsize := 2 }]
    tenants := [⟨0, 0, some (1, 0)⟩]
    bnd := some ⟨⟨false, 0, 0, 0, false, 0, false⟩, 8, [k], none⟩
    tlbs := engine.tlbs
    sp := { s.sp with mask := 3, scal := scal }
    tr := { s.tr with live := 3, budget := 32, tiles := 4, lanes := List.replicate 32 { Lane.reset with frames := [⟨1, 0, 0, 0xFFFFFF, 0, 0, true, [], false⟩], k := regs } } }

/-- Fields of a slot: guard g0, DST, SA, SB. -/
def nop (d a b : BitVec 7) : NOp := ⟨false, false, 0, d, a, b⟩

/-- A qualifier: TY, MD, SX, AUX. -/
def qual (ty md sx aux : Nat) : Nat := ty * 2 ^ 26 + md * 2 ^ 22 + sx * 2 ^ 14 + aux

theorem wit_NativeForms :
    let q (ty md sx aux : Nat) : Qual := Qual.ofNat (qual ty md sx aux)
    (Ty.ofCode (q 4 3 0 13).ty = some .i32 ∧ Ty.ofCode ((q 4 3 0 13).aux % 64) = some .f64 ∧ (q 4 3 0 13).md < 4 ∧ Ty.isF .f64 = true ∧ Ty.isI .i32 = true) ∧
    (Ty.ofCode (q 13 3 0 77).ty = some .f64 ∧ (q 13 3 0 77).aux / 64 = 1) ∧
    (Ty.ofCode (q 8 0 0 140).ty = some .w32 ∧ (q 8 0 0 140).aux / 64 = 2 ∧ Ty.ofCode ((q 8 0 0 140).aux % 64) = some .f32) ∧
    (Ty.ofCode (q 5 0 0 4096).ty = some .i64 ∧ (q 5 0 0 4096).auxOk = true ∧ (q 5 0 0 4096).xc = false ∧ (q 5 0 0 4096).ib = true) ∧
    (Ty.ofCode (q 2 0 1 0).ty = some .i8 ∧ (q 2 0 1 0).auxOk = true ∧ (q 2 0 1 0).sx = 1) ∧
    (Ty.ofCode (q 6 0 4 0).ty = some .w8 ∧ (q 6 0 4 0).xc = false ∧ (q 6 0 4 0).ib = false ∧ (q 6 0 4 0).auxOk = true) ∧
    (Ty.ofCode (q 8 0 1 2050).ty = some .w32 ∧ (q 8 0 1 2050).xc = true ∧ (q 8 0 1 2050).auxOk = true) ∧
    (Ty.ofCode (q 14 0 0 0).ty = some .addr ∧ (q 14 0 0 0).auxOk = true) ∧
    (Ty.isV .f32 = true ∧ Ty.ofCode (q 12 0 0 0).ty = some .f32) ∧
    (Ty.ofCode (q 9 5 0 0).ty = some .w64 ∧ Cc.ofCode (q 9 5 0 0).md = some .ge) ∧
    ((q 12 3 1 0).md < 4 ∧ (q 12 3 1 0).sx = 1) ∧ (Fcc.ofCode (q 12 5 0 0).md).isSome = true ∧
    (Ty.isHP .f32 = true ∧ (q 12 0 8 0).sx = 8 ∧ (q 12 0 8 0).xc = false ∧ (q 9 0 10 0).sx = 10) := by decide

/-- `iadd` of k4 and k6 to k8 at i32, and other A slots. -/
theorem wit_NativeArithmetic :
    (let k : NSlot := ⟨0, .natIadd (nop 8 4 6), some (qual 4 0 0 0), []⟩
     let s := slotted [(4, 5)] [] k
     s.slot k.op = k ∧ (aPlan k 0).any s.okPlan = true ∧ s.okA k = true) ∧
    (let k : NSlot := ⟨0, .natLane (nop 8 4 6), some (qual 4 0 0 0), []⟩
     let s := slotted [] [] k
     s.slot k.op = k ∧ s.okA k = true ∧ (aPlan k s.free.toNat).isSome = true) ∧
    (let k (ty src : Nat) : NSlot := ⟨0, .natCvt (nop 8 4 6), some (qual ty 0 0 (192 + src)), []⟩
     let s (ty src : Nat) : State := slotted [] [] (k ty src)
     (s 12 32).okA (k 12 32) = true ∧ accCvt (Qual.ofNat (qual 12 0 0 224)) = some true ∧
       (s 32 12).okA (k 32 12) = true ∧ accCvt (Qual.ofNat (qual 32 0 0 204)) = some false) ∧
    (let k : NSlot := ⟨0, .natMov (nop 30 4 0), some (qual 9 0 1 0), []⟩
     (slotted [] [] k).slot k.op = k ∧ (slotted [] [] k).okA k = true) ∧
    (let k : NSlot := ⟨1, .natMovi (nop 31 0 0), none, [7]⟩
     (slotted [] [] k).slot k.op = k ∧ (slotted [] [] k).okA k = true) ∧
    (let k : NSlot := ⟨0, .natMov (nop 31 4 0), some (qual 9 0 1 0), []⟩
     (slotted [] [] k).slot k.op = k ∧ (slotted [] [] k).okA k = false) := by
  refine ⟨by decide, ⟨rfl, ?_, ?_⟩, by decide, by decide, by decide, by decide⟩ <;> rfl


theorem mask3 {l : Nat} (h : inMask (3 : Mask) l = true) : l = 0 ∨ l = 1 := by
  by_cases j : l < 1024
  · exact (by decide : ∀ l < 1024, inMask (3 : Mask) l = true → l = 0 ∨ l = 1) l j h
  · simp [inMask, BitVec.getLsbD_of_ge _ _ (by omega : 1024 ≤ l)] at h

/-- A native access at one list of places, the same in both lanes, passes its checks. -/
theorem natPlaced_same (s : State) (n : NOp) (q : Qual) (lits : List Nat) (only : Option Nat) (need : Need) (acc : Nat) (ps : List Spot)
    (m : s.adm n.gd.toNat = 3) (g : s.sp.grant = false) (d : s.sp.denied = false)
    (w : ∀ l, l = 0 ∨ l = 1 → only.all (fun t => tagOf (s.natEa n q lits l) == t) = true)
    (c : ∀ l, l = 0 ∨ l = 1 → okIs (s.check l (s.natEa n q lits l) ⟨q.type.bytes, 2 ^ q.sub, q.type.bytes, need, acc⟩) ps = true)
    (here : ∀ k wa, Spot.peer k wa ∉ ps) (b : s.reqs = [] := by rfl) : NatPlaced s n q lits only need acc (fun _ => ps) :=
  ⟨g, d, fun x hx l h => (by subst hx; simpa using w l (mask3 (m ▸ h))), fun l h => eq_of_okIs (c l (mask3 (m ▸ h))), fun _ _ => here, noBusy b⟩

/-- Registers 4 and 5 hold a scratchpad address, 6 and 7 a datum of 64 bits. -/
def padRegs : List (Nat × W32) := [(4, 0xFFF8), (5, 0xFD000000), (6, 0x1234)]

/-- A memory slot on them, its qualifier the default. -/
def memSlot (i : Instr) : NSlot := ⟨2, i, none, []⟩

theorem natOrdered_slotted (i : Instr) (m : Mask) (ps : Nat → List Spot) : NatOrdered (slotted padRegs [] (memSlot i)) m .rlx ps :=
  ⟨fun _ h => absurd h (by simp [slotted, State.withHeader, State.withRegion, State.withSplit, State.reset]), ⟨rfl, fun h => absurd h (by decide)⟩⟩

/-- Memory slots in a handler, with a trap area for each lane. -/
def slottedSup (k : NSlot) : State :=
  let s := slotted [] [] k
  { s with
    sp := { s.sp with sup := some (supOf 0) }
    tr := { s.tr with lanes := s.tr.lanes.map fun l => { l with saved := some ⟨[], [], 0, []⟩ } } }

theorem wit_NativeMemory :
    (let n := nop 8 4 0
     let s := slotted padRegs [] (memSlot (.natLds n))
     let q := (memSlot (.natLds n)).q dMem
     s.okM (memSlot (.natLds n)) = true ∧ NatPlaced s n q [] (some 0xFD) needR 0 (fun _ => [.scratch 65528]) ∧
      NatOrdered s (s.adm n.gd.toNat) q.ord (fun _ => [.scratch 65528])) ∧
    (let n := nop 120 4 0
     let s := slotted padRegs [] (memSlot (.natLdg n))
     let q := (memSlot (.natLdg n)).q dMem
     s.okM (memSlot (.natLdg n)) = true ∧ NatPlaced s n q [] none needR 0 (fun _ => [.scratch 65528]) ∧
      NatOrdered s (s.adm n.gd.toNat) q.ord (fun _ => [.scratch 65528])) ∧
    (let n := nop 0 4 6
     let s := slotted padRegs [] (memSlot (.natSts n))
     let q := (memSlot (.natSts n)).q dMem
     s.okM (memSlot (.natSts n)) = true ∧ NatPlaced s n q [] (some 0xFD) needW 1 (fun _ => [.scratch 65528]) ∧ s.OrderMet q.ord) ∧
    (let n := nop 127 4 6
     let s := slotted padRegs [] (memSlot (.natAtg n))
     let q := (memSlot (.natAtg n)).q dMem
     s.okM (memSlot (.natAtg n)) = true ∧ (∃ op, AtomOp.ofCode q.sub = some op ∧ (s.lch.det && isFadd op) = false) ∧
      NatPlaced s n { q with sx := 5 + q.sx / 8 % 2 * 8 } [] none needA 2 (fun _ => [.scratch 65528]) ∧
      NatOrdered s (s.adm n.gd.toNat) q.ord (fun _ => [.scratch 65528])) ∧
    (let k : NSlot := ⟨2, .natLdp (nop 120 0 0), some (qual 8 0 13 8192), [4088]⟩
     let s := slottedSup k
     let q := k.q dMem
     s.okM k = true ∧ q.frame = true ∧ s.sup = true ∧ offOf (s.natEa (nop 120 0 0) q k.lits 0) + q.type.bytes * 2 ^ q.sub ≤ 4096) ∧
    (let k : NSlot := ⟨2, .natStp (nop 0 0 6), some (qual 8 0 13 8192), [4092]⟩
     let s := slottedSup k
     let q := k.q dMem
     s.okM k = true ∧ q.frame = true ∧ s.sup = true ∧ offOf (s.natEa (nop 0 0 6) q k.lits 0) + q.type.bytes * 2 ^ q.sub = 4096) ∧
    (let k : NSlot := memSlot (.natPrf (nop 0 4 0))
     (slotted [] [] k).okM k = true ∧ (k.q dPrf).frame = false) ∧
    (let k : NSlot := ⟨2, .natPrf (nop 0 4 6), some (qual 0 0 1 8192), []⟩
     (slotted [] [] k).okM k = true ∧ (k.q dPrf).frame = true) ∧
    (let k : NSlot := memSlot (.natFnc (nop 0 0 0))
     let s := slotted [] [] k
     s.okM k = true ∧ s.adm 0 ≠ 0 ∧ (k.q dFnc).frame = false ∧ s.unbound (s.adm 0) = none ∧ s.pendingOf (s.adm 0) = none ∧ s.dueBits (s.adm 0) = none) ∧
    (let k : NSlot := ⟨2, .natFnc (nop 0 4 6), some (qual 0 0 3 8192), []⟩
     let s := slottedSup k
     s.okM k = true ∧ s.adm 0 ≠ 0 ∧ (k.q dFnc).frame = true ∧ s.sup = true ∧ s.unbound (s.adm 0) = none ∧ s.pendingOf (s.adm 0) = none ∧ s.dueBits (s.adm 0) = none) := by
  refine ⟨⟨by decide, natPlaced_same _ _ _ _ _ _ _ _ (by decide) rfl rfl ?_ ?_ (by simp), natOrdered_slotted _ _ _⟩,
    ⟨by decide, natPlaced_same _ _ _ _ _ _ _ _ (by decide) rfl rfl ?_ ?_ (by simp), natOrdered_slotted _ _ _⟩,
    ⟨by decide, natPlaced_same _ _ _ _ _ _ _ _ (by decide) rfl rfl ?_ ?_ (by simp), ⟨rfl, fun h => absurd h (by decide)⟩⟩,
    ⟨by decide, ⟨_, rfl, rfl⟩, natPlaced_same _ _ _ _ _ _ _ _ (by decide) rfl rfl ?_ ?_ (by simp), natOrdered_slotted _ _ _⟩,
    by decide, by decide, by decide, by decide, by decide, by decide⟩ <;> rintro l (rfl | rfl) <;> decide

theorem wit_NativeMemory_private :
    let k := memSlot (.natLdp (nop 120 4 0))
    let s := slotted [(4, 64), (5, 0xFC000000)] [] k
    let u : State := { s with tr := { s.tr with hwm := 65536 } }
    u.okM k = true ∧ (∀ l, l = 0 ∨ l = 1 → tagOf (u.natEa (nop 120 4 0) (k.q dMem) [] l) = 0xFC) ∧
    ∀ l, l = 0 ∨ l = 1 → ∃ ps, u.check l (u.natEa (nop 120 4 0) (k.q dMem) [] l) ⟨4, 1, 4, needR, 0⟩ = .ok ps := by
  refine ⟨by decide, (by rintro l (rfl | rfl) <;> decide), ?_⟩
  intro l h
  apply ok_of
  rcases h with rfl | rfl <;> decide


/-- Scalars for the engines: operands of `copy` from s0, of `tcopy` from s8, of `rpitch` from s12, a handle number in s18. -/
def engineScal : List (Nat × W64) :=
  [(0, 0xFD00000000000000), (1, 0xFD00000000000800), (2, 64), (8, 0xFD00000000000000), (9, 0xFD00000000001000),
   (12, 0xFD00000000001000), (15, 1), (16, 1), (17, 255), (20, 255 + 7 * 256), (18, 255), (19, 0xFD00000000000800)]

/-- An X slot on them, a tensor record in the scratchpad, and a residency where one is given. -/
def xSlot (k : NSlot) (res : List Res) : State :=
  let s := slotted [] engineScal k
  { s with cp := { s.cp with scr := cellsAt 0x1000 plRecord, res := res } }

theorem readRec_xSlot (k : NSlot) (res : List Res) : (xSlot k res).readRec 0xFD00000000001000 = .bytes plRecord := by
  have h : okIs ((xSlot k res).check (xSlot k res).lead 0xFD00000000001000 accRecord) [.scratch 0x1000] = true := rfl
  have p : leBytes 64 ((xSlot k res).readPlace (.scratch 0x1000) 64) = plRecord := by
    have e : (xSlot k res).readPlace (.scratch 0x1000) 64 = engine.readPlace (.scratch 0x1000) 64 := rfl
    rw [e]; decide
  unfold State.readRec
  rw [eq_of_okIs h]
  simp only [p]
  rfl

/-- An X slot with a qualifier. -/
def xq (i : Instr) (q : Nat) : NSlot := ⟨3, i, some q, []⟩

theorem wit_NativeEngines_matrix :
    (let k := xq (.natMma (nop 4 0 19)) (qual 32 0 0x88 0)
     let s := xSlot k []
     let q := k.q dMma
     s.okX k = true ∧ s.adm 0 ≠ 0 ∧ s.sp.st = .ready ∧ inRope s.tr.rope = false ∧ s.sp.nat.isSome = true ∧ s.sp.matched = false ∧
      (∃ fa fb, MFmt.ofCode (q.sx / 16) = some fa ∧ MFmt.ofCode (q.sx % 16) = some fb ∧ tagOf (s.sp.scalar 0) = 0xFD ∧ s.sp.scalar 0 % 256 = 0 ∧
        offOf (s.sp.scalar 0) + (q.md + 1) * planeFoot fa.ty ≤ s.lch.scratch ∧
        tagOf (s.sp.scalar 19) = 0xFD ∧ s.sp.scalar 19 % 256 = 0 ∧ offOf (s.sp.scalar 19) + (q.md + 1) * planeFoot fb.ty ≤ s.lch.scratch)) ∧
    (let k := xq (.natMmar (nop 0 0 20)) (qual 32 0 0x88 0)
     let s := xSlot k [oneTile false]
     s.okX k = true ∧ ∃ e w, s.cp.named false (s.sp.scalar 20 % 2 ^ 32) = some e ∧ MFmt.ofCode ((k.q dMma).sx % 16) = some e.fmt ∧
      s.sp.scalar 20 / 2 ^ 32 % 2 ^ 12 < e.tk * e.tn ∧ e.stale = none ∧
      e.tiles.find? (fun x => x.j = s.sp.scalar 20 / 2 ^ 32 % 2 ^ 12 && x.core = s.cp.core && !e.todo.contains (s.sp.scalar 20 / 2 ^ 32 % 2 ^ 12)) = some w) ∧
    (let k := xq (.natAccn (nop 12 0 0)) (qual 32 0 0 0)
     let s := xSlot k []
     s.okX k = true ∧ s.tr.gone (s.groupRef 3) = false ∧ s.tr.changes (s.groupRef 3) = true) ∧
    (let k := xq (.natAcci (nop 0 16 0)) (qual 32 0 2 0)
     (xSlot k []).okX k = true ∧ (k.q dAcc).var = some 0 ∧ (xSlot k []).tr.changes ⟨0, (xSlot k []).tr.ropeNow⟩ = true) ∧
    (let k := xq (.natAcci (nop 0 20 0)) (qual 32 0 0 4096)
     let s := slotted [] [(20, 3)] k
     s.okX k = true ∧ (k.q dAcc).var = some 1 ∧ s.sp.matched = false ∧ s.sup = false ∧ s.tr.rfault = none ∧ s.tr.splits = [] ∧ s.sp.mask = s.tr.live ∧
      inRope s.tr.rope = false ∧
      (let ms := (List.range 32).filter fun b => (s.sp.scalar 20 % 2 ^ 16).testBit b
       2 ≤ ms.length ∧ ms.length ≤ 6 ∧ s.tr.mem ∈ ms ∧ ∀ b ∈ ms, b < s.lch.campsize)) ∧
    (let k := xq (.natAcci (nop 0 0 0)) (qual 32 0 0 8192)
     let s := slotted [] [] k
     let u : State := { s with tr := { s.tr with rope := ropeWord } }
     u.okX k = true ∧ (k.q dAcc).var = some 2 ∧ inRope u.tr.rope = true ∧ u.sp.matched = false) ∧
    (let k := xq (.natMma ⟨false, false, 1, 4, 0, 19⟩) (qual 32 0 0x88 0)
     (xSlot k []).okX k = true ∧ (xSlot k []).adm 1 = 0) := by
  refine ⟨⟨by decide, by decide, rfl, by decide, rfl, rfl, .pl8, .pl8, by decide⟩, ⟨by decide, oneTile false, ⟨0, [], [], 0, ⟨0, 0, 0⟩⟩, by decide⟩, by decide, by decide,
    by decide, by decide, by decide⟩

theorem wit_NativeEngines_commands :
    (let k := xq (.natCopy (nop 0 0 0)) (qual 0 0 5 0)
     let s := xSlot k []
     s.okX k = true ∧ cmdForm k = some (0xC0, 3, ⟨0, 0, 5, 0⟩, nop 0 0 0) ∧ (∃ j, build 0xC0 0 0 5 (List.range 3) [] = .ok j) ∧
      s.cmdCount < 16 ∧ s.FenceMet .rel ∧ s.sp.grant = false ∧ s.sp.denied = false ∧ s.finjFlip = (s, none) ∧
      s.sp.scalar 2 < 2 ^ 24 ∧ rangeErr s.lch.scratch (s.sp.scalar 0) (s.sp.scalar 2) = none ∧ rangeErr s.lch.scratch (s.sp.scalar 1) (s.sp.scalar 2) = none ∧
      s.localWord none 3 = ([], [])) ∧
    (let k := xq (.natTcopy (nop 120 8 0)) (qual 9 0 5 2)
     let s := xSlot k []
     s.okX k = true ∧ cmdForm k = some (0xC1, 4, ⟨9, 0, 5, 2⟩, nop 120 8 0) ∧ (∃ j, build 0xC1 9 0 5 (List.range 4) [] = .ok j) ∧
      s.readRec (s.sp.scalar 9) = .bytes plRecord ∧ s.sp.peerRec = none ∧
      tcopyBreaches plRecord .load s.lch.scratch (s.sp.scalar 8) ([10, 11].map s.sp.scalar) = [] ∧ s.localWord none 4 = ([], [])) ∧
    (let k := xq (.natRstrike (nop 120 18 0)) (qual 8 0 0 12288)
     (xSlot k []).okX k = true ∧ (k.q dStrike).var = some 3) ∧
    (let k := xq (.natRstrike (nop 0 18 0)) (qual 0 0 1 0)
     (xSlot k []).okX k = true ∧ (k.q dStrike).var = some 0 ∧ ∃ r, (xSlot k [oneTile false]).cp.named true ((xSlot k []).sp.scalar 18) = some r) ∧
    (let k := xq (.natRstrike (nop 0 18 0)) (qual 0 0 1 4096)
     let s := xSlot k [oneTile false]
     s.okX k = true ∧ (k.q dStrike).var = some 1 ∧ s.refuser .pslots (oneTile false).slots s.lch.path = none ∧ s.cp.res? 255 = some (oneTile false)) ∧
    (let k := xq (.natRstrike (nop 0 18 0)) (qual 0 0 1 8192)
     (xSlot k [oneTile true]).okX k = true ∧ (k.q dStrike).var = some 2) := by
  refine ⟨⟨by decide, rfl, ⟨_, rfl⟩, by decide, ⟨rfl, fun _ => ⟨rfl, rfl⟩⟩, rfl, rfl, rfl, by decide, by decide, by decide, rfl⟩,
    ⟨by decide, rfl, ⟨_, rfl⟩, readRec_xSlot _ _, rfl, by decide, rfl⟩, by decide, ⟨by decide, by decide, oneTile false, by decide⟩, by decide, by decide⟩

theorem wit_NativeEngines_residencies :
    (let k := xq (.natRpitch (nop 120 18 0)) (qual 34 0 8 0)
     let s := xSlot k [oneTile false]
     s.okX k = true ∧ s.sp.scalar 18 ≤ 255 ∧ s.cp.res? (s.sp.scalar 18) = some (oneTile false)) ∧
    (let k := xq (.natRpitch (nop 0 18 0)) (qual 0 0 16 0)
     let s := xSlot k [oneTile false]
     s.okX k = true ∧ s.FenceMet .rel ∧ s.cp.res? (s.sp.scalar 18) = some (oneTile false) ∧
      ∃ spans, s.walkSource (oneTile false).span = (s, .ok ⟨spans, false⟩)) ∧
    (let k := xq (.natRpitch (nop 120 12 0)) (qual 34 0 1 0)
     let s := xSlot k []
     let p : Pitch := ⟨s.sp.scalar 12, s.sp.scalar 13, s.sp.scalar 14, s.sp.scalar 15, s.sp.scalar 16, s.sp.scalar 17⟩
     let r := TRec.ofBytes plRecord
     s.okX k = true ∧ (∃ sc, Scope.ofCode (k.q dPitch).sx = some sc) ∧ s.readRec p.trec = .bytes plRecord ∧ r.ok = true ∧ r.fmt.mfmt = some .pl8 ∧
      2 ≤ r.rank ∧ s.cp.pitchArgs p = [] ∧ tagOf r.base = 0 ∧ r.span p.i0 p.i1 p.tk p.tn = some (0x10000, 0x10800) ∧
      (s.noteSpan p.trec 64).walkSource (some (0x10000, 0x10800)) = (s, .ok ⟨[(0x300000000, 0x300000800)], false⟩) ∧
      s.FenceMet .rel ∧ s.refuser .rslots (p.tk * p.tn * MFmt.planes .pl8) s.lch.path = none ∧ s.watches < 4096) := by
  refine ⟨by decide, ⟨by decide, ⟨rfl, fun _ => ⟨rfl, rfl⟩⟩, by decide, [(0x300000000, 0x300000800)], rfl⟩,
    ⟨by decide, ⟨.camp, by decide⟩, readRec_xSlot _ _, by decide, by decide, by decide, by decide, by decide, by decide, rfl, ⟨rfl, fun _ => ⟨rfl, rfl⟩⟩, by decide, by decide⟩⟩

theorem wit_NativeEngines_overlays_ports :
    (let k : NSlot := ⟨3, .ovl (nop 0 0 1), none, []⟩
     let s := slotted [] [(0, 0), (1, 64 * 65536)] k
     s.okX k = true ∧ s.finjMiss = (s, false) ∧ ∃ p, s.sp.nat = some p ∧ s.bankUsed s.cp.core (otherBank p.bank) = false ∧
      ((s.coreOf s.cp.core).bank (otherBank p.bank)).st ≠ .valid) ∧
    (let s := slotted [] [] ⟨5, .prd ⟨false, 15, 31, 0, 0, 7, 3, 0⟩, none, []⟩
     s.okP true false ⟨false, 15, 31, 0, 0, 7, 3, 0⟩ = true ∧ s.okP false true ⟨false, 0, 0, 15, 31, 7, 3, 0⟩ = true ∧
      s.okP true true ⟨false, 1, 0, 0, 0, 7, 3, 0⟩ = true ∧ s.okP true true ⟨false, 1, 0, 1, 0, 7, 3, 0⟩ = false) := by
  refine ⟨⟨by decide, rfl, natStart, by decide⟩, by decide⟩


/-- A C slot without qualifier. -/
def cs (i : Instr) (lits : List Nat) : NSlot := ⟨4, i, none, lits⟩

/-- Private pages up to the high-water mark. -/
def withPrivate (s : State) : State := { s with tr := { s.tr with hwm := 65536 } }

theorem wit_NativeControl :
    (let ok (k : NSlot) : Bool := (slotted [] [] k).okC k
     ok (cs (.natBr (nop 1 2 3)) []) = true ∧ ok (cs (.natBrc (nop 1 2 3)) [0x1FFFFF]) = true ∧ ok (cs (.brsw (nop 1 2 3)) [0xFFFFFF, 5]) = true ∧
      ok (cs (.ifence (nop 2 0 0)) [64]) = true ∧ ok (cs (.natCall (nop 0 0 0)) [1, 64]) = true ∧ ok (cs (.natRet (nop 0 0 0)) []) = true ∧
      ok (cs (.join (nop 0 0 0)) []) = true ∧ ok (cs (.point (nop 0 0 0)) []) = true ∧ ok (cs (.natExit (nop 0 0 0)) []) = true ∧
      ok ⟨4, .natTrap (nop 0 0 0), some (qual 0 0 0x42 0), []⟩ = true ∧ ok ⟨4, .natTrap (nop 0 0 0), some (qual 0 0 0 4096), []⟩ = true ∧
      ok ⟨4, .natTrap (nop 0 0 0), some (qual 0 0 1 8192), []⟩ = true ∧ ok ⟨4, .natTrap (nop 0 0 0), some (qual 0 0 1 12288), []⟩ = true ∧
      ok ⟨4, .srd (nop 2 0x10 0), some (qual 9 0 0 0), []⟩ = true ∧ ok ⟨4, .srd (nop 2 6 0), some (qual 9 0 1 0), []⟩ = true ∧
      ok ⟨4, .srd (nop 0 0x0E 2), some (qual 8 0 0 8192), []⟩ = true ∧ ok ⟨4, .sadd (nop 31 0 0), some (qual 9 0 5 4096), [7, 0]⟩ = true ∧
      ok ⟨4, .smov (nop 31 0 0), some (qual 9 0 2 0), [7, 0]⟩ = true ∧ ok ⟨4, .scmp (nop 2 0 1), some (qual 5 5 0 0), []⟩ = true ∧
      ok (cs (.natYield (nop 14 0 0)) []) = true) ∧
    (let s := slotted [] [] (cs (.natBr (nop 0 0 0)) [])
     s.otherLoading = false ∧ s.adm 0 ≠ 0 ∧ s.adm 1 = 0 ∧ (∀ e ∈ s.sp.lq, e.2.landed = true) ∧ s.sp.fp + s.frameOf s.sp.mh 0 ≤ s.frameLimit ∧
      s.sup = false ∧ s.sp.grant = false ∧ s.sp.denied = false ∧ s.topFrame.root = true ∧ s.gate s.sp.mask = none ∧ s.dueBits (s.adm 0) = none ∧
      s.dueCmd (s.adm 0) = none ∧ s.tr.newDead = [] ∧ (∃ x, s.module? s.sp.mh = some x) ∧ (s.tenantOf s.lch).bind Tenant.handler = some (1, 0) ∧
      s.sp.nat.isSome = true ∧ s.trapFree ≠ 0 ∧ s.sp.rewind.landed = true ∧ s.statusDue = false ∧ s.dbgs = [] ∧ lanesOf s.tr.width s.sp.mask ≠ [] ∧
      (∀ p g, s.sp.nat = some p → s.tr.group? s.sp.group = some g →
        ¬ (g.nat = some p.off ∧ g.mh = s.sp.mh ∧ g.func = s.sp.func ∧ g.depth = depthKey s.sup (s.tr.depth s.sp.mask))) ∧
      s.sp.yielded = false ∧ s.offerTaken = false ∧ s.FenceMet .sc) ∧
    (let s := slottedSup (cs (.natRet (nop 0 0 0)) [])
     s.sup = true ∧ ∃ l x, s.active l ∧ (s.tr.lane l).saved = some x) ∧
    (let s := slotted [] [] (cs (.natYield (nop 14 0 0)) [])
     ({ s with sp := { s.sp with yielded := true } } : State).sup = false) := by
  refine ⟨by decide, ⟨rfl, by decide, by decide, by decide, by decide, rfl, rfl, rfl, rfl, rfl, rfl, rfl, rfl, ⟨_, rfl⟩, rfl, rfl, by decide, rfl, rfl, rfl,
    by decide, (fun p g _ h => by cases h), rfl, rfl, rfl, fun _ => ⟨rfl, rfl⟩⟩, ⟨rfl, 0, ⟨[], [], 0, []⟩, ?_, by decide⟩, rfl⟩
  unfold State.active; decide

theorem wit_NativeControl_links :
    let s := withPrivate (slotted [] [] (cs (.natCall (nop 0 0 0)) [4, 64]))
    s.sup = false ∧ ∀ l, l = 0 ∨ l = 1 →
      backing s.tr.width l (s.sp.fp + 64 + 15) / 65536 < s.tr.hwm ∧ ∃ ps, s.check l (privVa s.sp.fp) ⟨8, 2, 8, needR, 3⟩ = .ok ps := by
  refine ⟨rfl, fun l h => ⟨?_, ok_of ?_⟩⟩ <;> rcases h with rfl | rfl <;> decide

/-- A barrier slot on the word of scalar 0, which expects `e` arrivals and has `p` pending. -/
def barrierSlot (p e : Nat) (k : NSlot) : State :=
  let s := slotted [] [(0, 0xFD0000000000FFF8)] k
  { s with cp := { s.cp with scr := cellsAt 65528 (leBytes 8 (BWord.toNat ⟨false, e, p, 0, 1⟩)) } }

theorem wordAt_barrierSlot : let s := barrierSlot 1 1 (cs (.barr (nop 2 0 1)) [])
    WordAt s (s.sp.scalar 0) (.scratch 65528) :=
  ⟨rfl, rfl, by decide, eq_of_okIs (by decide), (fun _ _ h => by cases h), ⟨rfl, fun c h => absurd h List.not_mem_nil⟩, (fun _ h => absurd h List.not_mem_nil), noBusy rfl⟩

theorem wit_NativeControl_barriers :
    (let k : NSlot := cs (.barr (nop 2 0 1)) []
     let s := barrierSlot 1 1 k
     WordAt s (s.sp.scalar 0) (.scratch 65528) ∧ s.sup = false ∧ s.okC k = true ∧ s.adm 0 ≠ 0 ∧ s.sp.st = .ready ∧ s.sp.arrived = false ∧ s.sp.word = none ∧
      s.FenceMet .rel ∧ (k.q dZero).v = 0 ∧ s.Converged ∧ s.Unreported ∧ s.sp.scalar 1 < 2 ^ 24 ∧ wordOk (s.readPlace (.scratch 65528) 8) = true ∧
      (BWord.ofNat (s.readPlace (.scratch 65528) 8)).parr ≤ 1) ∧
    (let k : NSlot := ⟨4, .barr (nop 0 0 1), some (qual 0 0 0 4096), []⟩
     let s := barrierSlot 2 2 k
     s.okC k = true ∧ (k.q dZero).v = 1 ∧ wordOk (s.readPlace (.scratch 65528) 8) = true ∧ ¬ (BWord.ofNat (s.readPlace (.scratch 65528) 8)).parr ≤ 1) ∧
    (let k : NSlot := ⟨4, .barr (nop 0 0 1), some (qual 0 0 5 12288), []⟩
     let s := slotted [] [(0, 0xFD0000000000FFF8), (1, 4095)] k
     s.okC k = true ∧ (k.q dZero).v = 3 ∧ s.campDue = none ∧ 1 ≤ s.sp.scalar 1 ∧ s.sp.scalar 1 ≤ 4095) ∧
    (let k (v : Nat) : NSlot := ⟨4, .bwait (nop (if v = 2 then 2 else 0) 0 (if v = 1 then 0 else 15)), some (qual 0 0 0 (4096 * v)), []⟩
     (∀ v < 3, (barrierSlot 1 1 (k v)).okC (k v) = true ∧ ((k v).q dWait).v = v) ∧
      (BWord.ofNat ((barrierSlot 1 1 (k 0)).readPlace (.scratch 65528) 8)).phase = ((barrierSlot 1 1 (k 0)).tr.lane (barrierSlot 1 1 (k 0)).lead).guard 15) := by
  have lanes (k : NSlot) : ∀ l, l < (barrierSlot 1 1 k).tr.width → ((barrierSlot 1 1 k).tr.lane l).sticky &&& reportSet = 0 :=
    (by decide : ∀ l < 32, ((barrierSlot 1 1 (cs (.barr (nop 2 0 1)) [])).tr.lane l).sticky &&& reportSet = 0)
  exact ⟨⟨wordAt_barrierSlot, rfl, by decide, by decide, rfl, rfl, rfl, ⟨rfl, fun _ => ⟨rfl, rfl⟩⟩, rfl, ⟨rfl, rfl⟩, ⟨rfl, rfl, rfl, rfl, fun l h _ => lanes _ l h⟩, by decide, by decide, by decide⟩,
    by decide, by decide, by decide⟩


/-- Bank 0 holds a header and one A slot, `iadd` of k3 and k2 to k5. -/
def bundled : State :=
  let s := slotted [] [] (cs (.natBr (nop 0 0 0)) [])
  { s with bnd := none, cores := [{ Core.reset ⟨0, 0, 0⟩ with b0 := ⟨.valid, none, 1, [0], leBytes 4 0 ++ leBytes 4 0x80014182, [], false⟩ }] }

/-- The same split off the focus, with the rows of a quarter due. -/
def due : State :=
  let s := bundled
  let t : State := { s with camps := [], sp := { s.sp with mp := [⟨0, 0, 3, [], [], 0, true, none⟩] } }
  t.unfocus

theorem wit_Bundles :
    (let s := bundled
     let h : Hdr := ⟨false, 0x20, 0, 0, false, 0, true⟩
     ∃ p b ss, s.sp.nat = some p ∧ s.natBank = some b ∧ b.bundle s.cp.core.die p.off h = some ss ∧ s.landDue.okBundle ss = true ∧
      s.landDue.atNatPoint.headWait (heads h ss) = none ∧ s.landDue.atNatPoint.room ss = true ∧
      (∀ k ∈ ss, (s.landDue.atNatPoint.slotStop k).isNone = true) ∧ ss ≠ []) ∧
    (let s := bundled
     ∃ p b, s.sp.nat = some p ∧ s.natBank = some b ∧ b.bundle s.cp.core.die p.off ⟨false, 0x20, 0, 0, false, 3, false⟩ = none ∧
      s.sup = false ∧ ((s.tenantOf s.lch).bind Tenant.handler).isSome = true) ∧
    (∃ (s : State) (b : Bundle) (k k' : NSlot) (r : List NSlot), s.bnd = some b ∧ s.sp.mask ≠ 0 ∧ b.rest = k :: k' :: r) ∧
    (let k := cs (.natBr (nop 0 0 0)) []
     let s := slotted [] [] k
     ∃ b p, s.bnd = some b ∧ s.sp.mask ≠ 0 ∧ b.rest = [k] ∧ s.sp.nat = some p ∧ s.sp.pw = [] ∧ p.pend = none ∧
      ∃ u : State, ∃ q, u.sp.nat = some q ∧ q.pend = some (.cond 64 1 none)) ∧
    (∃ f p, due.focusOn ⟨⟨⟨1, 0⟩, 0⟩, 0⟩ = some f ∧ f.sp.mp = [] ++ p :: [] ∧ (∀ w ∈ ([] ++ [] : List MPend), w.left ≠ 0 ∧ (w.op ≠ p.op ∨ w.quarter ≠ p.quarter)) ∧ p.left = 0 ∧ p.own = true ∧ p.was = none ∧ f.sp.trapping = false ∧ f.sup = false ∧ (f.accTile (AccRef.ofNat p.acc)).Rising) := by
  refine ⟨⟨natStart, _, [⟨0, .natIadd (⟨true, false, 0, 5, 3, 2⟩ : NOp), none, []⟩], rfl, rfl, by decide, by decide, rfl, by decide, by decide, by decide⟩,
    ⟨natStart, _, rfl, rfl, by decide, rfl, rfl⟩,
    ⟨{ bundled with bnd := some ⟨⟨false, 0, 0, 0, false, 0, false⟩, 12, [cs (.join (nop 0 0 0)) [], cs (.point (nop 0 0 0)) []], none⟩ }, _, _, _, _, rfl, by decide, rfl⟩,
    ⟨_, _, rfl, by decide, rfl, rfl, rfl, rfl, { bundled with sp := { bundled.sp with nat := some { natStart with pend := some (.cond 64 1 none) } } }, _, rfl, rfl⟩,
    ⟨_, _, rfl, rfl, by decide, rfl, rfl, rfl, rfl, rfl, by decide, by decide⟩⟩


/-! Commands -/

/-- A command of master 0 with the given operands. -/
def cmdOf (code : Byte) (a0 a1 a2 a3 a4 a5 : W64) : Cmd := ⟨0, 0x77, code, false, a0, a1, a2, a3, a4, a5, 0⟩

/-- The package after reset with master 0 as its owner. -/
def ownedBy0 : State := { State.reset with owner := some 0 }

theorem wit_CompletionRecords :
    (let s : State := { State.reset with masters := [{ Master.reset 0 with en := true, clog2 := 4, cpbase := 0x1000, cpidx := 15 }] }
     let x := s.master 0
     x.en = true ∧ x.link = true ∧ x.cpdrop = 0 ∧ memNat s.mem (hostPhys (x.cpbase.toNat + 64 * (x.cpidx.toNat % 2 ^ x.clog2))) 8 = 0) ∧
    (let s : State := { ownedBy0 with ember := .ember }
     s.focused = false ∧ s.ember ≠ .running ∧ s.owner = some 0) ∧
    (State.reset.focused = false ∧ State.reset.ember = .running ∧ State.reset.owner ≠ some (cmdOf 0x04 7 0 0 0 0 0).master ∧ (cmdOf 0x04 7 0 0 0 0 0).a0.toNat < 8) ∧
    (cmdOf 0x01 31 0 0 0 0 0).a0.toNat < 32 := by decide

theorem wit_OwnerSettings :
    (let s := ownedBy0
     s.focused = false ∧ (cmdOf 0 0 0 0 0 0 0).rsv = false ∧ s.ember = .running ∧ s.owner = some (cmdOf 0 0 0 0 0 0 0).master ∧ s.brownout = false ∧
      s.emberByBrown = false ∧ s.pkg = 0 ∧ (∀ k ∈ s.camps, k.resident = false) ∧ s.claims = [] ∧
      (∃ x, s.dies.find? (fun d => d.die = 7) = some x ∧ x.fenced = false)) ∧
    (let a (w : W64) : Nat := (cmdOf 0 w 0 0 0 0 0).a0.toNat
     (32 ≤ a 4096 ∧ a 4096 ≤ 4096 ∧ a 4096 % 32 = 0) ∧ (5000 ≤ a 200000 ∧ a 200000 ≤ 200000) ∧ a 319 < 320 ∧ (100 ≤ a 100 ∧ a 100 ≤ 100000)) ∧
    (let c := cmdOf 0x13 1023 (0x1C1 + 2 ^ 55) 0 0 0 0
     let entry : BitVec 256 := c.a4 ++ c.a3 ++ c.a2 ++ c.a1
     c.a0.toNat < 1024 ∧ entry.extractLsb' 0 2 ≠ 3 ∧ entry.extractLsb' 2 4 = 0 ∧ entry.extractLsb' 9 46 = 0 ∧ entry.extractLsb' 200 16 = 0 ∧ entry.extractLsb' 0 2 ≠ 2) ∧
    (let c := cmdOf 0x14 4095 (2 ^ 47 - 64) 0 0 0 0
     1 ≤ c.a0.toNat ∧ c.a0.toNat < 4096 ∧ c.a1.toNat + 64 ≤ 2 ^ 47) ∧
    (cmdOf 0x15 (2 ^ 47 - 432) 0 0 0 0 0).a0.toNat + 432 ≤ 2 ^ 47 ∧
    (let c := cmdOf 0x16 255 5144576 0 0 0 0
     c.a0.toNat ≤ 255 ∧ c.a1.toNat ≤ (0x6000000000 - ((ownedBy0.reserved.filter fun r => inHbm r.1).map fun r => r.2 - r.1).sum) / 65536) ∧
    (let s : State := { ownedBy0 with dies := [{ Die.reset 7 with fenced := true }] }
     ∃ x, s.dies.find? (fun d => d.die = 7) = some x ∧ x.fenced = true) ∧
    (let c := cmdOf 0x54 0x17000 0x0FFFFF03 0 0 0 0
     ownedBy0.finjBad c.a0.toNat = false ∧ c.a1.toNat / 2 ^ 28 % 16 = 0) ∧
    (let c := cmdOf 0x54 0 3 0 0 0 0
     ownedBy0.finjBad c.a0.toNat = false ∧ c.a1.toNat / 2 ^ 28 % 16 = 0 ∧ c.a1.toNat / 2 ^ 11 % 2 ^ 13 = 0 ∧ c.a1.toNat / 8 % 32 = 0 ∧ c.a1.toNat / 2 % 4 ≠ 3) ∧
    (let c := cmdOf 0x57 (2 ^ 47 - 64) 2 0 0 0 0
     2 * 8 * min c.a1.toNat ownedBy0.reserved.length + c.a0.toNat ≤ 2 ^ 47) := by
  refine ⟨by decide, by decide, by decide, by decide, by decide, by decide, by decide, by decide, by decide, by decide⟩

theorem wit_AcceptedInEmber :
    (∀ e ∈ [Ember.entering, .ember], let s : State := { ownedBy0 with ember := e }
      s.focused = false ∧ s.owner = some 0 ∧ s.brownout = false ∧ s.emberByBrown = false) ∧
    (let c : Cmd := { cmdOf 0x30 7 1900 60000 0 0 0 with master := 4 }
     let s : State := { State.reset with capSeq := some 6 }
     4 ≤ c.master ∧ 400 ≤ c.a1.toNat ∧ c.a1.toNat ≤ 1900 ∧ 10 ≤ c.a2.toNat ∧ c.a2.toNat ≤ 60000 ∧ c.a0.toNat < 2 ^ 32 ∧
      (∀ q, s.capSeq = some q → 1 ≤ (BitVec.ofNat 32 c.a0.toNat - q).toNat ∧ (BitVec.ofNat 32 c.a0.toNat - q).toNat < 2 ^ 31)) ∧
    (let c : Cmd := { cmdOf 0x30 7 400 10 0 0 0 with master := 4 }
     let s : State := { State.reset with capSeq := some 7 }
     ¬ ∀ q, s.capSeq = some q → 1 ≤ (BitVec.ofNat 32 c.a0.toNat - q).toNat ∧ (BitVec.ofNat 32 c.a0.toNat - q).toNat < 2 ^ 31) ∧
    (let c := cmdOf 0x31 1023 2 0 0 0x1000 0
     c.a0.toNat < 1024 ∧ State.reset.subBad c.master ⟨c.a0.toNat, c.a4 ++ c.a3 ++ c.a2 ++ c.a1, c.master, true⟩ = false) ∧
    (let c := cmdOf 0x38 (2 ^ 47 - 32) 0x1000 0 0 0 0
     c.a0.toNat + 32 ≤ 2 ^ 47 ∧ c.a1.toNat + 17072 ≤ 2 ^ 47) ∧
    (cmdOf 0x3A (2 ^ 47 - 16736) 0 0 0 0 0).a0.toNat + 16736 ≤ 2 ^ 47 := by
  refine ⟨by decide, ⟨by decide, by decide, by decide, by decide, by decide, by decide, ?_⟩, ?_, by decide, by decide, by decide⟩
  · rintro q h
    cases h
    decide
  · intro c s h
    exact absurd (h 7 rfl) (by decide)

theorem leBytes_len (n v : Nat) : (leBytes n v).length = n := by
  induction n generalizing v with
  | zero => rfl
  | succ n ih => simp [leBytes, ih]

/-- A report with its signatures has 17,072 bytes. -/
theorem test_report_length (s : State) (n : List Byte) (h : n.length = 32) (m : (s.meas.flatMap fun m => leBytes 48 m.toNat).length = 384) :
    (s.report n ++ leBytes 16608 (Config.attestSig (s.report n)).toNat).length = 17072 := by
  rw [List.length_append, leBytes_len]
  unfold State.report
  simp [h, m, leBytes_len]


/-- Addresses of a tenant's root block, of a leaf below it, of its page tree and of its event ring. -/
def rootA : Nat := 0x300000000
def leafA : Nat := 0x300000080

/-- A range descriptor with every permission. -/
def rangeOf (base limit target kind tier pkg : Nat) : List Byte :=
  leBytes 32 (base + limit * 2 ^ 64 + 15 * 2 ^ 160 + kind * 2 ^ 164 + tier * 2 ^ 166 + pkg * 2 ^ 183 + target * 2 ^ 192)

/-- The tenant's blocks in memory: region 1 with its tree and ring, region 2 with function 0 of module 1 on one troop of 32 lanes; the tree's one leaf, with a direct range of 0x10000 to 0x80000, a paged one of one page and a peer one; the radix tables of the paged range. -/
def blocks : List Host.Cell :=
  [(0x300000000, 1), (0x300000002, 1), (0x300000028, 1), (0x30000002a, 1), (0x30000002c, 3), (0x300000032, 1)] ++
  [(0x300000080, 3), (0x300000082, 2), (0x30000008c, 3), (0x3000000c0, 1), (0x3000000c8, 5), (0x3000000c9, 1), (0x3000000cc, 1)] ++
  [(0x300010002, 1), (0x30001000a, 8), (0x300010014, 95), (0x30001001c, 18), (0x300010023, 1), (0x30001002a, 1), (0x30001002b, 1), (0x300010034, 47), (0x30001003a, 8), (0x30001003c, 3), (0x300010043, 2), (0x30001004a, 1), (0x30001004b, 2), (0x300010054, 63), (0x300010056, 128), (0x300010057, 2)] ++
  [(0x300080000, 1), (0x300080002, 9), (0x300080004, 3)] ++
  [(0x300090000, 1), (0x300090004, 19)]

/-- The cells are those of the blocks' fields. -/
theorem test_blocks : blocks =
    (cellsAt rootA (leBytes 128 (1 + 2 ^ 16 + 0x300010001 * 2 ^ 320 + 0x10000 * 2 ^ 384)) ++
      cellsAt leafA (leBytes 128 (3 + 2 * 2 ^ 16 + rootA * 2 ^ 64 + 2 ^ 512 + 5 * 2 ^ 576 + 2 ^ 584 + 2 ^ 608)) ++
      cellsAt 0x300010000 (rangeOf 0x10000 0x80000 0x1200000000 1 1 0 ++ rangeOf 0x1000000 0x1010000 0x300080000 2 0 0 ++ rangeOf 0x2000000 0x2010000 0 3 0 5) ++
      cellsAt 0x300080000 (leBytes 8 0x300090001) ++ cellsAt 0x300090000 (leBytes 8 0x1300000001)).filter fun c => c.2 != 0 := by decide +kernel

/-- A tenant bound to master 1, with master 0 as the owner of the package and module 1 loaded. -/
def tenancy : State :=
  { ownedBy0 with mem := blocks, tenants := [⟨rootA, 1, none⟩], modules := [{ wordModule (leBytes 4 0 ++ leBytes 4 0x07000000) with tenant := rootA, signed := true }], nextMh := 2 }

/-- A queue's descriptor: valid, 16 records, bound to the tenant's root. -/
def descriptor : List Byte := leBytes 64 (1 + 4 * 2 ^ 4 + rootA * 2 ^ 192 + 0x20000 * 2 ^ 256 + 0x30000 * 2 ^ 320)

/-- The launch of the leaf and its camp. -/
def tenantLaunch : Launch := { wordLaunch with lid := 7, leaf := leafA, root := rootA, region := 2, rcbs := [] }

theorem path_tenancy : (tenancy.path leafA).isSome = true := by decide


/-- A module image of one function that returns: header, two sections, hash. -/
def image : List Byte := leBytes 256 0x70000000000000000000000000000000000000000000000000000000000000000000000000000000000000000000000000000000000000000a5000100000000000000080000000000000000000000000000000000000000000000000000000000000000000000000000000000000008000000c000000002000000000000002000000080000000010000000000000000625dadb354e814a6343449ac59074928e69b26b3ab57fd10ff0b40d43a380a32000000000000010000000001000000020000000346505957

/-- The image passes the checks of a load for the tenant, its hash among them. -/
theorem test_load_image : tenancy.refuses ⟨image, sectsOf image, 0x40000, 0x50000, 0x60000, rootA⟩ = none := by decide +kernel

theorem wit_QueuesTenantsModules :
    (let c := cmdOf 0x10 4095 0x1000 0 0 0 0
     let s : State := { tenancy with mem := tenancy.mem ++ cellsAt (hostPhys 0x1000) descriptor }
     let v := leNat (memBytes s.mem (hostPhys c.a1.toNat) 64)
     s.focused = false ∧ c.rsv = false ∧ s.ember = .running ∧ c.a0.toNat < 4096 ∧ c.a1.toNat + 64 ≤ 2 ^ 47 ∧ s.entitled c.master (fld v 192 64) = true ∧ v % 2 = 1 ∧
      s.descBad v = false ∧ (∀ r ∈ (s.queueOf c.a0.toNat).recs, r.2 = true)) ∧
    (let c := cmdOf 0x10 4095 (2 ^ 47 - 64) 0 0 0 0
     leNat (memBytes tenancy.mem (hostPhys c.a1.toNat) 64) % 2 = 0 ∧ tenancy.entitled c.master 0 = true ∧ tenancy.entitled c.master (tenancy.queueOf 4095).bind.toNat = true) ∧
    (let c := cmdOf 0x12 (BitVec.ofNat 64 rootA) 3 1 0 0 0
     handlerArg c.a2 = some (1, 0) ∧ tenancy.rootOk c.a0.toNat = true ∧ c.a1.toNat < 4 ∧ tenancy.handlerOk c.a0.toNat (handlerArg c.a2) = true ∧
      (∃ x ∈ tenancy.tenants, x.root = c.a0.toNat) ∧ (∀ l ∈ tenancy.launches, l.root = c.a0.toNat → l.done = true)) ∧
    ((tenancy.path leafA).isSome = true ∧ tenancy.entitled 1 leafA = true) ∧
    (let s : State := { tenancy with launches := [tenantLaunch], camps := [{ wordCamp with ref := ⟨7, 0⟩ }] }
     s.leafOk leafA = true ∧ s.campOfLeaf leafA 0 = some ⟨7, 0⟩ ∧ (s.launch 7).cohort = false ∧ (∃ k ∈ s.camps, k.ref = ⟨7, 0⟩ ∧ k.place = .on ⟨0, 0, 0⟩) ∧ (s.camps.map Camp.ref).Nodup) ∧
    (∃ m, tenancy.module? 1 = some m ∧ tenancy.entitled 1 m.tenant = true ∧ ∀ l ∈ tenancy.launches, l.mh = 1 → l.done = true) ∧
    (let l : Load := ⟨[], sectsOf [], 0, 0, 0, rootA⟩
     l.db % 65536 = 0 ∧ tenancy.rootOk l.root = true ∧ tenancy.entitled 0 l.root = true ∧ tenancy.refuses l = some 1) ∧
    (let c : Cmd := cmdOf 0x18 0x1000 256 0x40000 0x50000 0x60000 (BitVec.ofNat 64 rootA)
     let s : State := { tenancy with mem := tenancy.mem ++ cellsAt (hostPhys 0x1000) image }
     let im := memBytes s.mem (hostPhys c.a0.toNat) c.a1.toNat
     let l : Load := ⟨im, sectsOf im, c.a2.toNat, c.a3.toNat, c.a4.toNat, c.a5.toNat⟩
     c.a0.toNat + c.a1.toNat ≤ 2 ^ 47 ∧ l.db % 65536 = 0 ∧ l.cb % 65536 = 0 ∧ l.tb % 65536 = 0 ∧ s.rootOk l.root = true ∧ s.entitled c.master l.root = true ∧
      s.refuses l = none ∧ (s.cacheRoom l.pages).isSome = true ∧ (({ s with tcFree := 0 } : State).cacheRoom 2).isNone = true) := by
  refine ⟨by decide +kernel, by decide +kernel, by decide +kernel, by decide +kernel, by decide +kernel, ⟨{ wordModule (leBytes 4 0 ++ leBytes 4 0x07000000) with tenant := rootA, signed := true }, by decide +kernel⟩, by decide +kernel, by decide +kernel⟩

theorem wit_PoolCommands :
    (let c := cmdOf 0x17 0 (32769 * 65536) 0 0 0 0
     ownedBy0.focused = false ∧ ownedBy0.ember = .running ∧ ownedBy0.owner = some c.master ∧ c.a0.toNat < 2 ∧ c.a1.toNat ≤ 2 ^ 36 ∧ c.a1.toNat % 65536 = 0 ∧
      (ownedBy0.pool false).size < c.a1.toNat / 65536 ∧ ownedBy0.resTop false + 65536 * (c.a1.toNat / 65536 - (ownedBy0.pool false).size) ≤ tierHi false) ∧
    ((cmdOf 0x17 1 0 0 0 0 0).a1.toNat / 65536 ≤ (ownedBy0.pool true).size) ∧
    (let c := cmdOf 0x50 1 0x2000 2 0 0 0
     let s : State := { ownedBy0 with mem := cellsAt (hostPhys 0x2000) (leBytes 8 0x10200000000 ++ leBytes 8 0x10200010000) }
     let ps := (List.range 2).map fun i => memNat s.mem (hostPhys (c.a1.toNat + 8 * i)) 8
     ps.Nodup ∧ ∀ p ∈ ps, p % 65536 = 0 ∧ tierLo true ≤ p ∧ p < tierHi true ∧ ∀ r ∈ (s.pool true).free, p < r.1 ∨ r.1 + 65536 * r.2 ≤ p) := by
  refine ⟨by decide, by decide, by decide⟩

/-- A debugger of master 1 on the leaf; its one troop stopped before the `ret` of block 0. -/
def attached : State :=
  { tenancy with
    launches := [tenantLaunch]
    dbgs := [⟨2, [(3, 0, 4)], 0, 0⟩]
    camps := [{ wordCamp with ref := ⟨7, 0⟩, troops := [{ wordTroop with lanes := List.replicate 32 { Lane.reset with frames := [⟨1, 0, 0, 0xFFFFFF, 0, 0, true, [(0, mkB true)], false⟩] }, splits := [{ wordSplit 4 none with stop := some .brk }] }] }] }

theorem wit_DebugCommands :
    (let s : State := { attached with dbgs := [] }
     s.focused = false ∧ s.ember = .running ∧ (∃ l, s.launchOfRegion 2 = some l ∧ s.mayDebug 1 l = true) ∧ s.dbgs.length < 256) ∧
    (let s := attached
     (∃ l, s.launches.find? (fun l => l.region = 2 && s.dbgs.any fun d => d.region = 2) = some l ∧ s.mayDebug 1 l = true) ∧
      (∃ r u x, s.troopNamed 1 0 0 = some r ∧ s.troop? r = some u ∧ s.splitNamed r 0 = some x) ∧
      (∃ d, s.dbgOf 1 = some d ∧ (s.dbgs.map Dbg.region).Nodup) ∧
      ∃ x f, s.splitLast 1 0 = some x ∧ s.focusOn x = some f ∧ f.tr.width = 32) := by
  refine ⟨⟨rfl, rfl, ⟨tenantLaunch, by decide⟩, by decide⟩, ⟨tenantLaunch, by decide⟩, ⟨⟨⟨7, 0⟩, 0⟩, _, ⟨⟨⟨7, 0⟩, 0⟩, 0⟩, by decide, rfl, by decide⟩, ⟨⟨2, [(3, 0, 4)], 0, 0⟩, by decide⟩,
    ⟨⟨⟨7, 0⟩, 0⟩, 0⟩, _, by decide, rfl, rfl⟩

/-- The split under single-step at an `add` of value 0 with itself, in a module of `const`, `add` and `ret`. -/
def stepped : State :=
  { attached with
    modules := [{ wordModule ([0, 0x10200000, 5, 0x11200200, 0, 0x07000000].flatMap (leBytes 4)) with tenant := rootA }]
    camps := [{ wordCamp with ref := ⟨7, 0⟩, troops := [{ wordTroop with lanes := List.replicate 32 { Lane.reset with frames := [⟨1, 0, 0, 0xFFFFFF, 0, 0, true, [(0, ⟨.w32, 5⟩)], false⟩] }, splits := [{ wordSplit 12 none with stop := some .step, stepping := true }] }] }] }

theorem wit_DebugCommands_values :
    let s := stepped
    ∃ x f ty, s.splitLast 1 0 = some x ∧ s.focusOn x = some f ∧ f.holding 0 = some (.val ty) ∧ ty ≠ .acc ∧ f.tr.width = 32 ∧
      (BitVec.ofNat 1024 (leNat (memBytes s.mem (hostPhys 0x3000) 128)) : Mask) &&& ~~~f.sp.mask = 0 := by
  refine ⟨⟨⟨⟨7, 0⟩, 0⟩, 0⟩, _, .w32, by decide, rfl, ?_, by decide, rfl, by decide⟩
  show State.holding _ 0 = _
  decide


theorem test_tree :
    tenancy.walk 0x300010001 0x10008 = .ok ⟨.phys 0x1200000008, true, true, true, true, 0⟩ ∧
    tenancy.walk 0x300010001 0x1000008 = .ok ⟨.phys 0x1300000008, true, true, true, true, 0⟩ ∧
    tenancy.walk 0x300010001 0x2000008 = .ok ⟨.peer 5 8, true, true, true, true, 0⟩ := ⟨rfl, rfl, rfl⟩

theorem wit_OwnershipAndRegisters :
    let s := State.reset
    (s.owner = none ∧ s.poolWaits false = false ∧ s.poolWaits true = false ∧ s.hoff = none) ∧
    (let u : State := { ownedBy0 with hoff := some 0 }
     u.owner = some 0 ∧ u.htgt = 0 ∧ u.stamp.toNat < 100000000 ∧ ({ u with stamp := 100000000 } : State).stamp.toNat = 100000000) ∧
    (let u : State := { ownedBy0 with stamp := 1000000000, masters := [{ Master.reset 0 with link := false }] }
     u.owner = some 0 ∧ (u.master 0).link = false ∧ (u.master 0).linkLost + 1000000000 ≤ u.stamp.toNat) ∧
    s.masters.find? (fun y => y.m = 3) = some (Master.reset 3) ∧
    (let w : W32 := 0x104
     let x : Master := { Master.reset 3 with crdb := 16 }
     w.toNat / 256 % 2 = 1 ∧ 4 ≤ w.toNat % 16 ∧ w.toNat % 16 ≤ 12 ∧ x.crbase.toNat % 4096 = 0 ∧ x.crbase.toNat < 2 ^ 48 ∧ x.cpbase.toNat % 4096 = 0 ∧
      x.cpbase.toNat < 2 ^ 48 ∧ x.crdb ≠ 0 ∧ x.crdb.toNat ≤ 2 ^ (w.toNat % 16)) ∧
    (let x : Master := { Master.reset 3 with en := true, clog2 := 4, crhead := 0xFFFFFFF8 }
     (8 - x.crhead).toNat ≤ 2 ^ x.clog2 ∧ 2 ^ x.clog2 < (9 - x.crhead).toNat) := by decide

/-- A core in the middle of a move between operating points. -/
def moving (relocked : Bool) (mail : Option Nat) : State :=
  { State.reset with cores := [{ Core.reset ⟨0, 0, 0⟩ with cur := 5, mail := mail, move := some ⟨5, 3, true, relocked⟩ }] }

/-- A subscription of master 1 to kind 2, threshold 100 and hysteresis 4, with its words in the tenant's memory. -/
def subscription (armed : Bool) : Sub := ⟨0, 2 + 4 * 2 ^ 96 + 100 * 2 ^ 128 + 0x10000 * 2 ^ 192, 1, armed⟩

theorem wit_PowerManagement :
    (((moving false none).coreOf ⟨0, 0, 0⟩).move = some ⟨5, 3, true, false⟩ ∧ ((moving true none).coreOf ⟨0, 0, 0⟩).move = some ⟨5, 3, true, true⟩ ∧
      ((moving true none).coreOf ⟨0, 0, 0⟩).mail = none ∧ ((moving true (some 4)).coreOf ⟨0, 0, 0⟩).mail = some 4 ∧ (4 : Nat) ≠ ((moving true (some 4)).coreOf ⟨0, 0, 0⟩).cur) ∧
    State.reset.dies.find? (fun y => y.die = 7) = some (Die.reset 7) ∧
    (let s : State := { tenancy with launches := [tenantLaunch], cores := [{ Core.reset ⟨0, 0, 0⟩ with charge := [(⟨7, 0⟩, 5)] }] }
     (s.coreOf ⟨0, 0, 0⟩).charge = [(⟨7, 0⟩, 5)] ∧ ((s.launch 7).path.map Rcb.addr).Nodup) ∧
    (∀ armed, let x := subscription armed
      let s : State := { tenancy with subs := [x] }
      x.kind = 2 ∧ s.rootOfMaster x.master = some rootA ∧ (s.notifyPlace (s.rcbAt rootA).tree x.naddr 16).isSome = true ∧ x.falling = false ∧
      x.thresh ≤ 100 ∧ ¬ x.thresh ≤ 99 ∧ (95 : Int) < x.thresh - x.hyst ∧ ¬ (96 : Int) < x.thresh - x.hyst) ∧
    (let s : State := { State.reset with lease := some 10, stamp := 10 }
     s.lease = some 10 ∧ 10 ≤ s.stamp.toNat ∧ ({ s with stamp := 9 } : State).stamp.toNat < 10) := by decide

/-- A camp on core 0 of die 0, its launch to be shed: the package has been above its cap with every core at OP0 for 10 ms. -/
def shedding : State :=
  { State.reset with launches := [wordLaunch], camps := [{ wordCamp with troops := [wordTroop] }], power := 1900001, atOp0 := some 0, stamp := 10000000 }

theorem wit_GatingAndPeriods :
    (let k : CoreId := ⟨0, 0, 0⟩
     let s (t : W64) : State := { State.reset with stamp := t, cores := [Core.reset k] }
     (s 20000).ember = .running ∧ ((s 20000).coreOf k).pow = .up ∧ (s 20000).coreIdle k = true ∧ ((s 20000).coreOf k).idle + (s 20000).hold ≤ (s 20000).stamp.toNat ∧
      (s 19999).stamp.toNat < ((s 19999).coreOf k).idle + (s 19999).hold ∧ shedding.coreIdle k = false ∧
      ∀ w, let u : State := { State.reset with cores := [{ Core.reset k with pow := .offing 5, wake := w }] }
        (u.coreOf k).pow = .offing 5 ∧ (u.coreOf k).wake = w ∧ u.dies.find? (fun y => y.die = k.die) = some (Die.reset 0)) ∧
    (let x : Die := { Die.reset 0 with queue := [(⟨0, 0, 0⟩, 0), (⟨0, 0, 1⟩, 0), (⟨0, 0, 2⟩, 0), (⟨0, 0, 3⟩, 0)] }
     let s : State := { State.reset with dies := [x], stamp := 4000 }
     s.dies.find? (fun y => y.die = 0) = some x ∧ (∀ q ∈ x.queue, q.2 < roundBegan s.stamp.toNat) ∧ roundBegan 3999 = 0 ∧
      (x.queue.filter fun q => q.2 < roundBegan s.stamp.toNat).length ≤ 4) ∧
    (let k : CoreId := ⟨0, 0, 0⟩
     let s (n : Nat) : State := { shedding with
       camps := [{ wordCamp with troops := [{ wordTroop with splits := [wordSplit 4 none] }] }], cores := [{ Core.reset k with sinceAge := n, issues := 64 }] }
     (s 64).focused = false ∧ 64 ≤ ((s 64).coreOf k).sinceAge ∧ ((s 63).coreOf k).sinceAge < 64 ∧
      ∃ c ∈ (s 64).camps, c.issuesOn k = true ∧ ∃ u ∈ c.troops, ∃ p ∈ u.splits, p.st = .ready ∧ p.stop = none ∧ p.mask ≠ 0 ∧ p.waited = false ∧
        p.issued + 64 ≤ ((s 64).coreOf k).issues) ∧
    ∃ x j, shedding.focused = false ∧ shedding.shedNext = some x ∧ shedding.sheds = true ∧ (shedding.launch x.ref.lid).cohort = false ∧
      x.place = .on j ∧ (shedding.camps.map Camp.ref).Nodup := by
  refine ⟨by decide, by decide, by decide, _, ⟨0, 0, 0⟩, rfl, rfl, by decide, rfl, rfl, by decide⟩

theorem wit_SupplyAndReset :
    (∀ e : Ember, ∀ b : Bool, let s : State := { State.reset with ember := e, emberByBrown := b }
      s.focused = false ∧ s.ember = e ∧ s.emberByBrown = b) ∧
    (∀ g : Stage, let ok := Config.rsaOk Config.fwKeys.1 g.image (g.sigs.take Config.rsaSigBytes) && Config.slhOk Config.fwKeys.2 g.image (g.sigs.drop Config.rsaSigBytes)
      ok = true ∨ ok = false) ∧
    inHost 0x800000000000 = true ∧ inHost 0 = false ∧ Memory.wf [(5, 1)] = true := by
  exact ⟨fun e b => ⟨rfl, rfl, rfl⟩, fun g => Bool.eq_false_or_eq_true _, by decide⟩

/-- A port in a state. -/
def onPort (x : Port) (now : W64) : State := { State.reset with ports := [x], stamp := now }

/-- A flit of zeros but for its CRC. -/
def zeroFlit : List Byte := List.replicate 244 0 ++ leBytes 4 (crc32 (List.replicate 244 0)).toNat ++ List.replicate 8 0

theorem wit_PortageLinks :
    (∀ st : LinkSt, (onPort { Port.reset 17 with st := st } 0).ports.find? (fun y => y.p = 17) = some { Port.reset 17 with st := st }) ∧
    (flitOk zeroFlit = true ∧ flitSeq zeroFlit = (Port.reset 17).rxSeq ∧ flitSeq zeroFlit ≠ ({ Port.reset 17 with rxSeq := 1 } : Port).rxSeq ∧ flitOk [] = false) ∧
    (let x : Port := { Port.reset 17 with rate := 168 }
     x.st = .up ∧ x.rate < 224 ∧ x.since + 10000000000 ≤ (onPort x 10000000000).stamp.toNat ∧ (onPort x 9999999999).stamp.toNat < x.since + 10000000000) ∧
    (let x : Port := { Port.reset 17 with st := .retraining }
     (onPort x 100000).stamp.toNat ≤ x.since + 100000 ∧ x.rate ≠ 56 ∧ x.since + 100000 < (onPort x 100001).stamp.toNat) ∧
    (let x : Port := { Port.reset 17 with st := .lost }
     x.since + 1000000000 ≤ (onPort x 1000000000).stamp.toNat ∧ (onPort x 999999999).stamp.toNat < x.since + 1000000000) ∧
    (let s := onPort (Port.reset 17) 0
     s.focused = false ∧ ∀ q ∈ s.reqs, q.port = 17 → q.acked = true ∨ 512 ≤ q.pkg) := by
  refine ⟨fun st => by cases st <;> rfl, ⟨rfl, by decide⟩, by decide⟩


/-- The tenant's launch as its blocks in memory give it, its one camp resident. -/
def tenant : State :=
  (({ tenancy with launches := [tenantLaunch], camps := [{ wordCamp with ref := ⟨7, 0⟩, troops := [wordTroop] }] } : State).reread 7)

/-- A reduction that a peer applies while its barrier word waits. -/
def lastOrb : PeerReq := ⟨1, 5, 0, .orb ⟨7, 0⟩ ⟨0, .f32, 0, .ne, 0, 0, 0, 0, 0, [0x1200000000]⟩, .load, 4, 0, 0, 0, false, 0⟩

theorem wit_HostAccesses :
    (ownedBy0.focused = false ∧ (4096 * 4095 : W64).toNat = 4096 * 4095) ∧
    (let s : State := { tenancy with owner := some 1, reqs := [lastOrb] }
     s.completing = true ∧ (s.linkUp 1).hostHeld 1 .physical 0x1200000000 8 (.store (leBytes 8 0)) = true ∧
      (s.linkUp 1).hostHeld 1 .tenant 0x10000 8 (.store (leBytes 8 0)) = true) ∧
    (let s := ownedBy0
     let bs (a n : Nat) : List Nat := (List.range n).map fun i => a + i
     s.completing = false ∧ s.ember = .running ∧ s.boot = .running ∧ s.owner = some 0 ∧
      ((∀ b ∈ bs 0x6000000000 1, s.isReserved b = false) ∧ ∃ b ∈ bs 0x6000000000 1, physOk b = false) ∧
      ((∀ b ∈ bs 0x5FFFFFFFF8 8, physOk b = true ∧ s.isReserved b = false) ∧ s.poisoned (bs 0x5FFFFFFFF8 8) = false) ∧
      (0x5FFFFFFFF8 % Ty.bytes .w64 = 0) ∧ (s.owner ≠ some 1 ∧ ∃ b ∈ bs 0 1, s.isReserved b = true) ∧ s.rootOfMaster 1 = none) ∧
    (let s := tenancy
     s.rootOfMaster 1 = some rootA ∧ ∃ t ps, s.engSpots .mgmt 0 (s.rcbAt rootA).tree (s.rootPath rootA) needR [0x10000, 0x10001] = (t, .ok ps) ∧
      ∀ p ∈ ps, ∃ b, p.2 = .phys [b]) ∧
    (let s : State := { State.reset with reqs := [{ lastOrb with by_ := .host 0 }] }
     s.masters.find? (fun y => y.m = 0) = some (Master.reset 0) ∧ (Master.reset 0).link = true ∧ ∃ q ∈ s.reqs, q.by_ = .host 0) := by
  refine ⟨by decide, by decide, by decide, ⟨by decide, _, _, rfl, ?_⟩, by decide⟩
  intro p hp
  rcases List.mem_cons.1 hp with rfl | h
  · exact ⟨_, rfl⟩
  · rcases List.mem_singleton.1 h with rfl
    exact ⟨_, rfl⟩

/-- The page that the paged range holds, moved to a free page of the capacity pool. -/
def migrating : State := { tenancy with lowmark := 40000, capp := ⟨1, [(0x10200000000, 1)], false⟩ }

/-- The entry of a page that is being moved, alone in memory. -/
def moved : Migr := ⟨rootA, 0x1000000, 0x300090000, 0x1300000001, 0x1300000000, 0x10200000000, true⟩

theorem wit_FencingAndErrors :
    (∀ b : Bool, let s : State := { State.reset with dies := [{ Die.reset 7 with fenced := b }] }
      s.focused = false ∧ s.dies.find? (fun y => y.die = 7) = some { Die.reset 7 with fenced := b }) ∧
    ((∃ k ∈ tenant.camps, k.resident = true) ∧ (∀ k ∈ State.reset.camps, k.resident = false) ∧ State.reset.claims = []) ∧
    (let s := migrating
     ∃ d a v p, s.level2 (s.rcbAt rootA).tree 0x1000000 = some (d, a, v) ∧ (∀ m ∈ s.migs, m.entry ≠ a) ∧ s.moves (s.rcbAt rootA).tree d v = some true ∧
      s.capp.takeAt 0x10200000000 = some p) ∧
    (∀ v : W64, v = 0x1300000001 ∨ v = 0x1300000000 → let s : State := { State.reset with mem := (cellsAt 0x300090000 (leBytes 8 v.toNat)).filter (fun c => c.2 != 0), migs := [moved] }
      Machine.Inv s ∧ s.migs[0]? = some moved ∧ memNat s.mem moved.entry 8 = v.toNat) ∧
    (moved.old.toNat = 0x1300000001 ∧ moved.src % 65536 = 0 ∧ moved.dst % 65536 = 0 ∧ moved.src ≠ moved.dst ∧ moved.entry + 8 ≤ min moved.src moved.dst) ∧
    (let s := tenant
     s.focused = false ∧ (({ s with cores := [{ Core.reset ⟨0, 0, 0⟩ with b0 := { Bank.reset with st := .loading } }] } : State).coreOf ⟨0, 0, 0⟩).b0.st ≠ .empty ∧
      (∃ k, s.camps.find? (fun y => y.ref = ⟨7, 0⟩) = some k ∧ k.resident = true)) := by
  refine ⟨fun b => ⟨rfl, by cases b <;> rfl⟩, by decide, ⟨_, _, _, _, rfl, by decide, by decide, rfl⟩, ?_, by decide, ⟨rfl, by decide, _, rfl, rfl⟩⟩
  rintro v (rfl | rfl) <;> refine ⟨?_, rfl, rfl⟩ <;> unfold Machine.Inv <;> decide

/-- Exports of the tenant: the window addresses 0x100 to 0x200 onto its direct range, for package 9 alone; the scratchpads of region 2. -/
def exporting : State :=
  { tenant with
    exports := [(0, BitVec.ofNat 256 (1 + 7 * 2 ^ 6 + 9 * 2 ^ 55 + 1 * 2 ^ 64 + 0x10000 * 2 ^ 88 + 0x200 * 2 ^ 144 + 0x100 * 2 ^ 200)),
      (1, BitVec.ofNat 256 (2 + 2 ^ 7 + 9 * 2 ^ 55 + 2 * 2 ^ 64))]
    launches := tenant.launches.map fun l => { l with scratch := 65536 } }

/-- A request of the lane 3 of the tenant's troop. -/
def asked (b : ReqBy) (pkg : Nat) : PeerReq := ⟨4, pkg, 0, b, .load, 4, 0, 1000, 0, true, 0⟩

theorem wit_PeerTraffic :
    (let s := exporting
     s.focused = false ∧ (({ s with ember := .ember } : State).ember ≠ .running) ∧ s.ember = .running ∧ s.boot = .running ∧ s.completing = false ∧
      s.windowEntry 8 0x100 = none ∧ s.windowEntry 9 0x200 = none ∧
      (∃ e, s.scratchEntry 9 2 = some e ∧ exW e = true) ∧
      (∃ c, s.landCamp 2 0 = some c ∧ 65532 + (leBytes 4 5).length ≤ (s.launch c.ref.lid).scratch ∧ (∀ k ∈ s.camps, k.ref = c.ref → k.place ≠ .packed))) ∧
    (let s := exporting
     ∃ t bs, s.inCheck 9 0x1FC 4 needR = (t, .ok bs)) ∧
    (let s := exporting
     ∃ t bs, s.inCheck 9 0x1FC (leBytes 4 5).length needW = (t, .ok bs) ∧ bs.length = (leBytes 4 5).length ∧ bs.Nodup ∧ s.updateHeld bs (.store (leBytes 4 5)) = false) ∧
    (let s : State := { exporting with reqs := [{ lastOrb with by_ := .orb ⟨7, 0⟩ ⟨0, .f32, 0, .ne, 0, 0, 0, 0, 0, [0x12000000FC]⟩ }] }
     ∃ t bs, s.inCheck 9 0x1FC (leBytes 4 5).length needW = (t, .ok bs) ∧ s.completing = true ∧ s.updateHeld bs (.store (leBytes 4 5)) = true) ∧
    (let s (b : ReqBy) (pkg : Nat) (now : W64) : State := { tenant with reqs := [asked b pkg], stamp := now }
     let x : TroopRef := ⟨⟨7, 0⟩, 0⟩
     (∀ b ∈ [ReqBy.load ⟨x, 0⟩ 3 0 .w32 0 1, .store x 3, .host 1], (s b 5 0).req? 4 = some (asked b 5)) ∧
      (asked (.host 1) 5).time ≤ (s (.host 1) 5 1000).stamp.toNat ∧ (s (.host 1) 5 999).stamp.toNat < (asked (.host 1) 5).time ∧ (5 < 512 ∧ 512 ≤ 512) ∧
      (s (.host 1) 5 0).req? 3 = none ∧ ∃ u, (s (.store x 3) 512 0).troop? x = some u ∧ 3 < u.lanes.length ∧ (u.lane 3).frames ≠ []) := by
  refine ⟨⟨rfl, by decide, rfl, rfl, rfl, by decide, by decide, ⟨_, rfl, by decide⟩, _, rfl, by decide, by decide⟩, ⟨_, _, rfl⟩, ⟨_, _, rfl, by decide, by decide, by decide⟩,
    ⟨_, _, rfl, by decide, by decide⟩, by decide, by decide, by decide, by decide, by decide, _, rfl, by decide, by decide⟩


/-- The world of a `ret`, its one split at offset 0 in a state, off the focus. -/
def standing (st : SState) : State :=
  let s := State.reset.withSplit ([0, 0x07000000].flatMap (leBytes 4)) { wordSplit 0 none with st := st }
  ({ s with tenants := [⟨0, 0, some (1, 0)⟩] } : State).unfocus

/-- The same with the region of its key in bank 0 of its core. -/
def inBank (st : SState) : State :=
  let s := standing st
  match s.focusOn ⟨⟨⟨1, 0⟩, 0⟩, 0⟩ with
  | some f => s.withRegion { f.spKey with origin := false } []
  | none => s

/-- The claim that the split waits for. -/
def claimed : State :=
  match (standing .parked).focusOn ⟨⟨⟨1, 0⟩, 0⟩, 0⟩ with
  | some f => { standing (.claim 3) with claims := [⟨3, f.spKey, 1, 0, 0, 0, ⟨⟨⟨1, 0⟩, 0⟩, 0⟩, [], false, 0⟩] }
  | none => State.reset

/-- A module whose function begins with no BLOCK record, which verification refuses. -/
def unverified : State := { claimed with modules := [wordModule (leBytes 4 0x07000000)] }

/-- A bank in which one overlay is being done, of 64 bytes of the code cache's page 0. -/
def overlaying (code : List Byte) (sum : W32) : State :=
  { State.reset with
    tcache := [⟨⟨0, false, 0, 0, 0, 0, 0, 0, 0, 0, false⟩, 0, 2, 4096, [], code, [], 16, 0, true, false, false, []⟩]
    cores := [{ Core.reset ⟨0, 0, 0⟩ with b0 := ⟨.loading, none, 1, [], [], [(0, 64, 0, sum, ⟨1, 0⟩)], false⟩ }] }

theorem wit_TranslationService :
    (let r : SplitRef := ⟨⟨⟨1, 0⟩, 0⟩, 0⟩
     (∃ f, (standing .parked).focusOn r = some f ∧ f.sp.st = .parked ∧ f.vfail? f.spKey.hash f.spKey.func = none ∧ (f.module? f.sp.mh).isSome = true ∧
        f.invalidHere = false ∧ f.cached f.spKey f.sp.mh = none ∧ f.claims.find? (fun c => c.key = f.spKey) = none) ∧
      (∃ f c, ({ claimed with camps := (standing .parked).camps } : State).focusOn r = some f ∧ f.sp.st = .parked ∧ f.cached f.spKey f.sp.mh = none ∧
        f.claims.find? (fun c => c.key = f.spKey) = some c) ∧
      (∃ f e b, (inBank .parked).focusOn r = some f ∧ f.sp.st = .parked ∧ f.vfail? f.spKey.hash f.spKey.func = none ∧ f.invalidHere = false ∧
        f.cached f.spKey f.sp.mh = some e ∧ (e.key.origin = true → e.hit = true) ∧ f.cp.oldb = none ∧ (f.coreOf f.cp.core).bankOf f.spKey f.sp.mh = some b ∧
        f.cp.resident = true ∧ f.repeated = false ∧ f.sp.rq = false)) ∧
    (let s := claimed
     ∃ c m, s.focused = false ∧ s.claims.find? (fun x => x.n = 3) = some c ∧ s.module? c.mh = some m ∧ verify m c.key.func = none ∧ m.calleeKeys c.key = [] ∧
      c.again = false ∧ (s.cacheRoom (s.makeEntry m c.key).pages).isSome = true ∧ (({ s with tcFree := 0 } : State).cacheRoom (s.makeEntry m c.key).pages).isNone = true ∧
      (∃ p, s.split? c.by_ = some p ∧ p.st = .claim c.n ∧ p.mask ≠ 0)) ∧
    (let s := unverified
     ∃ c m reason off, s.focused = false ∧ s.claims.find? (fun x => x.n = 3) = some c ∧ s.module? c.mh = some m ∧ verify m c.key.func = some (reason, off)) ∧
    (let s : State := { standing .ready with camps := (standing .ready).camps.map fun c => { c with budget := c.budget + 32 } }
     ∃ f, s.focusOn ⟨⟨⟨1, 0⟩, 0⟩, 0⟩ = some f ∧ f.switching = true ∧ f.sp.lq.all (fun e => e.2.landed) = true ∧ f.sp.nat = none ∧ (∀ p ∈ f.tr.splits, p.nat = none)) ∧
    (let c := ([5] : List Byte) ++ List.replicate 63 0
     let s := overlaying c (adler 1 c)
     let x := (s.coreOf ⟨0, 0, 0⟩).b0
     x.st = .loading ∧ x.ovl = [(0, 64, 0, BitVec.ofNat 32 (adler 1 c), ⟨1, 0⟩)] ∧ (s.ovlOk 0 x (0, 64, 0, BitVec.ofNat 32 (adler 1 c), ⟨1, 0⟩)).isSome = true ∧
      s.ovlOk 0 x (0, 64, 0, 0, ⟨1, 0⟩) = none) := by
  refine ⟨⟨⟨_, rfl, rfl, rfl, rfl, by decide, rfl, rfl⟩, ⟨_, _, rfl, rfl, rfl, rfl⟩, ⟨_, _, _, rfl, rfl, rfl, by decide, rfl, by decide, rfl, rfl, rfl, rfl, rfl⟩⟩,
    ⟨_, _, rfl, rfl, rfl, by decide, by decide, rfl, by decide, by decide, _, rfl, rfl, by decide⟩, ⟨_, _, _, _, rfl, rfl, rfl, rfl⟩,
    ⟨_, rfl, by decide, by decide, rfl, by decide⟩, by decide⟩


/-- The tenant's launch with one camp placed so, the leaf read as its blocks give it. -/
def placing (p : Place) (cohort : Bool) : State :=
  { tenant with
    launches := tenant.launches.map fun l => { l with cohort := cohort }
    camps := tenant.camps.map fun c => { c with place := p, troops := if p = .queued then [] else c.troops } }

/-- The conditions under which a camp is placed, on the camp of `placing`. -/
def placingMet (p : Place) (cohort : Bool) : Bool :=
  let s := placing p cohort
  let u := s.reread 7
  let l := u.launch 7
  let x := u.camps.head?.getD Camp.reset
  let cs := u.placedWith x
  !s.focused && (s.camps.map Camp.ref).Nodup && (u.path l.leaf).isSome && l.cohort = cohort && u.camps.find? (fun y => y.ref = ⟨7, 0⟩) = some x && x.place = p &&
    u.waiting x && !u.outOfTurn x && u.linksAll cs = .ok && cs.all (fun y => u.waiting y) && cs.head?.map Camp.ref = some ⟨7, 0⟩ && cs.all (fun y => !y.wants && !y.bad)

theorem wit_PlacementAndPacks_queued : placingMet .queued false = true := by decide +kernel
theorem wit_PlacementAndPacks_queued_cohort : placingMet .queued true = true := by decide +kernel
theorem wit_PlacementAndPacks_image : placingMet (.image ⟨0, 0, 1⟩) false = true := by decide +kernel
theorem wit_PlacementAndPacks_packed : placingMet .packed false = true := by decide +kernel
theorem wit_PlacementAndPacks_packed_cohort : placingMet .packed true = true := by decide +kernel

/-- The core that the scheduler chooses for the queued camp. -/
theorem wit_PlacementAndPacks_choice : (((placing .queued false).reread 7).choice ((placing .queued false).camps.head?.getD Camp.reset)).any (fun q => q.1.die < 8) = true := by
  decide +kernel

/-- The plan for the camps of the COHORT launch. -/
theorem wit_PlacementAndPacks_plan :
    (let u := (placing .queued true).reread 7
     (u.planAll (u.cohortLeft 7)).toOption.any fun plan => (plan.head?.any fun q => q.2.1.die < 8) && plan.map Prod.fst = u.cohortLeft 7) = true := by
  decide +kernel

theorem wit_PlacementAndPacks :
    (let s : State := { placing (.packing ⟨0, 0, 0⟩) false with camps := [{ wordCamp with ref := ⟨7, 0⟩, place := .packing ⟨0, 0, 0⟩, troops := [{ wordTroop with splits := [wordSplit 0 none] }] }] }
     ∃ x, s.camps.find? (fun y => y.ref = ⟨7, 0⟩) = some x ∧ x.place = .packing ⟨0, 0, 0⟩ ∧ s.packable x = true) ∧
    (let s (t : W64) : State := { placing .queued false with stamp := t }
     ∃ c, (s 100000000).camp? ⟨7, 0⟩ = some c ∧ c.place = .queued ∧ ((s 0).launch 7).done = false ∧ ((s 0).launch 7).placewait = false ∧
      ((s 0).launch 7).admitted + 100000000 ≤ (s 100000000).stamp.toNat ∧ (s 99999999).stamp.toNat < ((s 0).launch 7).admitted + 100000000 ∧ ((s 0).launch? 7).isSome = true) ∧
    ∀ cohort : Bool, let s := placing (.on ⟨0, 0, 0⟩) cohort
      ∃ k, s.camps.find? (fun x => x.ref = ⟨7, 0⟩) = some k ∧ (s.launch 7).cohort = cohort ∧ k.place = .on ⟨0, 0, 0⟩ := by
  refine ⟨⟨_, rfl, rfl, by decide⟩, ⟨_, rfl, rfl, by decide⟩, fun c => by cases c <;> exact ⟨_, rfl, rfl, rfl⟩⟩

/-- Queue 0 of the tenant, its first record at 0x20000. -/
def queue0 (mapped : Bool) (waiting : Option (BitVec 512)) : Queue :=
  { Queue.reset 0 with bind := BitVec.ofNat 64 rootA, rbase := 0x20000, qlog2 := 4, v := true, mapped := mapped, write := 1, waiting := waiting }

/-- The tenant with that queue and a record in its slot. -/
def queued (op : Nat) : State :=
  { tenancy with
    queues := [queue0 true none]
    mem := cellsAt 0x300000000 [] ++ tenancy.mem ++ cellsAt 0x1200010000 (leBytes 64 (op + leafA * 2 ^ 128)) }

/-- The tenant's launch, its camp ended, with an ordered reduction left on a word of the given address. -/
def ending (orbs : List Orb) (killed : Bool) : State :=
  { tenant with
    routes := [(5, 0)]
    launches := tenant.launches.map fun l => { l with killed := killed }
    camps := tenant.camps.map fun c => { c with place := .ended, troops := [], orb := orbs } }

/-- The record in turn of queue 0 of a state is read and checked: its faults, and whether it is a launch with its arguments in reach. -/
def turn0 (s : State) : Option (List Nat × Bool) :=
  match s.path (s.queueOf 0).bind.toNat with
  | none => none
  | some bp => match s.queueRead 0 bp.getLast?.toList (s.queueOf 0).slotAddr 64 with
    | (t, .ok bs) =>
      let r := LRec.ofNat (leNat bs)
      some (t.recordFaults (s.queueOf 0) r, r.wait = 0 && r.op = 1 && (t.path r.leaf).any fun p => match t.argBlock 0 p (p.headD ⟨0, 0⟩) with
        | (_, .ok _) => true
        | _ => false)
    | _ => none

theorem wit_QueueRecords_launch : (let s := queued 1
    s.focused = false ∧ (s.queueOf 0).ready = true ∧ (s.queueOf 0).waiting = none ∧ turn0 s = some ([], true)) := by decide +kernel

theorem wit_QueueRecords_fault : turn0 (queued 0) = some ([1], false) := by decide +kernel

/-- The launch of `ending`. -/
def lastLaunch (s : State) : Launch := s.launches.head?.getD Launch.none

theorem wit_QueueRecords :
    (let s (b : Bool) : State := { tenancy with queues := [queue0 b none] }
     (∀ b, ((s b).queueOf 0).v = true ∧ (s b).entitled 1 ((s b).queueOf 0).bind.toNat = true ∧ ((s b).queueOf 0).mapped = b) ∧
      ((16 : W32) - ((s true).queueOf 0).doneN).toNat ≤ 2 ^ ((s true).queueOf 0).qlog2) ∧
    (let s : State := { tenancy with queues := [queue0 true (some 5)] }
     (s.queueOf 0).waiting = some 5) ∧
    (let s := ending [] false
     let l := lastLaunch s
     s.launch? 7 = some l ∧ l.lid = 7 ∧ s.completable l = true ∧ l.killed = false ∧ (s.applyOrbs l).2 = false ∧ (∀ p ∈ l.posts, p.1 = 0) ∧ l.queue ≥ 4096 ∧ tenant.completable l = false) ∧
    (let s := ending [⟨0x2000000, .f32, 0x3F800000, .ne, 0, 0, 0, 0, 0, []⟩] false
     s.launch? 7 = some (lastLaunch s) ∧ s.completable (lastLaunch s) = true ∧ (lastLaunch s).killed = false ∧ (s.applyOrbs (lastLaunch s)).2 = true) ∧
    (let s := ending [] true
     s.launch? 7 = some (lastLaunch s) ∧ (lastLaunch s).killed = true ∧ s.completable (lastLaunch s) = true) := by
  refine ⟨by decide +kernel, rfl, by decide +kernel, by decide +kernel, by decide +kernel⟩


/-- A copy of 64 bytes of scratchpad to the tenant's direct range, whose granule has landed or not; a split may wait for its status. -/
def copying (landed : List Nat) (st : Option Nat) : CopyCmd :=
  ⟨1, .copy, 0, 0, 0, st, none, .camp, 0x10000, 0xFD00000000000000, 64, [], [], none, none, none, none, 1, landed, none, [], [], 0, 0, 4, none, [], 0, none, none⟩

/-- The tenant's camp with that command, its split in a state. -/
def withCopy (x : CopyCmd) (st : SState) : State :=
  { tenant with
    launches := tenant.launches.map fun l => { l with scratch := 65536 }
    camps := tenant.camps.map fun c => { c with cmds := [x], troops := [{ wordTroop with splits := [{ wordSplit 4 none with st := st }] }] } }

/-- The tenant's camp with a residency whose tiles `todo` are to be filled. -/
def filling (todo : List Nat) (poison : List Nat) : State :=
  { tenant with
    poison := poison
    camps := tenant.camps.map fun c => { c with res := [⟨255, 7, 0, 0, 0, 1, 1, .pl8, .camp, false, none, some [(0x1200000000, 0x1200000800)], [], plRecord, todo, none⟩] } }

/-- The one camp of a state. -/
def oneCamp (s : State) : Camp := s.camps.head?.getD Camp.reset

theorem wit_BackgroundLandings_granule :
    let s := withCopy (copying [] none) .ready
    let x := copying [] none
    ∃ k gr s1 s2 ss ds, s.focused = false ∧ s.cmd? k.ref 1 = some (k, x) ∧ k.resident = true ∧ s.granFree k x 0 = true ∧
      s.firstBad k x (((List.range 1).zip x.grans).filter fun q => s.granFree k x q.1) = (s1, none) ∧ x.grans[0]? = some gr ∧
      s1.granSpots k x gr = (s2, .ok (ss, ds)) ∧ x.loc = none ∧ x.bw = none ∧ missingRun x.fetched ss = none ∧ (∀ d ∈ ds, ∃ a, d.2 = .phys [a]) ∧
      ds.length = gr.n ∧ (ds.map Prod.snd).Nodup ∧ s2.cmd? k.ref 1 = some (k, x) ∧ ∀ e, x.kind ≠ .tcopy e := by
  refine ⟨oneCamp (withCopy (copying [] none) .ready), _, _, _, _, _, rfl, rfl, rfl, by decide +kernel, rfl, rfl, rfl, rfl, rfl, by decide +kernel, ?_, by decide +kernel, by decide +kernel, rfl, fun e h => by cases h⟩
  intro d hd
  have h : (match d.2 with | .phys [_] => true | _ => false) = true := by revert d; decide +kernel
  split at h
  · next h' => exact ⟨_, h'⟩
  · cases h

theorem wit_BackgroundLandings :
    (let s := withCopy (copying [0] none) .ready
     ∃ k x, s.cmd? ⟨7, 0⟩ 1 = some (k, x) ∧ s.cmdDone k x = true ∧ ∀ t ∈ k.troops, ∀ p ∈ t.splits, p.awaits x = false) ∧
    (let s := withCopy (copying [0] (some 0)) (.command 1)
     ∃ k x u p f, s.cmd? ⟨7, 0⟩ 1 = some (k, x) ∧ s.cmdDone k x = true ∧ k.troops.find? (fun t => t.mem = x.mem) = some u ∧ u.splits.find? (fun p => p.awaits x) = some p ∧
      s.focusOn ⟨⟨k.ref, x.mem⟩, p.sid⟩ = some f ∧ f.sp.mask ≠ 0 ∧ f.active 0 ∧ (f.tr.lane 0).frames ≠ []) ∧
    (∀ todo ∈ [[0, 1], [1]], let s := filling todo []
     ∃ k r, s.camps.find? (fun y => y.ref = k.ref) = some k ∧ k.res? r.num = some r ∧ k.resident = true ∧ (r.todo.head? = some 0 ↔ todo = [0, 1])) ∧
    (let p (l : List Nat) : Bool := let s := filling [0] l
        s.poisoned (((oneCamp s).res.head?.getD (oneTile false)).tileBytes 0)
     p [] = false ∧ p [0x1200000000 / 64] = true) ∧
    ∀ ref, let s := withCopy (copying [0] none) (.barrier 0xFD00000000000000 ref)
      ∃ f ph, s.focusOn ⟨⟨⟨7, 0⟩, 0⟩, 0⟩ = some f ∧ f.cp.resident = true ∧ f.sp.st = .barrier 0xFD00000000000000 ref ∧ f.phaseAt (0xFD00000000000000 : W64).toNat = some ph ∧
        f.sp.nat = none ∧ (ph = ref ↔ ref = false) := by
  refine ⟨⟨_, _, rfl, by decide +kernel, by decide +kernel⟩, ⟨_, _, _, _, _, rfl, by decide +kernel, rfl, rfl, rfl, by decide +kernel, ⟨by decide, by decide⟩, by decide⟩, ?_, by decide +kernel, ?_⟩
  · intro todo h
    simp only [List.mem_cons, List.not_mem_nil, or_false] at h
    rcases h with rfl | rfl <;> exact ⟨oneCamp (filling _ []), (oneCamp (filling _ [])).res.head?.getD (oneTile false), rfl, rfl, rfl, by decide⟩
  · intro ref
    cases ref <;> exact ⟨_, _, rfl, rfl, rfl, rfl, rfl, by decide⟩

/-- A store byte at address 5 that a step commits: memory in canonical form before, and a next state. -/
theorem wit_StepKeepsInv : ∃ s t : State, Machine.Inv s ∧ Steps s t :=
  ⟨State.reset.withFetchWord 32 0x09000000, _, by unfold Machine.Inv; decide +kernel, rfl⟩

theorem wit_DecodeEncodePortable : ∃ (i : Instr) (p : Parts), i.parts = some p ∧ i.wf = true := ⟨.add .i32 5 6, _, rfl, by decide⟩

theorem wit_DecodeEncodeNative :
    (∃ (i : Instr) (slot : Option Slot) (w : Nat), i.syllable = some (slot, w) ∧ i.wf = true) ∧ ∃ (i : Instr) (w : Nat), i.syllable = some (some .a0, w) ∧ i.wf = true :=
  ⟨⟨.natLdg (nop 1 1 1), _, _, rfl, by decide⟩, .natIsub (nop 1 1 1), _, rfl, by decide⟩


/-- Code of a block with one instruction and `ret`, a split at that instruction, its region in bank 0 and its private pages mapped, off the focus. -/
def running (w : Nat) : State :=
  let t := State.reset.withSplit ([0, w, 0x07000000].flatMap (leBytes 4)) (wordSplit 4 none)
  (({ t with tr := { t.tr with hwm := 65536 } } : State).withRegion t.spKey []).unfocus

/-- The state in which core 0 chooses, after its split table is filled, and the split that it issues from. -/
def chosen (s : State) : State := ({ s.unfocus with turn := 1 } : State).seatCore (coreNum 0)
def issuing (s : State) : Option State := ((chosen s).choose (coreNum 0)).bind fun r => ((chosen s).noteWaits (coreNum 0)).focusOn r

theorem wit_StepRunsDecoded :
    (let i : Input := ⟨5, 0, false, .powerGood⟩
     let s : State := { State.reset with inputs := [i] }
     s.todo = [] ∧ s.bnd = none ∧ s.inputs = [i] ∧ i.after = 0 ∧ s.unfocus.inputHeld i.ev = false) ∧
    (let i : Input := ⟨5, 0, false, .hostAccess 1 .physical 0x1200000000 8 (.store (leBytes 8 0))⟩
     let s : State := { tenancy with owner := some 1, reqs := [lastOrb], inputs := [i] }
     s.inputs = [i] ∧ s.unfocus.inputHeld i.ev = true) ∧
    (let k := cs (.natBr (nop 0 0 0)) []
     let s := slotted [] [] k
     ∃ b, s.todo = [] ∧ s.bnd = some b ∧ b.rest = [k]) := by
  refine ⟨by decide, ⟨rfl, by decide⟩, _, rfl, rfl, rfl⟩

/-- The premises of the issue from core 0, of a split at an instruction that is no point, and at one that is. -/
def issueMet (s : State) (pt : Bool) (i : Instr) : Bool :=
  s.todo = [] && s.bnd = none && s.inputs = [] && s.boot = .running && s.unfocus.selfStep.isNone && s.unfocus.command.isNone && s.turn = 0 &&
  ((chosen s).coreOf (coreNum 0)).issues? && match issuing s with
    | none => false
    | some f => f.sp.nat = none && f.atPoint = pt &&
      ((f.itemAt f.sp.mh f.sp.func f.sp.off).any fun a => a.item = .instr i) &&
      let p : State := { f with sp := { f.sp with lastPt := f.sp.off } }
      p.pointStep.isNone && ((p.coreOf p.cp.core).bankOf p.spKey p.sp.mh).isSome && f.sp.off != 0 && match p.frameHere with
        | .go q () => !q.switching && q.enterNative.isNone && ((q.passPoint.itemAt q.passPoint.sp.mh q.passPoint.sp.func q.passPoint.sp.off).any fun a => a.item = .instr i)
        | _ => false

theorem wit_StepRunsDecoded_inside : issueMet (running 0x10200000) false (.const .w32 0x7000000) = true := by decide +kernel
theorem wit_StepRunsDecoded_point : issueMet (running 0xF2240000) true .stamp = true := by decide +kernel

theorem wit_StepRunsDecoded_items : ∃ (m : Module) (f : Nat) (a : At) (i : Instr), a ∈ m.items f ∧ a.item = .instr i :=
  ⟨wordModule ([0, 0x07000000].flatMap (leBytes 4)), 0, ⟨4, 1, 0, .instr .exit⟩, .exit, by decide, rfl⟩

end Sys2Proof.Tests
end

section
/-! The owner's commands on the reserved pools (01 R13, 19 R421, R424). -/

namespace Sys2Proof.Machine

/-! ### A command that is accepted -/

theorem unfocus_of_not_focused {s : State} (h : s.focused = false) : s.unfocus = s := by
  simp [State.unfocus, h]

@[simp] theorem codeIf_false (code : Nat) : codeIf false code = [] := rfl

theorem needOwner_of_owner {s : State} {c : Cmd} (h : s.owner = some c.master) : s.needOwner c = [] := if_pos h

/-- R357: a command that no code refuses takes effect, and its completion has status OK. -/
theorem answer_accepted {s : State} {c : Cmd} (hf : s.focused = false) (hr : c.rsv = false) (he : s.ember = .running)
    (emb : Bool) (eff : State → State × List Nat) : s.answer c emb [] eff = (eff s).1.complete c 0 (eff s).2 := by
  simp [State.answer, unfocus_of_not_focused hf, hr, he]

/-- A command whose codes are all off completes with its effect and no results. -/
theorem completes_of_accepted {s : State} {c : Cmd} {i : Instr} {codes : List Nat} {f : State → State}
    (hf : s.focused = false) (hr : c.rsv = false) (he : s.ember = .running)
    (hx : exec i s = .next (s.answer c false codes (quietly f))) (hc : codes = []) : Completes i c s (f s) [] := by
  unfold Completes
  rw [hx, hc, answer_accepted hf hr he]
  rfl

/-! ### The pools of a state -/

section
variable (s : State) (cap : Bool) (p : Pool)

@[simp] theorem pool_setPool : (s.setPool cap p).pool cap = p := by cases cap <;> rfl
@[simp] theorem pool_not_setPool : (s.setPool cap p).pool (!cap) = s.pool (!cap) := by cases cap <;> rfl
@[simp] theorem reserved_setPool : (s.setPool cap p).reserved = s.reserved := by cases cap <;> rfl
@[simp] theorem camps_setPool : (s.setPool cap p).camps = s.camps := by cases cap <;> rfl

end

theorem isReserved_iff {s : State} {a : Nat} : s.isReserved a = true ↔ ∃ r ∈ s.reserved, r.1 ≤ a ∧ a < r.2 := by
  simp [State.isReserved]

@[simp] theorem mem_insRange {x y : Nat × Nat} {l : List (Nat × Nat)} : y ∈ insRange x l ↔ y = x ∨ y ∈ l := by
  have hl : y ∈ l ↔ y ∈ l.takeWhile (fun z => z.1 < x.1) ∨ y ∈ l.dropWhile fun z => z.1 < x.1 := by
    rw [← List.mem_append, List.takeWhile_append_dropWhile]
  rw [hl]
  simp only [insRange, List.mem_append, List.mem_cons]
  exact or_left_comm

/-! ### A pool that grows or shrinks (R421) -/

section
variable (s : State) (cap : Bool) (size : Nat)

theorem growPool_size : ((s.growPool cap size).pool cap).size = size := by simp [State.growPool]

theorem growPool_count : ((s.growPool cap size).pool cap).count = (s.pool cap).count + (size - (s.pool cap).size) := by
  simp [State.growPool, Pool.count]

theorem growPool_other : (s.growPool cap size).pool (!cap) = s.pool (!cap) := by
  simp only [State.growPool, pool_not_setPool]
  rfl

theorem growPool_reserves {x : Nat} (lo : s.resTop cap ≤ x) (hi : x < s.resTop cap + 65536 * (size - (s.pool cap).size)) :
    (s.growPool cap size).isReserved x = true :=
  isReserved_iff.mpr ⟨(s.resTop cap, _), by simp [State.growPool], lo, hi⟩

theorem shrinkPool_size : ((s.shrinkPool cap size).pool cap).size = size := by simp [State.shrinkPool]

theorem shrinkPool_other : (s.shrinkPool cap size).pool (!cap) = s.pool (!cap) := by
  simp only [State.shrinkPool, pool_not_setPool]
  rfl

end

/-- The runs that `dropRuns` leaves hold `n` pages less, and none when there were fewer. -/
theorem sum_dropRuns (n : Nat) (l : List (Nat × Nat)) : ((dropRuns n l).1.map Prod.snd).sum = (l.map Prod.snd).sum - n := by
  induction l generalizing n with
  | nil => simp [dropRuns]
  | cons r l ih =>
    obtain ⟨b, k⟩ := r
    rw [dropRuns]
    by_cases h0 : n = 0
    · rw [if_pos h0, h0, Nat.sub_zero]
    · rw [if_neg h0]
      by_cases hk : n < k
      · rw [if_pos hk]
        simp only [List.map_cons, List.sum_cons]
        omega
      · rw [if_neg hk]
        simp only [ih, List.map_cons, List.sum_cons]
        omega

theorem shrinkPool_count (s : State) (cap : Bool) (size : Nat) :
    ((s.shrinkPool cap size).pool cap).count = (s.pool cap).count - ((s.pool cap).size - size) := by
  simp [State.shrinkPool, Pool.count, sum_dropRuns, List.sum_reverse]

/-! ### Pages that are given to a pool (R424) -/

/-- The pages of a list given to a pool in turn, as POOL ADD does. -/
def State.givePages (s : State) (cap : Bool) (ps : List Nat) : State := ps.foldl (fun u a => u.givePage cap a) s

section
variable (s : State) (cap : Bool) (a : Nat)

@[simp] theorem givePage_camps : (s.givePage cap a).camps = s.camps := by simp [State.givePage]

@[simp] theorem givePage_free : ((s.givePage cap a).pool cap).free = (s.pool cap).free ++ [(a, 1)] := by
  simp [State.givePage, Pool.put]

theorem givePage_isReserved {x : Nat} :
    (s.givePage cap a).isReserved x = true ↔ s.isReserved x = true ∨ (s.isReserved a = false ∧ a ≤ x ∧ x < a + 65536) := by
  cases h : s.isReserved a <;> simp [isReserved_iff, State.givePage, h, or_comm]

theorem givePage_reserves : (s.givePage cap a).isReserved a = true := by
  rw [givePage_isReserved]
  cases h : s.isReserved a <;> simp

end

@[simp] theorem givePages_cons (s : State) (cap : Bool) (a : Nat) (ps : List Nat) :
    s.givePages cap (a :: ps) = (s.givePage cap a).givePages cap ps := rfl

theorem givePages_camps (s : State) (cap : Bool) (ps : List Nat) : (s.givePages cap ps).camps = s.camps := by
  induction ps generalizing s with
  | nil => rfl
  | cons a ps ih => simp [ih]

theorem givePages_free (s : State) (cap : Bool) (ps : List Nat) :
    ((s.givePages cap ps).pool cap).free = (s.pool cap).free ++ ps.map fun p => (p, 1) := by
  induction ps generalizing s with
  | nil => simp [State.givePages]
  | cons a ps ih => simp [ih]

theorem givePages_count (s : State) (cap : Bool) (ps : List Nat) :
    ((s.givePages cap ps).pool cap).count = (s.pool cap).count + ps.length := by
  have ones : (ps.map fun _ => 1).sum = ps.length := by
    rw [List.map_const', List.sum_replicate_nat, Nat.mul_one]
  simp only [Pool.count, givePages_free, List.map_append, List.sum_append, List.map_map, Function.comp_def, ones]

theorem givePages_keeps_reserved {s : State} {x : Nat} (cap : Bool) (ps : List Nat) (h : s.isReserved x = true) :
    (s.givePages cap ps).isReserved x = true := by
  induction ps generalizing s with
  | nil => exact h
  | cons a ps ih => exact ih ((givePage_isReserved s cap a).mpr (.inl h))

theorem givePages_reserves (s : State) (cap : Bool) {ps : List Nat} {p : Nat} (h : p ∈ ps) :
    (s.givePages cap ps).isReserved p = true := by
  induction ps generalizing s with
  | nil => cases h
  | cons a ps ih =>
    rcases List.mem_cons.mp h with rfl | h
    · exact givePages_keeps_reserved cap ps (givePage_reserves s cap p)
    · exact ih _ h

/-! ### The checks of POOL ADD -/

theorem length_eraseDups_of_nodup {l : List Nat} (h : l.Nodup) : l.eraseDups.length = l.length := by
  induction l with
  | nil => rfl
  | cons a l ih =>
    obtain ⟨ha, hl⟩ := List.nodup_cons.mp h
    have keep : (l.filter fun b => !b == a) = l :=
      List.filter_eq_self.mpr fun b hb => by simpa using ne_of_mem_of_not_mem hb ha
    rw [List.eraseDups_cons, keep, List.length_cons, List.length_cons, ih hl]

theorem pageBad_eq_false {s : State} {cap : Bool} {a : Nat} (hal : a % 65536 = 0) (hlo : tierLo cap ≤ a) (hhi : a < tierHi cap)
    (hfree : ∀ r ∈ (s.pool cap).free, a < r.1 ∨ r.1 + 65536 * r.2 ≤ a) : s.pageBad cap a = false := by
  have hany : ((s.pool cap).free.any fun r => r.1 ≤ a && a < r.1 + 65536 * r.2) = false :=
    List.any_eq_false.mpr fun r hr => by have := hfree r hr; simp; omega
  simp [State.pageBad, hany, hal, hlo, hhi]

/-! ### Splits that wait for a pool (R424) -/

section
variable (s : State) (cap denied : Bool)

theorem poolAnswer_frame : s.poolAnswer cap denied = { s with camps := (s.poolAnswer cap denied).camps } := rfl

theorem poolAnswer_length : (s.poolAnswer cap denied).camps.length = s.camps.length := by simp [State.poolAnswer]

theorem poolAnswer_not_dry {k : Camp} (h : k ∈ (s.poolAnswer cap denied).camps) : k.dry = false := by
  obtain ⟨c, -, rfl⟩ := List.mem_map.mp h
  rfl

/-- No split waits for the pool that has been answered. -/
theorem poolAnswer_no_wait {k : Camp} {t : Troop} {p : Split} (hk : k ∈ (s.poolAnswer cap denied).camps) (ht : t ∈ k.troops)
    (hp : p ∈ t.splits) : p.st ≠ .pool (!cap) := by
  obtain ⟨k, -, rfl⟩ := List.mem_map.mp hk
  obtain ⟨t, -, rfl⟩ := List.mem_map.mp ht
  obtain ⟨p, -, rfl⟩ := List.mem_map.mp hp
  intro hw
  split at hw
  next fast hfast =>
    by_cases hne : (fast != cap) = true
    · rw [if_pos hne] at hw
      cases hw
    rw [if_neg hne] at hw
    obtain rfl : fast = !cap := SState.pool.inj (hfast.symm.trans hw)
    simp at hne
  next hst => exact hst _ hw

end

/-! ### The commands -/

section
variable {s : State} {c : Cmd} {cap : Bool} (hf : s.focused = false) (hr : c.rsv = false) (he : s.ember = .running)
  (ho : s.owner = some c.master) (ha : c.a0.toNat < 2) (hcap : cap = decide (c.a0.toNat = 1))
include hf hr he ho ha hcap

/-- SET POOL SIZE with a valid size that has room in its tier. -/
theorem setPoolSize_completes {n : Nat} (hn : n = c.a1.toNat / 65536) (hsz : c.a1.toNat ≤ 2 ^ 36) (hal : c.a1.toNat % 65536 = 0)
    (hroom : (s.pool cap).size < n → s.resTop cap + 65536 * (n - (s.pool cap).size) ≤ tierHi cap) :
    Completes (.setPoolSize c) c s (if (s.pool cap).size < n then s.growPool cap n else s.shrinkPool cap n).poolChecks [] := by
  subst hcap hn
  have hx : exec (.setPoolSize c) s = execSetPoolSize c s := rfl
  refine (completes_of_accepted hf hr he hx ?_ :)
  simpa [needOwner_of_owner ho, codeIf, hal, ha] using And.intro hsz hroom

/-- POOL ADD of pages that may be given. -/
theorem poolAdd_completes {ps : List Nat} (hn : c.a2.toNat ≤ 1572864) (hh : c.a1.toNat + 8 * c.a2.toNat ≤ 2 ^ 47)
    (hps : s.pageList c.a1 c.a2.toNat = ps) (hnd : ps.Nodup) (hok : ∀ p ∈ ps, s.pageBad cap p = false) :
    Completes (.poolAdd c) c s ((s.givePages cap ps).poolAnswer cap false).poolChecks [] := by
  subst hcap
  have hx : exec (.poolAdd c) s = execPoolAdd c s := rfl
  have hhost : hostOk c.a1 (8 * c.a2.toNat) = true := decide_eq_true hh
  simp only [execPoolAdd, hhost, hn, hps, decide_true, Bool.and_self, if_true] at hx
  refine (completes_of_accepted hf hr he hx ?_ :)
  simpa [needOwner_of_owner ho, codeIf, ha, hn, length_eraseDups_of_nodup hnd] using hok

/-- POOL DENY. -/
theorem poolDeny_completes : Completes (.poolDeny c) c s (s.poolAnswer cap true) [] := by
  subst hcap
  have hx : exec (.poolDeny c) s = execPoolDeny c s := rfl
  refine (completes_of_accepted hf hr he hx ?_ :)
  simp [needOwner_of_owner ho, codeIf, ha]

end

/-- Settles O47: the commands complete by the checks that they pass, and the pools that they leave are those of `growPool`, `shrinkPool`, `givePages` and `poolAnswer`. -/
theorem poolCommands : Obligations.PoolCommands := by
  intro s c hf hr he ho ha cap n
  have hcap : cap = decide (c.a0.toNat = 1) := rfl
  have hn : n = c.a1.toNat / 65536 := rfl
  clear_value cap n
  refine ⟨fun hsz hal => ⟨fun hgrow hroom => ?_, fun hshrink => ?_⟩, ?_, ?_⟩
  · have h := setPoolSize_completes hf hr he ho ha hcap hn hsz hal fun _ => hroom
    rw [if_pos hgrow] at h
    exact ⟨_, h, growPool_size .., growPool_count .., growPool_other .., fun x => growPool_reserves s _ _⟩
  · have h := setPoolSize_completes hf hr he ho ha hcap hn hsz hal fun hgrow => absurd hgrow (Nat.not_lt.mpr hshrink)
    rw [if_neg (Nat.not_lt.mpr hshrink)] at h
    refine ⟨_, h, shrinkPool_size .., shrinkPool_other .., ?_⟩
    rw [shrinkPool_count]
    omega
  · rintro k rfl hk hh ps hnd hps
    have hok : ∀ p ∈ ps, s.pageBad cap p = false := fun p hp => by
      obtain ⟨hal, hlo, hhi, hfree⟩ := hps p hp
      exact pageBad_eq_false hal hlo hhi hfree
    refine ⟨s.givePages cap ps, _, poolAdd_completes hf hr he ho ha hcap hk hh rfl hnd hok, rfl, ?_, givePages_camps .., fun p hp =>
      ⟨givePages_reserves s _ hp, ?_⟩⟩
    · simp [givePages_count, ps]
    · simpa [givePages_free] using .inr hp
  · exact ⟨_, poolDeny_completes hf hr he ho ha hcap, poolAnswer_frame .., poolAnswer_length .., fun k hk =>
      ⟨poolAnswer_not_dry s _ _ hk, fun u hu p hp => poolAnswer_no_wait s _ _ hk hu hp⟩⟩

end Sys2Proof.Machine
end

section
/-! Fences and hints: a fence with nothing left to wait for, and the access counters that `tier` sets (05 R112, R114, 08 R186, R187). -/

namespace Sys2Proof.Machine

/-! ### SEEN of the active lanes (R114) -/

/-- The Groundsheet's SEEN becomes `g`, and each active lane's SEEN is `f` of the lane. -/
def State.withSeen (s : State) (g : W64) (f : Lane → W64) : State :=
  { s with
    gseen := g
    tr := { s.tr with lanes := onLanes s.sp.mask (fun _ l => { l with seen := f l }) s.tr.lanes } }

theorem exists_exchange_eq_withSeen (s : State) (o : Ord) : ∃ g, s.exchange o s.sp.mask = s.withSeen g fun l => (s.seenLane o l).seen :=
  ⟨_, rfl⟩

theorem takeStamp_eq_withSeen (s : State) (x : W64) : s.takeStamp x = s.withSeen (maxW s.gseen x) fun _ => maxW x s.gseen := rfl

section
variable (s : State) (g : W64) (f : Lane → W64) {l : Nat}

theorem lane_withSeen_active (h : s.active l) : (s.withSeen g f).tr.lane l = { s.tr.lane l with seen := f (s.tr.lane l) } := by
  obtain ⟨hl, hm⟩ := h
  exact (lane_onLanes hl).trans (if_pos hm)

theorem lane_withSeen_idle (h : inMask s.sp.mask l = false) : (s.withSeen g f).tr.lane l = s.tr.lane l :=
  lane_onLanes_idle h

/-- An instruction that changes only SEEN and goes on keeps the frame of an access. -/
theorem accessFrame_withSeen {o : Ord} (hf : o ≠ .sc → ∀ l, f l = maxW l.seen s.gseen) : AccessFrame s (s.withSeen g f).advance o where
  rest := rfl
  loop := ⟨[], by simp [State.withSeen, State.advance]⟩
  bytes _ := rfl
  idle _ hl := lane_withSeen_idle s g f hl
  seen ho l hl := (congrArg Lane.seen (lane_withSeen_active s g f hl)).trans (hf ho _)

end

/-! ### What a fence waits for (R112, R186) -/

theorem fenceWait_of_fenceMet {s : State} {o : Ord} (h : s.FenceMet o) : s.fenceWait o s.sp.mask = none := by
  obtain ⟨hbound, hrel⟩ := h
  cases hr : releases o with
  | false => simp [State.fenceWait, hbound, hr]
  | true =>
    obtain ⟨hstores, hdue⟩ := hrel hr
    simp [State.fenceWait, hbound, hr, hstores, hdue]

theorem fenceWait_of_pending {s : State} {o : Ord} {m : Mask} {n : Nat} (hb : s.unbound m = none) (hr : releases o = true)
    (hp : s.pendingOf m = some n) : s.fenceWait o m = some (s.push (.storeCommit n)) := by
  simp [State.fenceWait, hb, hr, hp, State.holdFor]

/-- A fence with nothing to wait for changes SEEN alone: by its own stamp when it is `.sc`, by exchange with the Groundsheet otherwise. -/
theorem fenceAt_of_fenceMet {s : State} {o : Ord} (h : s.FenceMet o) :
    ∃ g f, s.fenceAt o = (s.withSeen g f).advance ∧ (o ≠ .sc → ∀ l, f l = maxW l.seen s.gseen) := by
  rw [State.fenceAt, fenceWait_of_fenceMet h]
  by_cases ho : o = .sc
  · subst ho
    exact ⟨_, _, congrArg State.advance (takeStamp_eq_withSeen s s.fenceStamp), fun hsc => absurd rfl hsc⟩
  · obtain ⟨g, hg⟩ := exists_exchange_eq_withSeen s o
    refine ⟨g, fun l => (s.seenLane o l).seen, ?_, fun _ l => ?_⟩
    · simp only [beq_iff_eq, ho, if_false, hg]
    · simp [State.seenLane, ho]

/-! ### The access counters (R187, 04 R99) -/

section
variable (s : State) (c : List (Nat × Nat))

theorem walkTree_counters (n p va : Nat) : ({ s with counters := c } : State).walkTree n p va = s.walkTree n p va := by
  induction n generalizing p with
  | zero => rfl
  | succ n ih =>
    simp only [State.walkTree, ih]
    rfl

theorem descs_counters (n p : Nat) : ({ s with counters := c } : State).descs n p = s.descs n p := by
  induction n generalizing p with
  | zero => rfl
  | succ n ih =>
    have hkids : State.descs { s with counters := c } n = State.descs s n := funext ih
    simp only [State.descs, hkids]
    rfl

theorem lookup_counters (tree va : Nat) : ({ s with counters := c } : State).lookup tree va = s.lookup tree va := by
  simp only [State.lookup, walkTree_counters]

/-- Which granules a span overlaps is a matter of the tree alone. -/
theorem migGranules_counters (tree lo hi : Nat) : ({ s with counters := c } : State).migGranules tree lo hi = s.migGranules tree lo hi := by
  simp only [State.migGranules, descs_counters, lookup_counters]
  rfl

end

/-- The numbers of the granules of migrate ranges that a span overlaps; none of an empty span or under a tag. -/
def State.spanGranules (s : State) (tree a len : Nat) : List Nat :=
  if len = 0 || tagOf a != 0 then [] else (s.migGranules tree (a / 65536 * 65536) (a + len)).map fun x => fld x.2.2 16 32

theorem mem_spanGranules {s : State} {tree a len g : Nat} :
    g ∈ s.spanGranules tree a len ↔
      len ≠ 0 ∧ tagOf a = 0 ∧ ∃ x ∈ s.migGranules tree (a / 65536 * 65536) (a + len), fld x.2.2 16 32 = g := by
  unfold State.spanGranules
  by_cases hnone : len = 0 ∨ tagOf a ≠ 0
  · have hspan : ¬ (len ≠ 0 ∧ tagOf a = 0) := fun h => hnone.elim h.1 (absurd h.2)
    simp [hnone, ← and_assoc, hspan]
  · obtain ⟨hlen, htag⟩ := not_or.mp hnone
    simp [hlen, Decidable.of_not_not htag]

/-- Counters after those of some granules are set. -/
def setCountersOf (gs : List Nat) (v : Nat) (c : List (Nat × Nat)) : List (Nat × Nat) := gs.foldl (fun c g => setNum g v c) c

theorem setCountersOf_cons (g : Nat) (gs : List Nat) (v : Nat) (c : List (Nat × Nat)) :
    setCountersOf (g :: gs) v c = setCountersOf gs v (setNum g v c) := rfl

theorem setCountersOf_append (gs hs : List Nat) (v : Nat) (c : List (Nat × Nat)) :
    setCountersOf (gs ++ hs) v c = setCountersOf hs v (setCountersOf gs v c) := List.foldl_append

/-- A granule whose counter is set has that value, and every other keeps its own. -/
theorem find_setCountersOf (gs : List Nat) (v g : Nat) (c : List (Nat × Nat)) :
    ((setCountersOf gs v c).find? fun p => p.1 = g) = if g ∈ gs then some (g, v) else c.find? fun p => p.1 = g := by
  induction gs generalizing c with
  | nil => rfl
  | cons x xs ih =>
    rw [setCountersOf_cons, ih, find_setNum]
    by_cases hx : g = x <;> simp [hx]

theorem setCounters_eq (s : State) (tree a len v : Nat) :
    s.setCounters tree a len v = { s with counters := setCountersOf (s.spanGranules tree a len) v s.counters } := by
  unfold State.setCounters State.spanGranules
  split
  · rfl
  · simp only [setCountersOf, List.foldl_map]

/-- Setting the counters of one span after another sets those of the granules of all. -/
theorem foldl_setCounters (s : State) (tree v : Nat) (a len : Nat → Nat) (ls : List Nat) (c : List (Nat × Nat)) :
    ls.foldl (fun t l => t.setCounters tree (a l) (len l) v) { s with counters := c } =
      { s with counters := setCountersOf (ls.flatMap fun l => s.spanGranules tree (a l) (len l)) v c } := by
  induction ls generalizing c with
  | nil => rfl
  | cons l ls ih =>
    have hspan : ({ s with counters := c } : State).spanGranules tree (a l) (len l) = s.spanGranules tree (a l) (len l) := by
      simp only [State.spanGranules, migGranules_counters]
    rw [List.foldl_cons, setCounters_eq, hspan, ih, List.flatMap_cons, setCountersOf_append]

/-- The granules whose counters `tier` sets. -/
def State.tierGranules (s : State) (a n : Val) : List Nat :=
  (lanesOf s.tr.width s.sp.mask).flatMap fun l => s.spanGranules s.lch.tree ((s.tr.lane l).nat a) ((s.tr.lane l).nat n)

theorem mem_lanesOf_active {s : State} {l : Nat} : l ∈ lanesOf s.tr.width s.sp.mask ↔ s.active l := by
  simp [lanesOf, State.active]

theorem mem_tierGranules {s : State} {a n : Val} {g : Nat} :
    g ∈ s.tierGranules a n ↔ ∃ l, s.active l ∧ (s.tr.lane l).nat n ≠ 0 ∧ tagOf ((s.tr.lane l).nat a) = 0 ∧
      ∃ x ∈ s.migGranules s.lch.tree ((s.tr.lane l).nat a / 65536 * 65536) ((s.tr.lane l).nat a + (s.tr.lane l).nat n), fld x.2.2 16 32 = g := by
  simp only [State.tierGranules, List.mem_flatMap, mem_lanesOf_active, mem_spanGranules]

theorem execTier_eq (k : Bool) (a n : Val) (s : State) :
    execTier k a n s = .next { s with
      sp := { s.sp with off := s.ctx.next }
      counters := setCountersOf (s.tierGranules a n) (if k then 0 else 255) s.counters } :=
  congrArg (fun t : State => Host.Outcome.next t.advance)
    (foldl_setCounters s s.lch.tree _ (fun l => (s.tr.lane l).nat a) (fun l => (s.tr.lane l).nat n) _ s.counters)

/-! ### The instructions -/

theorem exec_fence_of_fenceMet {s : State} {o : Ord} (sc : Scope) (h : s.FenceMet o) :
    ∃ t, exec (.fence o sc) s = .next t ∧ AccessFrame s t o ∧ t.cp = s.cp ∧ t.stores = s.stores ∧ t.sp.loop = s.sp.loop ∧
      ∀ l, s.active l → t.tr.lane l = { s.tr.lane l with seen := (t.tr.lane l).seen } := by
  obtain ⟨g, f, ht, hf⟩ := fenceAt_of_fenceMet h
  refine ⟨_, congrArg Host.Outcome.next ht, accessFrame_withSeen s g f hf, rfl, rfl, rfl, fun l hl => ?_⟩
  have hlane : (s.withSeen g f).advance.tr.lane l = _ := lane_withSeen_active s g f hl
  rw [hlane]

theorem exec_fence_of_pending {s : State} {o : Ord} {n : Nat} (sc : Scope) (hb : s.unbound s.sp.mask = none) (hr : releases o = true)
    (hp : s.pendingOf s.sp.mask = some n) : exec (.fence o sc) s = .next (s.push (.storeCommit n)) := by
  show Host.Outcome.next (s.fenceAt o) = _
  rw [State.fenceAt, fenceWait_of_pending hb hr hp]

/-- Settles O26: a fence that has nothing to wait for is `withSeen`, one with a pending store holds for it, and `tier` sets the counters of `tierGranules`. -/
theorem fencesAndHints : Obligations.FencesAndHints := by
  intro s o sc k a n
  refine ⟨exec_fence_of_fenceMet sc, fun _ => exec_fence_of_pending sc, rfl, _, execTier_eq k a n s, rfl, fun g => ?_⟩
  intro hit
  have hmem : g ∈ s.tierGranules a n ↔ hit := mem_tierGranules
  have hfind := find_setCountersOf (s.tierGranules a n) (if k then 0 else 255) g s.counters
  exact ⟨fun hg => hfind.trans (if_pos (hmem.mpr hg)), fun hg => hfind.trans (if_neg (mt hmem.mp hg))⟩

end Sys2Proof.Machine
end
